-- ==== Sys2Proof/Word.lean ====
section
/-! DEFINITION. The word types of the block (rule R14): a byte is 8 bits, a packet field is 16 bits.
All values are unsigned; there is no signed quantity anywhere in the block. -/

namespace Sys2Proof

/-- One byte (R14): a UART character, a flash cell, an element of a packet buffer. -/
abbrev Byte := BitVec 8

/-- A 16-bit packet field or address register (R24, R26, R75). -/
abbrev Word := BitVec 16

/-- One 24-bit unit of the ICP wire: a command frame or a fixed pattern (R125, R128). -/
abbrev Icp24 := BitVec 24

end Sys2Proof
end

