-- ==== Sys2Proof/Config.lean ====
section
/-! DEFINITION. What is fixed for a run: the implementation parameters of 00_scope.md R6 to R12 and
the free values. A parameter the source leaves OPEN is a field of `Params`; the machine's state
carries one `Params`, so every statement that quantifies over states quantifies over the parameters
(log entry 1). Only a reset of machine D, which begins a run, writes any: the two sizes (R363; log
entry 28). The values of the block `testValues` are the spec's test values and claim nothing of any
chip (DESIGN CHOICE, log entry 1). -/

namespace Sys2Proof

/-- `SEQ_POLICY` (R10, R271): `off` is the default "always true"; `mustMatch` is the instance
`h = s`; `custom` is any other policy, `Config.customSeqPolicy`. -/
inductive SeqPolicy where
  | off
  | mustMatch
  | custom
  deriving DecidableEq, Repr

/-- The OPEN parameters of R7 to R11, constant for a run (decision D28 for the two sizes). -/
structure Params where
  /-- `APROM_SIZE` in bytes (R7). -/
  apromSize : Nat
  /-- `LDROM_SIZE` in bytes (R7). -/
  ldromSize : Nat
  /-- `IDLE_TICKS` (R8), 1 to 255, default 90. -/
  idleTicks : BitVec 8
  /-- `CONN_TIMEOUT_TICKS` (R8), 1 to 65535. -/
  connTimeoutTicks : BitVec 16
  /-- `FW_VERSION` (R9). -/
  fwVersion : Byte
  /-- `FLASH_MODE` (R9). -/
  flashMode : Byte
  /-- `WDT_BUILD` (R9), default false. -/
  wdtBuild : Bool
  /-- `SEQ_POLICY` (R10), default off. -/
  seqPolicy : SeqPolicy
  /-- `CONNECT_RESETS_SEQ` (R10), default false. -/
  connectResetsSeq : Bool
  /-- `RESET_SEQ` (R11, R128), 24 bits. -/
  resetSeq : Icp24
  /-- `EXPECTED_DID` (R11). -/
  expectedDid : BitVec 16
  /-- `UCID_PARAM_BASE` (R11), 18 bits, default 0x20. -/
  ucidParamBase : BitVec 18
  /-- `RST_ASSERT_LEVEL` (R11), default 0. -/
  rstAssertLevel : Bool
  deriving DecidableEq, Repr

/-- The identity arrays of R9 and R34, read-only; their lengths are `DID_LEN` and so on. -/
structure Identity where
  did : List Byte
  cid : List Byte
  uid : List Byte
  ucid : List Byte
  deriving DecidableEq, Repr

/-- The constraints R7 and R8 put on the parameters. -/
abbrev Params.Wf (p : Params) : Prop :=
  p.apromSize % 128 = 0 ∧ p.ldromSize % 128 = 0 ∧ p.ldromSize ≤ 4096 ∧ 128 ≤ p.apromSize ∧
    p.apromSize + p.ldromSize ≤ 65535 ∧ p.idleTicks ≠ 0 ∧ p.connTimeoutTicks ≠ 0

/-- The lengths R9 and the table of open parameters allow: each array fits one payload. -/
abbrev Identity.Wf (d : Identity) : Prop :=
  (1 ≤ d.did.length ∧ d.did.length ≤ 56) ∧ (1 ≤ d.cid.length ∧ d.cid.length ≤ 56) ∧
    (1 ≤ d.uid.length ∧ d.uid.length ≤ 56) ∧ (1 ≤ d.ucid.length ∧ d.ucid.length ≤ 56)

/-- The defaults and test values of R7 to R11. DESIGN CHOICE (log entry 1). -/
def Params.testValues : Params where
  apromSize := 0x3800
  ldromSize := 0x1000
  idleTicks := 90
  connTimeoutTicks := 1000
  fwVersion := 0x27
  flashMode := 0x02
  wdtBuild := false
  seqPolicy := .off
  connectResetsSeq := false
  resetSeq := 0x9E1CB6
  expectedDid := 0x3650
  ucidParamBase := 0x20
  rstAssertLevel := false

/-- The identity contents of 95_test_vectors.md with the default lengths of R9.
DESIGN CHOICE (log entry 1). -/
def Identity.testValues : Identity where
  did := [0x50, 0x36]
  cid := [0xDA]
  uid := [0x10, 0x11, 0x12, 0x13, 0x14, 0x15, 0x16, 0x17, 0x18, 0x19, 0x1A, 0x1B]
  ucid := [0x20, 0x21, 0x22, 0x23, 0x24, 0x25, 0x26, 0x27,
    0x28, 0x29, 0x2A, 0x2B, 0x2C, 0x2D, 0x2E, 0x2F]

/-- A sequence policy other than the two the spec spells out (R10: the parameter is any function of
the tracked counter and the inbound field). No body: nothing can be proved of its value
(log entry 2). -/
opaque Config.customSeqPolicy : Word → Word → Bool

/-- The byte the samples of one byte read form where the spec leaves them to an oracle (R150, R164,
R383, U3, U11, U14), drawn afresh for each counter value. No body (log entry 3). -/
opaque Config.freeByte : Nat → Byte

/-- The value of an element past the end of a caller's array that is shorter than the length called
with (R196, R199 and R205 give none), by its index: every call finds the same. No body (log entry 4). -/
opaque Config.freeArg : Nat → Byte

end Sys2Proof
end

