-- ==== Sys2Proof/Syntax.lean ====
section
/-! DEFINITION. The instructions, WHOLE: one constructor per row of spec/opcode_table.json. The
"instruction set" (R3, decision D2) is the 18 UART opcodes and the default row for machine D, and for
machine H the seven ICP command frames, the three fixed patterns, the two nine-clock byte transfers
and the called host operations. Every byte of a packet is in its constructor, examined or not,
because every byte enters the checksum (R111, R114, U1). -/

namespace Sys2Proof

/-- Bytes 1 to 7 of an inbound packet (R111): the upper bytes of the command code, the host's
sequence number and the padding, each little-endian. -/
structure PktHdr where
  cmdHi : BitVec 24
  seq : Word
  pad : Word
  deriving DecidableEq, Repr

/-- `ConfigFlags` (R361): the nine named fields of the config sector and the reserved bits, kept as
five masked bytes. Bit positions: R360 (decision D50). -/
structure ConfigFlags where
  cbs : Bool
  ocdpwm : Bool
  ocden : Bool
  rpd : Bool
  lock : Bool
  ldsize : BitVec 3
  cboden : Bool
  cbov : BitVec 2
  cborst : Bool
  wdten : BitVec 4
  rsv0 : Byte
  rsv1 : Byte
  rsv2 : Byte
  rsv3 : Byte
  rsv4 : Byte
  deriving DecidableEq, Repr

/-- The five config bytes `CONFIG[0]` to `CONFIG[4]` (R360). -/
structure ConfigBytes where
  b0 : Byte
  b1 : Byte
  b2 : Byte
  b3 : Byte
  b4 : Byte
  deriving DecidableEq, Repr

/-- One constructor per row of spec/opcode_table.json. -/
inductive Instr where
  -- machine D: UART packets (R116), opcode in byte 0, `h` bytes 1 to 7, the rest bytes 8 to 63
  | continuation (h : PktHdr) (data : List Byte)
  | updateAprom (h : PktHdr) (start gap1 len gap2 : Word) (data : List Byte)
  | updateConfig (h : PktHdr) (cfg : ConfigBytes) (rest : List Byte)
  | readConfig (h : PktHdr) (rest : List Byte)
  | eraseAll (h : PktHdr) (rest : List Byte)
  | syncSeq (h : PktHdr) (rest : List Byte)
  | readRom (h : PktHdr) (start gap1 len : Word) (rest : List Byte)
  | getFwVersion (h : PktHdr) (rest : List Byte)
  | runAprom (h : PktHdr) (rest : List Byte)
  | runLdrom (h : PktHdr) (rest : List Byte)
  | resetCmd (h : PktHdr) (rest : List Byte)
  | connect (h : PktHdr) (rest : List Byte)
  | getDeviceId (h : PktHdr) (rest : List Byte)
  | getUid (h : PktHdr) (rest : List Byte)
  | getCid (h : PktHdr) (rest : List Byte)
  | getUcid (h : PktHdr) (rest : List Byte)
  | getFlashMode (h : PktHdr) (rest : List Byte)
  | pageErase (h : PktHdr) (addr : Word) (rest : List Byte)
  | unrecognized (op : Byte) (h : PktHdr) (rest : List Byte)
  -- machine H: ICP command frames (R125, R126), 18-bit parameter
  | icpReadFlash (param : BitVec 18)
  | icpReadUid (param : BitVec 18)
  | icpReadCid (param : BitVec 18)
  | icpReadDeviceId (param : BitVec 18)
  | icpWriteFlash (param : BitVec 18)
  | icpPageErase (param : BitVec 18)
  | icpMassErase (param : BitVec 18)
  -- machine H: fixed patterns (R128)
  | icpEntryPattern
  | icpExitPattern
  | icpResetSeq
  -- machine H: nine-clock byte transfers (R129, R130); a read's data bits are the target's,
  -- a write's two delays are operands (R154)
  | icpByteRead (endFlag : Bool)
  | icpByteWrite (data : Byte) (endFlag : Bool) (delay1 delay2 : Nat)
  -- machine H: called operations (R156 to R163, R190 to R205), no encoding of their own
  | hostInit (doReset : Bool)
  | hostExit
  | hostDeinit (leaveResetAsserted : Bool)
  | hostReentry (delay1 delay2 delay3 : Nat)
  | hostReentryGlitch (delay1 delay2 delayAfterTriggerHigh delayBeforeTriggerLow : Nat)
  | hostReadDeviceId
  | hostCheckDeviceId
  | hostReadCid
  | hostReadUid
  | hostReadUcid
  | hostReadFlash (addr : BitVec 32) (len : Nat)
  | hostWriteFlash (addr : BitVec 32) (len : Nat) (data : List Byte)
  | hostMassErase
  | hostPageErase (addr : BitVec 32)
  | hostVerifyFlash (addr : BitVec 32) (len : Nat) (expected : List Byte)
  | hostReadConfig
  | hostWriteConfig (cfg : ConfigBytes) (lock : Bool)
  | hostProgramRegion (addr : BitVec 32) (len : Nat) (data : List Byte)
  | configDecode (bytes : ConfigBytes)
  | configEncode (flags : ConfigFlags)
  deriving DecidableEq, Repr

end Sys2Proof
end

