-- ==== Sys2Proof/WellFormed.lean ====
section
/-! DEFINITION. Which terms of `Instr` are instructions: a packet has 64 bytes (R6, R110), the default
row holds none of the 18 opcodes (R123). A host call takes any operands (R3, R440): its length and its
array are passed apart, and the rules R196, R199 and R205 say what each length does. -/

namespace Sys2Proof

/-- The 18 recognised opcodes of R116, in increasing order. -/
def recognisedOpcodes : List Byte :=
  [0x00, 0xA0, 0xA1, 0xA2, 0xA3, 0xA4, 0xA5, 0xA6, 0xAB, 0xAC, 0xAD, 0xAE,
   0xB1, 0xB2, 0xB3, 0xB4, 0xCA, 0xD5]

/-- The check: the lengths the encoding admits, and for the default row an opcode outside the
table. The frames, the patterns, the byte transfers and the called operations admit every operand. -/
def Instr.wellFormed : Instr → Bool
  | .continuation _ data => data.length == 56
  | .updateAprom _ _ _ _ _ data => data.length == 48
  | .updateConfig _ _ rest => rest.length == 51
  | .readConfig _ rest => rest.length == 56
  | .eraseAll _ rest => rest.length == 56
  | .syncSeq _ rest => rest.length == 56
  | .readRom _ _ _ _ rest => rest.length == 50
  | .getFwVersion _ rest => rest.length == 56
  | .runAprom _ rest => rest.length == 56
  | .runLdrom _ rest => rest.length == 56
  | .resetCmd _ rest => rest.length == 56
  | .connect _ rest => rest.length == 56
  | .getDeviceId _ rest => rest.length == 56
  | .getUid _ rest => rest.length == 56
  | .getCid _ rest => rest.length == 56
  | .getUcid _ rest => rest.length == 56
  | .getFlashMode _ rest => rest.length == 56
  | .pageErase _ _ rest => rest.length == 54
  | .unrecognized op _ rest => !recognisedOpcodes.contains op && rest.length == 56
  | .icpReadFlash _ => true
  | .icpReadUid _ => true
  | .icpReadCid _ => true
  | .icpReadDeviceId _ => true
  | .icpWriteFlash _ => true
  | .icpPageErase _ => true
  | .icpMassErase _ => true
  | .icpEntryPattern => true
  | .icpExitPattern => true
  | .icpResetSeq => true
  | .icpByteRead _ => true
  | .icpByteWrite _ _ _ _ => true
  | .hostInit _ => true
  | .hostExit => true
  | .hostDeinit _ => true
  | .hostReentry _ _ _ => true
  | .hostReentryGlitch _ _ _ _ => true
  | .hostReadDeviceId => true
  | .hostCheckDeviceId => true
  | .hostReadCid => true
  | .hostReadUid => true
  | .hostReadUcid => true
  | .hostReadFlash _ _ => true
  | .hostWriteFlash _ _ _ => true
  | .hostMassErase => true
  | .hostPageErase _ => true
  | .hostVerifyFlash _ _ _ => true
  | .hostReadConfig => true
  | .hostWriteConfig _ _ => true
  | .hostProgramRegion _ _ _ => true
  | .configDecode _ => true
  | .configEncode _ => true

/-- `i` is an instruction. -/
abbrev Instr.WellFormed (i : Instr) : Prop := i.wellFormed = true

/-- The rows of format HOSTOP: operations called with their operands, with no encoding (R3). -/
def Instr.isHostOp : Instr → Bool
  | .continuation _ _ | .updateAprom _ _ _ _ _ _ | .updateConfig _ _ _ | .readConfig _ _
  | .eraseAll _ _ | .syncSeq _ _ | .readRom _ _ _ _ _ | .getFwVersion _ _ | .runAprom _ _
  | .runLdrom _ _ | .resetCmd _ _ | .connect _ _ | .getDeviceId _ _ | .getUid _ _ | .getCid _ _
  | .getUcid _ _ | .getFlashMode _ _ | .pageErase _ _ _ | .unrecognized _ _ _ => false
  | .icpReadFlash _ | .icpReadUid _ | .icpReadCid _ | .icpReadDeviceId _ | .icpWriteFlash _
  | .icpPageErase _ | .icpMassErase _ | .icpEntryPattern | .icpExitPattern | .icpResetSeq
  | .icpByteRead _ | .icpByteWrite _ _ _ _ => false
  | .hostInit _ | .hostExit | .hostDeinit _ | .hostReentry _ _ _ | .hostReentryGlitch _ _ _ _
  | .hostReadDeviceId | .hostCheckDeviceId | .hostReadCid | .hostReadUid | .hostReadUcid
  | .hostReadFlash _ _ | .hostWriteFlash _ _ _ | .hostMassErase | .hostPageErase _
  | .hostVerifyFlash _ _ _ | .hostReadConfig | .hostWriteConfig _ _ | .hostProgramRegion _ _ _
  | .configDecode _ | .configEncode _ => true

end Sys2Proof
end

