-- ==== Sys2Proof/Decode.lean ====
section
/-! DEFINITION. The decoder, total on anything that can arrive, and after it the encoder, both written
from the encoding tables of 30_encoding.md. An instruction reaches the block over one of the carriers
of `Code`: 64 UART characters (R110), 24 bits clocked on DATA (R125, R128), 24 levels on RESET
(R128), a nine-clock byte transfer (R129, R130), or the call port (R440). -/

namespace Sys2Proof

/-- What arrives: the carrier and the bits on it. -/
inductive Code where
  /-- the bytes of one UART packet, in the order received -/
  | packet (bytes : List Byte)
  /-- 24 bits clocked on DATA, bit 23 first -/
  | data24 (w : Icp24)
  /-- 24 levels driven on RESET, bit 23 first, with no clock -/
  | reset24 (w : Icp24)
  /-- a byte read: bits 8 to 1 the target's, bit 0 the end flag -/
  | read9 (w : BitVec 9)
  /-- a byte write: bits 8 to 1 the data, bit 0 the end flag, which is held for `d1` before and
  `d2` after the ninth rising edge (R130, R154) -/
  | write9 (w : BitVec 9) (d1 d2 : Nat)
  /-- an operation called on the call port with its operands (R440, R441) -/
  | call (i : Instr)
  deriving DecidableEq, Repr

/-- Why the decoder turns something away. -/
inductive DecodeError where
  /-- a UART packet is exactly 64 bytes (R6) -/
  | notAPacket
  /-- the 6-bit code is not one of the seven, and the 24 bits are neither fixed pattern
  (R131, U9) -/
  | reservedIcpCode
  /-- the levels on RESET are not `RESET_SEQ` (R128) -/
  | notTheResetPattern
  /-- the call port takes the called operations only (R440) -/
  | notAnOperation
  deriving DecidableEq, Repr

/-- What the decoder answers. -/
inductive Decoded where
  | ok (i : Instr)
  | reject (e : DecodeError)
  deriving DecidableEq, Repr

/-! ### Bytes and fields -/

/-- `le16(lo, hi) = lo + 256*hi` (R14, R75). -/
def le16 (lo hi : Byte) : Word := hi ++ lo

/-- A three-byte little-endian field (bytes 1 to 3 of the command code, R111). -/
def le24 (b0 b1 b2 : Byte) : BitVec 24 := b2 ++ b1 ++ b0

/-- The low byte of a 16-bit field, `v[7:0]` (R14). -/
def lo8 (v : Word) : Byte := v.extractLsb' 0 8

/-- The high byte of a 16-bit field, `v[15:8]` (R14). -/
def hi8 (v : Word) : Byte := v.extractLsb' 8 8

/-- The bytes of a 16-bit field, low byte at the lower offset (R75). -/
def bytes16 (v : Word) : List Byte := [lo8 v, hi8 v]

/-- The bytes of a 24-bit field, low byte first. -/
def bytes24 (v : BitVec 24) : List Byte :=
  [v.extractLsb' 0 8, v.extractLsb' 8 8, v.extractLsb' 16 8]

/-! ### Literals of the encodings -/

/-- `ENTRY_BITS` (R11, R128). -/
def entryBits : Icp24 := 0x5AA503

/-- `EXIT_BITS`, the source's five digits with four leading zero bits (R11, R128, decision D39). -/
def exitBits : Icp24 := 0x0F78F0

/-- `CMD` of READ_FLASH (R126). -/
def cmdReadFlash : BitVec 6 := 0x00
/-- `CMD` of READ_UID (R126). -/
def cmdReadUid : BitVec 6 := 0x04
/-- `CMD` of READ_CID (R126). -/
def cmdReadCid : BitVec 6 := 0x0B
/-- `CMD` of READ_DEVICE_ID (R126). -/
def cmdReadDeviceId : BitVec 6 := 0x0C
/-- `CMD` of WRITE_FLASH (R126). -/
def cmdWriteFlash : BitVec 6 := 0x21
/-- `CMD` of PAGE_ERASE (R126). -/
def cmdPageErase : BitVec 6 := 0x22
/-- `CMD` of MASS_ERASE (R126). -/
def cmdMassErase : BitVec 6 := 0x26

/-- The frame on the wire (R125): `PARAM` in bits 23 to 6, `CMD` in bits 5 to 0. -/
def frameOf (cmd : BitVec 6) (param : BitVec 18) : Icp24 := param ++ cmd

/-- The frame as the source computes it from a 32-bit operand (R127): shifted and truncated in 32
bits, the code put in, the low 24 bits sent. -/
def frame (cmd : BitVec 6) (param : BitVec 32) : Icp24 :=
  ((param <<< 6) ||| cmd.setWidth 32).setWidth 24

/-! ### The decoder -/

/-- The instruction whose opcode is `op` and whose bytes 8 to 63 are `pl` (R116 to R121). The
payload's length is checked by the caller. -/
def decodeBody (op : Byte) (h : PktHdr) (pl : List Byte) : Decoded :=
  if op = 0x00 then .ok (.continuation h pl)
  else if op = 0xA0 then
    match pl with
    | a0 :: a1 :: g0 :: g1 :: l0 :: l1 :: k0 :: k1 :: data =>
      .ok (.updateAprom h (le16 a0 a1) (le16 g0 g1) (le16 l0 l1) (le16 k0 k1) data)
    | _ => .reject .notAPacket
  else if op = 0xA1 then
    match pl with
    | c0 :: c1 :: c2 :: c3 :: c4 :: rest => .ok (.updateConfig h ⟨c0, c1, c2, c3, c4⟩ rest)
    | _ => .reject .notAPacket
  else if op = 0xA2 then .ok (.readConfig h pl)
  else if op = 0xA3 then .ok (.eraseAll h pl)
  else if op = 0xA4 then .ok (.syncSeq h pl)
  else if op = 0xA5 then
    match pl with
    | a0 :: a1 :: g0 :: g1 :: l0 :: l1 :: rest =>
      .ok (.readRom h (le16 a0 a1) (le16 g0 g1) (le16 l0 l1) rest)
    | _ => .reject .notAPacket
  else if op = 0xA6 then .ok (.getFwVersion h pl)
  else if op = 0xAB then .ok (.runAprom h pl)
  else if op = 0xAC then .ok (.runLdrom h pl)
  else if op = 0xAD then .ok (.resetCmd h pl)
  else if op = 0xAE then .ok (.connect h pl)
  else if op = 0xB1 then .ok (.getDeviceId h pl)
  else if op = 0xB2 then .ok (.getUid h pl)
  else if op = 0xB3 then .ok (.getCid h pl)
  else if op = 0xB4 then .ok (.getUcid h pl)
  else if op = 0xCA then .ok (.getFlashMode h pl)
  else if op = 0xD5 then
    match pl with
    | a0 :: a1 :: rest => .ok (.pageErase h (le16 a0 a1) rest)
    | _ => .reject .notAPacket
  else .ok (.unrecognized op h pl)

/-- The instruction of one inbound packet (R111). Total: the default row takes every opcode outside
the table (R123), so only a wrong length is turned away. -/
def decodePacket : List Byte → Decoded
  | op :: c1 :: c2 :: c3 :: s0 :: s1 :: p0 :: p1 :: pl =>
    if pl.length = 56 then decodeBody op ⟨le24 c1 c2 c3, le16 s0 s1, le16 p0 p1⟩ pl
    else .reject .notAPacket
  | _ => .reject .notAPacket

/-- The instruction of 24 bits clocked on DATA: one of the two patterns (R128) or a frame with one
of the seven codes (R125, R126); the other codes are reserved (R131). -/
def decodeData24 (w : Icp24) : Decoded :=
  let cmd : BitVec 6 := w.extractLsb' 0 6
  let param : BitVec 18 := w.extractLsb' 6 18
  if w = entryBits then .ok .icpEntryPattern
  else if w = exitBits then .ok .icpExitPattern
  else if cmd = cmdReadFlash then .ok (.icpReadFlash param)
  else if cmd = cmdReadUid then .ok (.icpReadUid param)
  else if cmd = cmdReadCid then .ok (.icpReadCid param)
  else if cmd = cmdReadDeviceId then .ok (.icpReadDeviceId param)
  else if cmd = cmdWriteFlash then .ok (.icpWriteFlash param)
  else if cmd = cmdPageErase then .ok (.icpPageErase param)
  else if cmd = cmdMassErase then .ok (.icpMassErase param)
  else .reject .reservedIcpCode

/-- The decoder. `RESET_SEQ` is a parameter (R128), so the parameters are an argument. -/
def decode (p : Params) : Code → Decoded
  | .packet bytes => decodePacket bytes
  | .data24 w => decodeData24 w
  | .reset24 w => if w = p.resetSeq then .ok .icpResetSeq else .reject .notTheResetPattern
  | .read9 w => .ok (.icpByteRead (w.getLsbD 0))
  | .write9 w d1 d2 => .ok (.icpByteWrite (w.extractLsb' 1 8) (w.getLsbD 0) d1 d2)
  | .call i => if i.isHostOp then .ok i else .reject .notAnOperation

/-! ### The encoder -/

/-- Bytes 0 to 7 of an inbound packet (R111). -/
def hdrBytes (op : Byte) (h : PktHdr) : List Byte :=
  op :: (bytes24 h.cmdHi ++ bytes16 h.seq ++ bytes16 h.pad)

/-- The nine bits of a byte transfer, the first sent leftmost (R129, R130). -/
def nineBits (d : Byte) (e : Bool) : BitVec 9 := d ++ BitVec.ofBool e

/-- The encoder: the bits of an instruction on its carrier. A byte read's data bits belong to the
target; the encoder leaves them 0. -/
def encode (p : Params) : Instr → Code
  | .continuation h data => .packet (hdrBytes 0x00 h ++ data)
  | .updateAprom h start gap1 len gap2 data =>
    .packet (hdrBytes 0xA0 h ++
      (bytes16 start ++ bytes16 gap1 ++ bytes16 len ++ bytes16 gap2 ++ data))
  | .updateConfig h c rest => .packet (hdrBytes 0xA1 h ++ ([c.b0, c.b1, c.b2, c.b3, c.b4] ++ rest))
  | .readConfig h rest => .packet (hdrBytes 0xA2 h ++ rest)
  | .eraseAll h rest => .packet (hdrBytes 0xA3 h ++ rest)
  | .syncSeq h rest => .packet (hdrBytes 0xA4 h ++ rest)
  | .readRom h start gap1 len rest =>
    .packet (hdrBytes 0xA5 h ++ (bytes16 start ++ bytes16 gap1 ++ bytes16 len ++ rest))
  | .getFwVersion h rest => .packet (hdrBytes 0xA6 h ++ rest)
  | .runAprom h rest => .packet (hdrBytes 0xAB h ++ rest)
  | .runLdrom h rest => .packet (hdrBytes 0xAC h ++ rest)
  | .resetCmd h rest => .packet (hdrBytes 0xAD h ++ rest)
  | .connect h rest => .packet (hdrBytes 0xAE h ++ rest)
  | .getDeviceId h rest => .packet (hdrBytes 0xB1 h ++ rest)
  | .getUid h rest => .packet (hdrBytes 0xB2 h ++ rest)
  | .getCid h rest => .packet (hdrBytes 0xB3 h ++ rest)
  | .getUcid h rest => .packet (hdrBytes 0xB4 h ++ rest)
  | .getFlashMode h rest => .packet (hdrBytes 0xCA h ++ rest)
  | .pageErase h addr rest => .packet (hdrBytes 0xD5 h ++ (bytes16 addr ++ rest))
  | .unrecognized op h rest => .packet (hdrBytes op h ++ rest)
  | .icpReadFlash param => .data24 (frameOf cmdReadFlash param)
  | .icpReadUid param => .data24 (frameOf cmdReadUid param)
  | .icpReadCid param => .data24 (frameOf cmdReadCid param)
  | .icpReadDeviceId param => .data24 (frameOf cmdReadDeviceId param)
  | .icpWriteFlash param => .data24 (frameOf cmdWriteFlash param)
  | .icpPageErase param => .data24 (frameOf cmdPageErase param)
  | .icpMassErase param => .data24 (frameOf cmdMassErase param)
  | .icpEntryPattern => .data24 entryBits
  | .icpExitPattern => .data24 exitBits
  | .icpResetSeq => .reset24 p.resetSeq
  | .icpByteRead e => .read9 (nineBits 0 e)
  | .icpByteWrite d e d1 d2 => .write9 (nineBits d e) d1 d2
  | .hostInit r => .call (.hostInit r)
  | .hostExit => .call .hostExit
  | .hostDeinit r => .call (.hostDeinit r)
  | .hostReentry d1 d2 d3 => .call (.hostReentry d1 d2 d3)
  | .hostReentryGlitch d1 d2 d3 d4 => .call (.hostReentryGlitch d1 d2 d3 d4)
  | .hostReadDeviceId => .call .hostReadDeviceId
  | .hostCheckDeviceId => .call .hostCheckDeviceId
  | .hostReadCid => .call .hostReadCid
  | .hostReadUid => .call .hostReadUid
  | .hostReadUcid => .call .hostReadUcid
  | .hostReadFlash a n => .call (.hostReadFlash a n)
  | .hostWriteFlash a n d => .call (.hostWriteFlash a n d)
  | .hostMassErase => .call .hostMassErase
  | .hostPageErase a => .call (.hostPageErase a)
  | .hostVerifyFlash a n d => .call (.hostVerifyFlash a n d)
  | .hostReadConfig => .call .hostReadConfig
  | .hostWriteConfig c l => .call (.hostWriteConfig c l)
  | .hostProgramRegion a n d => .call (.hostProgramRegion a n d)
  | .configDecode b => .call (.configDecode b)
  | .configEncode f => .call (.configEncode f)

/-! ### The opcode table's numbering -/

/-- The seven codes of R126. -/
def icpCodes : List Nat := [0x00, 0x04, 0x0B, 0x0C, 0x21, 0x22, 0x26]

/-- Bytes `k`, `k+1`, … of the number `w`, lowest first, `n` of them. -/
def bytesOfNat (w : Nat) : Nat → List Byte
  | 0 => []
  | n + 1 => BitVec.ofNat 8 w :: bytesOfNat (w / 256) n

/-- The carrier and bits of an opcode-table word (spec/opcode_table.json): 24 bits are an ICP word
(on RESET if it is `RESET_SEQ` and no frame or DATA pattern); 9 or 16 bits are a byte transfer;
anything else is a UART packet whose bytes above the row's bits are 0. A single byte that is no
recognised opcode but is one of the seven ICP codes is that ICP frame with parameter 0
(DESIGN CHOICE, log entry 5). -/
def tableCode (p : Params) (nbits w : Nat) : Code :=
  if nbits = 24 then
    if BitVec.ofNat 24 w = p.resetSeq ∧ decodeData24 (BitVec.ofNat 24 w) = .reject .reservedIcpCode
    then .reset24 (BitVec.ofNat 24 w)
    else .data24 (BitVec.ofNat 24 w)
  else if nbits = 9 ∨ nbits = 16 then .read9 (BitVec.ofNat 9 w)
  else if nbits ≤ 8 ∧ icpCodes.contains w ∧ !recognisedOpcodes.contains (BitVec.ofNat 8 w) then
    .data24 (BitVec.ofNat 24 w)
  else .packet (bytesOfNat w 64)

/-- The instruction the decoder reads from an opcode-table word (numbered as the table numbers its
bits), at the test values of the parameters. -/
def decodeTableWord (nbits w : Nat) : Option Instr :=
  match decode Params.testValues (tableCode Params.testValues nbits w) with
  | .ok i => some i
  | .reject _ => none

end Sys2Proof
end

