-- ==== Sys2Proof/Machine/State.lean ====
section
/-! DEFINITION. The state of the two machines (10_state.md), of the environment of each (the flash of
machine D, R33; the target of machine H, R381), and of the inputs not yet taken (R52), all plain
data; the reasons a step can stop; and `State.reset`. -/

namespace Sys2Proof.Machine

/-! ### Machine D -/

/-- `CSTATE` (R25). -/
inductive CState where
  | disconnected
  | connecting
  | command
  | updating
  | dumping
  deriving DecidableEq, Repr

/-- `TERMINAL` (R30). -/
inductive Terminal where
  | running
  | haltVerify
  | bootAprom
  | bootLdrom
  deriving DecidableEq, Repr

/-- `MPHASE` (R31). -/
inductive MPhase where
  | m1
  | m2
  | m3
  deriving DecidableEq, Repr

/-- The error kinds of machine D (R401). -/
inductive ErrKind where
  | frameBadConnect
  | frameBadMagic
  | frameIdleTimeout
  | nackOpcode
  | nackRange
  | fatalVerify
  | connTimeout
  | rxOverrun
  | seqMismatch
  deriving DecidableEq, Repr

/-- The boot target of `sys(SW_RESET, target)` (R36, R338). -/
inductive BootTarget where
  | aprom
  | ldrom
  deriving DecidableEq, Repr

/-- An output event of machine D (R36). -/
inductive DEvent where
  | tx (b : Byte)
  | wdtKick
  | err (kind : ErrKind) (info : Word)
  | sysTrimRestore
  | sysSwReset (target : BootTarget)
  deriving DecidableEq, Repr

/-- The registers of machine D, the device domain (R20 to R32), and its trace (R36). -/
structure DRegs where
  /-- `RXBUF[0..63]` (R20) -/
  rxbuf : Vector Byte 64
  /-- `RXHEAD`, 7 bits, 0 to 64 (R21) -/
  rxhead : BitVec 7
  /-- `RXREADY` (R22) -/
  rxready : Bool
  /-- `TXBUF[0..63]` (R23) -/
  txbuf : Vector Byte 64
  /-- `SEQ` (R24) -/
  seq : Word
  /-- `CSTATE` (R25) -/
  cstate : CState
  /-- `START_ADDR` (R26) -/
  startAddr : Word
  /-- `END_ADDR` (R26) -/
  endAddr : Word
  /-- `CUR_ADDR` (R26) -/
  curAddr : Word
  /-- `IDLE_CNT` (R27) -/
  idleCnt : BitVec 8
  /-- `IDLE_EXPIRED` (R27) -/
  idleExpired : Bool
  /-- `CONN_CNT` (R28) -/
  connCnt : BitVec 16
  /-- `CONN_EXPIRED` (R28) -/
  connExpired : Bool
  /-- `IE` (R29) -/
  ie : Bool
  /-- `TERMINAL` (R30) -/
  terminal : Terminal
  /-- `MPHASE` (R31) -/
  mphase : MPhase
  /-- `IAPEN` (R32) -/
  iapen : Bool
  /-- `TRACE_D`, append-only (R36) -/
  trace : List DEvent
  deriving DecidableEq, Repr

/-! ### Machine H -/

/-- `ISTATE` (R40). -/
inductive IState where
  | uninitialized
  | entered
  | exited
  deriving DecidableEq, Repr

/-- A line of the pin interface (R150). -/
inductive Line where
  | dat
  | clk
  | rst
  | trig
  deriving DecidableEq, Repr

/-- The direction of DATA (R42): `output` is 1, the engine drives. -/
inductive Dir where
  | input
  | output
  deriving DecidableEq, Repr

/-- The pin output latches (R42). -/
structure Pins where
  datOut : Bool
  datDir : Dir
  clk : Bool
  rst : Bool
  trig : Bool
  deriving DecidableEq, Repr

/-- The timing configuration registers (R43), one per timing parameter of R12, 32 bits each. -/
structure Timing where
  cmdBit : BitVec 32
  readBit : BitVec 32
  writeBit : BitVec 32
  program : BitVec 32
  writeHold : BitVec 32
  massErase : BitVec 32
  massEraseHold : BitVec 32
  pageErase : BitVec 32
  pageEraseHold : BitVec 32
  rstseqBit : BitVec 32
  rstHigh : BitVec 32
  rstLow : BitVec 32
  entryBit : BitVec 32
  entrySettle : BitVec 32
  exitRstHigh : BitVec 32
  exitRstLow : BitVec 32
  exitBit : BitVec 32
  exitSettle : BitVec 32
  deriving DecidableEq, Repr

/-- The name of a timing register, for the caller's write (R43). -/
inductive TimingReg where
  | cmdBit
  | readBit
  | writeBit
  | program
  | writeHold
  | massErase
  | massEraseHold
  | pageErase
  | pageEraseHold
  | rstseqBit
  | rstHigh
  | rstLow
  | entryBit
  | entrySettle
  | exitRstHigh
  | exitRstLow
  | exitBit
  | exitSettle
  deriving DecidableEq, Repr

/-- An event of `TRACE_H` (R46): the pin events of R150 and the transaction events of R151. A delay
is in microseconds. -/
inductive HEvent where
  | pin (line : Line) (v : Bool)
  | dir (d : Dir)
  | delay (t : Nat)
  | sample (v : Bool)
  | acquire (ok : Bool)
  | release (keepRst : Bool)
  | entry
  | resetSeq
  | exit
  | frame (f : Icp24)
  | rdByte (v : Byte) (endFlag : Bool)
  | wrByte (v : Byte) (endFlag : Bool) (d1 d2 : Nat)
  deriving DecidableEq, Repr

/-- The status of a host operation (R204). -/
inductive Status where
  | ok
  | ePinInit
  | eDeviceId
  | eVerify
  | eBadState
  | eBadArg
  deriving DecidableEq, Repr

/-- The data a host operation returns beside its status (R45); `bytes []` is the empty answer. -/
inductive RetData where
  | bytes (bs : List Byte)
  | word (w : Word)
  | index (n : Nat)
  | flags (f : ConfigFlags)
  deriving DecidableEq, Repr

/-- The registers of machine H, the host domain (R40 to R43), its trace (R46), and `ret`, the model's
own record of what the call port last returned (R45; log entry 6). -/
structure HRegs where
  /-- `ISTATE` (R40) -/
  istate : IState
  /-- `PINS_OWNED` (R41) -/
  pinsOwned : Bool
  /-- the pin latches (R42) -/
  pins : Pins
  /-- the timing registers (R43) -/
  timing : Timing
  /-- `TRACE_H`, append-only (R46) -/
  trace : List HEvent
  /-- the last `(status, data)` returned on the call port; none before the first (R45) -/
  ret : Option (Status × RetData)
  deriving DecidableEq, Repr

/-! ### The environment: reference target and flash -/

/-- What answers machine H on the wire (R150, R380, decision D38): the reference target of
46_reference_target.md, or an unconstrained oracle. -/
inductive TargetKind where
  | reference
  | oracle
  deriving DecidableEq, Repr

/-- The seven ICP commands (R126), as the reference target's open command (R381). -/
inductive IcpCmd where
  | readFlash
  | readUid
  | readCid
  | readDeviceId
  | writeFlash
  | pageErase
  | massErase
  deriving DecidableEq, Repr

/-- The registers of the reference target (R381). `T_FLASH` and `T_CONFIG` are the state's `tflash`;
the identity arrays, which nothing writes, are the state's `ident`. -/
structure Target where
  /-- `T_MODE`: true is `T_PROG` -/
  prog : Bool
  /-- `T_CMD`: none is `NONE` -/
  cmd : Option IcpCmd
  /-- `T_PTR`, 18 bits -/
  ptr : BitVec 18
  /-- `T_ARMED` -/
  armed : Bool
  /-- `T_LOCKED` -/
  locked : Bool
  /-- `T_DESYNC` -/
  desync : Bool
  deriving DecidableEq, Repr

/-- A flash array (R33, R381): a list of cells in one canonical form, keyed by the ICP address (APROM
from 0, LDROM from `APROM_SIZE`, config from 0x30000; R71, R72). -/
abbrev Memory := List Host.Cell

/-! ### Inputs -/

/-- An input event (R440, R441): what the environment does next. -/
inductive Event where
  /-- a received UART character: the receive agent steps (R230) -/
  | rx (b : Byte)
  /-- a timer period: the tick agent steps (R236) -/
  | tick
  /-- the main-loop agent steps (R245) -/
  | main
  /-- assertion of machine D's reset input (R450) -/
  | resetD
  /-- assertion of that input inside the dispatch the main loop is about to make, once the command
  has made `writes` of its page erases and byte programs (R452; log entry 27) -/
  | resetDDuring (writes : Nat)
  /-- assertion of machine H's reset input (R451) -/
  | resetH
  /-- the caller writes a timing register (R43, R441) -/
  | setTiming (r : TimingReg) (v : BitVec 32)
  /-- the pin driver becomes available to machine H or not (R52, R150, U21) -/
  | pinGrant (ok : Bool)
  /-- the flash environment's worn cells become these (R331: a worn or failing cell, U16) -/
  | flashWear (cells : List Host.Cell)
  /-- the chip of machine D is put on the ICP wire (R381; log entry 14) -/
  | chipToTarget
  /-- the chip on the ICP wire starts the bootloader, machine D (R381; log entry 14) -/
  | chipToDevice
  /-- an operation, or a unit of the ICP wire, is put to machine H (R440) -/
  | call (c : Code)
  deriving DecidableEq, Repr

/-! ### The whole state -/

/-- The state of the model: the two machines side by side with no coupling (R2), each with its own
environment, the parameters of the run, and the inputs not yet taken. -/
structure State where
  /-- the parameters of the run (R6 to R11); only a reset of machine D, which begins a run, writes any:
  the two flash sizes (R363, R467; log entry 28) -/
  params : Params
  /-- the identity arrays (R34); no step changes them -/
  ident : Identity
  /-- machine D -/
  d : DRegs
  /-- machine H -/
  h : HRegs
  /-- machine D's flash array and config sector (R33) -/
  flash : Memory
  /-- the worn cells of the flash environment: programming the cell at the address leaves the byte
  (R331, R336, U16; log entry 7) -/
  worn : List Host.Cell
  /-- what answers on the ICP wire (R150) -/
  targetKind : TargetKind
  /-- the reference target's registers (R381) -/
  tgt : Target
  /-- the reference target's `T_FLASH` and `T_CONFIG` (R381) -/
  tflash : Memory
  /-- whether `PinAcquire` succeeds now (R52, R150, U21) -/
  pinGrant : Bool
  /-- the MODEL's own counter: the next free value (log entry 3) -/
  freeCtr : Nat
  /-- the input events not yet taken, the next one first (R52, R441; log entry 8) -/
  sched : List Event
  deriving DecidableEq, Repr

/-! ### Reasons to stop -/

/-- Why the machine stops with a fault. -/
inductive Fault where
  /-- raised by a continuation chunk whose addresses leave the flash spaces the command may reach.
  R71: "No rule ever applies `Translate` to an `INVALID` address"; only a state that no run reaches
  raises it. Safe. -/
  | noSuchFlashAddress (addr : Word)
  deriving DecidableEq, Repr

/-- Why a step has no meaning. -/
inductive Refusal where
  /-- raised by `exec` for an instruction with no meaning yet; no arm raises it now. Safe. -/
  | notModelled (mnemonic : String)
  deriving DecidableEq, Repr

/-! ### Reset -/

/-- `TXBUF`, `RXBUF` filled with zero. -/
def zeroBuf : Vector Byte 64 := Vector.replicate 64 0

/-- Every timing register zero. -/
def Timing.zero : Timing where
  cmdBit := 0
  readBit := 0
  writeBit := 0
  program := 0
  writeHold := 0
  massErase := 0
  massEraseHold := 0
  pageErase := 0
  pageEraseHold := 0
  rstseqBit := 0
  rstHigh := 0
  rstLow := 0
  entryBit := 0
  entrySettle := 0
  exitRstHigh := 0
  exitRstLow := 0
  exitBit := 0
  exitSettle := 0

/-- The reset values of machine D (R50). `RXBUF` and `TXBUF` are unspecified there; the model names
zero (DESIGN CHOICE, log entry 9). -/
def DRegs.reset (p : Params) : DRegs where
  rxbuf := zeroBuf
  rxhead := 0
  rxready := false
  txbuf := zeroBuf
  seq := 0
  cstate := .disconnected
  startAddr := 0
  endAddr := 0
  curAddr := 0
  idleCnt := 0
  idleExpired := false
  connCnt := p.connTimeoutTicks
  connExpired := false
  ie := true
  terminal := .running
  mphase := .m1
  iapen := true
  trace := []

/-- The reset values of machine H (R51). The timing registers are unspecified there; the model names
zero (DESIGN CHOICE, log entry 9). -/
def HRegs.reset (p : Params) : HRegs where
  istate := .uninitialized
  pinsOwned := false
  pins := { datOut := false, datDir := .output, clk := false, rst := !p.rstAssertLevel,
            trig := false }
  timing := Timing.zero
  trace := []
  ret := none

/-- The initial values of the reference target (R381). -/
def Target.initial : Target where
  prog := false
  cmd := none
  ptr := 0
  armed := false
  locked := false
  desync := false

/-- The machine right after reset: every register of R50 and R51 at its value; the parameters and
identity contents, which are inputs, at the spec's test values (log entry 1); both flash arrays
erased (inputs, R33, R381; log entry 10); no input pending. -/
def State.reset : State where
  params := Params.testValues
  ident := Identity.testValues
  d := DRegs.reset Params.testValues
  h := HRegs.reset Params.testValues
  flash := []
  worn := []
  targetKind := .reference
  tgt := Target.initial
  tflash := []
  pinGrant := true
  freeCtr := 0
  sched := []

/-- The outcome of a step of this machine. -/
abbrev Out := Host.Outcome State Fault Refusal

end Sys2Proof.Machine
end

