-- ==== Sys2Proof/Machine/ConfigFlags.lean ====
section
/-! DEFINITION. The config flags model (45_config_flags.md): a pure transformation between the five
bytes of the config sector and the record of its named fields, with the reserved bits kept. Bit
positions: R360 (decision D50; log entry 11). -/

namespace Sys2Proof.Machine

/-- `decode(bytes[5]) -> ConfigFlags` (R361). -/
def configDecode (b : ConfigBytes) : ConfigFlags where
  cbs := b.b0.getLsbD 7
  ocdpwm := b.b0.getLsbD 5
  ocden := b.b0.getLsbD 4
  rpd := b.b0.getLsbD 2
  lock := b.b0.getLsbD 1
  ldsize := b.b1.extractLsb' 0 3
  cboden := b.b2.getLsbD 7
  cbov := b.b2.extractLsb' 4 2
  cborst := b.b2.getLsbD 2
  wdten := b.b4.extractLsb' 4 4
  rsv0 := b.b0 &&& 0x49
  rsv1 := b.b1 &&& 0xF8
  rsv2 := b.b2 &&& 0x4B
  rsv3 := b.b3
  rsv4 := b.b4 &&& 0x0F

/-- One bit as a byte, for the shifts of R362. -/
def bitByte (v : Bool) : Byte := (BitVec.ofBool v).setWidth 8

/-- `encode(ConfigFlags) -> bytes[5]` (R362). -/
def configEncode (f : ConfigFlags) : ConfigBytes where
  b0 := bitByte f.cbs <<< 7 ||| bitByte f.ocdpwm <<< 5 ||| bitByte f.ocden <<< 4 |||
    bitByte f.rpd <<< 2 ||| bitByte f.lock <<< 1 ||| (f.rsv0 &&& 0x49)
  b1 := (f.rsv1 &&& 0xF8) ||| f.ldsize.setWidth 8
  b2 := bitByte f.cboden <<< 7 ||| f.cbov.setWidth 8 <<< 4 ||| bitByte f.cborst <<< 2 |||
    (f.rsv2 &&& 0x4B)
  b3 := f.rsv3
  b4 := f.wdten.setWidth 8 <<< 4 ||| (f.rsv4 &&& 0x0F)

/-- The reserved bits of a record are confined to their masks (R361, R366). -/
abbrev configConfined (f : ConfigFlags) : Prop :=
  f.rsv0 &&& 0x49 = f.rsv0 ∧ f.rsv1 &&& 0xF8 = f.rsv1 ∧ f.rsv2 &&& 0x4B = f.rsv2 ∧
    f.rsv4 &&& 0x0F = f.rsv4

/-- `ldrom_size(c) = min(4096, (7 - c) * 1024)` (R363). -/
def ldromSizeOf (c : BitVec 3) : Nat := min 4096 ((7 - c.toNat) * 1024)

/-- The code a host writes for one of the five sizes, `7 - ldrom_size / 1024` (R363). -/
def ldsizeCode (size : Nat) : BitVec 3 := BitVec.ofNat 3 (7 - size / 1024)

/-- `is_locked(b) = (b[0][1] = 0)` (R364): 1 is unlocked, 0 is locked. -/
def isLocked (b : ConfigBytes) : Bool := !b.b0.getLsbD 1

/-- Byte 0 forced unlocked, `b[0] | 0x02` (R364, R201). -/
def unlockedByte (b0 : Byte) : Byte := b0 ||| 0x02

/-- Byte 0 locked, `b[0] & 0xFD` (R364, R201). -/
def lockedByte (b0 : Byte) : Byte := b0 &&& 0xFD

/-- The five bytes with the lock bit forced to 1 (R201, R364). -/
def forceUnlocked (b : ConfigBytes) : ConfigBytes := { b with b0 := unlockedByte b.b0 }

/-- The watchdog modes (R365). -/
inductive WdtMode where
  | disabled
  | stopsInIdle
  | runsAlways
  deriving DecidableEq, Repr

/-- `wdt_mode(w)` (R365). -/
def wdtMode (w : BitVec 4) : WdtMode :=
  if w = 0b1111 then .disabled else if w = 0b0101 then .stopsInIdle else .runsAlways

end Sys2Proof.Machine
end

