-- ==== Sys2Proof/Machine/Flags.lean ====
section
/-! DEFINITION. The status flags of machine D (R48) and the timers that raise them: arming, disarming
and the decrement of each count-down timer (R236, R237), the packet-ready flag (R235, R276), and the
interrupt enable that gates the two handlers (R29, R239). -/

namespace Sys2Proof.Machine

/-- `Arm(IDLE, IDLE_TICKS)` (R234, R237). -/
def DRegs.armIdle (n : BitVec 8) (d : DRegs) : DRegs := { d with idleCnt := n, idleExpired := false }

/-- `Disarm(IDLE)` (R235, R237). -/
def DRegs.disarmIdle (d : DRegs) : DRegs := { d with idleCnt := 0, idleExpired := false }

/-- `Disarm(CONN)` (R237, R277, R278). -/
def DRegs.disarmConn (d : DRegs) : DRegs := { d with connCnt := 0, connExpired := false }

/-- One tick of the idle timer (R236): a counter at 0 is disarmed and stays. -/
def DRegs.tickIdle (d : DRegs) : DRegs :=
  if d.idleCnt = 0 then d
  else { d with idleCnt := d.idleCnt - 1, idleExpired := d.idleExpired || d.idleCnt == 1 }

/-- One tick of the connection timer (R236). -/
def DRegs.tickConn (d : DRegs) : DRegs :=
  if d.connCnt = 0 then d
  else { d with connCnt := d.connCnt - 1, connExpired := d.connExpired || d.connCnt == 1 }

/-- A handler of machine D may step: `TERMINAL = RUNNING` and `IE = 1` (R29, R230, R236, R239). -/
def DRegs.listening (d : DRegs) : Bool := d.terminal == .running && d.ie

/-- A complete packet is waiting, `RXHEAD = 64` (R21). -/
def DRegs.rxFull (d : DRegs) : Bool := d.rxhead == 64

/-- The 64th byte has been stored: `RXREADY <- 1`, the idle timer disarmed (R235). -/
def DRegs.packetReady (d : DRegs) : DRegs := { d with rxready := true }.disarmIdle

/-- The packet is partially filled, `0 < RXHEAD < 64` (R248). -/
def DRegs.partlyFilled (d : DRegs) : Bool := 0 < d.rxhead && d.rxhead < 64

/-- The epilogue of dispatch (R276): `RXREADY <- 0; RXHEAD <- 0; IE <- 1`. -/
def DRegs.epilogue (d : DRegs) : DRegs := { d with rxready := false, rxhead := 0, ie := true }

/-- `SEQ_LO` (R24). -/
def DRegs.seqLo (d : DRegs) : Byte := lo8 d.seq

/-- `SEQ_HI` (R24). -/
def DRegs.seqHi (d : DRegs) : Byte := hi8 d.seq

/-- The next main-loop phase, M1, M2, M3 cyclically (R31, R245). -/
def MPhase.succ : MPhase → MPhase
  | .m1 => .m2
  | .m2 => .m3
  | .m3 => .m1

end Sys2Proof.Machine
end

