-- ==== Sys2Proof/Machine/Operands.lean ====
section
/-! DEFINITION. The operand forms of the commands: ranges, pages, chunk lengths, address translation
(R71, R78, R132, R286, R330, R332, R333), the parameters of ICP frames (R127, R194, R201), and the
numberings the spec gives its enumerations (R25, R30, R31, R40, R204, R401). -/

namespace Sys2Proof.Machine

/-! ### Numberings -/

/-- `CSTATE` as the 3-bit register (R25). -/
def CState.code : CState → BitVec 3
  | .disconnected => 0
  | .connecting => 1
  | .command => 2
  | .updating => 3
  | .dumping => 4

/-- `TERMINAL` as the 2-bit register (R30, decision D26). -/
def Terminal.code : Terminal → BitVec 2
  | .running => 0
  | .haltVerify => 1
  | .bootAprom => 2
  | .bootLdrom => 3

/-- `ISTATE` as the 2-bit register (R40). -/
def IState.code : IState → BitVec 2
  | .uninitialized => 0
  | .entered => 1
  | .exited => 2

/-- The code of an error kind (R401, decision D29). -/
def ErrKind.code : ErrKind → Nat
  | .frameBadConnect => 1
  | .frameBadMagic => 2
  | .frameIdleTimeout => 3
  | .nackOpcode => 4
  | .nackRange => 5
  | .fatalVerify => 6
  | .connTimeout => 7
  | .rxOverrun => 8
  | .seqMismatch => 9

/-- The code of a host status (R204, decision D40). -/
def Status.code : Status → Nat
  | .ok => 0
  | .ePinInit => 1
  | .eDeviceId => 2
  | .eVerify => 3
  | .eBadState => 4
  | .eBadArg => 5

/-- The 6-bit command code of an ICP command (R126). -/
def IcpCmd.code : IcpCmd → BitVec 6
  | .readFlash => cmdReadFlash
  | .readUid => cmdReadUid
  | .readCid => cmdReadCid
  | .readDeviceId => cmdReadDeviceId
  | .writeFlash => cmdWriteFlash
  | .pageErase => cmdPageErase
  | .massErase => cmdMassErase

/-- The command of a 6-bit code, if it is one of the seven (R126, R131). -/
def IcpCmd.ofCode (c : BitVec 6) : Option IcpCmd :=
  if c = cmdReadFlash then some .readFlash
  else if c = cmdReadUid then some .readUid
  else if c = cmdReadCid then some .readCid
  else if c = cmdReadDeviceId then some .readDeviceId
  else if c = cmdWriteFlash then some .writeFlash
  else if c = cmdPageErase then some .pageErase
  else if c = cmdMassErase then some .massErase
  else none

/-! ### Ranges and pages -/

/-- `end17 = zext_17(start) + zext_17(len)`, 17 bits (R286, R292, R299). -/
def end17 (start len : Word) : BitVec 17 := start.setWidth 17 + len.setWidth 17

/-- `a & 0xFF80`, the base of the page of a flat address (R78, decision C3 of 90_conflicts.md). -/
def pageBase (a : Word) : Word := a &&& 0xFF80

/-- The number of pages, from the one at `base` on, that begin below `last`: how often the erase loop
`while a < end: … a <- a + 128` turns (R330, R334, R205). -/
def pageCount (base last : Nat) : Nat := (last - base + 127) / 128

/-- `n = min(k, END_ADDR - CUR_ADDR)` (R332, R333, R299). -/
def chunkLen (k : Nat) (cur last : Word) : Nat := min k (last.toNat - cur.toNat)

/-! ### Address translation -/

/-- The spaces of the device-side flash port (R80). -/
inductive FlashSpace where
  | aprom
  | ldrom
  | config
  deriving DecidableEq, Repr

/-- `CFG_ADDR` (R7, R72). -/
def cfgAddr : Nat := 0x30000

/-- `Translate(a)` (R71): the overlay; none is `INVALID`. -/
def translate (p : Params) (a : Nat) : Option (FlashSpace × Nat) :=
  if a < p.apromSize then some (.aprom, a)
  else if a < p.apromSize + p.ldromSize then some (.ldrom, a - p.apromSize)
  else none

/-- The key of a cell of the flash array: APROM from 0, LDROM directly after it (R71, R381), the
config sector at `CFG_ADDR` (R72). -/
def cellAddr (p : Params) : FlashSpace → Nat → Nat
  | .aprom, off => off
  | .ldrom, off => p.apromSize + off
  | .config, off => cfgAddr + off

/-- The address of the first byte of a page, within its space, and how many of its bytes exist: 128
for a flash page (R78), 5 for the config sector (R80). -/
def pageSpan (p : Params) : FlashSpace → Nat → Nat × Nat
  | .aprom, off => (off / 128 * 128, 128)
  | .ldrom, off => (p.apromSize + off / 128 * 128, 128)
  | .config, _ => (cfgAddr, 5)

/-! ### Config operands -/

/-- The five config bytes in order. -/
def configList (c : ConfigBytes) : List Byte := [c.b0, c.b1, c.b2, c.b3, c.b4]

/-! ### Identity arrays -/

/-- The identity arrays by name (R80: `IdRead(kind, i)`). -/
inductive IdKind where
  | did
  | cid
  | uid
  | ucid
  deriving DecidableEq, Repr

/-- `IdRead(kind, i)` for every `i` of the array (R80, R34). -/
def idBytes (ident : Identity) : IdKind → List Byte
  | .did => ident.did
  | .cid => ident.cid
  | .uid => ident.uid
  | .ucid => ident.ucid

/-! ### Host operands -/

/-- `data[0..len-1]` of a host call (R196, R199, R205): elements past `len` play no part; an element
the array does not have is a free value of its index alone, the same in every call (DESIGN CHOICE, log
entry 4). -/
def argBytes (len : Nat) (data : List Byte) : List Byte :=
  (List.range len).map fun i => data.getD i (Config.freeArg i)

end Sys2Proof.Machine
end

