-- ==== Sys2Proof/Machine/Ops.lean ====
section
/-! DEFINITION. The named operations over memory and registers: the flash array in canonical form, the
device-side flash port (R80, R81), the error port (R400), the reply buffer (R240 to R244), and what
stands for taking an exception in this block: raising an error event (R400, R402), the fatal halt
(R336) and the boot sequence (R338). There is no return from a terminal state (R421); reset is the
only way out (R425, R450). -/

namespace Sys2Proof.Machine

/-! ### The flash array -/

/-- What an unlisted cell reads as: an erased byte (R80, R91; log entry 10). -/
def erasedByte : Byte := 0xFF

/-- Read one cell. -/
def Memory.read : Memory → Nat → Byte
  | [], _ => erasedByte
  | (b, v) :: m, a => if b = a then v else Memory.read m a

/-- Put a cell in front of cells of higher addresses; an erased byte is not listed. -/
def Memory.put (a : Nat) (v : Byte) (m : Memory) : Memory :=
  if v = erasedByte then m else (a, v) :: m

/-- Write one cell, keeping the canonical form. -/
def Memory.write : Memory → Nat → Byte → Memory
  | [], a, v => Memory.put a v []
  | (b, w) :: m, a, v =>
    if a < b then Memory.put a v ((b, w) :: m)
    else if a = b then Memory.put a v m
    else (b, w) :: Memory.write m a v

/-- Erase the `n` cells from `lo` on: they read 0xFF (R80). -/
def Memory.erase (m : Memory) (lo n : Nat) : Memory :=
  m.filter fun c => !(decide (lo ≤ c.1) && decide (c.1 < lo + n))

/-- The canonical form: addresses strictly rising, no cell listed that reads as an unlisted one. -/
abbrev Memory.wf (m : Memory) : Prop :=
  m.Pairwise (fun x y => x.1 < y.1) ∧ ∀ c ∈ m, c.2 ≠ erasedByte

/-- `n` cells from `a` on, lowest address first (R75, R81 `MemRead`). -/
def Memory.readN (m : Memory) (a : Nat) : Nat → List Byte
  | 0 => []
  | n + 1 => m.read a :: Memory.readN m (a + 1) n

/-! ### The device-side flash port -/

/-- `FlashRead(space, off)` (R80): no side effect. -/
def flashRead (sp : FlashSpace) (off : Nat) (s : State) : Byte := s.flash.read (cellAddr s.params sp off)

/-- Replace the flash array. -/
def setFlash (m : Memory) (s : State) : State := { s with flash := m }

/-- What a program of `v` leaves in the cell at `a`: `cell & v` on a sound cell (R80, decision D25),
the listed byte on a worn one (R331, R336, U16). -/
def programmed (s : State) (a : Nat) (v : Byte) : Byte :=
  match s.worn.lookup a with
  | some r => r
  | none => s.flash.read a &&& v

/-- `FlashProgram(space, off, v)` (R80). It needs `IAPEN = 1` (R32, R431 (c)); with `IAPEN = 0`, which
no running state of a run has, nothing is programmed (log entry 12). -/
def flashProgram (sp : FlashSpace) (off : Nat) (v : Byte) (s : State) : State :=
  if s.d.iapen then
    setFlash (s.flash.write (cellAddr s.params sp off) (programmed s (cellAddr s.params sp off) v)) s
  else s

/-- `FlashErasePage(space, off)` (R80): every byte of the page holding `off` becomes 0xFF. It needs
`IAPEN = 1` (R32, R431 (c)). -/
def flashErasePage (sp : FlashSpace) (off : Nat) (s : State) : State :=
  if s.d.iapen then
    setFlash (s.flash.erase (pageSpan s.params sp off).1 (pageSpan s.params sp off).2) s
  else s

/-- Read the flat flash space through the overlay, byte by byte (R71, R81, R333). Every address is
checked before (R71); an address outside reads nothing. -/
def flatRead (s : State) (a : Nat) : Byte :=
  match translate s.params a with
  | some (sp, off) => flashRead sp off s
  | none => erasedByte

/-- The config sector as machine D reads it (R80, R290). -/
def configBytes (s : State) : ConfigBytes where
  b0 := flashRead .config 0 s
  b1 := flashRead .config 1 s
  b2 := flashRead .config 2 s
  b3 := flashRead .config 3 s
  b4 := flashRead .config 4 s

/-! ### Registers and outputs of machine D -/

/-- `emit` (R15, R36): append to `TRACE_D`. -/
def emitD (es : List DEvent) (s : State) : State := { s with d := { s.d with trace := s.d.trace ++ es } }

/-- `raise kind(info)` (R15, R400): one event on the error port, and nothing else. -/
def raise (kind : ErrKind) (info : Word) (s : State) : State := emitD [.err kind info] s

/-- Replace the registers of machine D. -/
def setD (f : DRegs → DRegs) (s : State) : State := { s with d := f s.d }

/-! ### Checksum, stamps, transmission -/

/-- `Checksum()` (R114, R240): the 16-bit additive checksum of the 64 inbound bytes. -/
def checksum (buf : Vector Byte 64) : Word := buf.toList.foldl (fun acc b => acc + b.setWidth 16) 0

/-- Write the bytes into a buffer from offset `off` on, one byte at a time (R74). -/
def fillAt (buf : Vector Byte 64) (off : Nat) : List Byte → Vector Byte 64
  | [] => buf
  | v :: vs => fillAt (buf.setIfInBounds off v) (off + 1) vs

/-- The header and zero payload of a reply: offsets 0 and 1 as given, the sequence number at 4 and 5,
every other byte 0 (R112, R241). -/
def replyBuf (ck0 ck1 : Byte) (seq : Word) : Vector Byte 64 :=
  fillAt zeroBuf 0 [ck0, ck1, 0, 0, lo8 seq, hi8 seq, 0, 0]

/-- `Stamp(ck)` with the checksum of the packet in `RXBUF` (R240, R241). -/
def stamp (s : State) : State :=
  setD (fun d => { d with txbuf := replyBuf (lo8 (checksum d.rxbuf)) (hi8 (checksum d.rxbuf)) d.seq }) s

/-- `FailStamp(ck)` (R113, R242): as `Stamp`, offsets 0 and 1 complemented. -/
def failStamp (s : State) : State :=
  setD (fun d =>
    { d with txbuf := replyBuf (~~~lo8 (checksum d.rxbuf)) (~~~hi8 (checksum d.rxbuf)) d.seq }) s

/-- Write payload bytes of the reply from offset 8 on (R122). -/
def putPayload (bs : List Byte) (s : State) : State :=
  setD (fun d => { d with txbuf := fillAt d.txbuf 8 bs }) s

/-- The events of one transmitted byte (R243, R244). -/
def txEvents (wdtBuild : Bool) (b : Byte) : List DEvent :=
  if wdtBuild then [.tx b, .wdtKick] else [.tx b]

/-- `Transmit()` (R243, R244): 64 bytes in increasing offset order. -/
def transmit (s : State) : State :=
  emitD (s.d.txbuf.toList.flatMap (txEvents s.params.wdtBuild)) s

/-- `ReplyOk()` with the payload `bs` (R275): `Stamp`, the payload writes, `Transmit`. -/
def replyWith (bs : List Byte) (s : State) : State := transmit (putPayload bs (stamp s))

/-- `ReplyOk()` with the empty payload (R275). -/
def replyOk (s : State) : State := transmit (stamp s)

/-- `ReplyFail(kind, info)` (R275): raise, `FailStamp`, `Transmit`. -/
def replyFail (kind : ErrKind) (info : Word) (s : State) : State :=
  transmit (failStamp (raise kind info s))

/-! ### Taking what stands for an exception -/

/-- `Halt(a)` (R336, R420): `FATAL_VERIFY(a)` is raised and the machine is in `HALT_VERIFY`; every
other register stays as dispatch had left it. -/
def halt (a : Word) (s : State) : State :=
  setD (fun d => { d with terminal := .haltVerify }) (raise .fatalVerify a s)

/-- The run state a boot target leads to (R338). -/
def BootTarget.terminal : BootTarget → Terminal
  | .aprom => .bootAprom
  | .ldrom => .bootLdrom

/-- `BootSequence(target)` (R338, R420), its five actions in the order given: interrupts off, trim
restored, programming-enable cleared, the protected software-reset write (one atomic write, R90),
the terminal run state. The step is atomic, so only the order of the two output events shows. -/
def bootSequence (target : BootTarget) (s : State) : State :=
  setD (fun d =>
    { d with ie := false, iapen := false, terminal := target.terminal,
             trace := d.trace ++ [.sysTrimRestore, .sysSwReset target] }) s

/-- The sizes of the run that a reset begins: `LDROM_SIZE` is the one the config then held selects
(R363, R467), and APROM has what is left of the chip's flash ("APROM shrinks by the LDROM size",
R363: PRESUMED). Where that would leave APROM no page, which R7 rules out, the sizes stay (DESIGN
CHOICE). Log entry 28. -/
def repartition (b : ConfigBytes) (p : Params) : Params :=
  if ldromSizeOf (configDecode b).ldsize + 128 ≤ p.apromSize + p.ldromSize then
    { p with
      apromSize := p.apromSize + p.ldromSize - ldromSizeOf (configDecode b).ldsize
      ldromSize := ldromSizeOf (configDecode b).ldsize }
  else p

/-- Reset of machine D (R450): every register to its reset value, the trace empty; flash, config and
identity unchanged. It is the chip's reset, so the sizes of the new run are those the config selects
(R363, R467; log entry 28). -/
def resetD (s : State) : State :=
  { s with params := repartition (configBytes s) s.params
           d := DRegs.reset (repartition (configBytes s) s.params) }

/-- Reset of machine H (R451); the target chip is not reset. -/
def resetH (s : State) : State := { s with h := HRegs.reset s.params }

/-- The chip of machine D is put on the ICP wire (R381): the target's arrays are those machine D sees,
its registers at their initial values (log entry 14). -/
def chipToTarget (s : State) : State := { s with tflash := s.flash, tgt := Target.initial }

/-- The chip on the ICP wire starts the bootloader (R381, R441): machine D's arrays are the target's,
and a run begins at machine D's reset (log entry 14). -/
def chipToDevice (s : State) : State := resetD { s with flash := s.tflash }

/-! ### Timing registers -/

/-- The caller's write of a timing register (R43). -/
def Timing.set (t : Timing) (r : TimingReg) (v : BitVec 32) : Timing :=
  match r with
  | .cmdBit => { t with cmdBit := v }
  | .readBit => { t with readBit := v }
  | .writeBit => { t with writeBit := v }
  | .program => { t with program := v }
  | .writeHold => { t with writeHold := v }
  | .massErase => { t with massErase := v }
  | .massEraseHold => { t with massEraseHold := v }
  | .pageErase => { t with pageErase := v }
  | .pageEraseHold => { t with pageEraseHold := v }
  | .rstseqBit => { t with rstseqBit := v }
  | .rstHigh => { t with rstHigh := v }
  | .rstLow => { t with rstLow := v }
  | .entryBit => { t with entryBit := v }
  | .entrySettle => { t with entrySettle := v }
  | .exitRstHigh => { t with exitRstHigh := v }
  | .exitRstLow => { t with exitRstLow := v }
  | .exitBit => { t with exitBit := v }
  | .exitSettle => { t with exitSettle := v }

/-- Set one timing register of machine H. -/
def setTiming (r : TimingReg) (v : BitVec 32) (s : State) : State :=
  { s with h := { s.h with timing := s.h.timing.set r v } }

end Sys2Proof.Machine
end

