-- ==== Sys2Proof/Machine/Sequencer.lean ====
section
/-! DEFINITION. The device-side flash command sequencer FCS-D (44_flash_sequencer_device.md): erase,
program and verify, program a chunk, dump a chunk, erase all, update the config. It runs inside one
atomic dispatch step, so its micro-states (R337) are positions, not registers. -/

namespace Sys2Proof.Machine

/-! ### Erase -/

/-- `n` pages of APROM from the one at `a` on, in increasing order (R330, R334). -/
def eraseFrom (a : Nat) : Nat → State → State
  | 0, s => s
  | n + 1, s => eraseFrom (a + 128) n (flashErasePage .aprom a s)

/-- `ErasePages(start, end)` (R330): every page that meets `[start, last)`. -/
def erasePages (start last : Word) (s : State) : State :=
  eraseFrom (pageBase start).toNat (pageCount (pageBase start).toNat last.toNat) s

/-- `EraseAll()` (R334): every page of APROM. -/
def eraseAllPages (s : State) : State := eraseFrom 0 (pageCount 0 s.params.apromSize) s

/-! ### Program and verify -/

/-- `ProgramVerify(a, v)` (R331): program, read back, halt on a mismatch with `v`. -/
def programVerify (a : Word) (v : Byte) (s : State) : State :=
  let s1 := flashProgram .aprom a.toNat v s
  if flashRead .aprom a.toNat s1 = v then s1 else halt a s1

/-- `CUR_ADDR <- CUR_ADDR + 1` (R332, R333). -/
def advanceCur (s : State) : State := setD (fun d => { d with curAddr := d.curAddr + 1 }) s

/-- The loop of `ProgramChunk` (R332): one byte after another at `CUR_ADDR`; a halt ends it with
`CUR_ADDR` at the failing address. -/
def programBytes : List Byte → State → State
  | [], s => s
  | v :: vs, s =>
    let s1 := programVerify s.d.curAddr v s
    if s1.d.terminal = .running then programBytes vs (advanceCur s1) else s1

/-- `if CUR_ADDR = END_ADDR: CSTATE <- COMMAND` (R332, R333). -/
def finishRange (s : State) : State :=
  if s.d.curAddr = s.d.endAddr then setD (fun d => { d with cstate := .command }) s else s

/-- The data bytes of one packet that `ProgramChunk` takes (R332): at most as many as the range still
wants. -/
def nextChunk (data : List Byte) (s : State) : List Byte :=
  data.take (chunkLen data.length s.d.curAddr s.d.endAddr)

/-- `ProgramChunk` on the data bytes of one packet (R332). After a halt nothing more happens. -/
def programChunk (data : List Byte) (s : State) : State :=
  let s1 := programBytes (nextChunk data s) s
  if s1.d.terminal = .running then finishRange s1 else s1

/-- The precondition of `ProgramChunk` (R332): the next `n` addresses lie in APROM. -/
def chunkInAprom (n : Nat) (s : State) : Bool := s.d.curAddr.toNat + n ≤ s.params.apromSize

/-- Program the packet's chunk, then stamp and transmit unless the machine halted (R273, R286, R298:
a mismatch halts before any reply byte is stamped). -/
def programReply (data : List Byte) (s : State) : Out :=
  if chunkInAprom (chunkLen data.length s.d.curAddr s.d.endAddr) s then
    let s1 := programChunk data s
    .next (if s1.d.terminal = .running then replyOk s1 else s1)
  else .fault (.noSuchFlashAddress s.d.curAddr)

/-! ### Read -/

/-- `n` bytes of the flat flash space from `a` on, each address translated by itself (R81, R333). -/
def flatReadN (s : State) (a : Nat) : Nat → List Byte
  | 0 => []
  | n + 1 => flatRead s a :: flatReadN s (a + 1) n

/-- The bytes the next dump chunk carries (R333): `min(56, END_ADDR - CUR_ADDR)` from `CUR_ADDR`. -/
def dumpData (s : State) : List Byte :=
  flatReadN s s.d.curAddr.toNat (chunkLen 56 s.d.curAddr s.d.endAddr)

/-- `DumpChunk()` (R333) on a stamped reply: payload, `CUR_ADDR`, and `CSTATE` at the end. -/
def dumpChunk (s : State) : State :=
  finishRange
    (setD (fun d =>
      { d with curAddr := d.curAddr + BitVec.ofNat 16 (chunkLen 56 d.curAddr d.endAddr) })
      (putPayload (dumpData s) s))

/-- The precondition of `DumpChunk` (R333): the next `n` addresses lie in the flat space. -/
def chunkInFlash (n : Nat) (s : State) : Bool :=
  s.d.curAddr.toNat + n ≤ s.params.apromSize + s.params.ldromSize

/-- `Stamp(ck); DumpChunk(); Transmit()` (R274, R292). -/
def dumpReply (s : State) : Out :=
  if chunkInFlash (chunkLen 56 s.d.curAddr s.d.endAddr) s then
    .next (transmit (dumpChunk (stamp s)))
  else .fault (.noSuchFlashAddress s.d.curAddr)

/-! ### Config -/

/-- Program bytes of the config sector from offset `off` on, without a read-back (R335). -/
def programConfig (off : Nat) : List Byte → State → State
  | [], s => s
  | v :: vs, s => programConfig (off + 1) vs (flashProgram .config off v s)

/-- `ConfigUpdate(v)` (R335): erase the sector, program the five bytes in order. -/
def configUpdate (c : ConfigBytes) (s : State) : State :=
  programConfig 0 (configList c) (flashErasePage .config 0 s)

end Sys2Proof.Machine
end

