-- ==== Sys2Proof/Machine/Connection.lean ====
section
/-! DEFINITION. The connection commands (R277, R278), the boot commands (R280 to R282), the identity,
version and mode queries (R279, R283 to R285, R287, R288) and the default row (R295). A meaning is
the command's own body, run between dispatch's prologue and epilogue (MainLoop.lean); the packet's
fields not named by its rule enter the checksum only (U1). -/

namespace Sys2Proof.Machine

/-- CONNECT (R277): the connection timer is disarmed; under `CONNECT_RESETS_SEQ` the counter is 1. -/
def execConnect (_h : PktHdr) (_rest : List Byte) (s : State) : Out :=
  .next (replyOk (setD (fun d =>
    if s.params.connectResetsSeq then { d.disarmConn with seq := 1 } else d.disarmConn) s))

/-- SYNC_SEQ (R278): the connection timer is disarmed; nothing is loaded into the counter. -/
def execSyncSeq (_h : PktHdr) (_rest : List Byte) (s : State) : Out :=
  .next (replyOk (setD DRegs.disarmConn s))

/-- GET_FW_VERSION (R279). -/
def execGetFwVersion (_h : PktHdr) (_rest : List Byte) (s : State) : Out :=
  .next (replyWith [s.params.fwVersion] s)

/-- GET_DEVICE_ID (R283). -/
def execGetDeviceId (_h : PktHdr) (_rest : List Byte) (s : State) : Out :=
  .next (replyWith (idBytes s.ident .did) s)

/-- GET_UID (R284). -/
def execGetUid (_h : PktHdr) (_rest : List Byte) (s : State) : Out :=
  .next (replyWith (idBytes s.ident .uid) s)

/-- GET_CID (R285). -/
def execGetCid (_h : PktHdr) (_rest : List Byte) (s : State) : Out :=
  .next (replyWith (idBytes s.ident .cid) s)

/-- GET_UCID (R287). -/
def execGetUcid (_h : PktHdr) (_rest : List Byte) (s : State) : Out :=
  .next (replyWith (idBytes s.ident .ucid) s)

/-- GET_FLASH_MODE (R288). -/
def execGetFlashMode (_h : PktHdr) (_rest : List Byte) (s : State) : Out :=
  .next (replyWith [s.params.flashMode] s)

/-- RUN_APROM (R280): the boot sequence with target APROM; no reply. -/
def execRunAprom (_h : PktHdr) (_rest : List Byte) (s : State) : Out :=
  .next (bootSequence .aprom s)

/-- RESET (R281): the boot sequence with target APROM; no reply. -/
def execResetCmd (_h : PktHdr) (_rest : List Byte) (s : State) : Out :=
  .next (bootSequence .aprom s)

/-- RUN_LDROM (R282): the boot sequence with target LDROM; no reply. -/
def execRunLdrom (_h : PktHdr) (_rest : List Byte) (s : State) : Out :=
  .next (bootSequence .ldrom s)

/-- The default row (R295): `NACK_OPCODE` with the opcode, and a fail packet. -/
def execUnrecognized (op : Byte) (_h : PktHdr) (_rest : List Byte) (s : State) : Out :=
  .next (replyFail .nackOpcode (op.setWidth 16) s)

end Sys2Proof.Machine
end

