-- ==== Sys2Proof/Machine/FlashCommands.lean ====
section
/-! DEFINITION. The flash commands of machine D (R286, R289 to R293) and the continuation packets
(R273, R274, R294). The range check comes before any flash access (R298). -/

namespace Sys2Proof.Machine

/-- Accept a range (R286, R292): `START_ADDR`, `END_ADDR`, `CUR_ADDR`. -/
def acceptRange (start len : Word) (s : State) : State :=
  setD (fun d =>
    { d with startAddr := start, endAddr := (end17 start len).setWidth 16, curAddr := start }) s

/-- Write `CSTATE`. -/
def setCState (c : CState) (s : State) : State := setD (fun d => { d with cstate := c }) s

/-- The range of UPDATE_APROM is accepted (R286): not empty and not beyond APROM, in 17 bits. -/
def updateRangeOk (p : Params) (start len : Word) : Bool :=
  len != 0 && decide ((end17 start len).toNat ≤ p.apromSize)

/-- The range of READ_ROM is accepted (R292). -/
def readRangeOk (p : Params) (start len : Word) : Bool :=
  len != 0 && decide ((end17 start len).toNat ≤ p.apromSize + p.ldromSize)

/-- UPDATE_APROM accepted, up to its first chunk (R286): the range taken, its pages erased,
`CSTATE <- UPDATING`. -/
def beginUpdate (start len : Word) (s : State) : State :=
  let s1 := acceptRange start len s
  setCState .updating (erasePages s1.d.startAddr s1.d.endAddr s1)

/-- CONTINUATION (R124): program the next chunk in `UPDATING` (R273), send the next chunk in
`DUMPING` (R274), and otherwise there is nothing to continue (R294). -/
def execContinuation (_h : PktHdr) (data : List Byte) (s : State) : Out :=
  match s.d.cstate with
  | .updating => programReply data s
  | .dumping => dumpReply s
  | .command => .next (replyFail .nackOpcode 0 s)
  | .connecting => .next (replyFail .nackOpcode 0 s)
  | .disconnected => .next (replyFail .nackOpcode 0 s)

/-- UPDATE_APROM (R286). -/
def execUpdateAprom (_h : PktHdr) (start _gap1 len _gap2 : Word) (data : List Byte) (s : State) : Out :=
  if updateRangeOk s.params start len then programReply data (beginUpdate start len s)
  else .next (replyFail .nackRange start s)

/-- READ_ROM (R292): the first reply carries the first chunk. -/
def execReadRom (_h : PktHdr) (start _gap1 len : Word) (_rest : List Byte) (s : State) : Out :=
  if readRangeOk s.params start len then dumpReply (setCState .dumping (acceptRange start len s))
  else .next (replyFail .nackRange start s)

/-- PAGE_ERASE (R293): the page holding `addr`, of APROM only. -/
def execPageErase (_h : PktHdr) (addr : Word) (_rest : List Byte) (s : State) : Out :=
  if addr.toNat < s.params.apromSize then
    .next (replyOk (flashErasePage .aprom (pageBase addr).toNat s))
  else .next (replyFail .nackRange addr s)

/-- ERASE_ALL (R289): every page of APROM. -/
def execEraseAll (_h : PktHdr) (_rest : List Byte) (s : State) : Out :=
  .next (replyOk (eraseAllPages s))

/-- READ_CONFIG (R290). -/
def execReadConfig (_h : PktHdr) (_rest : List Byte) (s : State) : Out :=
  .next (replyWith (configList (configBytes s)) s)

/-- UPDATE_CONFIG (R291): the reply carries the sector as read back after the write. -/
def execUpdateConfig (_h : PktHdr) (cfg : ConfigBytes) (_rest : List Byte) (s : State) : Out :=
  .next (replyWith (configList (configBytes (configUpdate cfg s))) (configUpdate cfg s))

end Sys2Proof.Machine
end

