-- ==== Sys2Proof/Machine/Target.lean ====
section
/-! DEFINITION. The reference ICP target (46_reference_target.md): the event-level chip that answers
machine H where the state's `targetKind` is `reference`. It consumes the transaction events the
engine records (R380) and supplies the byte of each byte read (R383, R387). -/

namespace Sys2Proof.Machine

/-- The size of `T_FLASH` (R381): APROM followed directly by LDROM. -/
def flashSize (p : Params) : Nat := p.apromSize + p.ldromSize

/-- Replace the target's registers. -/
def setTgt (t : Target) (s : State) : State := { s with tgt := t }

/-- Replace the target's flash arrays. -/
def setTFlash (m : Memory) (s : State) : State := { s with tflash := m }

/-- `T_CONFIG[0..4]` (R381). -/
def targetConfig (s : State) : ConfigBytes where
  b0 := s.tflash.read cfgAddr
  b1 := s.tflash.read (cfgAddr + 1)
  b2 := s.tflash.read (cfgAddr + 2)
  b3 := s.tflash.read (cfgAddr + 3)
  b4 := s.tflash.read (cfgAddr + 4)

/-- An element of an identity array, 0xFF past its end (R387). -/
def idAt (bs : List Byte) (i : Nat) : Byte := bs.getD i 0xFF

/-- The magic value of MASS_ERASE, 18 bits (R11, R197). -/
def massEraseMagic : BitVec 18 := 0x3A5A5

/-- The target takes byte transfers of an open command: in programming mode, a command open, framing
not lost (R383). -/
def Target.open (t : Target) : Option IcpCmd := if t.prog && !t.desync then t.cmd else none

/-- `TargetRead(READ_FLASH, p)` of an unlocked target (R387). -/
def readFlashCell (s : State) (a : Nat) : Byte :=
  if a < flashSize s.params then s.tflash.read a
  else if cfgAddr ≤ a ∧ a < cfgAddr + 5 then s.tflash.read a
  else 0xFF

/-- `TargetRead(READ_UID, p)` (R387): the UID from 0, the UCID from `UCID_PARAM_BASE`. -/
def readUidCell (s : State) (a : Nat) : Byte :=
  if a < s.ident.uid.length then idAt s.ident.uid a
  else if s.params.ucidParamBase.toNat ≤ a ∧ a < s.params.ucidParamBase.toNat + s.ident.ucid.length then
    idAt s.ident.ucid (a - s.params.ucidParamBase.toNat)
  else 0xFF

/-- `TargetRead(cmd, p)` (R387, R384). -/
def targetRead (s : State) (c : IcpCmd) (a : Nat) : Byte :=
  match c with
  | .readFlash => if s.tgt.locked then 0xFF else readFlashCell s a
  | .readDeviceId => idAt s.ident.did a
  | .readCid => if s.tgt.locked then 0xFF else idAt s.ident.cid a
  | .readUid => readUidCell s a
  | .writeFlash => 0xFF
  | .pageErase => 0xFF
  | .massErase => 0xFF

/-- WRITE_FLASH in the target (R388): an AND into an existing cell. -/
def targetProgram (a : Nat) (v : Byte) (s : State) : State :=
  if s.tgt.locked then s
  else if a < flashSize s.params ∨ (cfgAddr ≤ a ∧ a < cfgAddr + 5) then
    setTFlash (s.tflash.write a (s.tflash.read a &&& v)) s
  else s

/-- PAGE_ERASE in the target (R385): the 128-byte page of a flash address, as far as it exists; the
config sector for an address in its 128. -/
def targetPageErase (a : Nat) (s : State) : State :=
  if s.tgt.locked then s
  else if a < flashSize s.params then
    setTFlash (s.tflash.erase (a / 128 * 128) (min 128 (flashSize s.params - a / 128 * 128))) s
  else if cfgAddr ≤ a ∧ a ≤ cfgAddr + 0x7F then setTFlash (s.tflash.erase cfgAddr 5) s
  else s

/-- MASS_ERASE in the target (R386): only when armed by the magic value; it also unlocks. -/
def targetMassErase (s : State) : State :=
  if s.tgt.armed then
    setTgt { s.tgt with locked := false }
      (setTFlash ((s.tflash.erase 0 (flashSize s.params)).erase cfgAddr 5) s)
  else s

/-- `TargetWrite(cmd, p, v)` (R385, R386, R388): a read-type command ignores the byte. -/
def targetWrite (c : IcpCmd) (a : Nat) (v : Byte) (s : State) : State :=
  match c with
  | .writeFlash => targetProgram a v s
  | .pageErase => targetPageErase a s
  | .massErase => targetMassErase s
  | .readFlash => s
  | .readDeviceId => s
  | .readCid => s
  | .readUid => s

/-- After a byte transfer (R383): the pointer advances modulo 2^18 and the end flag closes the
command. -/
def Target.advance (e : Bool) (t : Target) : Target :=
  { t with ptr := t.ptr + 1, cmd := if e then none else t.cmd }

/-- `on Entry` (R382): the lock status is latched here. -/
def targetEntry (s : State) : State :=
  setTgt { s.tgt with prog := true, cmd := none, desync := false, armed := false,
                      locked := isLocked (targetConfig s) } s

/-- `on Frame(f)` (R382). -/
def Target.onFrame (f : Icp24) (t : Target) : Target :=
  if !t.prog then t
  else if t.cmd.isSome then { t with desync := true }
  else
    match IcpCmd.ofCode (f.extractLsb' 0 6) with
    | some c => { t with cmd := some c, ptr := f.extractLsb' 6 18,
                         armed := c == .massErase && f.extractLsb' 6 18 == massEraseMagic }
    | none => { t with desync := true }

/-- `on RdByte` (R383), the pointer's side; the byte is supplied before (`supplyByte`). -/
def Target.onRead (e : Bool) (t : Target) : Target :=
  match t.open with
  | some _ => t.advance e
  | none => t

/-- `on WrByte` (R383). -/
def targetOnWrite (v : Byte) (e : Bool) (s : State) : State :=
  match s.tgt.open with
  | some c =>
    let s1 := targetWrite c s.tgt.ptr.toNat v s
    setTgt (s1.tgt.advance e) s1
  | none => s

/-- What the target does on an event of `TRACE_H` (R380, R382, R383): it ignores pins, directions,
samples and delays. An oracle target keeps no state (R150). -/
def targetConsume (ev : HEvent) (s : State) : State :=
  match s.targetKind with
  | .oracle => s
  | .reference =>
    match ev with
    | .entry => targetEntry s
    | .exit => setTgt { s.tgt with prog := false, cmd := none } s
    | .frame f => setTgt (s.tgt.onFrame f) s
    | .rdByte _ e => setTgt (s.tgt.onRead e) s
    | .wrByte v e _ _ => targetOnWrite v e s
    | .resetSeq => s
    | .pin _ _ => s
    | .dir _ => s
    | .delay _ => s
    | .sample _ => s
    | .acquire _ => s
    | .release _ => s

/-- The byte the eight samples of a byte read form (R380, R383): the target's where the reference
target has an open command, otherwise the next free value (R150, R383, U3, U11). -/
def supplyByte (s : State) : Byte × State :=
  match s.targetKind with
  | .reference =>
    match s.tgt.open with
    | some c => (targetRead s c s.tgt.ptr.toNat, s)
    | none => (Config.freeByte s.freeCtr, { s with freeCtr := s.freeCtr + 1 })
  | .oracle => (Config.freeByte s.freeCtr, { s with freeCtr := s.freeCtr + 1 })

end Sys2Proof.Machine
end

