-- ==== Sys2Proof/Machine/Engine.lean ====
section
/-! DEFINITION. The ICP framing engine IFE (40_icp_bit_engine.md): what a pin event does to the
latches, the trace and the target; the four bit-level primitives; the entry, exit and reset-pattern
senders; the state gating; and what a host operation returns. A primitive is the list of the events it
performs, in order, and `perform` carries them out. -/

namespace Sys2Proof.Machine

/-! ### Events -/

/-- What an event does to the pin latches (R42, R150). -/
def Pins.apply (ev : HEvent) (p : Pins) : Pins :=
  match ev with
  | .pin .dat v => { p with datOut := v }
  | .pin .clk v => { p with clk := v }
  | .pin .rst v => { p with rst := v }
  | .pin .trig v => { p with trig := v }
  | .dir d => { p with datDir := d }
  | .delay _ => p
  | .sample _ => p
  | .acquire _ => p
  | .release _ => p
  | .entry => p
  | .resetSeq => p
  | .exit => p
  | .frame _ => p
  | .rdByte _ _ => p
  | .wrByte _ _ _ _ => p

/-- Perform one event: the latch it writes, its record in `TRACE_H` (R151), and the target's answer
to it (R380). -/
def performOne (s : State) (ev : HEvent) : State :=
  targetConsume ev
    { s with h := { s.h with pins := s.h.pins.apply ev, trace := s.h.trace ++ [ev] } }

/-- Perform events in order; every one is recorded, delays included (R151, R88). -/
def perform (evs : List HEvent) (s : State) : State := evs.foldl performOne s

/-! ### Bit-level primitives -/

/-- One bit on DATA and one CLOCK pulse (R152). -/
def clockBit (b : Bool) (d : Nat) : List HEvent :=
  [.pin .dat b, .delay d, .pin .clk true, .delay d, .pin .clk false]

/-- The bits `n-1` down to 0 of `value`, most significant first (R76, R152). -/
def sendBits (value : BitVec 32) (d : Nat) : Nat → List HEvent
  | 0 => []
  | n + 1 => clockBit (value.getLsbD n) d ++ sendBits value d n

/-- `BitSend(value, n, d)` (R152). -/
def bitSend (value : BitVec 32) (n d : Nat) : List HEvent := .dir .output :: sendBits value d n

/-- The sampled bits `n-1` down to 0 of the byte the target drives (R153): each is sampled before
its rising edge. -/
def sampleBits (v : Byte) (d : Nat) : Nat → List HEvent
  | 0 => []
  | n + 1 =>
    [.delay d, .sample (v.getLsbD n), .pin .clk true, .delay d, .pin .clk false] ++ sampleBits v d n

/-- The events of `ReadByte(end)` when the samples form `v` (R153), `d = T_READ_BIT`. -/
def readByteEvents (v : Byte) (e : Bool) (d : Nat) : List HEvent :=
  .dir .input :: .delay d :: (sampleBits v d 8 ++
    ([.dir .output, .delay d, .pin .dat e, .delay d, .pin .clk true, .delay d, .pin .clk false,
      .delay d, .pin .dat false, .rdByte v e] : List HEvent))

/-- The events of `WriteByte(data, end, delay1, delay2)` (R154), `d = T_WRITE_BIT`. -/
def writeByteEvents (v : Byte) (e : Bool) (d1 d2 d : Nat) : List HEvent :=
  bitSend (v.setWidth 32) 8 d ++
    ([.pin .dat e, .delay d1, .pin .clk true, .delay d2, .pin .dat false, .pin .clk false,
      .wrByte v e d1 d2] : List HEvent)

/-- The events of `SendCommand` for the frame `f` (R155), `d = T_CMD_BIT`. -/
def frameEvents (f : Icp24) (d : Nat) : List HEvent := bitSend (f.setWidth 32) 24 d ++ [.frame f]

/-- `SendCommand(cmd, param)` (R155). -/
def sendCommand (cmd : BitVec 6) (param : BitVec 32) (s : State) : State :=
  perform (frameEvents (frame cmd param) s.h.timing.cmdBit.toNat) s

/-- `ReadByte(end)` (R153): the byte read, and the state after. -/
def readByte (e : Bool) (s : State) : Byte × State :=
  ((supplyByte s).1,
    perform (readByteEvents (supplyByte s).1 e s.h.timing.readBit.toNat) (supplyByte s).2)

/-- `WriteByte(data, end, delay1, delay2)` (R154). -/
def writeByte (v : Byte) (e : Bool) (d1 d2 : Nat) (s : State) : State :=
  perform (writeByteEvents v e d1 d2 s.h.timing.writeBit.toNat) s

/-! ### Pattern senders -/

/-- The entry pattern and its settle time, then `Entry` (R128, R158, R161, R162). -/
def entryEvents (t : Timing) (settle : Nat) : List HEvent :=
  bitSend (entryBits.setWidth 32) 24 t.entryBit.toNat ++ [.delay settle, .entry]

/-- The exit pattern and its settle time, then `Exit` (R128, R159). -/
def exitEvents (t : Timing) : List HEvent :=
  bitSend (exitBits.setWidth 32) 24 t.exitBit.toNat ++ [.delay t.exitSettle.toNat, .exit]

/-- Bits `n-1` down to 0 of `RESET_SEQ` as levels of RESET, each held for the per-bit delay (R158). -/
def resetLevels (w : Icp24) (d : Nat) : Nat → List HEvent
  | 0 => []
  | n + 1 => [.pin .rst (w.getLsbD n), .delay d] ++ resetLevels w d n

/-- The reset pattern, then `ResetSeq` (R128, R158). -/
def resetSeqEvents (p : Params) (t : Timing) : List HEvent :=
  resetLevels p.resetSeq t.rstseqBit.toNat 24 ++ [.resetSeq]

/-- The level of RESET that releases the target, `1 - RST_ASSERT_LEVEL`. -/
def rstReleased (p : Params) : Bool := !p.rstAssertLevel

/-- `EnterMode(do_reset)` (R158). -/
def enterModeEvents (doReset : Bool) (p : Params) (t : Timing) : List HEvent :=
  (if doReset then resetSeqEvents p t
    else [.pin .rst (rstReleased p), .delay t.rstHigh.toNat, .pin .rst p.rstAssertLevel,
          .delay t.rstLow.toNat]) ++
    entryEvents t t.entrySettle.toNat

/-- `ExitCore()` (R159). -/
def exitCoreEvents (p : Params) (t : Timing) : List HEvent :=
  [.pin .rst (rstReleased p), .delay t.exitRstHigh.toNat, .pin .rst p.rstAssertLevel,
   .delay t.exitRstLow.toNat] ++ exitEvents t

/-! ### Results and gating -/

/-- Return `(status, data)` on the call port (R45, R440). -/
def returns (st : Status) (data : RetData) (s : State) : State :=
  { s with h := { s.h with ret := some (st, data) } }

/-- `ISTATE = ENTERED` and `PINS_OWNED = 1` (R156, R163). -/
def enteredOwned (s : State) : Bool := s.h.istate == .entered && s.h.pinsOwned

/-- Gating (R156, R163, R430): outside the states the table lists, `E_BAD_STATE`, no pin event, no
state change; otherwise the operation. -/
def gated (ok : Bool) (body : State → State) (s : State) : Out :=
  if ok then .next (body s) else .next (returns .eBadState (.bytes []) s)

/-- Write `ISTATE` (R156). -/
def setIState (i : IState) (s : State) : State := { s with h := { s.h with istate := i } }

/-- Write `PINS_OWNED` (R41). -/
def setOwned (b : Bool) (s : State) : State := { s with h := { s.h with pinsOwned := b } }

end Sys2Proof.Machine
end

