-- ==== Sys2Proof/Machine/HostSequencer.lean ====
section
/-! DEFINITION. The host-side flash command sequencer FCS-H (41_icp_flash_commands.md): the loops its
operations are made of. Each runs to completion (R203) and repeats nothing (R202). -/

namespace Sys2Proof.Machine

/-- `n` byte reads, the last with the end flag (R192, R195). -/
def readBytes : Nat → State → List Byte × State
  | 0, s => ([], s)
  | n + 1, s =>
    let r := readByte (n == 0) s
    let q := readBytes n r.2
    (r.1 :: q.1, q.2)

/-- Byte writes of the list, the last with the end flag (R196, decision D48). -/
def writeBytes (d1 d2 : Nat) : List Byte → State → State
  | [], s => s
  | v :: vs, s => writeBytes d1 d2 vs (writeByte v vs.isEmpty d1 d2 s)

/-- One READ_UID frame and one byte read with the end flag for each index from `i` on (R193,
R194). -/
def readIndexed (i : Nat) : Nat → State → List Byte × State
  | 0, s => ([], s)
  | n + 1, s =>
    let r := readByte true (sendCommand cmdReadUid (BitVec.ofNat 32 i) s)
    let q := readIndexed (i + 1) n r.2
    (r.1 :: q.1, q.2)

/-- A READ_FLASH frame and `len` byte reads (R195). -/
def readFlash (addr : BitVec 32) (len : Nat) (s : State) : List Byte × State :=
  readBytes len (sendCommand cmdReadFlash addr s)

/-- A WRITE_FLASH frame and a byte write for each datum (R196). -/
def writeFlash (addr : BitVec 32) (data : List Byte) (s : State) : State :=
  writeBytes s.h.timing.program.toNat s.h.timing.writeHold.toNat data
    (sendCommand cmdWriteFlash addr s)

/-- The magic value of MASS_ERASE as a frame operand (R11, R197). -/
def massEraseParam : BitVec 32 := 0x3A5A5

/-- `mass_erase()` (R197). -/
def massErase (s : State) : State :=
  writeByte 0xFF true s.h.timing.massErase.toNat s.h.timing.massEraseHold.toNat
    (sendCommand cmdMassErase massEraseParam s)

/-- `page_erase(addr)` (R198): the address is sent unmasked. -/
def pageEraseHost (addr : BitVec 32) (s : State) : State :=
  writeByte 0xFF true s.h.timing.pageErase.toNat s.h.timing.pageEraseHold.toNat
    (sendCommand cmdPageErase addr s)

/-- The device identity: a frame with parameter 0 and two byte reads, low byte first (R190). -/
def readDeviceId (s : State) : Word × State :=
  let lo := readByte false (sendCommand cmdReadDeviceId 0 s)
  let hi := readByte true lo.2
  (le16 lo.1 hi.1, hi.2)

/-- The index of the first place where what was read differs from what was expected (R199). -/
def firstMismatch : List Byte → List Byte → Nat → Option Nat
  | g :: gs, e :: es, i => if g = e then firstMismatch gs es (i + 1) else some i
  | _, _, _ => none

/-- What a verification returns (R199, R204). -/
def verdict (got expected : List Byte) : Status × RetData :=
  match firstMismatch got expected 0 with
  | some i => (.eVerify, .index i)
  | none => (.ok, .bytes [])

/-- `verify_flash` with `len >= 1` (R199): the whole range is read, then compared. -/
def verifyFlash (addr : BitVec 32) (len : Nat) (expected : List Byte) (s : State) :
    (Status × RetData) × State :=
  let r := readFlash addr len s
  (verdict r.1 (argBytes len expected), r.2)

/-- Return a pair computed together with the state it was computed in. -/
def returnPair (r : (Status × RetData) × State) : State := returns r.1.1 r.1.2 r.2

/-- `n` page erases from the page at `a` on (R205). -/
def pageErases (a : Nat) : Nat → State → State
  | 0, s => s
  | n + 1, s => pageErases (a + 128) n (pageEraseHost (BitVec.ofNat 32 a) s)

/-- The erase loop of `program_region` (R205): from `addr & ~0x7F` while below `addr + len`. -/
def eraseRegion (addr : BitVec 32) (len : Nat) (s : State) : State :=
  pageErases (addr.toNat / 128 * 128) (pageCount (addr.toNat / 128 * 128) (addr.toNat + len)) s

/-- `CFG_ADDR` as a frame operand (R200, R201). -/
def cfgParam : BitVec 32 := BitVec.ofNat 32 cfgAddr

/-- The end of `write_config` once the verification has answered (R201): on a mismatch it is
returned and the lock is not written; otherwise byte 0 is programmed again with the lock bit cleared
if asked. -/
def lockStep (u : ConfigBytes) (lock : Bool) (r : (Status × RetData) × State) : State :=
  if r.1.1 = .ok then
    returns .ok (.bytes [])
      (if lock then writeFlash cfgParam [lockedByte u.b0] r.2 else r.2)
  else returnPair r

/-- `write_config(cfg, lock)` (R201): erase, program with the lock bit forced to 1, verify, lock. -/
def writeConfig (cfg : ConfigBytes) (lock : Bool) (s : State) : State :=
  let u := forceUnlocked cfg
  lockStep u lock
    (verifyFlash cfgParam 5 (configList u)
      (writeFlash cfgParam (configList u) (pageEraseHost cfgParam s)))

/-- A zero length is refused before any pin event (R195, R196, R199, R205, decision D48). -/
def unlessEmpty (len : Nat) (body : State → State) (s : State) : State :=
  if len = 0 then returns .eBadArg (.bytes []) s else body s

end Sys2Proof.Machine
end

