-- ==== Sys2Proof/Machine/HostFlash.lean ====
section
/-! DEFINITION. The flash-level operations of machine H (R190 to R201, R205), each gated by
`ISTATE = ENTERED` and `PINS_OWNED = 1` (R163), and the two pure operations of the config codec
(R361, R362). -/

namespace Sys2Proof.Machine

/-- `read_device_id()` (R190). -/
def execHostReadDeviceId (s : State) : Out :=
  gated (enteredOwned s)
    (fun s => returns .ok (.word (readDeviceId s).1) (readDeviceId s).2) s

/-- `check_device_id()` (R191). -/
def execHostCheckDeviceId (s : State) : Out :=
  gated (enteredOwned s)
    (fun s =>
      returns (if (readDeviceId s).1 = s.params.expectedDid then .ok else .eDeviceId)
        (.word (readDeviceId s).1) (readDeviceId s).2) s

/-- `read_cid()` (R192): one frame, `CID_LEN` byte reads. -/
def readCid (s : State) : List Byte × State :=
  readBytes s.ident.cid.length (sendCommand cmdReadCid 0 s)

/-- `read_cid()` (R192). -/
def execHostReadCid (s : State) : Out :=
  gated (enteredOwned s) (fun s => returns .ok (.bytes (readCid s).1) (readCid s).2) s

/-- `read_uid()` (R193): `UID_LEN` frames. -/
def readUid (s : State) : List Byte × State := readIndexed 0 s.ident.uid.length s

/-- `read_uid()` (R193). -/
def execHostReadUid (s : State) : Out :=
  gated (enteredOwned s) (fun s => returns .ok (.bytes (readUid s).1) (readUid s).2) s

/-- `read_ucid()` (R194): `UCID_LEN` frames from `UCID_PARAM_BASE`. -/
def readUcid (s : State) : List Byte × State :=
  readIndexed s.params.ucidParamBase.toNat s.ident.ucid.length s

/-- `read_ucid()` (R194). -/
def execHostReadUcid (s : State) : Out :=
  gated (enteredOwned s) (fun s => returns .ok (.bytes (readUcid s).1) (readUcid s).2) s

/-- `read_flash(addr, len)` (R195). -/
def execHostReadFlash (addr : BitVec 32) (len : Nat) (s : State) : Out :=
  gated (enteredOwned s)
    (unlessEmpty len
      (fun s => returns .ok (.bytes (readFlash addr len s).1) (readFlash addr len s).2)) s

/-- `write_flash(addr, len, data)` (R196). -/
def execHostWriteFlash (addr : BitVec 32) (len : Nat) (data : List Byte) (s : State) : Out :=
  gated (enteredOwned s)
    (unlessEmpty len
      (fun s => returns .ok (.bytes []) (writeFlash addr (argBytes len data) s))) s

/-- `mass_erase()` (R197). -/
def execHostMassErase (s : State) : Out :=
  gated (enteredOwned s) (fun s => returns .ok (.bytes []) (massErase s)) s

/-- `page_erase(addr)` (R198). -/
def execHostPageErase (addr : BitVec 32) (s : State) : Out :=
  gated (enteredOwned s) (fun s => returns .ok (.bytes []) (pageEraseHost addr s)) s

/-- `verify_flash(addr, len, expected)` (R199). -/
def execHostVerifyFlash (addr : BitVec 32) (len : Nat) (expected : List Byte) (s : State) : Out :=
  gated (enteredOwned s)
    (unlessEmpty len (fun s => returnPair (verifyFlash addr len expected s))) s

/-- `read_config()` (R200): `read_flash(CFG_ADDR, 5)`. -/
def execHostReadConfig (s : State) : Out :=
  gated (enteredOwned s)
    (fun s => returns .ok (.bytes (readFlash cfgParam 5 s).1) (readFlash cfgParam 5 s).2) s

/-- `write_config(cfg, lock)` (R201). -/
def execHostWriteConfig (cfg : ConfigBytes) (lock : Bool) (s : State) : Out :=
  gated (enteredOwned s) (writeConfig cfg lock) s

/-- `program_region(addr, len, data)` (R205): erase every page touched, write, verify; nothing is
undone on a mismatch. -/
def execHostProgramRegion (addr : BitVec 32) (len : Nat) (data : List Byte) (s : State) : Out :=
  gated (enteredOwned s)
    (unlessEmpty len (fun s =>
      returnPair (verifyFlash addr len data
        (writeFlash addr (argBytes len data) (eraseRegion addr len s))))) s

/-- `decode(bytes)` of the config flags (R361): a pure transformation, no state (R360). -/
def execConfigDecode (bytes : ConfigBytes) (s : State) : Out :=
  .next (returns .ok (.flags (configDecode bytes)) s)

/-- `encode(flags)` of the config flags (R362). -/
def execConfigEncode (flags : ConfigFlags) (s : State) : Out :=
  .next (returns .ok (.bytes (configList (configEncode flags))) s)

end Sys2Proof.Machine
end

