-- ==== Sys2Proof/Machine/HostMode.lean ====
section
/-! DEFINITION. The mode operations of machine H (R156 to R163): `init`, `exit`, `deinit`, `reentry`,
`reentry_glitch`. Their rules write only "return OK"; that the data beside it is the empty list is the
model's choice (DESIGN CHOICE, log entry 29). -/

namespace Sys2Proof.Machine

/-- The five initial pin writes of `init` (R157). -/
def initPinEvents (p : Params) : List HEvent :=
  [.pin .clk false, .dir .output, .pin .dat false, .pin .trig false, .pin .rst (rstReleased p)]

/-- `init(do_reset)` on free pins (R157): acquisition may fail, and then nothing but the answer is
recorded. The data beside `OK` is empty (log entry 29), as beside `E_PIN_INIT` (log entry 17). -/
def initBody (doReset : Bool) (s : State) : State :=
  let s1 := perform [.acquire s.pinGrant] s
  if s.pinGrant then
    returns .ok (.bytes [])
      (setIState .entered
        (perform (initPinEvents s.params ++ enterModeEvents doReset s.params s.h.timing)
          (setOwned true s1)))
  else returns .ePinInit (.bytes []) s1

/-- `init(do_reset)` (R157, R163). -/
def execHostInit (doReset : Bool) (s : State) : Out :=
  gated (!s.h.pinsOwned) (initBody doReset) s

/-- `exit()` (R159); the data beside `OK` is empty (log entry 29). -/
def execHostExit (s : State) : Out :=
  gated (enteredOwned s)
    (fun s => returns .ok (.bytes [])
      (setIState .exited
        (perform (exitCoreEvents s.params s.h.timing ++ [.pin .rst (rstReleased s.params)]) s))) s

/-- The events of `deinit` on owned pins (R160). -/
def deinitEvents (leave : Bool) (s : State) : List HEvent :=
  (if s.h.istate = .entered then exitCoreEvents s.params s.h.timing else []) ++
    [.pin .rst (if leave then s.params.rstAssertLevel else rstReleased s.params), .release leave]

/-- `deinit(leave_reset_asserted)` (R160): idempotent, never refused; the data beside
`OK` is empty (log entry 29). -/
def execHostDeinit (leaveResetAsserted : Bool) (s : State) : Out :=
  .next
    (if s.h.pinsOwned then
      returns .ok (.bytes [])
        (setIState .exited (setOwned false (perform (deinitEvents leaveResetAsserted s) s)))
    else returns .ok (.bytes []) s)

/-- The events of `reentry` (R161): the release pulse is skipped when `delay1` is 0. -/
def reentryEvents (d1 d2 d3 : Nat) (p : Params) (t : Timing) : List HEvent :=
  (if 0 < d1 then [.pin .rst (rstReleased p), .delay d1] else []) ++
    [.pin .rst p.rstAssertLevel, .delay d2] ++ entryEvents t d3

/-- `reentry(delay1, delay2, delay3)` (R161); the data beside `OK` is empty (log entry 29). -/
def execHostReentry (delay1 delay2 delay3 : Nat) (s : State) : Out :=
  gated s.h.pinsOwned
    (fun s => returns .ok (.bytes [])
      (setIState .entered (perform (reentryEvents delay1 delay2 delay3 s.params s.h.timing) s))) s

/-- The events of `reentry_glitch` (R162): two reset cycles, the second bracketed by TRIGGER. -/
def glitchEvents (d1 d2 dHigh dLow : Nat) (p : Params) (t : Timing) : List HEvent :=
  [.pin .rst (rstReleased p), .delay d1, .pin .rst p.rstAssertLevel, .delay d2,
   .pin .rst (rstReleased p), .pin .trig true, .delay dHigh, .pin .rst p.rstAssertLevel,
   .delay dLow, .pin .trig false] ++ entryEvents t t.entrySettle.toNat

/-- `reentry_glitch` (R162); the data beside `OK` is empty (log entry 29). -/
def execHostReentryGlitch (delay1 delay2 delayAfterTriggerHigh delayBeforeTriggerLow : Nat)
    (s : State) : Out :=
  gated s.h.pinsOwned
    (fun s => returns .ok (.bytes [])
      (setIState .entered
        (perform (glitchEvents delay1 delay2 delayAfterTriggerHigh delayBeforeTriggerLow
          s.params s.h.timing) s))) s

end Sys2Proof.Machine
end

