-- ==== Sys2Proof/Machine/IcpWire.lean ====
section
/-! DEFINITION. The units of the ICP wire put to the engine one at a time (R126, R128 to R130, R151 to
R155): the seven command frames, the three patterns, the two byte transfers. They are gated like the
operations they are parts of (R156, R163, R430; log entry 13). -/

namespace Sys2Proof.Machine

/-- `SendCommand` with an 18-bit parameter (R155), returning `OK`. -/
def sendFrame (cmd : BitVec 6) (param : BitVec 18) (s : State) : State :=
  returns .ok (.bytes []) (sendCommand cmd (param.setWidth 32) s)

/-- Frame READ_FLASH (R126, R155). -/
def execIcpReadFlash (param : BitVec 18) (s : State) : Out :=
  gated (enteredOwned s) (sendFrame cmdReadFlash param) s

/-- Frame READ_UID (R126, R155). -/
def execIcpReadUid (param : BitVec 18) (s : State) : Out :=
  gated (enteredOwned s) (sendFrame cmdReadUid param) s

/-- Frame READ_CID (R126, R155). -/
def execIcpReadCid (param : BitVec 18) (s : State) : Out :=
  gated (enteredOwned s) (sendFrame cmdReadCid param) s

/-- Frame READ_DEVICE_ID (R126, R155). -/
def execIcpReadDeviceId (param : BitVec 18) (s : State) : Out :=
  gated (enteredOwned s) (sendFrame cmdReadDeviceId param) s

/-- Frame WRITE_FLASH (R126, R155). -/
def execIcpWriteFlash (param : BitVec 18) (s : State) : Out :=
  gated (enteredOwned s) (sendFrame cmdWriteFlash param) s

/-- Frame PAGE_ERASE (R126, R155). -/
def execIcpPageErase (param : BitVec 18) (s : State) : Out :=
  gated (enteredOwned s) (sendFrame cmdPageErase param) s

/-- Frame MASS_ERASE (R126, R155); a parameter other than the magic value reaches the wire and the
target ignores the erase (R131, R386, U10). -/
def execIcpMassErase (param : BitVec 18) (s : State) : Out :=
  gated (enteredOwned s) (sendFrame cmdMassErase param) s

/-- The entry pattern with its settle time and its `Entry` record (R128, R151, R158); `ISTATE` is
written by the operations only (R156). -/
def execIcpEntryPattern (s : State) : Out :=
  gated s.h.pinsOwned
    (fun s => returns .ok (.bytes []) (perform (entryEvents s.h.timing s.h.timing.entrySettle.toNat) s)) s

/-- The exit pattern with its settle time and its `Exit` record (R128, R151, R159). -/
def execIcpExitPattern (s : State) : Out :=
  gated (enteredOwned s)
    (fun s => returns .ok (.bytes []) (perform (exitEvents s.h.timing) s)) s

/-- The reset pattern and its `ResetSeq` record (R128, R151, R158). -/
def execIcpResetSeq (s : State) : Out :=
  gated s.h.pinsOwned
    (fun s => returns .ok (.bytes []) (perform (resetSeqEvents s.params s.h.timing) s)) s

/-- `ReadByte(end)` (R129, R153), returning the byte. -/
def execIcpByteRead (endFlag : Bool) (s : State) : Out :=
  gated (enteredOwned s)
    (fun s => returns .ok (.bytes [(readByte endFlag s).1]) (readByte endFlag s).2) s

/-- `WriteByte(data, end, delay1, delay2)` (R130, R154). -/
def execIcpByteWrite (data : Byte) (endFlag : Bool) (delay1 delay2 : Nat) (s : State) : Out :=
  gated (enteredOwned s)
    (fun s => returns .ok (.bytes []) (writeByte data endFlag delay1 delay2 s)) s

end Sys2Proof.Machine
end

