-- ==== Sys2Proof/Machine/Dispatch.lean ====
section
/-! DEFINITION. What one instruction does, one arm per constructor. -/

namespace Sys2Proof.Machine

def exec (i : Instr) (s : State) : Host.Outcome State Fault Refusal :=
  match i with
  -- machine D: UART opcodes
  | .continuation h data => Sys2Proof.Machine.execContinuation h data s
  | .updateAprom h start gap1 len gap2 data => Sys2Proof.Machine.execUpdateAprom h start gap1 len gap2 data s
  | .updateConfig h cfg rest => Sys2Proof.Machine.execUpdateConfig h cfg rest s
  | .readConfig h rest => Sys2Proof.Machine.execReadConfig h rest s
  | .eraseAll h rest => Sys2Proof.Machine.execEraseAll h rest s
  | .syncSeq h rest => Sys2Proof.Machine.execSyncSeq h rest s
  | .readRom h start gap1 len rest => Sys2Proof.Machine.execReadRom h start gap1 len rest s
  | .getFwVersion h rest => Sys2Proof.Machine.execGetFwVersion h rest s
  | .runAprom h rest => Sys2Proof.Machine.execRunAprom h rest s
  | .runLdrom h rest => Sys2Proof.Machine.execRunLdrom h rest s
  | .resetCmd h rest => Sys2Proof.Machine.execResetCmd h rest s
  | .connect h rest => Sys2Proof.Machine.execConnect h rest s
  | .getDeviceId h rest => Sys2Proof.Machine.execGetDeviceId h rest s
  | .getUid h rest => Sys2Proof.Machine.execGetUid h rest s
  | .getCid h rest => Sys2Proof.Machine.execGetCid h rest s
  | .getUcid h rest => Sys2Proof.Machine.execGetUcid h rest s
  | .getFlashMode h rest => Sys2Proof.Machine.execGetFlashMode h rest s
  | .pageErase h addr rest => Sys2Proof.Machine.execPageErase h addr rest s
  | .unrecognized op h rest => Sys2Proof.Machine.execUnrecognized op h rest s
  -- machine H: units of the ICP wire
  | .icpReadFlash param => Sys2Proof.Machine.execIcpReadFlash param s
  | .icpReadUid param => Sys2Proof.Machine.execIcpReadUid param s
  | .icpReadCid param => Sys2Proof.Machine.execIcpReadCid param s
  | .icpReadDeviceId param => Sys2Proof.Machine.execIcpReadDeviceId param s
  | .icpWriteFlash param => Sys2Proof.Machine.execIcpWriteFlash param s
  | .icpPageErase param => Sys2Proof.Machine.execIcpPageErase param s
  | .icpMassErase param => Sys2Proof.Machine.execIcpMassErase param s
  | .icpEntryPattern => Sys2Proof.Machine.execIcpEntryPattern s
  | .icpExitPattern => Sys2Proof.Machine.execIcpExitPattern s
  | .icpResetSeq => Sys2Proof.Machine.execIcpResetSeq s
  | .icpByteRead endFlag => Sys2Proof.Machine.execIcpByteRead endFlag s
  | .icpByteWrite data endFlag d1 d2 => Sys2Proof.Machine.execIcpByteWrite data endFlag d1 d2 s
  -- machine H: called operations
  | .hostInit doReset => Sys2Proof.Machine.execHostInit doReset s
  | .hostExit => Sys2Proof.Machine.execHostExit s
  | .hostDeinit leave => Sys2Proof.Machine.execHostDeinit leave s
  | .hostReentry d1 d2 d3 => Sys2Proof.Machine.execHostReentry d1 d2 d3 s
  | .hostReentryGlitch d1 d2 d3 d4 => Sys2Proof.Machine.execHostReentryGlitch d1 d2 d3 d4 s
  | .hostReadDeviceId => Sys2Proof.Machine.execHostReadDeviceId s
  | .hostCheckDeviceId => Sys2Proof.Machine.execHostCheckDeviceId s
  | .hostReadCid => Sys2Proof.Machine.execHostReadCid s
  | .hostReadUid => Sys2Proof.Machine.execHostReadUid s
  | .hostReadUcid => Sys2Proof.Machine.execHostReadUcid s
  | .hostReadFlash addr len => Sys2Proof.Machine.execHostReadFlash addr len s
  | .hostWriteFlash addr len data => Sys2Proof.Machine.execHostWriteFlash addr len data s
  | .hostMassErase => Sys2Proof.Machine.execHostMassErase s
  | .hostPageErase addr => Sys2Proof.Machine.execHostPageErase addr s
  | .hostVerifyFlash addr len expected => Sys2Proof.Machine.execHostVerifyFlash addr len expected s
  | .hostReadConfig => Sys2Proof.Machine.execHostReadConfig s
  | .hostWriteConfig cfg lock => Sys2Proof.Machine.execHostWriteConfig cfg lock s
  | .hostProgramRegion addr len data => Sys2Proof.Machine.execHostProgramRegion addr len data s
  | .configDecode bytes => Sys2Proof.Machine.execConfigDecode bytes s
  | .configEncode flags => Sys2Proof.Machine.execConfigEncode flags s

end Sys2Proof.Machine
end

