-- ==== Sys2Proof/Machine/FlashWork.lean ====
section
/-! DEFINITION. The flash work of a command of machine D up to a point inside it: what a reset that
falls into a dispatch leaves in the flash (R452, "some pages erased, some bytes programmed"). The work
is the page erases and byte programs of the command's meaning, in the order the sequencer makes them
(R330 to R335); it is counted in those (log entry 27). -/

namespace Sys2Proof.Machine

/-- Program and verify the first `k` bytes of the packet's chunk (R332), if the meaning would program it
at all (`chunkInAprom`). -/
def chunkPart (k : Nat) (data : List Byte) (s : State) : State :=
  if chunkInAprom (chunkLen data.length s.d.curAddr s.d.endAddr) s then
    programBytes ((nextChunk data s).take k) s
  else s

/-- UPDATE_APROM (R286) up to its `k`th erase or program: pages first, then bytes of the first chunk. -/
def updatePart (k : Nat) (start len : Word) (data : List Byte) (s : State) : State :=
  let s1 := acceptRange start len s
  let n := pageCount (pageBase s1.d.startAddr).toNat s1.d.endAddr.toNat
  if k < n then eraseFrom (pageBase s1.d.startAddr).toNat k s1
  else chunkPart (k - n) data (beginUpdate start len s)

/-- UPDATE_CONFIG (R335) up to its `k`th erase or program: the sector, then its bytes. -/
def configPart (k : Nat) (c : ConfigBytes) (s : State) : State :=
  match k with
  | 0 => s
  | k + 1 => programConfig 0 ((configList c).take k) (flashErasePage .config 0 s)

/-- PAGE_ERASE (R293) up to its `k`th erase. -/
def pagePart (k : Nat) (addr : Word) (s : State) : State :=
  if addr.toNat < s.params.apromSize then
    match k with
    | 0 => s
    | _ + 1 => flashErasePage .aprom (pageBase addr).toNat s
  else s

/-- The flash work of the command `i` up to its `k`th page erase or byte program. A command that writes
no flash does none. -/
def workPart (k : Nat) (i : Instr) (s : State) : State :=
  match i with
  | .continuation _ data => if s.d.cstate = .updating then chunkPart k data s else s
  | .updateAprom _ start _ len _ data =>
    if updateRangeOk s.params start len then updatePart k start len data s else s
  | .updateConfig _ c _ => configPart k c s
  | .eraseAll _ _ => eraseFrom 0 (min k (pageCount 0 s.params.apromSize)) s
  | .pageErase _ addr _ => pagePart k addr s
  | .readConfig _ _ | .syncSeq _ _ | .readRom _ _ _ _ _ | .getFwVersion _ _ | .runAprom _ _
  | .runLdrom _ _ | .resetCmd _ _ | .connect _ _ | .getDeviceId _ _ | .getUid _ _ | .getCid _ _
  | .getUcid _ _ | .getFlashMode _ _ | .unrecognized _ _ _ => s
  | .icpReadFlash _ | .icpReadUid _ | .icpReadCid _ | .icpReadDeviceId _ | .icpWriteFlash _
  | .icpPageErase _ | .icpMassErase _ | .icpEntryPattern | .icpExitPattern | .icpResetSeq
  | .icpByteRead _ | .icpByteWrite _ _ _ _ => s
  | .hostInit _ | .hostExit | .hostDeinit _ | .hostReentry _ _ _ | .hostReentryGlitch _ _ _ _
  | .hostReadDeviceId | .hostCheckDeviceId | .hostReadCid | .hostReadUid | .hostReadUcid
  | .hostReadFlash _ _ | .hostWriteFlash _ _ _ | .hostMassErase | .hostPageErase _
  | .hostVerifyFlash _ _ _ | .hostReadConfig | .hostWriteConfig _ _ | .hostProgramRegion _ _ _
  | .configDecode _ | .configEncode _ => s

end Sys2Proof.Machine
end

