-- ==== Sys2Proof/Machine/Transport.lean ====
section
/-! DEFINITION. The receive agent and the tick agent of machine D (42_uart_transport.md). -/

namespace Sys2Proof.Machine

/-- The connect handshake's checks on a byte `b` just stored at position `p` (R231, R232): the error
to raise, or none. -/
def handshakeError (p : BitVec 7) (c : CState) (b : Byte) : Option (ErrKind × Word) :=
  if p = 0 ∧ (c = .disconnected ∨ c = .connecting) ∧ b ≠ 0xAE then
    some (.frameBadConnect, b.setWidth 16)
  else if (p = 1 ∨ p = 2 ∨ p = 3) ∧ c = .connecting ∧ b ≠ 0 then
    some (.frameBadMagic, p.setWidth 16)
  else none

/-- `RXBUF[p] <- b; RXHEAD <- p + 1` at `p = RXHEAD` (R230). -/
def storeByte (b : Byte) (d : DRegs) : DRegs :=
  { d with rxbuf := d.rxbuf.setIfInBounds d.rxhead.toNat b, rxhead := d.rxhead + 1 }

/-- A framing violation (R231, R232, R402): `RXHEAD <- 0; CSTATE <- DISCONNECTED`. -/
def dropHandshake (d : DRegs) : DRegs := { d with rxhead := 0, cstate := .disconnected }

/-- `CSTATE <- CONNECTING` on a kept first byte of a device that is not connected (R231). -/
def connectingOnFirst (p : BitVec 7) (d : DRegs) : DRegs :=
  if p = 0 ∧ d.cstate = .disconnected then { d with cstate := .connecting } else d

/-- The idle timer is armed on a packet's first byte (R234). -/
def armOnFirst (p : BitVec 7) (idleTicks : BitVec 8) (d : DRegs) : DRegs :=
  if p = 0 then d.armIdle idleTicks else d

/-- `RXREADY` is raised when the store made `RXHEAD = 64` (R235). -/
def readyOnFull (d : DRegs) : DRegs := if d.rxFull then d.packetReady else d

/-- `RxByte(b)` of a listening machine (R230). -/
def rxByte (b : Byte) (s : State) : State :=
  if s.d.rxFull then raise .rxOverrun (b.setWidth 16) s
  else
    match handshakeError s.d.rxhead s.d.cstate b with
    | some (kind, info) => raise kind info (setD (fun d => dropHandshake (storeByte b d)) s)
    | none =>
      setD (fun d =>
        readyOnFull (armOnFirst s.d.rxhead s.params.idleTicks
          (connectingOnFirst s.d.rxhead (storeByte b d)))) s

/-- The receive agent's step (R230, R239): no effect while `IE = 0` or in a terminal state. -/
def rxStep (b : Byte) (s : State) : State := if s.d.listening then rxByte b s else s

/-- `Tick()` (R236): the idle timer, then the connection timer. -/
def tickTimers (s : State) : State := setD (fun d => d.tickIdle.tickConn) s

/-- The tick agent's step (R236, R239). -/
def tickStep (s : State) : State := if s.d.listening then tickTimers s else s

end Sys2Proof.Machine
end

