-- ==== Sys2Proof/Machine/MainLoop.lean ====
section
/-! DEFINITION. The main loop of machine D (42_uart_transport.md R245 to R248), dispatch's prologue,
decode and epilogue around the command's own meaning (43_dispatch_commands.md R270 to R276), the
calls of machine H, and the step of each input event. -/

namespace Sys2Proof.Machine

/-! ### Dispatch -/

/-- `SEQ_POLICY(SEQ, hseq)` (R10, R271, decision D12). -/
def seqPolicyHolds (p : SeqPolicy) (tracked hseq : Word) : Bool :=
  match p with
  | .off => true
  | .mustMatch => hseq == tracked
  | .custom => Config.customSeqPolicy tracked hseq

/-- `op`, the snapshot of `RXBUF[0]` (R35, R270). -/
def rxOpcode (d : DRegs) : Byte := d.rxbuf[0]

/-- `hseq`, the sequence field of the inbound packet (R111, R270). -/
def rxSeqField (d : DRegs) : Word := le16 d.rxbuf[4] d.rxbuf[5]

/-- The packet in `RXBUF` as it is put to the decoder. -/
def rxCode (d : DRegs) : Code := .packet d.rxbuf.toList

/-- The prologue once the policy has accepted (R270, R272): interrupts off, the counter incremented,
`CSTATE <- COMMAND` for every opcode but 0x00. -/
def prologue (s : State) : State :=
  setD (fun d =>
    { d with ie := false, seq := d.seq + 1,
             cstate := if rxOpcode d = 0x00 then d.cstate else .command }) s

/-- The epilogue (R276), skipped when the command ended in a terminal state. -/
def epilogue (s : State) : State :=
  if s.d.terminal = .running then setD DRegs.epilogue s else s

/-- A packet the policy discards (R271): `SEQ_MISMATCH`, then the epilogue; nothing else. -/
def discardPacket (s : State) : State :=
  setD DRegs.epilogue
    (raise .seqMismatch (rxSeqField s.d) (setD (fun d => { d with ie := false }) s))

/-- The instruction of the packet in `RXBUF` runs (R275). Its 64 bytes decode whatever they are (R123),
so the second arm is never taken. -/
def runPacket (s : State) : Out :=
  match decode s.params (rxCode s.d) with
  | .ok i => exec i s
  | .reject _ => .next s

/-- Run `f` on the next state, keep a stop. -/
def mapNext (f : State → State) : Out → Out
  | .next s => .next (f s)
  | .fault r => .fault r
  | .refused r => .refused r

/-- `Dispatch()` (R270): one atomic step. -/
def dispatch (s : State) : Out :=
  if seqPolicyHolds s.params.seqPolicy s.d.seq (rxSeqField s.d) then
    mapNext epilogue (runPacket (prologue s))
  else .next (discardPacket s)

/-- A dispatch up to the `k`th write of its flash work; nothing where the main loop would make none.
What it leaves in the registers does not matter: a reset follows. -/
def dispatchPart (k : Nat) (s : State) : State :=
  if s.d.terminal = .running ∧ s.d.mphase = .m1 ∧ s.d.rxready = true ∧
      seqPolicyHolds s.params.seqPolicy s.d.seq (rxSeqField s.d) = true then
    match decode s.params (rxCode s.d) with
    | .ok i => workPart k i (prologue s)
    | .reject _ => s
  else s

/-- Reset inside a dispatch (R452): the flash is left as it was at that instant, and machine D is
reset. -/
def resetDDuring (k : Nat) (s : State) : State := resetD (dispatchPart k s)

/-! ### Main-loop phases -/

/-- `ConnTimeout()` (R247): raised, and the boot sequence to APROM. -/
def connTimeout (s : State) : State := bootSequence .aprom (raise .connTimeout 0 s)

/-- `IdleTimeout()` (R248): the head reset, `CSTATE` and the flag kept. -/
def idleTimeout (s : State) : State :=
  raise .frameIdleTimeout (s.d.rxhead.setWidth 16) (setD (fun d => { d with rxhead := 0 }) s)

/-- The action of the current phase (R245 to R248). -/
def phaseAction (s : State) : Out :=
  match s.d.mphase with
  | .m1 => if s.d.rxready then dispatch s else .next s
  | .m2 => .next (if s.d.connExpired then connTimeout s else s)
  | .m3 => .next (if s.d.idleExpired && s.d.partlyFilled then idleTimeout s else s)

/-- `if TERMINAL = RUNNING: MPHASE <- next(MPHASE)` (R245). -/
def nextPhase (s : State) : State :=
  if s.d.terminal = .running then setD (fun d => { d with mphase := d.mphase.succ }) s else s

/-- `Main()` (R245); no effect in a terminal state (R425). -/
def mainStep (s : State) : Out :=
  if s.d.terminal = .running then mapNext nextPhase (phaseAction s) else .next s

/-! ### Events -/

/-- The state in which machine H looks at the operand that is out of range: a code of `SendCommand`
and a pattern are units of the wire and gated like them (log entries 13, 17). -/
def turnGate (e : DecodeError) (s : State) : Bool :=
  match e with
  | .reservedIcpCode => enteredOwned s
  | .notTheResetPattern => s.h.pinsOwned
  | .notAPacket => true
  | .notAnOperation => true

/-- What is put to the call port and is no instruction (R131, U9: "refuse", which is "rejected with no
effect"): `E_BAD_ARG`, "nothing was done" (R204; the status is the model's choice, log entry 23). -/
def turnAway (e : DecodeError) (s : State) : Out :=
  gated (turnGate e s) (returns .eBadArg (.bytes [])) s

/-- The decoder of the call port: a packet belongs to machine D's UART and is no operation. -/
def decodeCall (p : Params) (c : Code) : Decoded :=
  match c with
  | .packet _ => .reject .notAnOperation
  | .data24 w => decode p (.data24 w)
  | .reset24 w => decode p (.reset24 w)
  | .read9 w => decode p (.read9 w)
  | .write9 w d1 d2 => decode p (.write9 w d1 d2)
  | .call i => decode p (.call i)

/-- What is put to machine H's call port (R440) is decoded and run. -/
def callStep (c : Code) (s : State) : Out :=
  match decodeCall s.params c with
  | .ok i => exec i s
  | .reject e => turnAway e s

/-- The step of one input event (R440, R441). -/
def eventStep (e : Event) (s : State) : Out :=
  match e with
  | .rx b => .next (rxStep b s)
  | .tick => .next (tickStep s)
  | .main => mainStep s
  | .resetD => .next (resetD s)
  | .resetDDuring k => .next (resetDDuring k s)
  | .resetH => .next (resetH s)
  | .setTiming r v => .next (setTiming r v s)
  | .pinGrant ok => .next { s with pinGrant := ok }
  | .flashWear cells => .next { s with worn := cells }
  | .chipToTarget => .next (chipToTarget s)
  | .chipToDevice => .next (chipToDevice s)
  | .call c => callStep c s

end Sys2Proof.Machine
end

