-- ==== Sys2Proof/Machine/Step.lean ====
section
/-! DEFINITION. One step: the next input event, or, with none pending, one step of the main loop, which
runs by itself (R245, R480 F1; log entry 8). And `State.withFetchWord`. -/

namespace Sys2Proof.Machine

/-- One step of the model. -/
def step (s : State) : Host.Outcome State Fault Refusal :=
  match s.sched with
  | [] => mainStep s
  | e :: rest => eventStep e { s with sched := rest }

/-- A byte list as the receive buffer's contents, zero past its end. -/
def bufOf (bytes : List Byte) : Vector Byte 64 := fillAt zeroBuf 0 bytes

/-- `s` with the instruction of an opcode-table word placed so that the very next step runs it: a
packet complete in `RXBUF` with the main loop at M1 and running, or a unit of the ICP wire on the
call port (log entry 5). -/
def State.withFetchWord (s : State) (nbits w : Nat) : State :=
  match tableCode s.params nbits w with
  | .packet bytes =>
    { s with
      d := { s.d with rxbuf := bufOf bytes, rxhead := 64, rxready := true, mphase := .m1,
                      terminal := .running, ie := true }
      sched := .main :: s.sched }
  | c => { s with sched := .call c :: s.sched }

end Sys2Proof.Machine
end

