-- ==== Sys2Proof/Safety.lean ====
section
/-! DEFINITION. The terms claims are stated in: the packets and wire sequences of the spec written out
a second time and in another form than the machine computes them (as lists and sums, not as buffer
writes and recursions), which cells exist, which operation each state admits, and the invariants
that every step keeps. -/

namespace Sys2Proof

/-- The instructions of machine D, the UART packets (R3). -/
def Instr.ofD : Instr → Bool
  | .continuation _ _ | .updateAprom _ _ _ _ _ _ | .updateConfig _ _ _ | .readConfig _ _
  | .eraseAll _ _ | .syncSeq _ _ | .readRom _ _ _ _ _ | .getFwVersion _ _ | .runAprom _ _
  | .runLdrom _ _ | .resetCmd _ _ | .connect _ _ | .getDeviceId _ _ | .getUid _ _ | .getCid _ _
  | .getUcid _ _ | .getFlashMode _ _ | .pageErase _ _ _ | .unrecognized _ _ _ => true
  | .icpReadFlash _ | .icpReadUid _ | .icpReadCid _ | .icpReadDeviceId _ | .icpWriteFlash _
  | .icpPageErase _ | .icpMassErase _ | .icpEntryPattern | .icpExitPattern | .icpResetSeq
  | .icpByteRead _ | .icpByteWrite _ _ _ _ => false
  | .hostInit _ | .hostExit | .hostDeinit _ | .hostReentry _ _ _ | .hostReentryGlitch _ _ _ _
  | .hostReadDeviceId | .hostCheckDeviceId | .hostReadCid | .hostReadUid | .hostReadUcid
  | .hostReadFlash _ _ | .hostWriteFlash _ _ _ | .hostMassErase | .hostPageErase _
  | .hostVerifyFlash _ _ _ | .hostReadConfig | .hostWriteConfig _ _ | .hostProgramRegion _ _ _
  | .configDecode _ | .configEncode _ => false

end Sys2Proof

namespace Sys2Proof.Machine

/-! ### Packets of machine D -/

/-- The sum of the 64 inbound bytes (R114). -/
def packetSum (buf : Vector Byte 64) : Nat := (buf.toList.map BitVec.toNat).sum

/-- `ck` of the packet in `RXBUF` (R240): that sum modulo 65536. -/
def inboundCk (d : DRegs) : Word := BitVec.ofNat 16 (packetSum d.rxbuf)

/-- The 64 bytes of an outbound packet (R112): two checksum bytes, two zeros, the sequence number low
byte first, two zeros, the payload, zeros to the end. -/
def packetBytes (ck0 ck1 : Byte) (seq : Word) (payload : List Byte) : List Byte :=
  [ck0, ck1, 0, 0, lo8 seq, hi8 seq, 0, 0] ++ payload ++ List.replicate (56 - payload.length) 0

/-- The good reply to the packet in `RXBUF` (R112, R241). -/
def goodPacket (d : DRegs) (payload : List Byte) : List Byte :=
  packetBytes (lo8 (inboundCk d)) (hi8 (inboundCk d)) d.seq payload

/-- The fail packet (R113, R242): the first two bytes complemented, the payload zero. -/
def failPacket (d : DRegs) : List Byte :=
  packetBytes (~~~lo8 (inboundCk d)) (~~~hi8 (inboundCk d)) d.seq []

/-- The output events of a packet (R243, R244): its bytes in order, a watchdog kick after each in a
watchdog-enabled build. -/
def sendEvents (wdtBuild : Bool) (bytes : List Byte) : List DEvent :=
  bytes.flatMap fun b => .tx b :: (if wdtBuild then [.wdtKick] else [])

/-- `t` is `u` with the packet `pkt` left in `TXBUF` and sent, and nothing else changed. -/
def SentFrom (u t : State) (pkt : List Byte) : Prop :=
  ∃ buf : Vector Byte 64, buf.toList = pkt ∧
    t = { u with d := { u.d with
            txbuf := buf, trace := u.d.trace ++ sendEvents u.params.wdtBuild pkt } }

/-- `t` is `u` after one error event (R400), then the packet `pkt` left in `TXBUF` and sent. -/
def FailedFrom (u t : State) (kind : ErrKind) (info : Word) (pkt : List Byte) : Prop :=
  SentFrom { u with d := { u.d with trace := u.d.trace ++ [.err kind info] } } t pkt

/-! ### Flash -/

/-- The cells the spec lays out (R71, R72, R381): APROM and LDROM from 0 on, the config sector at
0x30000. -/
abbrev cellExists (p : Params) (a : Nat) : Prop :=
  a < p.apromSize + p.ldromSize ∨ (0x30000 ≤ a ∧ a < 0x30005)

/-- What programming leaves in the cell at `a` (R80; a worn cell keeps the byte it is listed with,
R331). -/
def burnt (s : State) (a : Nat) (v : Byte) : Byte :=
  match s.worn.lookup a with
  | some r => r
  | none => s.flash.read a &&& v

/-- What the erased cell at `a` holds once `v` was programmed: `v`, or the byte of a worn cell. -/
def takenByte (s : State) (a : Nat) (v : Byte) : Byte := (s.worn.lookup a).getD v

/-- `a` lies in one of the pages that meet `[start, last)` (R330): not below the first page, and in a
page that begins below `last`. -/
def inErasedPages (start last a : Nat) : Prop := start / 128 * 128 ≤ a ∧ a / 128 * 128 < last

/-- `n` bytes of the flat flash space from `a` on through the overlay (R71, R81): an address below
`APROM_SIZE` is that APROM byte, one above is the LDROM byte at its offset. -/
def flatBytes (s : State) (a n : Nat) : List Byte :=
  (List.range n).map fun k =>
    if a + k < s.params.apromSize then flashRead .aprom (a + k) s
    else flashRead .ldrom (a + k - s.params.apromSize) s

/-! ### The ICP wire -/

/-- Bits `n-1` down to 0, the most significant first (R76). -/
def msbFirst {w : Nat} (v : BitVec w) : List Bool := (List.range w).map fun i => v.getLsbD (w - 1 - i)

/-- The bits on DATA, one CLOCK pulse each (R152). -/
def pulses (d : Nat) (bits : List Bool) : List HEvent :=
  bits.flatMap fun b => [.pin .dat b, .delay d, .pin .clk true, .delay d, .pin .clk false]

/-- Every bit of `v` clocked out (R152). -/
def sendTrace {w : Nat} (v : BitVec w) (d : Nat) : List HEvent := .dir .output :: pulses d (msbFirst v)

/-- The frame on the wire (R127): the low 18 bits of the parameter, then the 6-bit code. -/
def wireFrame (cmd : BitVec 6) (param : Nat) : Icp24 :=
  BitVec.ofNat 24 (param % 2 ^ 18 * 64 + cmd.toNat)

/-- The events of a command frame (R155). -/
def frameTrace (f : Icp24) (d : Nat) : List HEvent := sendTrace f d ++ [.frame f]

/-- The events of a byte read whose samples form `v` (R153). -/
def readTrace (d : Nat) (v : Byte) (e : Bool) : List HEvent :=
  .dir .input :: .delay d ::
    (((msbFirst v).flatMap fun b =>
      ([.delay d, .sample b, .pin .clk true, .delay d, .pin .clk false] : List HEvent)) ++
    ([.dir .output, .delay d, .pin .dat e, .delay d, .pin .clk true, .delay d, .pin .clk false,
      .delay d, .pin .dat false, .rdByte v e] : List HEvent))

/-- The events of a byte write (R154). -/
def writeTrace (d1 d2 d : Nat) (v : Byte) (e : Bool) : List HEvent :=
  sendTrace v d ++
    ([.pin .dat e, .delay d1, .pin .clk true, .delay d2, .pin .dat false, .pin .clk false,
      .wrByte v e d1 d2] : List HEvent)

/-- Byte reads in order, the end flag 1 on the last and 0 before (R192, R195). -/
def readsTrace (d : Nat) (bs : List Byte) : List HEvent :=
  bs.zipIdx.flatMap fun p => readTrace d p.1 (p.2 + 1 == bs.length)

/-- Byte writes in order, the end flag 1 on the last and 0 before (R196). -/
def writesTrace (d1 d2 d : Nat) (bs : List Byte) : List HEvent :=
  bs.zipIdx.flatMap fun p => writeTrace d1 d2 d p.1 (p.2 + 1 == bs.length)

/-- One READ_UID frame and one closing byte read for each byte, the index counting from `base`
(R193, R194). -/
def indexedTrace (base : Nat) (t : Timing) (bs : List Byte) : List HEvent :=
  bs.zipIdx.flatMap fun p =>
    frameTrace (wireFrame cmdReadUid (base + p.2)) t.cmdBit.toNat ++ readTrace t.readBit.toNat p.1 true

/-- The events of `page_erase(a)` (R198). -/
def pageEraseTrace (t : Timing) (a : Nat) : List HEvent :=
  frameTrace (wireFrame cmdPageErase a) t.cmdBit.toNat ++
    writeTrace t.pageErase.toNat t.pageEraseHold.toNat t.writeBit.toNat 0xFF true

/-- The events of `write_flash` with the bytes `bs` (R196). -/
def writeFlashTrace (t : Timing) (a : Nat) (bs : List Byte) : List HEvent :=
  frameTrace (wireFrame cmdWriteFlash a) t.cmdBit.toNat ++
    writesTrace t.program.toNat t.writeHold.toNat t.writeBit.toNat bs

/-- The events of `read_flash` when the bytes read are `bs` (R195). -/
def readFlashTrace (t : Timing) (a : Nat) (bs : List Byte) : List HEvent :=
  frameTrace (wireFrame cmdReadFlash a) t.cmdBit.toNat ++ readsTrace t.readBit.toNat bs

/-- The reset pattern on the RESET line, one level per bit period (R158). -/
def resetTrace (w : Icp24) (d : Nat) : List HEvent :=
  ((msbFirst w).flatMap fun b => [.pin .rst b, .delay d]) ++ [.resetSeq]

/-- The entry pattern, a settle time, `Entry` (R158). -/
def entryTrace (t : Timing) (settle : Nat) : List HEvent :=
  sendTrace (0x5AA503 : Icp24) t.entryBit.toNat ++ [.delay settle, .entry]

/-- The exit pattern, its settle time, `Exit` (R159). -/
def exitTrace (t : Timing) : List HEvent :=
  sendTrace (0x0F78F0 : Icp24) t.exitBit.toNat ++ [.delay t.exitSettle.toNat, .exit]

/-- `ExitCore()` (R159). -/
def exitCoreTrace (p : Params) (t : Timing) : List HEvent :=
  .pin .rst (!p.rstAssertLevel) :: .delay t.exitRstHigh.toNat :: .pin .rst p.rstAssertLevel ::
    .delay t.exitRstLow.toNat :: exitTrace t

/-- The pin latches after a byte transfer (R153, R154): DATA low and driven, CLOCK low. -/
def Pins.rested (p : Pins) : Pins := { p with datOut := false, datDir := .output, clk := false }

/-- The pin latches after the bits of `v` (R152): DATA at the last bit, driven, CLOCK low. -/
def Pins.sentLast (b : Bool) (p : Pins) : Pins := { p with datOut := b, datDir := .output, clk := false }

/-- `s` once machine H has performed `evs` and answered `ret`: the pin latches are `pins`, the target's
flash is `m`, its registers are `tg`, `n` free values have been drawn; nothing else has changed. -/
def wireDone (evs : List HEvent) (pins : Pins) (ret : Status × RetData) (m : Memory) (tg : Target)
    (n : Nat) (s : State) : State :=
  { s with h := { s.h with pins := pins, trace := s.h.trace ++ evs, ret := some ret },
           tflash := m, tgt := tg, freeCtr := n }

/-- `s` once machine H has answered `ret` and done nothing else. -/
def answered (ret : Status × RetData) (s : State) : State :=
  { s with h := { s.h with ret := some ret } }

/-- The waits of a trace, summed (R481). -/
def waited (es : List HEvent) : Nat :=
  (es.map fun e => match e with
    | .delay t => t
    | .pin _ _ | .dir _ | .sample _ | .acquire _ | .release _ | .entry | .resetSeq | .exit
    | .frame _ | .rdByte _ _ | .wrByte _ _ _ _ => 0).sum

/-- `ds` are the `len` elements of the caller's array `data` that an operation uses (R196, R199, R205):
the array's own in order; where it has none left, any byte (log entry 4). An array longer than `len`
gives its first `len`. -/
abbrev takesArray (len : Nat) (data ds : List Byte) : Prop :=
  ds.length = len ∧ ∀ k < len, k < data.length → ds[k]? = data[k]?

/-! ### The reference target -/

/-- The target's command interface is unlocked, no command is open, framing is kept (R382, R383). -/
abbrev Target.ready (t : Target) : Prop := t.prog = true ∧ t.cmd = none ∧ t.desync = false

/-- The reference target answers and is ready for a frame. -/
abbrev targetReady (s : State) : Prop := s.targetKind = .reference ∧ s.tgt.ready

/-- The target's registers after an `Entry` (R382): programming mode, no command, the lock latched from
bit 1 of the first config byte (R364); an oracle keeps none (R150). -/
def targetEntered (s : State) : Target :=
  match s.targetKind with
  | .reference => { s.tgt with
      prog := true, cmd := none, desync := false, armed := false,
      locked := !(s.tflash.read 0x30000).getLsbD 1 }
  | .oracle => s.tgt

/-- The target's registers after an `Exit` (R382). -/
def targetExited (s : State) : Target :=
  match s.targetKind with
  | .reference => { s.tgt with prog := false, cmd := none }
  | .oracle => s.tgt

/-- What READ_FLASH gives at the address `a` (R384, R387). -/
def icpCell (s : State) (a : Nat) : Byte :=
  if s.tgt.locked then 0xFF
  else if a < s.params.apromSize + s.params.ldromSize ∨ (0x30000 ≤ a ∧ a < 0x30005) then s.tflash.read a
  else 0xFF

/-- `a` is a cell a page erase of the 18-bit address `x` erases (R385): its 128-byte page as far as the
flash reaches, or the config sector for an address in its 128. -/
abbrev inIcpPage (p : Params) (x a : Nat) : Prop :=
  (x < p.apromSize + p.ldromSize ∧ a / 128 = x / 128 ∧ a < p.apromSize + p.ldromSize) ∨
    (p.apromSize + p.ldromSize ≤ x ∧ 0x30000 ≤ x ∧ x ≤ 0x3007F ∧ 0x30000 ≤ a ∧ a < 0x30005)

/-- `n` bytes from `a` on, the pointer counting modulo 2^18 (R383). -/
def icpBytes (s : State) (a n : Nat) : List Byte :=
  (List.range n).map fun k => icpCell s ((a + k) % 2 ^ 18)

/-- What the cell at `x` holds after the bytes `data` were written one after the other from `a` on, the
pointer counting modulo 2^18 (R383): each byte that falls on the cell is ANDed into it (R388). -/
def icpBurnt (data : List Byte) (a x : Nat) (old : Byte) : Byte :=
  data.zipIdx.foldl (fun acc p => if (a + p.2) % 2 ^ 18 = x then acc &&& p.1 else acc) old

/-- The first index at which two lists of one length differ (R199). -/
def firstDiff (got expected : List Byte) : Option Nat :=
  (List.range got.length).find? fun k => got[k]? != expected[k]?

/-- What a verification answers (R199, R204): `OK`, or `E_VERIFY` with the first index that differs. -/
def verifyAnswer (got expected : List Byte) : Status × RetData :=
  match firstDiff got expected with
  | none => (.ok, .bytes [])
  | some k => (.eVerify, .index k)

/-- The byte the target's open command `c` gives at the pointer `p`, the table of R387 written out: the
flash and config cells and the CID hidden while locked (R384), an index past an identity array 0xFF, a
read after a write-type frame 0xFF. -/
def icpAnswer (s : State) (c : IcpCmd) (p : Nat) : Byte :=
  match c with
  | .readFlash => icpCell s p
  | .readDeviceId => s.ident.did[p]?.getD 0xFF
  | .readCid => if s.tgt.locked then 0xFF else s.ident.cid[p]?.getD 0xFF
  | .readUid =>
    if p < s.ident.uid.length then s.ident.uid[p]?.getD 0xFF
    else if p < s.params.ucidParamBase.toNat then 0xFF
    else s.ident.ucid[p - s.params.ucidParamBase.toNat]?.getD 0xFF
  | .writeFlash => 0xFF
  | .pageErase => 0xFF
  | .massErase => 0xFF

/-- The target's registers after a frame of the code of `c` with the parameter `param` (R382): out of
programming mode, or with no target that answers, it is ignored; with a command still open framing is
lost; otherwise its command is open at its parameter. -/
def targetFramed (s : State) (c : IcpCmd) (param : BitVec 18) : Target :=
  if s.targetKind = .oracle ∨ s.tgt.prog = false then s.tgt
  else if s.tgt.cmd ≠ none then { s.tgt with desync := true }
  else { s.tgt with
    cmd := some c, ptr := param, armed := decide (c = .massErase ∧ param = 0x3A5A5) }

/-- The unit `i` sends the frame of `cmd` and `param`, returns `OK`, and the target takes it as the
command `c` (R155, R382). -/
def SendsFrame (i : Instr) (cmd : BitVec 6) (c : IcpCmd) (param : BitVec 18) (s : State) : Prop :=
  exec i s = .next (wireDone
    (frameTrace (wireFrame cmd param.toNat) s.h.timing.cmdBit.toNat)
    (s.h.pins.sentLast (cmd.getLsbD 0)) (.ok, .bytes []) s.tflash (targetFramed s c param)
    s.freeCtr s)

/-! ### Inputs -/

/-- The next input is a main-loop step, or none is pending (R245). -/
abbrev atMain (s : State) : Prop := s.sched = [] ∨ s.sched.head? = some .main

/-- `s` with its next input taken. -/
def inputTaken (s : State) : State := { s with sched := s.sched.tail }

/-- An input of machine H: its call port, its reset, the caller's timing registers, the pin driver
(R440, R441). -/
def Event.ofH : Event → Bool
  | .call _ | .resetH | .setTiming _ _ | .pinGrant _ => true
  | .rx _ | .tick | .main | .resetD | .resetDDuring _ | .flashWear _ | .chipToTarget
  | .chipToDevice => false

/-- An input of machine D: its UART, its timer, its main loop, its reset (R16, R440). -/
def Event.ofD : Event → Bool
  | .rx _ | .tick | .main | .resetD | .resetDDuring _ => true
  | .resetH | .setTiming _ _ | .pinGrant _ | .flashWear _ | .chipToTarget | .chipToDevice
  | .call _ => false

/-- An input that begins a run of machine D (U15): its reset input, at any instant, or the chip put
back from the ICP wire. -/
def Event.beginsRun : Event → Bool
  | .resetD | .resetDDuring _ | .chipToDevice => true
  | .rx _ | .tick | .main | .resetH | .setTiming _ _ | .pinGrant _ | .flashWear _ | .chipToTarget
  | .call _ => false

/-! ### A run of machine D begins -/

/-- The parameters of the run that begins with the byte `b1` at offset 1 of the config (R363): LDROM has
the size its low three bits select. That APROM has the rest of the chip's flash, and that the sizes stay
where it would have no page, is the model's choice (log entry 28). -/
def runParams (p : Params) (b1 : Byte) : Params :=
  let size := [4096, 4096, 4096, 4096, 3072, 2048, 1024, 0].getD (b1.toNat % 8) 0
  if p.apromSize + p.ldromSize < size + 128 then p
  else { p with apromSize := p.apromSize + p.ldromSize - size, ldromSize := size }

/-- The registers of machine D right after its reset (R50). `RXBUF` and `TXBUF`, which that rule does
not fix, are `rx` and `tx`. -/
def deviceReset (p : Params) (rx tx : Vector Byte 64) : DRegs where
  rxbuf := rx
  rxhead := 0
  rxready := false
  txbuf := tx
  seq := 0
  cstate := .disconnected
  startAddr := 0
  endAddr := 0
  curAddr := 0
  idleCnt := 0
  idleExpired := false
  connCnt := p.connTimeoutTicks
  connExpired := false
  ie := true
  terminal := .running
  mphase := .m1
  iapen := true
  trace := []

/-- `t` is `s` with a run of machine D begun over the flash `m` (R450, R452), and nothing else changed. -/
def BeginsRun (m : Memory) (s t : State) : Prop :=
  ∃ rx tx : Vector Byte 64, t = { s with
    params := runParams s.params (m.read 0x30001)
    d := deviceReset (runParams s.params (m.read 0x30001)) rx tx
    flash := m }

/-! ### Gating of machine H -/

/-- Whether the state admits the instruction (R156, R163, R430). A packet of machine D and the two
pure operations of the config codec are not gated. -/
def admits (s : State) : Instr → Bool
  | .hostInit _ => !s.h.pinsOwned
  | .hostDeinit _ => true
  | .hostReentry _ _ _ | .hostReentryGlitch _ _ _ _ | .icpEntryPattern | .icpResetSeq => s.h.pinsOwned
  | .hostExit | .hostReadDeviceId | .hostCheckDeviceId | .hostReadCid | .hostReadUid
  | .hostReadUcid | .hostReadFlash _ _ | .hostWriteFlash _ _ _ | .hostMassErase | .hostPageErase _
  | .hostVerifyFlash _ _ _ | .hostReadConfig | .hostWriteConfig _ _ | .hostProgramRegion _ _ _
  | .icpReadFlash _ | .icpReadUid _ | .icpReadCid _ | .icpReadDeviceId _ | .icpWriteFlash _
  | .icpPageErase _ | .icpMassErase _ | .icpExitPattern | .icpByteRead _ | .icpByteWrite _ _ _ _ =>
    s.h.istate == .entered && s.h.pinsOwned
  | .continuation _ _ | .updateAprom _ _ _ _ _ _ | .updateConfig _ _ _ | .readConfig _ _
  | .eraseAll _ _ | .syncSeq _ _ | .readRom _ _ _ _ _ | .getFwVersion _ _ | .runAprom _ _
  | .runLdrom _ _ | .resetCmd _ _ | .connect _ _ | .getDeviceId _ _ | .getUid _ _ | .getCid _ _
  | .getUcid _ _ | .getFlashMode _ _ | .pageErase _ _ _ | .unrecognized _ _ _ => true
  | .configDecode _ | .configEncode _ => true

/-! ### Invariants -/

/-- The device is connected: past the handshake (R297). -/
def CState.connected : CState → Bool
  | .disconnected | .connecting => false
  | .command | .updating | .dumping => true

/-- The handshake bytes `AE 00 00 00` as far as they are stored (R231, R232, R297). -/
abbrev handshakeStored (d : DRegs) : Prop :=
  (0 < d.rxhead.toNat → d.rxbuf[0] = 0xAE) ∧ (1 < d.rxhead.toNat → d.rxbuf[1] = 0) ∧
    (2 < d.rxhead.toNat → d.rxbuf[2] = 0) ∧ (3 < d.rxhead.toNat → d.rxbuf[3] = 0)

/-- What every state of machine D that a run reaches satisfies. In the order of the clauses: the range
of `RXHEAD` (R21); `RXREADY` exactly at 64 (R235); `IE` and `IAPEN` by run state (R29, R32, R420); an
empty buffer while `DISCONNECTED`; the stored handshake while `CONNECTING`, and the connection timer
disarmed once connected (R297, R237); the ranges of an update and a dump (R26, R299); the timers
(R27, R28, R236); a partly filled packet has its idle timer running or expired (R234). -/
abbrev DRegs.Inv (p : Params) (d : DRegs) : Prop :=
  d.rxhead.toNat ≤ 64 ∧
  (d.rxready = true ↔ d.rxhead.toNat = 64) ∧
  (d.ie = true ↔ d.terminal = .running) ∧
  (d.iapen = true ↔ d.terminal = .running ∨ d.terminal = .haltVerify) ∧
  (d.cstate = .disconnected → d.rxhead.toNat = 0) ∧
  (d.cstate = .connecting → handshakeStored d) ∧
  (d.cstate.connected = true → d.connCnt = 0 ∧ d.connExpired = false) ∧
  (d.cstate = .updating → d.startAddr.toNat ≤ d.curAddr.toNat ∧ d.curAddr.toNat < d.endAddr.toNat ∧
    d.endAddr.toNat ≤ p.apromSize) ∧
  (d.cstate = .dumping → d.startAddr.toNat ≤ d.curAddr.toNat ∧ d.curAddr.toNat < d.endAddr.toNat ∧
    d.endAddr.toNat ≤ p.apromSize + p.ldromSize) ∧
  (d.idleCnt ≠ 0 → d.idleExpired = false) ∧ d.idleCnt.toNat ≤ p.idleTicks.toNat ∧
  (d.connCnt ≠ 0 → d.connExpired = false) ∧ d.connCnt.toNat ≤ p.connTimeoutTicks.toNat ∧
  (0 < d.rxhead.toNat → d.rxhead.toNat < 64 → d.idleCnt ≠ 0 ∨ d.idleExpired = true)

/-- What every state of machine H between operations satisfies: the engine states of R156, CLOCK and
TRIGGER low, DATA driven (R152 to R154, R162). -/
abbrev HRegs.Inv (h : HRegs) : Prop :=
  (h.istate = .entered → h.pinsOwned = true) ∧ (h.pinsOwned = true → h.istate ≠ .uninitialized) ∧
  h.pins.clk = false ∧ h.pins.trig = false ∧ h.pins.datDir = .output

/-- The reference target opens a command only in programming mode (R382). -/
abbrev Target.Inv (t : Target) : Prop := t.prog = false → t.cmd = none

/-- The flash array is in canonical form and lists only cells that exist (R33, R71, R72). -/
abbrev flashOk (p : Params) (m : Memory) : Prop :=
  m.wf ∧ ∀ c ∈ m, c.1 < p.apromSize + p.ldromSize ∨ (0x30000 ≤ c.1 ∧ c.1 < 0x30005)

/-- The invariant of the whole state. -/
abbrev State.Inv (s : State) : Prop :=
  s.params.Wf ∧ s.d.Inv s.params ∧ s.h.Inv ∧ s.tgt.Inv ∧ flashOk s.params s.flash ∧
    flashOk s.params s.tflash

end Sys2Proof.Machine
end

