-- ==== Sys2Proof/Certificates/Slice0/Obligations.lean ====
section
/-! DEFINITION. The statements for the provers. Each docstring names the rules of the spec it states; a
clause that rests on a choice of the model says so and names its log entry. -/

open Sys2Proof Sys2Proof.Machine

/-! ### Encodings -/

/-- Words written out in the spec decode to the instructions they stand for: frames of the vectors V71
to V76, the two patterns of R128 on DATA, a CONNECT packet, the UPDATE_APROM packet of R286, the
PAGE_ERASE packet of R293 and the unrecognized packet of R295. -/
def Obligations.WordsOfTheSpecDecode : Prop :=
  decodeData24 0x002400 = .ok (.icpReadFlash 0x0090) ∧
  decodeData24 0x002021 = .ok (.icpWriteFlash 0x0080) ∧
  decodeData24 0xE96966 = .ok (.icpMassErase 0x3A5A5) ∧
  decodeData24 0xC00022 = .ok (.icpPageErase 0x30000) ∧
  decodeData24 0x00000C = .ok (.icpReadDeviceId 0) ∧
  decodeData24 0x5AA503 = .ok .icpEntryPattern ∧
  decodeData24 0x0F78F0 = .ok .icpExitPattern ∧
  decodePacket ([0xAE] ++ List.replicate 63 0) =
    .ok (.connect ⟨0, 0, 0⟩ (List.replicate 56 0)) ∧
  decodePacket ([0xA0, 0, 0, 0, 1, 0, 0, 0, 0xFF, 0x37, 0, 0, 2, 0, 0, 0, 0xAA, 0xAA] ++
      List.replicate 46 0) =
    .ok (.updateAprom ⟨0, 1, 0⟩ 0x37FF 0 2 0 ([0xAA, 0xAA] ++ List.replicate 46 0)) ∧
  decodePacket ([0xD5, 0, 0, 0, 2, 0, 0, 0, 0x95] ++ List.replicate 55 0) =
    .ok (.pageErase ⟨0, 2, 0⟩ 0x0095 (List.replicate 54 0)) ∧
  decodePacket ([0x77, 0, 0, 0, 2] ++ List.replicate 59 0) =
    .ok (.unrecognized 0x77 ⟨0, 2, 0⟩ (List.replicate 56 0))

/-- Decoding the encoding of a well-formed instruction gives it back, for every instruction and every
value of its operands (R111, R116 to R121, R125 to R130). -/
def Obligations.EncodeThenDecodeIsTheInstruction : Prop :=
  ∀ (p : Params) (i : Instr), i.WellFormed → decode p (encode p i) = .ok i

/-- R123: every 64-byte packet decodes, no bit of it is dropped, and it is the default row exactly
when byte 0 is none of the 18 opcodes; any other length is turned away. -/
def Obligations.EveryPacketDecodesToItsOpcode : Prop :=
  ∀ (p : Params) (bs : List Byte),
    (bs.length ≠ 64 → decodePacket bs = .reject .notAPacket) ∧
    (bs.length = 64 → ∃ i, decodePacket bs = .ok i ∧ i.WellFormed ∧ i.ofD = true ∧
      encode p i = .packet bs ∧
      ((∃ op h rest, i = .unrecognized op h rest) ↔ bs.headD 0 ∉ recognisedOpcodes))

/-- R131: 24 bits on DATA are refused exactly when they are neither pattern and their low six bits
are none of the seven codes; whatever decodes keeps every bit. -/
def Obligations.ReservedIcpCodesAreRefused : Prop :=
  ∀ (p : Params) (w : Icp24),
    (decodeData24 w = .reject .reservedIcpCode ↔
      w ≠ 0x5AA503 ∧ w ≠ 0x0F78F0 ∧ w.toNat % 64 ∉ [0x00, 0x04, 0x0B, 0x0C, 0x21, 0x22, 0x26]) ∧
    (∀ e, decodeData24 w = .reject e → e = .reservedIcpCode) ∧
    ∀ i, decodeData24 w = .ok i → encode p i = .data24 w

/-- R127: the frame computed in 32-bit arithmetic is the low 18 bits of the parameter and the code, and
the worked examples. -/
def Obligations.OnlyTheLow18BitsReachTheWire : Prop :=
  (∀ (cmd : BitVec 6) (param : BitVec 32),
    (frame cmd param).toNat = param.toNat % 2 ^ 18 * 64 + cmd.toNat) ∧
  frame 0x00 0x0090 = 0x002400 ∧ frame 0x21 0x0080 = 0x002021 ∧ frame 0x26 0x3A5A5 = 0xE96966 ∧
  frame 0x22 0x30000 = 0xC00022 ∧ frame 0x00 0x12345678 = 0x159E00 ∧ frame 0x00 0x40000 = 0

/-! ### Checksum and stamps -/

/-- R240, R299: the checksum is the sum of the 64 bytes, which no 16-bit sum overflows. -/
def Obligations.ChecksumIsTheSumOfTheBytes : Prop :=
  ∀ buf : Vector Byte 64, (checksum buf).toNat = packetSum buf ∧ packetSum buf ≤ 0x3FC0

/-- R241, R242: the stamp writes the whole good packet, the fail stamp the whole fail packet, and
nothing else. -/
def Obligations.StampsWriteWholePackets : Prop :=
  ∀ s : State,
    (∃ buf : Vector Byte 64, buf.toList = goodPacket s.d [] ∧
      stamp s = { s with d := { s.d with txbuf := buf } }) ∧
    (∃ buf : Vector Byte 64, buf.toList = failPacket s.d ∧
      failStamp s = { s with d := { s.d with txbuf := buf } })

/-! ### The receive and tick agents -/

/-- R231, R232: a first byte other than 0xAE while not connected, and a non-zero byte at positions 1 to
3 of a connect packet, reset the head, disconnect and raise their error; nothing else changes. -/
def Obligations.ABrokenHandshakeDisconnects : Prop :=
  ∀ (s : State) (b : Byte) (rest : List Event), s.sched = .rx b :: rest →
    s.d.terminal = .running → s.d.ie = true →
    (s.d.rxhead = 0 → (s.d.cstate = .disconnected ∨ s.d.cstate = .connecting) → b ≠ 0xAE →
      step s = .next { s with
        sched := rest
        d := { s.d with
          rxbuf := s.d.rxbuf.set 0 b
          rxhead := 0
          cstate := .disconnected
          trace := s.d.trace ++ [.err .frameBadConnect (b.setWidth 16)] } }) ∧
    (s.d.cstate = .connecting → 1 ≤ s.d.rxhead.toNat → s.d.rxhead.toNat ≤ 3 → b ≠ 0 →
      step s = .next { s with
        sched := rest
        d := { s.d with
          rxbuf := s.d.rxbuf.setIfInBounds s.d.rxhead.toNat b
          rxhead := 0
          cstate := .disconnected
          trace := s.d.trace ++ [.err .frameBadMagic (s.d.rxhead.setWidth 16)] } })

/-- R230, R233 to R235: every other byte is stored at the head; the first arms the idle timer and, while
disconnected, makes the device `CONNECTING`; the 64th raises `RXREADY` and disarms the idle timer. -/
def Obligations.KeptBytesFillThePacket : Prop :=
  ∀ (s : State) (b : Byte) (rest : List Event), s.sched = .rx b :: rest →
    s.d.terminal = .running → s.d.ie = true → s.d.rxhead.toNat < 64 →
    ¬ (s.d.rxhead = 0 ∧ s.d.cstate.connected = false ∧ b ≠ 0xAE) →
    ¬ (s.d.cstate = .connecting ∧ 1 ≤ s.d.rxhead.toNat ∧ s.d.rxhead.toNat ≤ 3 ∧ b ≠ 0) →
    step s = .next { s with
      sched := rest
      d := { s.d with
        rxbuf := s.d.rxbuf.setIfInBounds s.d.rxhead.toNat b
        rxhead := s.d.rxhead + 1
        cstate := if s.d.rxhead = 0 ∧ s.d.cstate = .disconnected then .connecting else s.d.cstate
        rxready := if s.d.rxhead = 63 then true else s.d.rxready
        idleCnt := if s.d.rxhead = 63 then 0 else if s.d.rxhead = 0 then s.params.idleTicks
          else s.d.idleCnt
        idleExpired := if s.d.rxhead = 63 ∨ s.d.rxhead = 0 then false else s.d.idleExpired } }

/-- R238, R239: a byte that finds a complete packet waiting is dropped with `RX_OVERRUN`; while `IE` is
0 or the machine has ended, bytes and ticks have no effect at all. -/
def Obligations.BytesAndTicksThatAreDropped : Prop :=
  ∀ (s : State) (b : Byte) (rest : List Event),
    (s.sched = .rx b :: rest → s.d.terminal = .running → s.d.ie = true → s.d.rxhead = 64 →
      step s = .next { s with
        sched := rest
        d := { s.d with trace := s.d.trace ++ [.err .rxOverrun (b.setWidth 16)] } }) ∧
    ((s.sched = .rx b :: rest ∨ s.sched = .tick :: rest) →
      (s.d.terminal ≠ .running ∨ s.d.ie = false) → step s = .next { s with sched := rest })

/-- R236: a tick decrements each armed timer and sets its flag when it reaches 0; a counter at 0 stays. -/
def Obligations.ATickCountsBothTimersDown : Prop :=
  ∀ (s : State) (rest : List Event), s.sched = .tick :: rest →
    s.d.terminal = .running → s.d.ie = true →
    step s = .next { s with
      sched := rest
      d := { s.d with
        idleCnt := if s.d.idleCnt = 0 then 0 else s.d.idleCnt - 1
        idleExpired := if s.d.idleCnt = 1 then true else s.d.idleExpired
        connCnt := if s.d.connCnt = 0 then 0 else s.d.connCnt - 1
        connExpired := if s.d.connCnt = 1 then true else s.d.connExpired } }

/-- R236, R237: a timer armed with `n` has counted down by `k` after `k` ticks and has expired exactly
after the last of its `n`, with no byte or main-loop step between. -/
def Obligations.TimersExpireOnTheirLastTick : Prop :=
  ∀ (n k : Nat) (s : State) (rest : List Event), 0 < n → k ≤ n →
    s.sched = List.replicate n .tick ++ rest → s.d.terminal = .running → s.d.ie = true →
    ∃ t : State, Host.Core.run Sys2Proof.core k s = .next t ∧
      (s.d.idleCnt.toNat = n → s.d.idleExpired = false →
        t.d.idleCnt.toNat = n - k ∧ (t.d.idleExpired = true ↔ k = n)) ∧
      (s.d.connCnt.toNat = n → s.d.connExpired = false →
        t.d.connCnt.toNat = n - k ∧ (t.d.connExpired = true ↔ k = n))

/-! ### The main loop -/

/-- R245, R425: with nothing to do a phase only moves the loop on, M1, M2, M3 and round; an ended
machine has no main-loop step. That an empty input list is a main-loop step is the model's choice
(log entry 8). -/
def Obligations.TheMainLoopVisitsItsPhases : Prop :=
  ∀ s : State, atMain s →
    (s.d.terminal = .running → s.d.mphase = .m1 → s.d.rxready = false →
      step s = .next { inputTaken s with d := { s.d with mphase := .m2 } }) ∧
    (s.d.terminal = .running → s.d.mphase = .m2 → s.d.connExpired = false →
      step s = .next { inputTaken s with d := { s.d with mphase := .m3 } }) ∧
    (s.d.terminal = .running → s.d.mphase = .m3 →
      ¬ (s.d.idleExpired = true ∧ 0 < s.d.rxhead.toNat ∧ s.d.rxhead.toNat < 64) →
      step s = .next { inputTaken s with d := { s.d with mphase := .m1 } }) ∧
    (s.d.terminal ≠ .running → step s = .next (inputTaken s))

/-- R247, R338: an expired connection timer boots APROM at M2; R248: an expired idle timer resets the
head of a partly filled packet at M3 and keeps `CSTATE` and its flag. -/
def Obligations.TheTwoTimeoutsAct : Prop :=
  ∀ s : State, atMain s → s.d.terminal = .running →
    (s.d.mphase = .m2 → s.d.connExpired = true →
      step s = .next { inputTaken s with d := { s.d with
        ie := false
        iapen := false
        terminal := .bootAprom
        trace := s.d.trace ++ [.err .connTimeout 0, .sysTrimRestore, .sysSwReset .aprom] } }) ∧
    (s.d.mphase = .m3 → s.d.idleExpired = true → 0 < s.d.rxhead.toNat → s.d.rxhead.toNat < 64 →
      step s = .next { inputTaken s with d := { s.d with
        rxhead := 0
        mphase := .m1
        trace := s.d.trace ++ [.err .frameIdleTimeout (s.d.rxhead.setWidth 16)] } })

/-- R270, R272, R275, R276: a step at M1 with a packet ready runs the instruction its 64 bytes decode
to, between the prologue (interrupts off, the counter incremented, `COMMAND` forced by every opcode
but 0x00) and, unless the machine has ended, the epilogue and the move to the next phase. -/
def Obligations.AStepRunsTheReceivedPacket : Prop :=
  ∀ (s : State) (i : Instr), atMain s → s.d.terminal = .running → s.d.mphase = .m1 →
    s.d.rxready = true →
    seqPolicyHolds s.params.seqPolicy s.d.seq (le16 s.d.rxbuf[4] s.d.rxbuf[5]) = true →
    decodePacket s.d.rxbuf.toList = .ok i →
    step s = (match exec i { inputTaken s with d := { s.d with
        ie := false
        seq := s.d.seq + 1
        cstate := if s.d.rxbuf[0] = 0x00 then s.d.cstate else .command } } with
      | .next t =>
        if t.d.terminal = .running then
          .next { t with d := { t.d with
            rxready := false, rxhead := 0, ie := true, mphase := t.d.mphase.succ } }
        else .next t
      | .fault r => .fault r
      | .refused r => .refused r)

/-- R440: a step with an operation or a wire unit on the call port runs the instruction it decodes to.
What decodes to none is answered and nothing is done. R131 says only that a code outside the table is
refused, and U9 that what is refused is rejected with no effect; that the answer is `E_BAD_ARG`
(`E_BAD_STATE` where the state does not admit the unit), and that the levels on RESET that are not
`RESET_SEQ` and what is no operation at all are answered alike, is the model's choice (log entry 23;
the gates: log entries 13 and 17). -/
def Obligations.AStepRunsTheCalledOperation : Prop :=
  ∀ (s : State) (c : Code) (rest : List Event), s.sched = .call c :: rest →
    (∀ i, (∀ bs, c ≠ .packet bs) → decode s.params c = .ok i →
      step s = exec i { s with sched := rest }) ∧
    (decode s.params c = .reject .reservedIcpCode →
      step s = .next (answered
        (if s.h.istate = .entered ∧ s.h.pinsOwned = true then .eBadArg else .eBadState, .bytes [])
        { s with sched := rest })) ∧
    (decode s.params c = .reject .notTheResetPattern →
      step s = .next (answered (if s.h.pinsOwned = true then .eBadArg else .eBadState, .bytes [])
        { s with sched := rest })) ∧
    ((∃ bs, c = .packet bs) ∨ decode s.params c = .reject .notAnOperation →
      step s = .next (answered (.eBadArg, .bytes []) { s with sched := rest }))

/-- R271: a packet the policy does not hold of is discarded: the error event, the buffer freed, and
nothing else but the phase. The default policy holds of every packet; `must match` exactly of the
one that carries the tracked counter. -/
def Obligations.TheSequencePolicyDiscards : Prop :=
  (∀ s : State, atMain s → s.d.terminal = .running → s.d.mphase = .m1 → s.d.rxready = true →
    seqPolicyHolds s.params.seqPolicy s.d.seq (le16 s.d.rxbuf[4] s.d.rxbuf[5]) = false →
    step s = .next { inputTaken s with d := { s.d with
      rxready := false
      rxhead := 0
      ie := true
      mphase := .m2
      trace := s.d.trace ++ [.err .seqMismatch (le16 s.d.rxbuf[4] s.d.rxbuf[5])] } }) ∧
  (∀ v h : Word, seqPolicyHolds .off v h = true ∧ (seqPolicyHolds .mustMatch v h = true ↔ h = v))

/-- R270, R276, R277: whatever the packet, its dispatch steps the counter by one (a CONNECT under
`CONNECT_RESETS_SEQ` leaves 1), and frees the buffer unless the machine has ended, when `RXREADY`,
`RXHEAD` and the phase stay and `IE` is 0. -/
def Obligations.DispatchCountsAndFreesTheBuffer : Prop :=
  ∀ s t : State, atMain s → s.d.terminal = .running → s.d.mphase = .m1 → s.d.rxready = true →
    seqPolicyHolds s.params.seqPolicy s.d.seq (le16 s.d.rxbuf[4] s.d.rxbuf[5]) = true →
    step s = .next t →
    (t.d.seq = if s.d.rxbuf[0] = 0xAE ∧ s.params.connectResetsSeq = true then 1 else s.d.seq + 1) ∧
    (t.d.terminal = .running →
      t.d.rxready = false ∧ t.d.rxhead = 0 ∧ t.d.ie = true ∧ t.d.mphase = .m2) ∧
    (t.d.terminal ≠ .running →
      t.d.rxready = true ∧ t.d.rxhead = s.d.rxhead ∧ t.d.ie = false ∧ t.d.mphase = .m1)

/-! ### Commands of machine D

Each says the whole next state: `SentFrom u t pkt` is the record `u` with only `TXBUF` and the trace
changed, so every register, every special register and every byte of flash not named in `u` is as
it was. -/

/-- R277, R278: CONNECT and SYNC_SEQ disarm the connection timer and reply with the empty payload; under
`CONNECT_RESETS_SEQ` a CONNECT sets the counter to 1 first. -/
def Obligations.ConnectAndSyncSeqDisarmTheTimer : Prop :=
  ∀ (s : State) (h : PktHdr) (rest : List Byte),
    (∃ t, exec (.connect h rest) s = .next t ∧
      SentFrom
        { s with d := { s.d with
            connCnt := 0, connExpired := false,
            seq := if s.params.connectResetsSeq then 1 else s.d.seq } } t
        (goodPacket { s.d with seq := if s.params.connectResetsSeq then 1 else s.d.seq } [])) ∧
    (∃ t, exec (.syncSeq h rest) s = .next t ∧
      SentFrom { s with d := { s.d with connCnt := 0, connExpired := false } } t
        (goodPacket s.d []))

/-- R279, R283 to R285, R287, R288, R290: the queries reply with their data from offset 8 on and change
nothing but `TXBUF`. -/
def Obligations.QueriesReplyWithTheirData : Prop :=
  ∀ (s : State) (h : PktHdr) (rest : List Byte), s.ident.Wf →
    (∃ t, exec (.getFwVersion h rest) s = .next t ∧ SentFrom s t (goodPacket s.d [s.params.fwVersion])) ∧
    (∃ t, exec (.getFlashMode h rest) s = .next t ∧ SentFrom s t (goodPacket s.d [s.params.flashMode])) ∧
    (∃ t, exec (.getDeviceId h rest) s = .next t ∧ SentFrom s t (goodPacket s.d s.ident.did)) ∧
    (∃ t, exec (.getUid h rest) s = .next t ∧ SentFrom s t (goodPacket s.d s.ident.uid)) ∧
    (∃ t, exec (.getCid h rest) s = .next t ∧ SentFrom s t (goodPacket s.d s.ident.cid)) ∧
    (∃ t, exec (.getUcid h rest) s = .next t ∧ SentFrom s t (goodPacket s.d s.ident.ucid)) ∧
    (∃ t, exec (.readConfig h rest) s = .next t ∧
      SentFrom s t (goodPacket s.d ((List.range 5).map fun k => s.flash.read (0x30000 + k))))

/-- R280 to R282, R338, R420: the boot commands restore the trim, request the software reset of their
target, and end the run with interrupts and programming off and no reply. -/
def Obligations.BootCommandsEndTheRun : Prop :=
  ∀ (s : State) (h : PktHdr) (rest : List Byte),
    exec (.runAprom h rest) s = .next { s with d := { s.d with
      ie := false, iapen := false, terminal := .bootAprom,
      trace := s.d.trace ++ [.sysTrimRestore, .sysSwReset .aprom] } } ∧
    exec (.resetCmd h rest) s = .next { s with d := { s.d with
      ie := false, iapen := false, terminal := .bootAprom,
      trace := s.d.trace ++ [.sysTrimRestore, .sysSwReset .aprom] } } ∧
    exec (.runLdrom h rest) s = .next { s with d := { s.d with
      ie := false, iapen := false, terminal := .bootLdrom,
      trace := s.d.trace ++ [.sysTrimRestore, .sysSwReset .ldrom] } }

/-- R294, R295: an opcode outside the table, and 0x00 with nothing to continue, are answered with
`NACK_OPCODE` and a fail packet; nothing else changes. -/
def Obligations.UnknownOpcodesGetAFailPacket : Prop :=
  ∀ (s : State) (op : Byte) (h : PktHdr) (rest : List Byte),
    (∃ t, exec (.unrecognized op h rest) s = .next t ∧
      FailedFrom s t .nackOpcode (op.setWidth 16) (failPacket s.d)) ∧
    (s.d.cstate ≠ .updating → s.d.cstate ≠ .dumping →
      ∃ t, exec (.continuation h rest) s = .next t ∧ FailedFrom s t .nackOpcode 0 (failPacket s.d))

/-- R291, R335: UPDATE_CONFIG erases the sector, programs the five bytes as given and replies with the
sector as read back; no other cell changes. A worn cell keeps its byte (log entry 7). -/
def Obligations.UpdateConfigReplacesTheSector : Prop :=
  ∀ (s : State) (h : PktHdr) (c : ConfigBytes) (rest : List Byte), s.d.iapen = true → s.flash.wf →
    ∃ (m : Memory) (t : State), exec (.updateConfig h c rest) s = .next t ∧
      SentFrom { s with flash := m } t
        (goodPacket s.d ((List.range 5).map fun k => m.read (0x30000 + k))) ∧
      m.wf ∧
      ((List.range 5).map fun k => m.read (0x30000 + k)) =
        [takenByte s 0x30000 c.b0, takenByte s 0x30001 c.b1, takenByte s 0x30002 c.b2,
          takenByte s 0x30003 c.b3, takenByte s 0x30004 c.b4] ∧
      ∀ a, ¬ (0x30000 ≤ a ∧ a < 0x30005) → m.read a = s.flash.read a

/-- R293: PAGE_ERASE erases the 128 bytes of the page of an APROM address and no other cell; any other
address is answered with `NACK_RANGE` and a fail packet, and no cell changes. -/
def Obligations.PageEraseErasesOnePage : Prop :=
  ∀ (s : State) (h : PktHdr) (addr : Word) (rest : List Byte), s.d.iapen = true →
    (addr.toNat < s.params.apromSize →
      ∃ (m : Memory) (t : State), exec (.pageErase h addr rest) s = .next t ∧
        SentFrom { s with flash := m } t (goodPacket s.d []) ∧ (s.flash.wf → m.wf) ∧
        ∀ a, m.read a = if a / 128 = addr.toNat / 128 then 0xFF else s.flash.read a) ∧
    (s.params.apromSize ≤ addr.toNat →
      ∃ t, exec (.pageErase h addr rest) s = .next t ∧
        FailedFrom s t .nackRange addr (failPacket s.d))

/-- R289, R334: ERASE_ALL erases APROM and no other cell. -/
def Obligations.EraseAllErasesAprom : Prop :=
  ∀ (s : State) (h : PktHdr) (rest : List Byte), s.d.iapen = true → s.params.apromSize % 128 = 0 →
    ∃ (m : Memory) (t : State), exec (.eraseAll h rest) s = .next t ∧
      SentFrom { s with flash := m } t (goodPacket s.d []) ∧ (s.flash.wf → m.wf) ∧
      ∀ a, m.read a = if a < s.params.apromSize then 0xFF else s.flash.read a

/-- R286, R330 to R332, R336: UPDATE_APROM refuses an empty range and one beyond APROM, touching no
cell; otherwise it erases every page the range meets, programs the first 48 bytes or fewer, and
replies; a cell that does not take its byte halts the machine there with no reply. A worn cell is
the flash environment's (log entry 7). -/
def Obligations.UpdateApromErasesAndPrograms : Prop :=
  ∀ (s : State) (h : PktHdr) (start g1 len g2 : Word) (data : List Byte), s.params.Wf →
    s.flash.wf → s.d.iapen = true → s.d.terminal = .running → data.length = 48 →
    (len = 0 ∨ s.params.apromSize < start.toNat + len.toNat →
      ∃ t, exec (.updateAprom h start g1 len g2 data) s = .next t ∧
        FailedFrom s t .nackRange start (failPacket s.d)) ∧
    (len ≠ 0 → start.toNat + len.toNat ≤ s.params.apromSize →
      (∀ k < min 48 len.toNat, takenByte s (start.toNat + k) (data.getD k 0) = data.getD k 0) →
      ∃ (m : Memory) (t : State), exec (.updateAprom h start g1 len g2 data) s = .next t ∧
        SentFrom
          { s with
            flash := m
            d := { s.d with
              startAddr := start
              endAddr := start + len
              curAddr := start + BitVec.ofNat 16 (min 48 len.toNat)
              cstate := if len.toNat ≤ 48 then .command else .updating } } t
          (goodPacket s.d []) ∧
        m.wf ∧
        ∀ a,
          (start.toNat ≤ a ∧ a < start.toNat + min 48 len.toNat →
            m.read a = data.getD (a - start.toNat) 0) ∧
          (¬ (start.toNat ≤ a ∧ a < start.toNat + min 48 len.toNat) →
            inErasedPages start.toNat (start.toNat + len.toNat) a → m.read a = 0xFF) ∧
          (¬ inErasedPages start.toNat (start.toNat + len.toNat) a → m.read a = s.flash.read a)) ∧
    (len ≠ 0 → start.toNat + len.toNat ≤ s.params.apromSize → ∀ k < min 48 len.toNat,
      (∀ j < k, takenByte s (start.toNat + j) (data.getD j 0) = data.getD j 0) →
      takenByte s (start.toNat + k) (data.getD k 0) ≠ data.getD k 0 →
      ∃ m : Memory, exec (.updateAprom h start g1 len g2 data) s = .next
          { s with
            flash := m
            d := { s.d with
              startAddr := start
              endAddr := start + len
              curAddr := start + BitVec.ofNat 16 k
              cstate := .updating
              terminal := .haltVerify
              trace := s.d.trace ++ [.err .fatalVerify (start + BitVec.ofNat 16 k)] } } ∧
        m.wf ∧
        ∀ a,
          (start.toNat ≤ a ∧ a < start.toNat + k → m.read a = data.getD (a - start.toNat) 0) ∧
          (a = start.toNat + k → m.read a = takenByte s a (data.getD k 0)) ∧
          (¬ (start.toNat ≤ a ∧ a ≤ start.toNat + k) →
            inErasedPages start.toNat (start.toNat + len.toNat) a → m.read a = 0xFF) ∧
          (¬ inErasedPages start.toNat (start.toNat + len.toNat) a → m.read a = s.flash.read a))

/-- R273, R331, R332, R336: CONTINUATION while `UPDATING` programs the next 56 bytes or fewer where the
update stands, erases nothing, returns to `COMMAND` at the end of the range and replies; a cell that
does not read back its byte halts the machine there with no reply. What a worn cell then holds, and so
which byte halts, is the flash environment's: the list of worn cells is the model's choice (log
entry 7). -/
def Obligations.ContinuationProgramsTheNextChunk : Prop :=
  ∀ (s : State) (h : PktHdr) (data : List Byte), s.params.Wf → s.flash.wf → s.d.iapen = true →
    s.d.terminal = .running → s.d.cstate = .updating → data.length = 56 →
    s.d.curAddr.toNat ≤ s.d.endAddr.toNat → s.d.endAddr.toNat ≤ s.params.apromSize →
    ((∀ k < min 56 (s.d.endAddr.toNat - s.d.curAddr.toNat),
        burnt s (s.d.curAddr.toNat + k) (data.getD k 0) = data.getD k 0) →
      ∃ (m : Memory) (t : State), exec (.continuation h data) s = .next t ∧
        SentFrom
          { s with
            flash := m
            d := { s.d with
              curAddr := s.d.curAddr +
                BitVec.ofNat 16 (min 56 (s.d.endAddr.toNat - s.d.curAddr.toNat))
              cstate := if s.d.endAddr.toNat - s.d.curAddr.toNat ≤ 56 then .command
                else .updating } } t
          (goodPacket s.d []) ∧
        m.wf ∧
        ∀ a, m.read a =
          if s.d.curAddr.toNat ≤ a ∧
              a < s.d.curAddr.toNat + min 56 (s.d.endAddr.toNat - s.d.curAddr.toNat) then
            data.getD (a - s.d.curAddr.toNat) 0
          else s.flash.read a) ∧
    (∀ k < min 56 (s.d.endAddr.toNat - s.d.curAddr.toNat),
      (∀ j < k, burnt s (s.d.curAddr.toNat + j) (data.getD j 0) = data.getD j 0) →
      burnt s (s.d.curAddr.toNat + k) (data.getD k 0) ≠ data.getD k 0 →
      ∃ m : Memory, exec (.continuation h data) s = .next
          { s with
            flash := m
            d := { s.d with
              curAddr := s.d.curAddr + BitVec.ofNat 16 k
              terminal := .haltVerify
              trace := s.d.trace ++ [.err .fatalVerify (s.d.curAddr + BitVec.ofNat 16 k)] } } ∧
        m.wf ∧
        ∀ a, m.read a =
          if s.d.curAddr.toNat ≤ a ∧ a < s.d.curAddr.toNat + k then
            data.getD (a - s.d.curAddr.toNat) 0
          else if a = s.d.curAddr.toNat + k then burnt s a (data.getD k 0)
          else s.flash.read a)

/-- R71, R81, R292, R333: READ_ROM refuses an empty range and one beyond the flash; otherwise its reply
carries the first 56 bytes or fewer, APROM bytes below `APROM_SIZE` and LDROM bytes above, and no
cell changes. -/
def Obligations.ReadRomDumpsTheFirstChunk : Prop :=
  ∀ (s : State) (h : PktHdr) (start g1 len : Word) (rest : List Byte), s.params.Wf →
    (len = 0 ∨ s.params.apromSize + s.params.ldromSize < start.toNat + len.toNat →
      ∃ t, exec (.readRom h start g1 len rest) s = .next t ∧
        FailedFrom s t .nackRange start (failPacket s.d)) ∧
    (len ≠ 0 → start.toNat + len.toNat ≤ s.params.apromSize + s.params.ldromSize →
      ∃ t, exec (.readRom h start g1 len rest) s = .next t ∧
        SentFrom
          { s with d := { s.d with
              startAddr := start
              endAddr := start + len
              curAddr := start + BitVec.ofNat 16 (min 56 len.toNat)
              cstate := if len.toNat ≤ 56 then .command else .dumping } } t
          (goodPacket s.d (flatBytes s start.toNat (min 56 len.toNat))))

/-- R274, R333: CONTINUATION while `DUMPING` sends the next 56 bytes or fewer, whatever its payload, and
returns to `COMMAND` at the end of the range; no cell changes. -/
def Obligations.ContinuationDumpsTheNextChunk : Prop :=
  ∀ (s : State) (h : PktHdr) (data : List Byte), s.params.Wf → s.d.cstate = .dumping →
    s.d.curAddr.toNat ≤ s.d.endAddr.toNat →
    s.d.endAddr.toNat ≤ s.params.apromSize + s.params.ldromSize →
    ∃ t, exec (.continuation h data) s = .next t ∧
      SentFrom
        { s with d := { s.d with
            curAddr := s.d.curAddr + BitVec.ofNat 16 (min 56 (s.d.endAddr.toNat - s.d.curAddr.toNat))
            cstate := if s.d.endAddr.toNat - s.d.curAddr.toNat ≤ 56 then .command else .dumping } } t
        (goodPacket s.d (flatBytes s s.d.curAddr.toNat
          (min 56 (s.d.endAddr.toNat - s.d.curAddr.toNat))))

/-- R431 (c), R32: with `IAPEN` 0 no command of machine D changes any cell. What a program or an erase
does then is the model's choice (log entry 12). -/
def Obligations.ProgrammingNeedsTheEnable : Prop :=
  ∀ (i : Instr) (s t : State), i.ofD = true → s.d.iapen = false → exec i s = .next t →
    t.flash = s.flash

/-! ### Mode operations of machine H -/

/-- R157, R158, R163, R382: `init` on free pins takes them, performs the reset pattern or the simple
pulse, then the entry pattern, and enters; where the pin driver refuses, `E_PIN_INIT` and nothing but
the refused acquisition. The reference target, if it is the one on the wire, enters programming mode
and latches the lock. That the data beside both answers is empty is the model's choice (log entries 17
and 29). -/
def Obligations.InitEntersOrLeavesTheEngine : Prop :=
  ∀ (s : State) (doReset : Bool), s.h.pinsOwned = false →
    (s.pinGrant = true →
      exec (.hostInit doReset) s = .next { s with
        h := { s.h with
          istate := .entered
          pinsOwned := true
          pins := ⟨true, .output, false,
            if doReset then s.params.resetSeq.getLsbD 0 else s.params.rstAssertLevel, false⟩
          trace := s.h.trace ++
            ([.acquire true, .pin .clk false, .dir .output, .pin .dat false, .pin .trig false,
              .pin .rst (!s.params.rstAssertLevel)] : List HEvent) ++
            (if doReset then resetTrace s.params.resetSeq s.h.timing.rstseqBit.toNat
              else [.pin .rst (!s.params.rstAssertLevel), .delay s.h.timing.rstHigh.toNat,
                .pin .rst s.params.rstAssertLevel, .delay s.h.timing.rstLow.toNat]) ++
            entryTrace s.h.timing s.h.timing.entrySettle.toNat
          ret := some (.ok, .bytes []) }
        tgt := targetEntered s }) ∧
    (s.pinGrant = false →
      exec (.hostInit doReset) s = .next { s with h := { s.h with
        trace := s.h.trace ++ [.acquire false], ret := some (.ePinInit, .bytes []) } })

/-- R159, R160: `exit` sends the exit sequence, releases the target and keeps the pins; `deinit` sends it
only from `ENTERED`, leaves RESET as asked, releases the pins, and does nothing where they are not
owned. That the data beside `OK` is empty is the model's choice (log entry 29). -/
def Obligations.ExitAndDeinitLeave : Prop :=
  ∀ (s : State) (leave : Bool),
    (s.h.istate = .entered → s.h.pinsOwned = true →
      exec .hostExit s = .next { s with
        h := { s.h with
          istate := .exited
          pins := { s.h.pins with
            datOut := false, datDir := .output, clk := false, rst := !s.params.rstAssertLevel }
          trace := s.h.trace ++ exitCoreTrace s.params s.h.timing ++
            [.pin .rst (!s.params.rstAssertLevel)]
          ret := some (.ok, .bytes []) }
        tgt := targetExited s }) ∧
    (s.h.istate = .entered → s.h.pinsOwned = true →
      exec (.hostDeinit leave) s = .next { s with
        h := { s.h with
          istate := .exited
          pinsOwned := false
          pins := { s.h.pins with
            datOut := false, datDir := .output, clk := false,
            rst := if leave then s.params.rstAssertLevel else !s.params.rstAssertLevel }
          trace := s.h.trace ++ exitCoreTrace s.params s.h.timing ++
            [.pin .rst (if leave then s.params.rstAssertLevel else !s.params.rstAssertLevel),
              .release leave]
          ret := some (.ok, .bytes []) }
        tgt := targetExited s }) ∧
    (s.h.istate ≠ .entered → s.h.pinsOwned = true →
      exec (.hostDeinit leave) s = .next { s with h := { s.h with
        istate := .exited
        pinsOwned := false
        pins := { s.h.pins with
          rst := if leave then s.params.rstAssertLevel else !s.params.rstAssertLevel }
        trace := s.h.trace ++
          [.pin .rst (if leave then s.params.rstAssertLevel else !s.params.rstAssertLevel),
            .release leave]
        ret := some (.ok, .bytes []) } }) ∧
    (s.h.pinsOwned = false →
      exec (.hostDeinit leave) s = .next (answered (.ok, .bytes []) s))

/-- R161, R162: on owned pins `reentry` cycles RESET (skipping the release when `delay1` is 0) and
`reentry_glitch` cycles it twice, the second time bracketed by TRIGGER; both re-issue the entry
pattern and enter. That the data beside `OK` is empty is the model's choice (log entry 29). -/
def Obligations.ReentryReissuesTheEntry : Prop :=
  ∀ (s : State) (d1 d2 d3 d4 : Nat), s.h.pinsOwned = true →
    exec (.hostReentry d1 d2 d3) s = .next { s with
      h := { s.h with
        istate := .entered
        pins := { s.h.pins with
          datOut := true, datDir := .output, clk := false, rst := s.params.rstAssertLevel }
        trace := s.h.trace ++
          (if 0 < d1 then [.pin .rst (!s.params.rstAssertLevel), .delay d1] else []) ++
          ([.pin .rst s.params.rstAssertLevel, .delay d2] : List HEvent) ++ entryTrace s.h.timing d3
        ret := some (.ok, .bytes []) }
      tgt := targetEntered s } ∧
    exec (.hostReentryGlitch d1 d2 d3 d4) s = .next { s with
      h := { s.h with
        istate := .entered
        pins := ⟨true, .output, false, s.params.rstAssertLevel, false⟩
        trace := s.h.trace ++
          ([.pin .rst (!s.params.rstAssertLevel), .delay d1, .pin .rst s.params.rstAssertLevel,
            .delay d2, .pin .rst (!s.params.rstAssertLevel), .pin .trig true, .delay d3,
            .pin .rst s.params.rstAssertLevel, .delay d4, .pin .trig false] : List HEvent) ++
          entryTrace s.h.timing s.h.timing.entrySettle.toNat
        ret := some (.ok, .bytes []) }
      tgt := targetEntered s }

/-- R156, R163, R430: an operation in a state the table does not list returns `E_BAD_STATE` and does
nothing else. That the single wire units are gated alike is the model's choice (log entry 13), and so
is that the state is looked at before a zero length, for which R195 gives `E_BAD_ARG` (log entry 17). -/
def Obligations.OperationsOutsideTheirStateAreRefused : Prop :=
  ∀ (i : Instr) (s : State), admits s i = false →
    exec i s = .next (answered (.eBadState, .bytes []) s)

/-- R195, R196, R199, R205: a zero length returns `E_BAD_ARG` and does nothing else, whatever the array
passed beside it. -/
def Obligations.ZeroLengthsAreRefused : Prop :=
  ∀ (s : State) (addr : BitVec 32) (data : List Byte), s.h.istate = .entered →
    s.h.pinsOwned = true →
    exec (.hostReadFlash addr 0) s = .next (answered (.eBadArg, .bytes []) s) ∧
    exec (.hostWriteFlash addr 0 data) s = .next (answered (.eBadArg, .bytes []) s) ∧
    exec (.hostVerifyFlash addr 0 data) s = .next (answered (.eBadArg, .bytes []) s) ∧
    exec (.hostProgramRegion addr 0 data) s = .next (answered (.eBadArg, .bytes []) s)

/-! ### Units of the ICP wire

Each says the whole next state: `wireDone` changes the pin latches, the trace, the answer, the target's
flash, its registers and the count of free values to what it is given, and nothing else. -/

/-- R125, R126, R155, R382: each of the seven frames is sent bit by bit and recorded, and no cell changes.
`targetFramed` is what the target makes of it: outside programming mode it ignores the frame (a target
of which nothing is known keeps no registers), with a command still open it loses framing, and
otherwise the frame opens its command. That a frame put to the call port by itself is answered `OK` is
the model's choice (log entry 13). -/
def Obligations.FrameUnitsSendTheirFrame : Prop :=
  ∀ (s : State) (param : BitVec 18), s.h.istate = .entered → s.h.pinsOwned = true →
    SendsFrame (.icpReadFlash param) 0x00 .readFlash param s ∧
    SendsFrame (.icpReadUid param) 0x04 .readUid param s ∧
    SendsFrame (.icpReadCid param) 0x0B .readCid param s ∧
    SendsFrame (.icpReadDeviceId param) 0x0C .readDeviceId param s ∧
    SendsFrame (.icpWriteFlash param) 0x21 .writeFlash param s ∧
    SendsFrame (.icpPageErase param) 0x22 .pageErase param s ∧
    SendsFrame (.icpMassErase param) 0x26 .massErase param s

/-- R128, R158, R159, R382: the three fixed patterns, each recorded after its last event; `ISTATE` is
not theirs to write (log entry 13). That a pattern put to the call port by itself is answered `OK` is
the model's choice (log entry 13). -/
def Obligations.PatternUnitsSendTheirPattern : Prop :=
  ∀ s : State, s.h.pinsOwned = true →
    exec .icpEntryPattern s = .next (wireDone
      (entryTrace s.h.timing s.h.timing.entrySettle.toNat) (s.h.pins.sentLast true)
      (.ok, .bytes []) s.tflash (targetEntered s) s.freeCtr s) ∧
    exec .icpResetSeq s = .next (wireDone
      (resetTrace s.params.resetSeq s.h.timing.rstseqBit.toNat)
      { s.h.pins with rst := s.params.resetSeq.getLsbD 0 }
      (.ok, .bytes []) s.tflash s.tgt s.freeCtr s) ∧
    (s.h.istate = .entered →
      exec .icpExitPattern s = .next (wireDone (exitTrace s.h.timing) (s.h.pins.sentLast false)
        (.ok, .bytes []) s.tflash (targetExited s) s.freeCtr s))

/-- R129, R130, R153, R154, R383, R384 to R388: the nine-clock transfers. A read returns the byte its
samples form and changes no cell; with a command open in the reference target it is the byte of the
table of R387, `icpAnswer`, at the pointer, the pointer advances and the end flag closes the command;
with none open it is the model's free value (log entry 3). A write to an open WRITE_FLASH of an
unlocked target ANDs its byte into the cell at the pointer, one to an open PAGE_ERASE of an unlocked
target erases the page of the pointer, one to an armed MASS_ERASE erases every cell and unlocks, and no
other cell changes. That a byte transfer put to the call port by itself is answered `OK`, with the byte
for a read and with the empty list for a write, is the model's choice (log entry 13). -/
def Obligations.ByteUnitsTransferOneByte : Prop :=
  ∀ (s : State) (v : Byte) (e : Bool) (d1 d2 : Nat), s.h.istate = .entered → s.h.pinsOwned = true →
    s.tflash.wf →
    (∃ (b : Byte) (tg : Target) (n : Nat),
      exec (.icpByteRead e) s = .next (wireDone (readTrace s.h.timing.readBit.toNat b e)
        s.h.pins.rested (.ok, .bytes [b]) s.tflash tg n s) ∧
      (∀ c, s.targetKind = .reference → s.tgt.prog = true → s.tgt.desync = false →
        s.tgt.cmd = some c →
        b = icpAnswer s c s.tgt.ptr.toNat ∧ n = s.freeCtr ∧
          tg = { s.tgt with ptr := s.tgt.ptr + 1, cmd := if e then none else some c }) ∧
      (s.targetKind = .oracle ∨ s.tgt.prog = false ∨ s.tgt.desync = true ∨ s.tgt.cmd = none →
        b = Config.freeByte s.freeCtr ∧ n = s.freeCtr + 1 ∧ tg = s.tgt)) ∧
    (∃ (m : Memory) (tg : Target),
      exec (.icpByteWrite v e d1 d2) s = .next (wireDone
        (writeTrace d1 d2 s.h.timing.writeBit.toNat v e) s.h.pins.rested (.ok, .bytes []) m tg
        s.freeCtr s) ∧ m.wf ∧
      (∀ c, s.targetKind = .reference → s.tgt.prog = true → s.tgt.desync = false →
        s.tgt.cmd = some c →
        tg = { s.tgt with
               ptr := s.tgt.ptr + 1, cmd := if e then none else some c
               locked := if c = .massErase ∧ s.tgt.armed = true then false else s.tgt.locked } ∧
        ∀ a, m.read a =
          if c = .writeFlash ∧ s.tgt.locked = false ∧ a = s.tgt.ptr.toNat ∧ cellExists s.params a
          then s.tflash.read a &&& v
          else if c = .pageErase ∧ s.tgt.locked = false ∧ inIcpPage s.params s.tgt.ptr.toNat a
          then 0xFF
          else if c = .massErase ∧ s.tgt.armed = true ∧ cellExists s.params a then 0xFF
          else s.tflash.read a) ∧
      (s.targetKind = .oracle ∨ s.tgt.prog = false ∨ s.tgt.desync = true ∨ s.tgt.cmd = none →
        m = s.tflash ∧ tg = s.tgt))

/-! ### Operations of machine H -/

/-- R190 to R194, R384, R387: the identity reads, frame by frame and byte by byte, and what a ready
reference target answers; no cell changes. `UCID_PARAM_BASE` is taken to lie past the UID's indices
and to leave room for the UCID, as the reference target needs. -/
def Obligations.IdentityReadsOnTheWire : Prop :=
  ∀ s : State, s.h.istate = .entered → s.h.pinsOwned = true → s.ident.Wf →
    (∃ (lo hi : Byte) (tg : Target) (n : Nat),
      exec .hostReadDeviceId s = .next (wireDone
        (frameTrace (wireFrame 0x0C 0) s.h.timing.cmdBit.toNat ++
          readsTrace s.h.timing.readBit.toNat [lo, hi])
        s.h.pins.rested (.ok, .word (le16 lo hi)) s.tflash tg n s) ∧
      exec .hostCheckDeviceId s = .next (wireDone
        (frameTrace (wireFrame 0x0C 0) s.h.timing.cmdBit.toNat ++
          readsTrace s.h.timing.readBit.toNat [lo, hi])
        s.h.pins.rested
        (if le16 lo hi = s.params.expectedDid then .ok else .eDeviceId, .word (le16 lo hi))
        s.tflash tg n s) ∧
      (targetReady s → lo = s.ident.did.getD 0 0xFF ∧ hi = s.ident.did.getD 1 0xFF)) ∧
    (∃ (bs : List Byte) (tg : Target) (n : Nat), bs.length = s.ident.cid.length ∧
      exec .hostReadCid s = .next (wireDone
        (frameTrace (wireFrame 0x0B 0) s.h.timing.cmdBit.toNat ++
          readsTrace s.h.timing.readBit.toNat bs)
        s.h.pins.rested (.ok, .bytes bs) s.tflash tg n s) ∧
      (targetReady s → s.tgt.locked = false → bs = s.ident.cid) ∧
      (targetReady s → s.tgt.locked = true → bs = List.replicate s.ident.cid.length 0xFF)) ∧
    (∃ (bs : List Byte) (tg : Target) (n : Nat), bs.length = s.ident.uid.length ∧
      exec .hostReadUid s = .next (wireDone (indexedTrace 0 s.h.timing bs)
        s.h.pins.rested (.ok, .bytes bs) s.tflash tg n s) ∧
      (targetReady s → bs = s.ident.uid)) ∧
    (∃ (bs : List Byte) (tg : Target) (n : Nat), bs.length = s.ident.ucid.length ∧
      exec .hostReadUcid s = .next (wireDone
        (indexedTrace s.params.ucidParamBase.toNat s.h.timing bs)
        s.h.pins.rested (.ok, .bytes bs) s.tflash tg n s) ∧
      (targetReady s → s.ident.uid.length ≤ s.params.ucidParamBase.toNat →
        s.params.ucidParamBase.toNat + s.ident.ucid.length ≤ 2 ^ 18 → bs = s.ident.ucid))

/-- R195, R200, R383, R384, R387: `read_flash` is one frame and `len` byte reads, the last closing;
`read_config` is `read_flash(0x30000, 5)`. A ready reference target answers with the cells from the
low 18 bits of the address on and is ready again; no cell changes. -/
def Obligations.ReadFlashIsOneFrameAndItsReads : Prop :=
  ∀ (s : State) (addr : BitVec 32) (len : Nat), s.h.istate = .entered → s.h.pinsOwned = true →
    (0 < len → ∃ (bs : List Byte) (tg : Target) (n : Nat), bs.length = len ∧
      exec (.hostReadFlash addr len) s = .next (wireDone (readFlashTrace s.h.timing addr.toNat bs)
        s.h.pins.rested (.ok, .bytes bs) s.tflash tg n s) ∧
      (targetReady s → bs = icpBytes s addr.toNat len ∧ tg.ready ∧
        tg.locked = s.tgt.locked ∧ n = s.freeCtr)) ∧
    (∃ (bs : List Byte) (tg : Target) (n : Nat), bs.length = 5 ∧
      exec .hostReadConfig s = .next (wireDone (readFlashTrace s.h.timing 0x30000 bs)
        s.h.pins.rested (.ok, .bytes bs) s.tflash tg n s) ∧
      (targetReady s → bs = icpBytes s 0x30000 5 ∧ tg.ready))

/-- R199: `verify_flash` reads the whole range, then answers `OK` or `E_VERIFY` with the first index at
which it differs from the first `len` elements of the array; no cell changes. An element the array
does not have is any byte (log entry 4). -/
def Obligations.VerifyFlashComparesWhatItRead : Prop :=
  ∀ (s : State) (addr : BitVec 32) (len : Nat) (data : List Byte), s.h.istate = .entered →
    s.h.pinsOwned = true → 0 < len →
    ∃ (expected bs : List Byte) (tg : Target) (n : Nat), takesArray len data expected ∧
      bs.length = len ∧
      exec (.hostVerifyFlash addr len data) s = .next (wireDone
        (readFlashTrace s.h.timing addr.toNat bs)
        s.h.pins.rested (verifyAnswer bs expected) s.tflash tg n s) ∧
      (targetReady s → bs = icpBytes s addr.toNat len)

/-- R196, R384, R388: `write_flash` is one frame and a byte write for each of the first `len` elements of
the array, the last closing. In a ready unlocked reference target each byte is ANDed into its cell, if
the cell exists, and no other cell changes; a locked target, and one that is not ready, changes no
cell. An element the array does not have is any byte (log entry 4). -/
def Obligations.WriteFlashIsOneFrameAndItsWrites : Prop :=
  ∀ (s : State) (addr : BitVec 32) (len : Nat) (arr : List Byte), s.h.istate = .entered →
    s.h.pinsOwned = true → s.tflash.wf → 0 < len →
    ∃ (data : List Byte) (m : Memory) (tg : Target), takesArray len arr data ∧
      exec (.hostWriteFlash addr len arr) s = .next (wireDone
        (writeFlashTrace s.h.timing addr.toNat data)
        s.h.pins.rested (.ok, .bytes []) m tg s.freeCtr s) ∧
      m.wf ∧
      (targetReady s → tg.ready ∧ tg.locked = s.tgt.locked) ∧
      (targetReady s → s.tgt.locked = false → ∀ a,
        (cellExists s.params a → m.read a = icpBurnt data addr.toNat a (s.tflash.read a)) ∧
        (¬ cellExists s.params a → m.read a = s.tflash.read a)) ∧
      (targetReady s → s.tgt.locked = true → m = s.tflash) ∧
      (¬ targetReady s → m = s.tflash)

/-- R197, R198, R385, R386: `mass_erase` and `page_erase` are one frame and one closing byte write. In a
ready reference target a mass erase erases every cell and unlocks; a page erase of an unlocked one
erases the page of the low 18 bits of the address, or the config sector, and no other cell; a target
that is not ready changes no cell. -/
def Obligations.TheErasesOnTheWire : Prop :=
  ∀ (s : State) (addr : BitVec 32), s.h.istate = .entered → s.h.pinsOwned = true →
    (∃ (m : Memory) (tg : Target),
      exec .hostMassErase s = .next (wireDone
        (frameTrace (wireFrame 0x26 0x3A5A5) s.h.timing.cmdBit.toNat ++
          writeTrace s.h.timing.massErase.toNat s.h.timing.massEraseHold.toNat
            s.h.timing.writeBit.toNat 0xFF true)
        s.h.pins.rested (.ok, .bytes []) m tg s.freeCtr s) ∧
      (targetReady s → tg.ready ∧ tg.locked = false ∧ ∀ a,
        (cellExists s.params a → m.read a = 0xFF) ∧
        (¬ cellExists s.params a → m.read a = s.tflash.read a)) ∧
      (¬ targetReady s → m = s.tflash)) ∧
    (∃ (m : Memory) (tg : Target),
      exec (.hostPageErase addr) s = .next (wireDone (pageEraseTrace s.h.timing addr.toNat)
        s.h.pins.rested (.ok, .bytes []) m tg s.freeCtr s) ∧
      (targetReady s → tg.ready ∧ tg.locked = s.tgt.locked) ∧
      (targetReady s → s.tgt.locked = false → ∀ a, m.read a =
        if inIcpPage s.params (addr.toNat % 2 ^ 18) a
        then 0xFF else s.tflash.read a) ∧
      (targetReady s → s.tgt.locked = true → m = s.tflash) ∧
      (¬ targetReady s → m = s.tflash))

/-- R84, R201, R364, R470: whatever the target answers, `write_config` erases, programs with the lock
bit 1, reads back, and writes the lock bit only after the five bytes read back as written; on a
difference it answers `E_VERIFY` and never locks. No cell outside the config sector changes, and none
at all on a locked target or one that is not ready. On a ready unlocked reference target it answers
`OK` and the sector holds the bytes with the lock bit as asked. -/
def Obligations.WriteConfigLocksOnlyAfterVerification : Prop :=
  ∀ (s : State) (c : ConfigBytes) (lock : Bool), s.h.istate = .entered → s.h.pinsOwned = true →
    s.tflash.wf → s.params.Wf →
    ∃ (bs : List Byte) (m : Memory) (tg : Target) (n : Nat), bs.length = 5 ∧
      exec (.hostWriteConfig c lock) s = .next (wireDone
        (pageEraseTrace s.h.timing 0x30000 ++
          writeFlashTrace s.h.timing 0x30000 [c.b0 ||| 0x02, c.b1, c.b2, c.b3, c.b4] ++
          readFlashTrace s.h.timing 0x30000 bs ++
          (if bs = [c.b0 ||| 0x02, c.b1, c.b2, c.b3, c.b4] ∧ lock = true then
            writeFlashTrace s.h.timing 0x30000 [c.b0 &&& 0xFD] else []))
        s.h.pins.rested (verifyAnswer bs [c.b0 ||| 0x02, c.b1, c.b2, c.b3, c.b4]) m tg n s) ∧
      m.wf ∧ (∀ a, ¬ (0x30000 ≤ a ∧ a < 0x30005) → m.read a = s.tflash.read a) ∧
      (¬ targetReady s ∨ s.tgt.locked = true → m = s.tflash) ∧
      (targetReady s → s.tgt.locked = false →
        bs = [c.b0 ||| 0x02, c.b1, c.b2, c.b3, c.b4] ∧ tg.ready ∧
        ((List.range 5).map fun k => m.read (0x30000 + k)) =
          [if lock then c.b0 &&& 0xFD else c.b0 ||| 0x02, c.b1, c.b2, c.b3, c.b4])

/-- R202, R205: whatever the target answers, `program_region` erases each page from the one of the
address while below the end, writes the first `len` elements of the array, reads back and answers
what a verification answers. No cell outside the erased pages, taken modulo 2^18 as the frames carry
them, changes, and none at all on a locked target or one that is not ready. On a ready unlocked
reference target, for a range inside its flash, it answers `OK`, the range holds the data and the
rest of the erased pages reads 0xFF. For a range whose end passes 2^32 the number and addresses of the
page erases are the model's choice (log entry 16); an element the array does not have is any byte,
the same one written and expected (log entry 4). -/
def Obligations.ProgramRegionErasesWritesVerifies : Prop :=
  ∀ (s : State) (addr : BitVec 32) (len : Nat) (arr : List Byte), s.h.istate = .entered →
    s.h.pinsOwned = true → s.tflash.wf → s.params.Wf → 0 < len →
    ∃ (data bs : List Byte) (m : Memory) (tg : Target) (n : Nat), takesArray len arr data ∧
      bs.length = len ∧
      exec (.hostProgramRegion addr len arr) s = .next (wireDone
        (((List.range ((addr.toNat % 128 + len + 127) / 128)).flatMap fun j =>
            pageEraseTrace s.h.timing (addr.toNat / 128 * 128 + 128 * j)) ++
          writeFlashTrace s.h.timing addr.toNat data ++ readFlashTrace s.h.timing addr.toNat bs)
        s.h.pins.rested (verifyAnswer bs data) m tg n s) ∧
      m.wf ∧
      (∀ a, (∀ x, inErasedPages addr.toNat (addr.toNat + len) x → x % 2 ^ 18 ≠ a) →
        m.read a = s.tflash.read a) ∧
      (¬ targetReady s ∨ s.tgt.locked = true → m = s.tflash) ∧
      (targetReady s → s.tgt.locked = false →
        addr.toNat + len ≤ s.params.apromSize + s.params.ldromSize →
        bs = data ∧ tg.ready ∧ ∀ a,
          (addr.toNat ≤ a ∧ a < addr.toNat + len → m.read a = data.getD (a - addr.toNat) 0) ∧
          (¬ (addr.toNat ≤ a ∧ a < addr.toNat + len) →
            inErasedPages addr.toNat (addr.toNat + len) a → m.read a = 0xFF))

/-- R389 (a), (c), (e): on the reference target what `write_flash` wrote on erased cells `read_flash`
reads back; after `mass_erase` the flash and the config read all 0xFF; after a locking `write_config`
and a `reentry` every cell reads 0xFF. -/
def Obligations.TheReferenceTargetReadsBack : Prop :=
  ∀ (s : State), s.h.istate = .entered → s.h.pinsOwned = true → targetReady s →
    s.tgt.locked = false → s.params.Wf → s.tflash.wf →
    (∀ (addr : BitVec 32) (len : Nat) (data : List Byte), 0 < len → len ≤ data.length →
      addr.toNat + len ≤ s.params.apromSize + s.params.ldromSize →
      (∀ a, addr.toNat ≤ a → a < addr.toNat + len → s.tflash.read a = 0xFF) →
      ∃ t u, exec (.hostWriteFlash addr len data) s = .next t ∧
        exec (.hostReadFlash addr len) t = .next u ∧
        u.h.ret = some (.ok, .bytes (data.take len))) ∧
    (∃ t u w, exec .hostMassErase s = .next t ∧
      exec (.hostReadFlash 0 (s.params.apromSize + s.params.ldromSize)) t = .next u ∧
      u.h.ret =
        some (.ok, .bytes (List.replicate (s.params.apromSize + s.params.ldromSize) 0xFF)) ∧
      exec .hostReadConfig t = .next w ∧
      w.h.ret = some (.ok, .bytes (List.replicate 5 0xFF))) ∧
    (∀ (c : ConfigBytes) (d1 d2 d3 : Nat) (addr : BitVec 32) (len : Nat), 0 < len →
      ∃ t u w, exec (.hostWriteConfig c true) s = .next t ∧ t.h.ret = some (.ok, .bytes []) ∧
        exec (.hostReentry d1 d2 d3) t = .next u ∧
        exec (.hostReadFlash addr len) u = .next w ∧
        w.h.ret = some (.ok, .bytes (List.replicate len 0xFF)))

/-- R481: the waits of the wire operations, summed over what they add to the trace. That a frame and
the byte transfers can be put to the call port by themselves is the model's choice (log entry 13); an
element the array does not have is any byte (log entry 4). -/
def Obligations.WireTimesAddUp : Prop :=
  ∀ (s : State) (addr : BitVec 32) (param : BitVec 18) (v : Byte) (e : Bool) (d1 d2 len : Nat)
    (data : List Byte), s.h.istate = .entered → s.h.pinsOwned = true → 0 < len →
    (∃ t es, exec (.icpReadFlash param) s = .next t ∧ t.h.trace = s.h.trace ++ es ∧
      waited es = 48 * s.h.timing.cmdBit.toNat) ∧
    (∃ t es, exec (.icpByteRead e) s = .next t ∧ t.h.trace = s.h.trace ++ es ∧
      waited es = 21 * s.h.timing.readBit.toNat) ∧
    (∃ t es, exec (.icpByteWrite v e d1 d2) s = .next t ∧ t.h.trace = s.h.trace ++ es ∧
      waited es = 16 * s.h.timing.writeBit.toNat + d1 + d2) ∧
    (∃ t es, exec (.hostReadFlash addr len) s = .next t ∧ t.h.trace = s.h.trace ++ es ∧
      waited es = 48 * s.h.timing.cmdBit.toNat + 21 * len * s.h.timing.readBit.toNat) ∧
    (∃ t es, exec (.hostWriteFlash addr len data) s = .next t ∧
      t.h.trace = s.h.trace ++ es ∧
      waited es = 48 * s.h.timing.cmdBit.toNat + len *
        (16 * s.h.timing.writeBit.toNat + s.h.timing.program.toNat +
          s.h.timing.writeHold.toNat)) ∧
    (∃ t es, exec .hostMassErase s = .next t ∧ t.h.trace = s.h.trace ++ es ∧
      waited es = 48 * s.h.timing.cmdBit.toNat + 16 * s.h.timing.writeBit.toNat +
        s.h.timing.massErase.toNat + s.h.timing.massEraseHold.toNat) ∧
    waited (resetTrace s.params.resetSeq s.h.timing.rstseqBit.toNat ++
        entryTrace s.h.timing s.h.timing.entrySettle.toNat) =
      24 * s.h.timing.rstseqBit.toNat + 48 * s.h.timing.entryBit.toNat +
        s.h.timing.entrySettle.toNat

/-! ### The config codec -/

/-- R361, R362: `decode` answers the record of named fields with the reserved bits masked out, `encode`
the five bytes with every bit in its place; neither changes anything but the answer. That the codec is
called like a host operation, runs in every state of machine H and answers `OK` on the call port is the
model's choice (log entry 24); the bit positions are presumed (log entry 11). -/
def Obligations.TheConfigCodecAnswers : Prop :=
  (∀ (s : State) (b : ConfigBytes), exec (.configDecode b) s = .next (answered (.ok, .flags
    { cbs := b.b0.getLsbD 7, ocdpwm := b.b0.getLsbD 5, ocden := b.b0.getLsbD 4
      rpd := b.b0.getLsbD 2, lock := b.b0.getLsbD 1, ldsize := b.b1.extractLsb' 0 3
      cboden := b.b2.getLsbD 7, cbov := b.b2.extractLsb' 4 2, cborst := b.b2.getLsbD 2
      wdten := b.b4.extractLsb' 4 4, rsv0 := b.b0 &&& 0x49, rsv1 := b.b1 &&& 0xF8
      rsv2 := b.b2 &&& 0x4B, rsv3 := b.b3, rsv4 := b.b4 &&& 0x0F }) s)) ∧
  ∀ (s : State) (f : ConfigFlags), ∃ b0 b1 b2 b3 b4 : Byte,
    exec (.configEncode f) s = .next (answered (.ok, .bytes [b0, b1, b2, b3, b4]) s) ∧
    b0 = BitVec.ofBool f.cbs ++ BitVec.ofBool (f.rsv0.getLsbD 6) ++ BitVec.ofBool f.ocdpwm ++
      BitVec.ofBool f.ocden ++ BitVec.ofBool (f.rsv0.getLsbD 3) ++ BitVec.ofBool f.rpd ++
      BitVec.ofBool f.lock ++ BitVec.ofBool (f.rsv0.getLsbD 0) ∧
    b1 = f.rsv1.extractLsb' 3 5 ++ f.ldsize ∧
    b2 = BitVec.ofBool f.cboden ++ BitVec.ofBool (f.rsv2.getLsbD 6) ++ f.cbov ++
      BitVec.ofBool (f.rsv2.getLsbD 3) ++ BitVec.ofBool f.cborst ++ f.rsv2.extractLsb' 0 2 ∧
    b3 = f.rsv3 ∧ b4 = f.wdten ++ f.rsv4.extractLsb' 0 4

/-- R366, from R361 and R362: both round trips of the codec, the first for records whose reserved bits
keep to their places. The bit positions, the masks of the reserved bits among them, are presumed (log
entry 11). -/
def Obligations.TheConfigCodecRoundTrips : Prop :=
  (∀ f : ConfigFlags, configConfined f → configDecode (configEncode f) = f) ∧
  ∀ b : ConfigBytes, configEncode (configDecode b) = b

/-- R363 to R365: the LDROM sizes of the eight codes and the code written for each of the five sizes,
the inverted lock bit, the three watchdog modes. -/
def Obligations.ConfigFieldsMeanWhatTheSpecSays : Prop :=
  [0, 1, 2, 3, 4, 5, 6, 7].map (fun c : BitVec 3 => ldromSizeOf c) =
    [4096, 4096, 4096, 4096, 3072, 2048, 1024, 0] ∧
  [0, 1024, 2048, 3072, 4096].map ldsizeCode = [7, 6, 5, 4, 3] ∧
  (∀ b : ConfigBytes, isLocked b = !b.b0.getLsbD 1) ∧
  (∀ b0 : Byte, (unlockedByte b0).getLsbD 1 = true ∧ (lockedByte b0).getLsbD 1 = false) ∧
  wdtMode 0b1111 = .disabled ∧ wdtMode 0b0101 = .stopsInIdle ∧
  ∀ w : BitVec 4, w ≠ 0b1111 → w ≠ 0b0101 → wdtMode w = .runsAlways

/-! ### Resets, inputs, invariants -/

/-- R50, R51, R363, R450 to R452: what the resets leave, the buffers, the timing registers and the record
of the last answer, which those rules do not fix, at some value; target and the other machine are as
before. A reset of machine D begins a run of the sizes its config selects (log entry 28) and leaves
the flash as it was at that instant. Inside a dispatch that is the flash after its first `k` page
erases and byte programs (that `k` counts those is the model's choice, log entry 27): only cells
machine D can write have changed; none for `k` 0; all that the whole dispatch would change from some
`k` on; and, written out, the first pages of an ERASE_ALL, the first pages and then the first bytes of
an UPDATE_APROM. -/
def Obligations.ResetsLeaveTheResetValues : Prop :=
  ∀ (s : State) (rest : List Event) (k : Nat),
    (s.sched = .resetD :: rest →
      ∃ t, step s = .next t ∧ BeginsRun s.flash { s with sched := rest } t) ∧
    (s.sched = .resetH :: rest → ∃ (tim : Timing) (r : Option (Status × RetData)),
      step s = .next { s with
        sched := rest
        h :=
          { istate := .uninitialized, pinsOwned := false
            pins := ⟨false, .output, false, !s.params.rstAssertLevel, false⟩
            timing := tim, trace := [], ret := r } }) ∧
    (s.sched = .resetDDuring k :: rest → s.params.Wf →
      ∃ (m : Memory) (t : State), step s = .next t ∧ BeginsRun m { s with sched := rest } t ∧
        (k = 0 → m = s.flash) ∧
        (s.flash.wf → m.wf ∧ ∀ a,
          ¬ (a < s.params.apromSize ∨ (0x30000 ≤ a ∧ a < 0x30005)) → m.read a = s.flash.read a) ∧
        (s.d.terminal = .running → s.d.mphase = .m1 → s.d.rxready = true →
          seqPolicyHolds s.params.seqPolicy s.d.seq (le16 s.d.rxbuf[4] s.d.rxbuf[5]) = true →
          s.d.iapen = true →
          (∀ h rest', decodePacket s.d.rxbuf.toList = .ok (.eraseAll h rest') → ∀ a,
            m.read a = if a < s.params.apromSize ∧ a < 128 * k then 0xFF else s.flash.read a) ∧
          (∀ h start g1 len g2 data, s.flash.wf →
            decodePacket s.d.rxbuf.toList = .ok (.updateAprom h start g1 len g2 data) →
            len ≠ 0 → start.toNat + len.toNat ≤ s.params.apromSize →
            (128 * k ≤ start.toNat % 128 + len.toNat → ∀ a, m.read a =
              if start.toNat / 128 * 128 ≤ a ∧ a < start.toNat / 128 * 128 + 128 * k then 0xFF
              else s.flash.read a) ∧
            (∀ j, k = (start.toNat % 128 + len.toNat + 127) / 128 + j → j ≤ min 48 len.toNat →
              (∀ l < j, takenByte s (start.toNat + l) (data.getD l 0) = data.getD l 0) → ∀ a,
              (start.toNat ≤ a ∧ a < start.toNat + j → m.read a = data.getD (a - start.toNat) 0) ∧
              (¬ (start.toNat ≤ a ∧ a < start.toNat + j) →
                inErasedPages start.toNat (start.toNat + len.toNat) a → m.read a = 0xFF) ∧
              (¬ inErasedPages start.toNat (start.toNat + len.toNat) a →
                m.read a = s.flash.read a))))) ∧
    (∀ t, step { s with sched := .main :: rest } = .next t →
      ∃ n, ∀ j, n ≤ j → ∃ u, step { s with sched := .resetDDuring j :: rest } = .next u ∧
        u.flash = t.flash)

/-- The state after reset satisfies the invariant. Its parameters are the spec's test values (log entry
1). -/
def Obligations.ResetSatisfiesTheInvariant : Prop := State.reset.Inv

/-- Every step keeps the invariant: the ranges of the registers of machine D, its flags and timers, the
stored handshake (R21 to R32, R297, R299), the engine states of machine H (R156), and the flash array
in canonical form within the cells that exist. A step that begins a run sets the two sizes as log entry
28 says (presumed). -/
def Obligations.EveryStepKeepsTheInvariant : Prop :=
  ∀ s t : State, s.Inv → step s = .next t → t.Inv

/-- R83, R431 (a): no step of machine D, nor a reset that falls into one, changes a cell of LDROM. That
a reset can fall inside a step, after any of its page erases and byte programs, is the model's choice
(log entry 27). -/
def Obligations.MachineDNeverWritesLdrom : Prop :=
  ∀ s t : State, s.params.Wf → s.flash.wf → (s.sched = [] ∨ s.sched.head?.any Event.ofD = true) →
    step s = .next t →
    ∀ off < s.params.ldromSize,
      t.flash.read (s.params.apromSize + off) = s.flash.read (s.params.apromSize + off)

/-- R421, R425, R452: once ended, machine D keeps every register and emits nothing, over any run in which
no input begins a run of it: its reset input, which a watchdog reset would also assert, or the chip
put back from the ICP wire. Which inputs begin a run is the model's choice (log entries 14, 27, 28). -/
def Obligations.AnEndedMachineStaysEnded : Prop :=
  ∀ (n : Nat) (s t : State), s.d.terminal ≠ .running → (∀ e ∈ s.sched, e.beginsRun = false) →
    Host.Core.run Sys2Proof.core n s = .next t → t.d = s.d

/-- R297: once connected, machine D is connected until an input begins a run of it. Which inputs do is the
model's choice (log entries 14, 27, 28). -/
def Obligations.AConnectedDeviceStaysConnected : Prop :=
  ∀ (n : Nat) (s t : State), s.d.cstate.connected = true → (∀ e ∈ s.sched, e.beginsRun = false) →
    Host.Core.run Sys2Proof.core n s = .next t → t.d.cstate.connected = true

/-- R2, R446: a step of machine D, its resets among them, neither changes nor depends on the registers
of machine H, its pin driver, its target with the target's flash, or the count of free values; a step
of machine H, its reset and its caller's writes among them, neither changes nor depends on the
registers of machine D, its flash or the worn cells of that. That each machine has a flash array of its
own is the model's choice (log entry 14). -/
def Obligations.TheMachinesDoNotInterfere : Prop :=
  (∀ (s t : State) (h : HRegs) (kind : TargetKind) (tg : Target) (m : Memory) (ok : Bool) (n : Nat),
    (s.sched = [] ∨ s.sched.head?.any Event.ofD = true) → step s = .next t →
    step { s with h := h, targetKind := kind, tgt := tg, tflash := m, pinGrant := ok, freeCtr := n } =
      .next { t with
        h := h, targetKind := kind, tgt := tg, tflash := m, pinGrant := ok, freeCtr := n }) ∧
  ∀ (s t : State) (d : DRegs) (m : Memory) (worn : List Host.Cell),
    s.sched.head?.any Event.ofH = true → step s = .next t →
    step { s with d := d, flash := m, worn := worn } =
      .next { t with d := d, flash := m, worn := worn }

/-- R34, R52, D28, R363: no step changes an identity array; no step changes a parameter but one that
begins a run of machine D, and that changes the two sizes only, not their sum. That the parameters are
fields of the state, and which inputs begin a run, is the model's choice (log entries 1, 14, 27, 28). -/
def Obligations.ParametersAndIdentityAreConstant : Prop :=
  ∀ s t : State, step s = .next t → t.ident = s.ident ∧
    (s.sched.head?.any Event.beginsRun = false → t.params = s.params) ∧
    ∃ aprom ldrom : Nat, aprom + ldrom = s.params.apromSize + s.params.ldromSize ∧
      t.params = { s.params with apromSize := aprom, ldromSize := ldrom }

/-- From a state that satisfies the invariant every step answers a next state: no step faults and none is
refused, whatever the input (R204, R440; what decodes to nothing on the call port is answered, log
entry 23). -/
def Obligations.InvariantStatesGoOn : Prop := ∀ s : State, s.Inv → ∃ t, step s = .next t

/-- R43, R52, R150, R381, U16, U21: the caller's and the environment's inputs each replace what they
name: a write of any timing register gives that one its value and leaves the other seventeen; one chip
put on the ICP wire carries machine D's arrays there, its target's registers at their initial values,
and put back carries them to machine D, which begins a run. That these arrive as events of the input
list is the model's choice (log entries 7, 8 and 14). The sizes of that run are those the config
selects: that APROM has what LDROM leaves of the chip's flash, and that both sizes stay where it would
have no page, is presumed (log entry 28). -/
def Obligations.InputsReplaceWhatTheyName : Prop :=
  ∀ (s : State) (rest : List Event) (r : TimingReg) (v : BitVec 32) (ok : Bool)
    (cells : List Host.Cell),
    (s.sched = .setTiming r v :: rest →
      step s = .next { s with
        sched := rest
        h := { s.h with timing :=
          {
            cmdBit := if r = .cmdBit then v else s.h.timing.cmdBit
            readBit := if r = .readBit then v else s.h.timing.readBit
            writeBit := if r = .writeBit then v else s.h.timing.writeBit
            program := if r = .program then v else s.h.timing.program
            writeHold := if r = .writeHold then v else s.h.timing.writeHold
            massErase := if r = .massErase then v else s.h.timing.massErase
            massEraseHold := if r = .massEraseHold then v else s.h.timing.massEraseHold
            pageErase := if r = .pageErase then v else s.h.timing.pageErase
            pageEraseHold := if r = .pageEraseHold then v else s.h.timing.pageEraseHold
            rstseqBit := if r = .rstseqBit then v else s.h.timing.rstseqBit
            rstHigh := if r = .rstHigh then v else s.h.timing.rstHigh
            rstLow := if r = .rstLow then v else s.h.timing.rstLow
            entryBit := if r = .entryBit then v else s.h.timing.entryBit
            entrySettle := if r = .entrySettle then v else s.h.timing.entrySettle
            exitRstHigh := if r = .exitRstHigh then v else s.h.timing.exitRstHigh
            exitRstLow := if r = .exitRstLow then v else s.h.timing.exitRstLow
            exitBit := if r = .exitBit then v else s.h.timing.exitBit
            exitSettle := if r = .exitSettle then v else s.h.timing.exitSettle } } }) ∧
    (s.sched = .pinGrant ok :: rest → step s = .next { s with sched := rest, pinGrant := ok }) ∧
    (s.sched = .flashWear cells :: rest → step s = .next { s with sched := rest, worn := cells }) ∧
    (s.sched = .chipToTarget :: rest →
      step s = .next { s with
        sched := rest
        tflash := s.flash
        tgt := ⟨false, none, 0, false, false, false⟩ }) ∧
    (s.sched = .chipToDevice :: rest →
      ∃ t, step s = .next t ∧ BeginsRun s.tflash { s with sched := rest } t)
end

