-- ==== Sys2Proof/Laws/State.lean ====
section
/-! SUPPORT. One lemma per field per update of the state, each true by definition (the
proofs that go through simp are so for speed only), for simp: later
proofs rewrite with these and unfold no record update. -/

namespace Sys2Proof.Machine

variable (s : State)


/-! ### setD -/

@[simp] theorem setD_params (f : DRegs → DRegs) : (setD f s).params = s.params := rfl
@[simp] theorem setD_ident (f : DRegs → DRegs) : (setD f s).ident = s.ident := rfl
@[simp] theorem setD_d (f : DRegs → DRegs) : (setD f s).d = f s.d := rfl
@[simp] theorem setD_h (f : DRegs → DRegs) : (setD f s).h = s.h := rfl
@[simp] theorem setD_flash (f : DRegs → DRegs) : (setD f s).flash = s.flash := rfl
@[simp] theorem setD_worn (f : DRegs → DRegs) : (setD f s).worn = s.worn := rfl
@[simp] theorem setD_targetKind (f : DRegs → DRegs) : (setD f s).targetKind = s.targetKind := rfl
@[simp] theorem setD_tgt (f : DRegs → DRegs) : (setD f s).tgt = s.tgt := rfl
@[simp] theorem setD_tflash (f : DRegs → DRegs) : (setD f s).tflash = s.tflash := rfl
@[simp] theorem setD_pinGrant (f : DRegs → DRegs) : (setD f s).pinGrant = s.pinGrant := rfl
@[simp] theorem setD_freeCtr (f : DRegs → DRegs) : (setD f s).freeCtr = s.freeCtr := rfl
@[simp] theorem setD_sched (f : DRegs → DRegs) : (setD f s).sched = s.sched := rfl

/-! ### setFlash -/

@[simp] theorem setFlash_params (m : Memory) : (setFlash m s).params = s.params := rfl
@[simp] theorem setFlash_ident (m : Memory) : (setFlash m s).ident = s.ident := rfl
@[simp] theorem setFlash_d (m : Memory) : (setFlash m s).d = s.d := rfl
@[simp] theorem setFlash_h (m : Memory) : (setFlash m s).h = s.h := rfl
@[simp] theorem setFlash_flash (m : Memory) : (setFlash m s).flash = m := rfl
@[simp] theorem setFlash_worn (m : Memory) : (setFlash m s).worn = s.worn := rfl
@[simp] theorem setFlash_targetKind (m : Memory) : (setFlash m s).targetKind = s.targetKind := rfl
@[simp] theorem setFlash_tgt (m : Memory) : (setFlash m s).tgt = s.tgt := rfl
@[simp] theorem setFlash_tflash (m : Memory) : (setFlash m s).tflash = s.tflash := rfl
@[simp] theorem setFlash_pinGrant (m : Memory) : (setFlash m s).pinGrant = s.pinGrant := rfl
@[simp] theorem setFlash_freeCtr (m : Memory) : (setFlash m s).freeCtr = s.freeCtr := rfl
@[simp] theorem setFlash_sched (m : Memory) : (setFlash m s).sched = s.sched := rfl

/-! ### setTFlash -/

@[simp] theorem setTFlash_params (m : Memory) : (setTFlash m s).params = s.params := rfl
@[simp] theorem setTFlash_ident (m : Memory) : (setTFlash m s).ident = s.ident := rfl
@[simp] theorem setTFlash_d (m : Memory) : (setTFlash m s).d = s.d := rfl
@[simp] theorem setTFlash_h (m : Memory) : (setTFlash m s).h = s.h := rfl
@[simp] theorem setTFlash_flash (m : Memory) : (setTFlash m s).flash = s.flash := rfl
@[simp] theorem setTFlash_worn (m : Memory) : (setTFlash m s).worn = s.worn := rfl
@[simp] theorem setTFlash_targetKind (m : Memory) : (setTFlash m s).targetKind = s.targetKind := rfl
@[simp] theorem setTFlash_tgt (m : Memory) : (setTFlash m s).tgt = s.tgt := rfl
@[simp] theorem setTFlash_tflash (m : Memory) : (setTFlash m s).tflash = m := rfl
@[simp] theorem setTFlash_pinGrant (m : Memory) : (setTFlash m s).pinGrant = s.pinGrant := rfl
@[simp] theorem setTFlash_freeCtr (m : Memory) : (setTFlash m s).freeCtr = s.freeCtr := rfl
@[simp] theorem setTFlash_sched (m : Memory) : (setTFlash m s).sched = s.sched := rfl

/-! ### chipToTarget -/

@[simp] theorem chipToTarget_params : (chipToTarget s).params = s.params := rfl
@[simp] theorem chipToTarget_ident : (chipToTarget s).ident = s.ident := rfl
@[simp] theorem chipToTarget_d : (chipToTarget s).d = s.d := rfl
@[simp] theorem chipToTarget_h : (chipToTarget s).h = s.h := rfl
@[simp] theorem chipToTarget_flash : (chipToTarget s).flash = s.flash := rfl
@[simp] theorem chipToTarget_worn : (chipToTarget s).worn = s.worn := rfl
@[simp] theorem chipToTarget_targetKind : (chipToTarget s).targetKind = s.targetKind := rfl
@[simp] theorem chipToTarget_tgt : (chipToTarget s).tgt = Target.initial := rfl
@[simp] theorem chipToTarget_tflash : (chipToTarget s).tflash = s.flash := rfl
@[simp] theorem chipToTarget_pinGrant : (chipToTarget s).pinGrant = s.pinGrant := rfl
@[simp] theorem chipToTarget_freeCtr : (chipToTarget s).freeCtr = s.freeCtr := rfl
@[simp] theorem chipToTarget_sched : (chipToTarget s).sched = s.sched := rfl

/-! ### chipToDevice -/

theorem chipToDevice_eq : chipToDevice s = resetD { s with flash := s.tflash } := rfl

/-! ### setTgt -/

@[simp] theorem setTgt_params (t : Target) : (setTgt t s).params = s.params := rfl
@[simp] theorem setTgt_ident (t : Target) : (setTgt t s).ident = s.ident := rfl
@[simp] theorem setTgt_d (t : Target) : (setTgt t s).d = s.d := rfl
@[simp] theorem setTgt_h (t : Target) : (setTgt t s).h = s.h := rfl
@[simp] theorem setTgt_flash (t : Target) : (setTgt t s).flash = s.flash := rfl
@[simp] theorem setTgt_worn (t : Target) : (setTgt t s).worn = s.worn := rfl
@[simp] theorem setTgt_targetKind (t : Target) : (setTgt t s).targetKind = s.targetKind := rfl
@[simp] theorem setTgt_tgt (t : Target) : (setTgt t s).tgt = t := rfl
@[simp] theorem setTgt_tflash (t : Target) : (setTgt t s).tflash = s.tflash := rfl
@[simp] theorem setTgt_pinGrant (t : Target) : (setTgt t s).pinGrant = s.pinGrant := rfl
@[simp] theorem setTgt_freeCtr (t : Target) : (setTgt t s).freeCtr = s.freeCtr := rfl
@[simp] theorem setTgt_sched (t : Target) : (setTgt t s).sched = s.sched := rfl

/-! ### emitD -/

@[simp] theorem emitD_params (es : List DEvent) : (emitD es s).params = s.params := rfl
@[simp] theorem emitD_ident (es : List DEvent) : (emitD es s).ident = s.ident := rfl
@[simp] theorem emitD_d (es : List DEvent) : (emitD es s).d = { s.d with trace := s.d.trace ++ es } := rfl
@[simp] theorem emitD_h (es : List DEvent) : (emitD es s).h = s.h := rfl
@[simp] theorem emitD_flash (es : List DEvent) : (emitD es s).flash = s.flash := rfl
@[simp] theorem emitD_worn (es : List DEvent) : (emitD es s).worn = s.worn := rfl
@[simp] theorem emitD_targetKind (es : List DEvent) : (emitD es s).targetKind = s.targetKind := rfl
@[simp] theorem emitD_tgt (es : List DEvent) : (emitD es s).tgt = s.tgt := rfl
@[simp] theorem emitD_tflash (es : List DEvent) : (emitD es s).tflash = s.tflash := rfl
@[simp] theorem emitD_pinGrant (es : List DEvent) : (emitD es s).pinGrant = s.pinGrant := rfl
@[simp] theorem emitD_freeCtr (es : List DEvent) : (emitD es s).freeCtr = s.freeCtr := rfl
@[simp] theorem emitD_sched (es : List DEvent) : (emitD es s).sched = s.sched := rfl

/-! ### raise -/

@[simp] theorem raise_params (k : ErrKind) (i : Word) : (raise k i s).params = s.params := rfl
@[simp] theorem raise_ident (k : ErrKind) (i : Word) : (raise k i s).ident = s.ident := rfl
@[simp] theorem raise_d (k : ErrKind) (i : Word) : (raise k i s).d = { s.d with trace := s.d.trace ++ [.err k i] } := rfl
@[simp] theorem raise_h (k : ErrKind) (i : Word) : (raise k i s).h = s.h := rfl
@[simp] theorem raise_flash (k : ErrKind) (i : Word) : (raise k i s).flash = s.flash := rfl
@[simp] theorem raise_worn (k : ErrKind) (i : Word) : (raise k i s).worn = s.worn := rfl
@[simp] theorem raise_targetKind (k : ErrKind) (i : Word) : (raise k i s).targetKind = s.targetKind := rfl
@[simp] theorem raise_tgt (k : ErrKind) (i : Word) : (raise k i s).tgt = s.tgt := rfl
@[simp] theorem raise_tflash (k : ErrKind) (i : Word) : (raise k i s).tflash = s.tflash := rfl
@[simp] theorem raise_pinGrant (k : ErrKind) (i : Word) : (raise k i s).pinGrant = s.pinGrant := rfl
@[simp] theorem raise_freeCtr (k : ErrKind) (i : Word) : (raise k i s).freeCtr = s.freeCtr := rfl
@[simp] theorem raise_sched (k : ErrKind) (i : Word) : (raise k i s).sched = s.sched := rfl

/-! ### returns -/

@[simp] theorem returns_params (st : Status) (r : RetData) : (returns st r s).params = s.params := rfl
@[simp] theorem returns_ident (st : Status) (r : RetData) : (returns st r s).ident = s.ident := rfl
@[simp] theorem returns_d (st : Status) (r : RetData) : (returns st r s).d = s.d := rfl
@[simp] theorem returns_h (st : Status) (r : RetData) : (returns st r s).h = { s.h with ret := some (st, r) } := rfl
@[simp] theorem returns_flash (st : Status) (r : RetData) : (returns st r s).flash = s.flash := rfl
@[simp] theorem returns_worn (st : Status) (r : RetData) : (returns st r s).worn = s.worn := rfl
@[simp] theorem returns_targetKind (st : Status) (r : RetData) : (returns st r s).targetKind = s.targetKind := rfl
@[simp] theorem returns_tgt (st : Status) (r : RetData) : (returns st r s).tgt = s.tgt := rfl
@[simp] theorem returns_tflash (st : Status) (r : RetData) : (returns st r s).tflash = s.tflash := rfl
@[simp] theorem returns_pinGrant (st : Status) (r : RetData) : (returns st r s).pinGrant = s.pinGrant := rfl
@[simp] theorem returns_freeCtr (st : Status) (r : RetData) : (returns st r s).freeCtr = s.freeCtr := rfl
@[simp] theorem returns_sched (st : Status) (r : RetData) : (returns st r s).sched = s.sched := rfl

/-! ### setIState -/

@[simp] theorem setIState_params (i : IState) : (setIState i s).params = s.params := rfl
@[simp] theorem setIState_ident (i : IState) : (setIState i s).ident = s.ident := rfl
@[simp] theorem setIState_d (i : IState) : (setIState i s).d = s.d := rfl
@[simp] theorem setIState_h (i : IState) : (setIState i s).h = { s.h with istate := i } := rfl
@[simp] theorem setIState_flash (i : IState) : (setIState i s).flash = s.flash := rfl
@[simp] theorem setIState_worn (i : IState) : (setIState i s).worn = s.worn := rfl
@[simp] theorem setIState_targetKind (i : IState) : (setIState i s).targetKind = s.targetKind := rfl
@[simp] theorem setIState_tgt (i : IState) : (setIState i s).tgt = s.tgt := rfl
@[simp] theorem setIState_tflash (i : IState) : (setIState i s).tflash = s.tflash := rfl
@[simp] theorem setIState_pinGrant (i : IState) : (setIState i s).pinGrant = s.pinGrant := rfl
@[simp] theorem setIState_freeCtr (i : IState) : (setIState i s).freeCtr = s.freeCtr := rfl
@[simp] theorem setIState_sched (i : IState) : (setIState i s).sched = s.sched := rfl

/-! ### setOwned -/

@[simp] theorem setOwned_params (b : Bool) : (setOwned b s).params = s.params := rfl
@[simp] theorem setOwned_ident (b : Bool) : (setOwned b s).ident = s.ident := rfl
@[simp] theorem setOwned_d (b : Bool) : (setOwned b s).d = s.d := rfl
@[simp] theorem setOwned_h (b : Bool) : (setOwned b s).h = { s.h with pinsOwned := b } := rfl
@[simp] theorem setOwned_flash (b : Bool) : (setOwned b s).flash = s.flash := rfl
@[simp] theorem setOwned_worn (b : Bool) : (setOwned b s).worn = s.worn := rfl
@[simp] theorem setOwned_targetKind (b : Bool) : (setOwned b s).targetKind = s.targetKind := rfl
@[simp] theorem setOwned_tgt (b : Bool) : (setOwned b s).tgt = s.tgt := rfl
@[simp] theorem setOwned_tflash (b : Bool) : (setOwned b s).tflash = s.tflash := rfl
@[simp] theorem setOwned_pinGrant (b : Bool) : (setOwned b s).pinGrant = s.pinGrant := rfl
@[simp] theorem setOwned_freeCtr (b : Bool) : (setOwned b s).freeCtr = s.freeCtr := rfl
@[simp] theorem setOwned_sched (b : Bool) : (setOwned b s).sched = s.sched := rfl

/-! ### setTiming -/

@[simp] theorem setTiming_params (r : TimingReg) (v : BitVec 32) : (setTiming r v s).params = s.params := rfl
@[simp] theorem setTiming_ident (r : TimingReg) (v : BitVec 32) : (setTiming r v s).ident = s.ident := rfl
@[simp] theorem setTiming_d (r : TimingReg) (v : BitVec 32) : (setTiming r v s).d = s.d := rfl
@[simp] theorem setTiming_h (r : TimingReg) (v : BitVec 32) : (setTiming r v s).h = { s.h with timing := s.h.timing.set r v } := rfl
@[simp] theorem setTiming_flash (r : TimingReg) (v : BitVec 32) : (setTiming r v s).flash = s.flash := rfl
@[simp] theorem setTiming_worn (r : TimingReg) (v : BitVec 32) : (setTiming r v s).worn = s.worn := rfl
@[simp] theorem setTiming_targetKind (r : TimingReg) (v : BitVec 32) : (setTiming r v s).targetKind = s.targetKind := rfl
@[simp] theorem setTiming_tgt (r : TimingReg) (v : BitVec 32) : (setTiming r v s).tgt = s.tgt := rfl
@[simp] theorem setTiming_tflash (r : TimingReg) (v : BitVec 32) : (setTiming r v s).tflash = s.tflash := rfl
@[simp] theorem setTiming_pinGrant (r : TimingReg) (v : BitVec 32) : (setTiming r v s).pinGrant = s.pinGrant := rfl
@[simp] theorem setTiming_freeCtr (r : TimingReg) (v : BitVec 32) : (setTiming r v s).freeCtr = s.freeCtr := rfl
@[simp] theorem setTiming_sched (r : TimingReg) (v : BitVec 32) : (setTiming r v s).sched = s.sched := rfl

/-! ### resetD -/

@[simp] theorem resetD_params :
    (resetD s).params = repartition (configBytes s) s.params := rfl
@[simp] theorem resetD_ident : (resetD s).ident = s.ident := rfl
@[simp] theorem resetD_d :
    (resetD s).d = DRegs.reset (repartition (configBytes s) s.params) := rfl
@[simp] theorem resetD_h : (resetD s).h = s.h := rfl
@[simp] theorem resetD_flash : (resetD s).flash = s.flash := rfl
@[simp] theorem resetD_worn : (resetD s).worn = s.worn := rfl
@[simp] theorem resetD_targetKind : (resetD s).targetKind = s.targetKind := rfl
@[simp] theorem resetD_tgt : (resetD s).tgt = s.tgt := rfl
@[simp] theorem resetD_tflash : (resetD s).tflash = s.tflash := rfl
@[simp] theorem resetD_pinGrant : (resetD s).pinGrant = s.pinGrant := rfl
@[simp] theorem resetD_freeCtr : (resetD s).freeCtr = s.freeCtr := rfl
@[simp] theorem resetD_sched : (resetD s).sched = s.sched := rfl

/-! ### resetH -/

@[simp] theorem resetH_params : (resetH s).params = s.params := rfl
@[simp] theorem resetH_ident : (resetH s).ident = s.ident := rfl
@[simp] theorem resetH_d : (resetH s).d = s.d := rfl
@[simp] theorem resetH_h : (resetH s).h = HRegs.reset s.params := rfl
@[simp] theorem resetH_flash : (resetH s).flash = s.flash := rfl
@[simp] theorem resetH_worn : (resetH s).worn = s.worn := rfl
@[simp] theorem resetH_targetKind : (resetH s).targetKind = s.targetKind := rfl
@[simp] theorem resetH_tgt : (resetH s).tgt = s.tgt := rfl
@[simp] theorem resetH_tflash : (resetH s).tflash = s.tflash := rfl
@[simp] theorem resetH_pinGrant : (resetH s).pinGrant = s.pinGrant := rfl
@[simp] theorem resetH_freeCtr : (resetH s).freeCtr = s.freeCtr := rfl
@[simp] theorem resetH_sched : (resetH s).sched = s.sched := rfl

/-! ### targetEntry -/

@[simp] theorem targetEntry_params : (targetEntry s).params = s.params := rfl
@[simp] theorem targetEntry_ident : (targetEntry s).ident = s.ident := rfl
@[simp] theorem targetEntry_d : (targetEntry s).d = s.d := rfl
@[simp] theorem targetEntry_h : (targetEntry s).h = s.h := rfl
@[simp] theorem targetEntry_flash : (targetEntry s).flash = s.flash := rfl
@[simp] theorem targetEntry_worn : (targetEntry s).worn = s.worn := rfl
@[simp] theorem targetEntry_targetKind : (targetEntry s).targetKind = s.targetKind := rfl
@[simp] theorem targetEntry_tgt : (targetEntry s).tgt = { s.tgt with prog := true, cmd := none, desync := false, armed := false, locked := isLocked (targetConfig s) } := rfl
@[simp] theorem targetEntry_tflash : (targetEntry s).tflash = s.tflash := rfl
@[simp] theorem targetEntry_pinGrant : (targetEntry s).pinGrant = s.pinGrant := rfl
@[simp] theorem targetEntry_freeCtr : (targetEntry s).freeCtr = s.freeCtr := rfl
@[simp] theorem targetEntry_sched : (targetEntry s).sched = s.sched := rfl

/-! ### stamp -/

@[simp] theorem stamp_params : (stamp s).params = s.params := by simp [stamp]
@[simp] theorem stamp_ident : (stamp s).ident = s.ident := by simp [stamp]
@[simp] theorem stamp_d : (stamp s).d = { s.d with txbuf := replyBuf (lo8 (checksum s.d.rxbuf)) (hi8 (checksum s.d.rxbuf)) s.d.seq } := by simp [stamp]
@[simp] theorem stamp_h : (stamp s).h = s.h := by simp [stamp]
@[simp] theorem stamp_flash : (stamp s).flash = s.flash := by simp [stamp]
@[simp] theorem stamp_worn : (stamp s).worn = s.worn := by simp [stamp]
@[simp] theorem stamp_targetKind : (stamp s).targetKind = s.targetKind := by simp [stamp]
@[simp] theorem stamp_tgt : (stamp s).tgt = s.tgt := by simp [stamp]
@[simp] theorem stamp_tflash : (stamp s).tflash = s.tflash := by simp [stamp]
@[simp] theorem stamp_pinGrant : (stamp s).pinGrant = s.pinGrant := by simp [stamp]
@[simp] theorem stamp_freeCtr : (stamp s).freeCtr = s.freeCtr := by simp [stamp]
@[simp] theorem stamp_sched : (stamp s).sched = s.sched := by simp [stamp]

/-! ### failStamp -/

@[simp] theorem failStamp_params : (failStamp s).params = s.params := by simp [failStamp]
@[simp] theorem failStamp_ident : (failStamp s).ident = s.ident := by simp [failStamp]
@[simp] theorem failStamp_d : (failStamp s).d = { s.d with txbuf := replyBuf (~~~lo8 (checksum s.d.rxbuf)) (~~~hi8 (checksum s.d.rxbuf)) s.d.seq } := by simp [failStamp]
@[simp] theorem failStamp_h : (failStamp s).h = s.h := by simp [failStamp]
@[simp] theorem failStamp_flash : (failStamp s).flash = s.flash := by simp [failStamp]
@[simp] theorem failStamp_worn : (failStamp s).worn = s.worn := by simp [failStamp]
@[simp] theorem failStamp_targetKind : (failStamp s).targetKind = s.targetKind := by simp [failStamp]
@[simp] theorem failStamp_tgt : (failStamp s).tgt = s.tgt := by simp [failStamp]
@[simp] theorem failStamp_tflash : (failStamp s).tflash = s.tflash := by simp [failStamp]
@[simp] theorem failStamp_pinGrant : (failStamp s).pinGrant = s.pinGrant := by simp [failStamp]
@[simp] theorem failStamp_freeCtr : (failStamp s).freeCtr = s.freeCtr := by simp [failStamp]
@[simp] theorem failStamp_sched : (failStamp s).sched = s.sched := by simp [failStamp]

/-! ### putPayload -/

@[simp] theorem putPayload_params (bs : List Byte) : (putPayload bs s).params = s.params := rfl
@[simp] theorem putPayload_ident (bs : List Byte) : (putPayload bs s).ident = s.ident := rfl
@[simp] theorem putPayload_d (bs : List Byte) : (putPayload bs s).d = { s.d with txbuf := fillAt s.d.txbuf 8 bs } := rfl
@[simp] theorem putPayload_h (bs : List Byte) : (putPayload bs s).h = s.h := rfl
@[simp] theorem putPayload_flash (bs : List Byte) : (putPayload bs s).flash = s.flash := rfl
@[simp] theorem putPayload_worn (bs : List Byte) : (putPayload bs s).worn = s.worn := rfl
@[simp] theorem putPayload_targetKind (bs : List Byte) : (putPayload bs s).targetKind = s.targetKind := rfl
@[simp] theorem putPayload_tgt (bs : List Byte) : (putPayload bs s).tgt = s.tgt := rfl
@[simp] theorem putPayload_tflash (bs : List Byte) : (putPayload bs s).tflash = s.tflash := rfl
@[simp] theorem putPayload_pinGrant (bs : List Byte) : (putPayload bs s).pinGrant = s.pinGrant := rfl
@[simp] theorem putPayload_freeCtr (bs : List Byte) : (putPayload bs s).freeCtr = s.freeCtr := rfl
@[simp] theorem putPayload_sched (bs : List Byte) : (putPayload bs s).sched = s.sched := rfl

/-! ### transmit -/

@[simp] theorem transmit_params : (transmit s).params = s.params := rfl
@[simp] theorem transmit_ident : (transmit s).ident = s.ident := rfl
@[simp] theorem transmit_d : (transmit s).d = { s.d with trace := s.d.trace ++ s.d.txbuf.toList.flatMap (txEvents s.params.wdtBuild) } := rfl
@[simp] theorem transmit_h : (transmit s).h = s.h := rfl
@[simp] theorem transmit_flash : (transmit s).flash = s.flash := rfl
@[simp] theorem transmit_worn : (transmit s).worn = s.worn := rfl
@[simp] theorem transmit_targetKind : (transmit s).targetKind = s.targetKind := rfl
@[simp] theorem transmit_tgt : (transmit s).tgt = s.tgt := rfl
@[simp] theorem transmit_tflash : (transmit s).tflash = s.tflash := rfl
@[simp] theorem transmit_pinGrant : (transmit s).pinGrant = s.pinGrant := rfl
@[simp] theorem transmit_freeCtr : (transmit s).freeCtr = s.freeCtr := rfl
@[simp] theorem transmit_sched : (transmit s).sched = s.sched := rfl
/-! ### replies -/

@[simp] theorem replyOk_params : (replyOk s).params = s.params := by
  simp only [replyOk, transmit_params, stamp_params]
@[simp] theorem replyOk_ident : (replyOk s).ident = s.ident := by
  simp only [replyOk, transmit_ident, stamp_ident]
@[simp] theorem replyOk_h : (replyOk s).h = s.h := by
  simp only [replyOk, transmit_h, stamp_h]
@[simp] theorem replyOk_flash : (replyOk s).flash = s.flash := by
  simp only [replyOk, transmit_flash, stamp_flash]
@[simp] theorem replyOk_worn : (replyOk s).worn = s.worn := by
  simp only [replyOk, transmit_worn, stamp_worn]
@[simp] theorem replyOk_targetKind : (replyOk s).targetKind = s.targetKind := by
  simp only [replyOk, transmit_targetKind, stamp_targetKind]
@[simp] theorem replyOk_tgt : (replyOk s).tgt = s.tgt := by
  simp only [replyOk, transmit_tgt, stamp_tgt]
@[simp] theorem replyOk_tflash : (replyOk s).tflash = s.tflash := by
  simp only [replyOk, transmit_tflash, stamp_tflash]
@[simp] theorem replyOk_pinGrant : (replyOk s).pinGrant = s.pinGrant := by
  simp only [replyOk, transmit_pinGrant, stamp_pinGrant]
@[simp] theorem replyOk_freeCtr : (replyOk s).freeCtr = s.freeCtr := by
  simp only [replyOk, transmit_freeCtr, stamp_freeCtr]
@[simp] theorem replyOk_sched : (replyOk s).sched = s.sched := by
  simp only [replyOk, transmit_sched, stamp_sched]
@[simp] theorem replyWith_params (bs : List Byte) : (replyWith bs s).params = s.params := by
  simp only [replyWith, transmit_params, putPayload_params, stamp_params]
@[simp] theorem replyWith_ident (bs : List Byte) : (replyWith bs s).ident = s.ident := by
  simp only [replyWith, transmit_ident, putPayload_ident, stamp_ident]
@[simp] theorem replyWith_h (bs : List Byte) : (replyWith bs s).h = s.h := by
  simp only [replyWith, transmit_h, putPayload_h, stamp_h]
@[simp] theorem replyWith_flash (bs : List Byte) : (replyWith bs s).flash = s.flash := by
  simp only [replyWith, transmit_flash, putPayload_flash, stamp_flash]
@[simp] theorem replyWith_worn (bs : List Byte) : (replyWith bs s).worn = s.worn := by
  simp only [replyWith, transmit_worn, putPayload_worn, stamp_worn]
@[simp] theorem replyWith_targetKind (bs : List Byte) : (replyWith bs s).targetKind = s.targetKind := by
  simp only [replyWith, transmit_targetKind, putPayload_targetKind, stamp_targetKind]
@[simp] theorem replyWith_tgt (bs : List Byte) : (replyWith bs s).tgt = s.tgt := by
  simp only [replyWith, transmit_tgt, putPayload_tgt, stamp_tgt]
@[simp] theorem replyWith_tflash (bs : List Byte) : (replyWith bs s).tflash = s.tflash := by
  simp only [replyWith, transmit_tflash, putPayload_tflash, stamp_tflash]
@[simp] theorem replyWith_pinGrant (bs : List Byte) : (replyWith bs s).pinGrant = s.pinGrant := by
  simp only [replyWith, transmit_pinGrant, putPayload_pinGrant, stamp_pinGrant]
@[simp] theorem replyWith_freeCtr (bs : List Byte) : (replyWith bs s).freeCtr = s.freeCtr := by
  simp only [replyWith, transmit_freeCtr, putPayload_freeCtr, stamp_freeCtr]
@[simp] theorem replyWith_sched (bs : List Byte) : (replyWith bs s).sched = s.sched := by
  simp only [replyWith, transmit_sched, putPayload_sched, stamp_sched]
@[simp] theorem replyFail_params (kind : ErrKind) (info : Word) : (replyFail kind info s).params = s.params := by
  simp only [replyFail, transmit_params, failStamp_params, raise_params]
@[simp] theorem replyFail_ident (kind : ErrKind) (info : Word) : (replyFail kind info s).ident = s.ident := by
  simp only [replyFail, transmit_ident, failStamp_ident, raise_ident]
@[simp] theorem replyFail_h (kind : ErrKind) (info : Word) : (replyFail kind info s).h = s.h := by
  simp only [replyFail, transmit_h, failStamp_h, raise_h]
@[simp] theorem replyFail_flash (kind : ErrKind) (info : Word) : (replyFail kind info s).flash = s.flash := by
  simp only [replyFail, transmit_flash, failStamp_flash, raise_flash]
@[simp] theorem replyFail_worn (kind : ErrKind) (info : Word) : (replyFail kind info s).worn = s.worn := by
  simp only [replyFail, transmit_worn, failStamp_worn, raise_worn]
@[simp] theorem replyFail_targetKind (kind : ErrKind) (info : Word) : (replyFail kind info s).targetKind = s.targetKind := by
  simp only [replyFail, transmit_targetKind, failStamp_targetKind, raise_targetKind]
@[simp] theorem replyFail_tgt (kind : ErrKind) (info : Word) : (replyFail kind info s).tgt = s.tgt := by
  simp only [replyFail, transmit_tgt, failStamp_tgt, raise_tgt]
@[simp] theorem replyFail_tflash (kind : ErrKind) (info : Word) : (replyFail kind info s).tflash = s.tflash := by
  simp only [replyFail, transmit_tflash, failStamp_tflash, raise_tflash]
@[simp] theorem replyFail_pinGrant (kind : ErrKind) (info : Word) : (replyFail kind info s).pinGrant = s.pinGrant := by
  simp only [replyFail, transmit_pinGrant, failStamp_pinGrant, raise_pinGrant]
@[simp] theorem replyFail_freeCtr (kind : ErrKind) (info : Word) : (replyFail kind info s).freeCtr = s.freeCtr := by
  simp only [replyFail, transmit_freeCtr, failStamp_freeCtr, raise_freeCtr]
@[simp] theorem replyFail_sched (kind : ErrKind) (info : Word) : (replyFail kind info s).sched = s.sched := by
  simp only [replyFail, transmit_sched, failStamp_sched, raise_sched]

/-! ### halt -/

@[simp] theorem halt_params (a : Word) : (halt a s).params = s.params := by simp [halt]
@[simp] theorem halt_ident (a : Word) : (halt a s).ident = s.ident := by simp [halt]
@[simp] theorem halt_d (a : Word) : (halt a s).d = { s.d with trace := s.d.trace ++ [.err .fatalVerify a], terminal := .haltVerify } := by simp [halt]
@[simp] theorem halt_h (a : Word) : (halt a s).h = s.h := by simp [halt]
@[simp] theorem halt_flash (a : Word) : (halt a s).flash = s.flash := by simp [halt]
@[simp] theorem halt_worn (a : Word) : (halt a s).worn = s.worn := by simp [halt]
@[simp] theorem halt_targetKind (a : Word) : (halt a s).targetKind = s.targetKind := by simp [halt]
@[simp] theorem halt_tgt (a : Word) : (halt a s).tgt = s.tgt := by simp [halt]
@[simp] theorem halt_tflash (a : Word) : (halt a s).tflash = s.tflash := by simp [halt]
@[simp] theorem halt_pinGrant (a : Word) : (halt a s).pinGrant = s.pinGrant := by simp [halt]
@[simp] theorem halt_freeCtr (a : Word) : (halt a s).freeCtr = s.freeCtr := by simp [halt]
@[simp] theorem halt_sched (a : Word) : (halt a s).sched = s.sched := by simp [halt]

/-! ### bootSequence -/

@[simp] theorem bootSequence_params (t : BootTarget) : (bootSequence t s).params = s.params := rfl
@[simp] theorem bootSequence_ident (t : BootTarget) : (bootSequence t s).ident = s.ident := rfl
@[simp] theorem bootSequence_d (t : BootTarget) : (bootSequence t s).d = { s.d with ie := false, iapen := false, terminal := t.terminal, trace := s.d.trace ++ [.sysTrimRestore, .sysSwReset t] } := rfl
@[simp] theorem bootSequence_h (t : BootTarget) : (bootSequence t s).h = s.h := rfl
@[simp] theorem bootSequence_flash (t : BootTarget) : (bootSequence t s).flash = s.flash := rfl
@[simp] theorem bootSequence_worn (t : BootTarget) : (bootSequence t s).worn = s.worn := rfl
@[simp] theorem bootSequence_targetKind (t : BootTarget) : (bootSequence t s).targetKind = s.targetKind := rfl
@[simp] theorem bootSequence_tgt (t : BootTarget) : (bootSequence t s).tgt = s.tgt := rfl
@[simp] theorem bootSequence_tflash (t : BootTarget) : (bootSequence t s).tflash = s.tflash := rfl
@[simp] theorem bootSequence_pinGrant (t : BootTarget) : (bootSequence t s).pinGrant = s.pinGrant := rfl
@[simp] theorem bootSequence_freeCtr (t : BootTarget) : (bootSequence t s).freeCtr = s.freeCtr := rfl
@[simp] theorem bootSequence_sched (t : BootTarget) : (bootSequence t s).sched = s.sched := rfl

/-! ### advanceCur -/

@[simp] theorem advanceCur_params : (advanceCur s).params = s.params := rfl
@[simp] theorem advanceCur_ident : (advanceCur s).ident = s.ident := rfl
@[simp] theorem advanceCur_d : (advanceCur s).d = { s.d with curAddr := s.d.curAddr + 1 } := rfl
@[simp] theorem advanceCur_h : (advanceCur s).h = s.h := rfl
@[simp] theorem advanceCur_flash : (advanceCur s).flash = s.flash := rfl
@[simp] theorem advanceCur_worn : (advanceCur s).worn = s.worn := rfl
@[simp] theorem advanceCur_targetKind : (advanceCur s).targetKind = s.targetKind := rfl
@[simp] theorem advanceCur_tgt : (advanceCur s).tgt = s.tgt := rfl
@[simp] theorem advanceCur_tflash : (advanceCur s).tflash = s.tflash := rfl
@[simp] theorem advanceCur_pinGrant : (advanceCur s).pinGrant = s.pinGrant := rfl
@[simp] theorem advanceCur_freeCtr : (advanceCur s).freeCtr = s.freeCtr := rfl
@[simp] theorem advanceCur_sched : (advanceCur s).sched = s.sched := rfl

/-! ### acceptRange -/

@[simp] theorem acceptRange_params (start len : Word) : (acceptRange start len s).params = s.params := rfl
@[simp] theorem acceptRange_ident (start len : Word) : (acceptRange start len s).ident = s.ident := rfl
@[simp] theorem acceptRange_d (start len : Word) : (acceptRange start len s).d = { s.d with startAddr := start, endAddr := (end17 start len).setWidth 16, curAddr := start } := rfl
@[simp] theorem acceptRange_h (start len : Word) : (acceptRange start len s).h = s.h := rfl
@[simp] theorem acceptRange_flash (start len : Word) : (acceptRange start len s).flash = s.flash := rfl
@[simp] theorem acceptRange_worn (start len : Word) : (acceptRange start len s).worn = s.worn := rfl
@[simp] theorem acceptRange_targetKind (start len : Word) : (acceptRange start len s).targetKind = s.targetKind := rfl
@[simp] theorem acceptRange_tgt (start len : Word) : (acceptRange start len s).tgt = s.tgt := rfl
@[simp] theorem acceptRange_tflash (start len : Word) : (acceptRange start len s).tflash = s.tflash := rfl
@[simp] theorem acceptRange_pinGrant (start len : Word) : (acceptRange start len s).pinGrant = s.pinGrant := rfl
@[simp] theorem acceptRange_freeCtr (start len : Word) : (acceptRange start len s).freeCtr = s.freeCtr := rfl
@[simp] theorem acceptRange_sched (start len : Word) : (acceptRange start len s).sched = s.sched := rfl

/-! ### setCState -/

@[simp] theorem setCState_params (c : CState) : (setCState c s).params = s.params := rfl
@[simp] theorem setCState_ident (c : CState) : (setCState c s).ident = s.ident := rfl
@[simp] theorem setCState_d (c : CState) : (setCState c s).d = { s.d with cstate := c } := rfl
@[simp] theorem setCState_h (c : CState) : (setCState c s).h = s.h := rfl
@[simp] theorem setCState_flash (c : CState) : (setCState c s).flash = s.flash := rfl
@[simp] theorem setCState_worn (c : CState) : (setCState c s).worn = s.worn := rfl
@[simp] theorem setCState_targetKind (c : CState) : (setCState c s).targetKind = s.targetKind := rfl
@[simp] theorem setCState_tgt (c : CState) : (setCState c s).tgt = s.tgt := rfl
@[simp] theorem setCState_tflash (c : CState) : (setCState c s).tflash = s.tflash := rfl
@[simp] theorem setCState_pinGrant (c : CState) : (setCState c s).pinGrant = s.pinGrant := rfl
@[simp] theorem setCState_freeCtr (c : CState) : (setCState c s).freeCtr = s.freeCtr := rfl
@[simp] theorem setCState_sched (c : CState) : (setCState c s).sched = s.sched := rfl

/-! ### prologue -/

@[simp] theorem prologue_params : (prologue s).params = s.params := rfl
@[simp] theorem prologue_ident : (prologue s).ident = s.ident := rfl
@[simp] theorem prologue_d : (prologue s).d = { s.d with ie := false, seq := s.d.seq + 1, cstate := if rxOpcode s.d = 0x00 then s.d.cstate else .command } := rfl
@[simp] theorem prologue_h : (prologue s).h = s.h := rfl
@[simp] theorem prologue_flash : (prologue s).flash = s.flash := rfl
@[simp] theorem prologue_worn : (prologue s).worn = s.worn := rfl
@[simp] theorem prologue_targetKind : (prologue s).targetKind = s.targetKind := rfl
@[simp] theorem prologue_tgt : (prologue s).tgt = s.tgt := rfl
@[simp] theorem prologue_tflash : (prologue s).tflash = s.tflash := rfl
@[simp] theorem prologue_pinGrant : (prologue s).pinGrant = s.pinGrant := rfl
@[simp] theorem prologue_freeCtr : (prologue s).freeCtr = s.freeCtr := rfl
@[simp] theorem prologue_sched : (prologue s).sched = s.sched := rfl

/-! ### discardPacket -/

@[simp] theorem discardPacket_params : (discardPacket s).params = s.params := by simp [discardPacket]
@[simp] theorem discardPacket_ident : (discardPacket s).ident = s.ident := by simp [discardPacket]
@[simp] theorem discardPacket_d : (discardPacket s).d = { s.d with rxready := false, rxhead := 0, ie := true, trace := s.d.trace ++ [.err .seqMismatch (rxSeqField s.d)] } := by simp [discardPacket, DRegs.epilogue]
@[simp] theorem discardPacket_h : (discardPacket s).h = s.h := by simp [discardPacket]
@[simp] theorem discardPacket_flash : (discardPacket s).flash = s.flash := by simp [discardPacket]
@[simp] theorem discardPacket_worn : (discardPacket s).worn = s.worn := by simp [discardPacket]
@[simp] theorem discardPacket_targetKind : (discardPacket s).targetKind = s.targetKind := by simp [discardPacket]
@[simp] theorem discardPacket_tgt : (discardPacket s).tgt = s.tgt := by simp [discardPacket]
@[simp] theorem discardPacket_tflash : (discardPacket s).tflash = s.tflash := by simp [discardPacket]
@[simp] theorem discardPacket_pinGrant : (discardPacket s).pinGrant = s.pinGrant := by simp [discardPacket]
@[simp] theorem discardPacket_freeCtr : (discardPacket s).freeCtr = s.freeCtr := by simp [discardPacket]
@[simp] theorem discardPacket_sched : (discardPacket s).sched = s.sched := by simp [discardPacket]

/-! ### connTimeout -/

@[simp] theorem connTimeout_params : (connTimeout s).params = s.params := by simp [connTimeout]
@[simp] theorem connTimeout_ident : (connTimeout s).ident = s.ident := by simp [connTimeout]
@[simp] theorem connTimeout_d : (connTimeout s).d = { s.d with ie := false, iapen := false, terminal := .bootAprom, trace := s.d.trace ++ [.err .connTimeout 0] ++ [.sysTrimRestore, .sysSwReset .aprom] } := by simp [connTimeout, BootTarget.terminal]
@[simp] theorem connTimeout_h : (connTimeout s).h = s.h := by simp [connTimeout]
@[simp] theorem connTimeout_flash : (connTimeout s).flash = s.flash := by simp [connTimeout]
@[simp] theorem connTimeout_worn : (connTimeout s).worn = s.worn := by simp [connTimeout]
@[simp] theorem connTimeout_targetKind : (connTimeout s).targetKind = s.targetKind := by simp [connTimeout]
@[simp] theorem connTimeout_tgt : (connTimeout s).tgt = s.tgt := by simp [connTimeout]
@[simp] theorem connTimeout_tflash : (connTimeout s).tflash = s.tflash := by simp [connTimeout]
@[simp] theorem connTimeout_pinGrant : (connTimeout s).pinGrant = s.pinGrant := by simp [connTimeout]
@[simp] theorem connTimeout_freeCtr : (connTimeout s).freeCtr = s.freeCtr := by simp [connTimeout]
@[simp] theorem connTimeout_sched : (connTimeout s).sched = s.sched := by simp [connTimeout]

/-! ### idleTimeout -/

@[simp] theorem idleTimeout_params : (idleTimeout s).params = s.params := by simp [idleTimeout]
@[simp] theorem idleTimeout_ident : (idleTimeout s).ident = s.ident := by simp [idleTimeout]
@[simp] theorem idleTimeout_d : (idleTimeout s).d = { s.d with rxhead := 0, trace := s.d.trace ++ [.err .frameIdleTimeout (s.d.rxhead.setWidth 16)] } := by simp [idleTimeout]
@[simp] theorem idleTimeout_h : (idleTimeout s).h = s.h := by simp [idleTimeout]
@[simp] theorem idleTimeout_flash : (idleTimeout s).flash = s.flash := by simp [idleTimeout]
@[simp] theorem idleTimeout_worn : (idleTimeout s).worn = s.worn := by simp [idleTimeout]
@[simp] theorem idleTimeout_targetKind : (idleTimeout s).targetKind = s.targetKind := by simp [idleTimeout]
@[simp] theorem idleTimeout_tgt : (idleTimeout s).tgt = s.tgt := by simp [idleTimeout]
@[simp] theorem idleTimeout_tflash : (idleTimeout s).tflash = s.tflash := by simp [idleTimeout]
@[simp] theorem idleTimeout_pinGrant : (idleTimeout s).pinGrant = s.pinGrant := by simp [idleTimeout]
@[simp] theorem idleTimeout_freeCtr : (idleTimeout s).freeCtr = s.freeCtr := by simp [idleTimeout]
@[simp] theorem idleTimeout_sched : (idleTimeout s).sched = s.sched := by simp [idleTimeout]

/-! ### tickTimers -/

@[simp] theorem tickTimers_params : (tickTimers s).params = s.params := rfl
@[simp] theorem tickTimers_ident : (tickTimers s).ident = s.ident := rfl
@[simp] theorem tickTimers_d : (tickTimers s).d = s.d.tickIdle.tickConn := rfl
@[simp] theorem tickTimers_h : (tickTimers s).h = s.h := rfl
@[simp] theorem tickTimers_flash : (tickTimers s).flash = s.flash := rfl
@[simp] theorem tickTimers_worn : (tickTimers s).worn = s.worn := rfl
@[simp] theorem tickTimers_targetKind : (tickTimers s).targetKind = s.targetKind := rfl
@[simp] theorem tickTimers_tgt : (tickTimers s).tgt = s.tgt := rfl
@[simp] theorem tickTimers_tflash : (tickTimers s).tflash = s.tflash := rfl
@[simp] theorem tickTimers_pinGrant : (tickTimers s).pinGrant = s.pinGrant := rfl
@[simp] theorem tickTimers_freeCtr : (tickTimers s).freeCtr = s.freeCtr := rfl
@[simp] theorem tickTimers_sched : (tickTimers s).sched = s.sched := rfl

variable (d : DRegs)

/-! ### DRegs.armIdle -/

@[simp] theorem DRegs.armIdle_rxbuf (n : BitVec 8) : (d.armIdle n).rxbuf = d.rxbuf := rfl
@[simp] theorem DRegs.armIdle_rxhead (n : BitVec 8) : (d.armIdle n).rxhead = d.rxhead := rfl
@[simp] theorem DRegs.armIdle_rxready (n : BitVec 8) : (d.armIdle n).rxready = d.rxready := rfl
@[simp] theorem DRegs.armIdle_txbuf (n : BitVec 8) : (d.armIdle n).txbuf = d.txbuf := rfl
@[simp] theorem DRegs.armIdle_seq (n : BitVec 8) : (d.armIdle n).seq = d.seq := rfl
@[simp] theorem DRegs.armIdle_cstate (n : BitVec 8) : (d.armIdle n).cstate = d.cstate := rfl
@[simp] theorem DRegs.armIdle_startAddr (n : BitVec 8) : (d.armIdle n).startAddr = d.startAddr := rfl
@[simp] theorem DRegs.armIdle_endAddr (n : BitVec 8) : (d.armIdle n).endAddr = d.endAddr := rfl
@[simp] theorem DRegs.armIdle_curAddr (n : BitVec 8) : (d.armIdle n).curAddr = d.curAddr := rfl
@[simp] theorem DRegs.armIdle_idleCnt (n : BitVec 8) : (d.armIdle n).idleCnt = n := rfl
@[simp] theorem DRegs.armIdle_idleExpired (n : BitVec 8) : (d.armIdle n).idleExpired = false := rfl
@[simp] theorem DRegs.armIdle_connCnt (n : BitVec 8) : (d.armIdle n).connCnt = d.connCnt := rfl
@[simp] theorem DRegs.armIdle_connExpired (n : BitVec 8) : (d.armIdle n).connExpired = d.connExpired := rfl
@[simp] theorem DRegs.armIdle_ie (n : BitVec 8) : (d.armIdle n).ie = d.ie := rfl
@[simp] theorem DRegs.armIdle_terminal (n : BitVec 8) : (d.armIdle n).terminal = d.terminal := rfl
@[simp] theorem DRegs.armIdle_mphase (n : BitVec 8) : (d.armIdle n).mphase = d.mphase := rfl
@[simp] theorem DRegs.armIdle_iapen (n : BitVec 8) : (d.armIdle n).iapen = d.iapen := rfl
@[simp] theorem DRegs.armIdle_trace (n : BitVec 8) : (d.armIdle n).trace = d.trace := rfl

/-! ### DRegs.disarmIdle -/

@[simp] theorem DRegs.disarmIdle_rxbuf : (d.disarmIdle).rxbuf = d.rxbuf := rfl
@[simp] theorem DRegs.disarmIdle_rxhead : (d.disarmIdle).rxhead = d.rxhead := rfl
@[simp] theorem DRegs.disarmIdle_rxready : (d.disarmIdle).rxready = d.rxready := rfl
@[simp] theorem DRegs.disarmIdle_txbuf : (d.disarmIdle).txbuf = d.txbuf := rfl
@[simp] theorem DRegs.disarmIdle_seq : (d.disarmIdle).seq = d.seq := rfl
@[simp] theorem DRegs.disarmIdle_cstate : (d.disarmIdle).cstate = d.cstate := rfl
@[simp] theorem DRegs.disarmIdle_startAddr : (d.disarmIdle).startAddr = d.startAddr := rfl
@[simp] theorem DRegs.disarmIdle_endAddr : (d.disarmIdle).endAddr = d.endAddr := rfl
@[simp] theorem DRegs.disarmIdle_curAddr : (d.disarmIdle).curAddr = d.curAddr := rfl
@[simp] theorem DRegs.disarmIdle_idleCnt : (d.disarmIdle).idleCnt = 0 := rfl
@[simp] theorem DRegs.disarmIdle_idleExpired : (d.disarmIdle).idleExpired = false := rfl
@[simp] theorem DRegs.disarmIdle_connCnt : (d.disarmIdle).connCnt = d.connCnt := rfl
@[simp] theorem DRegs.disarmIdle_connExpired : (d.disarmIdle).connExpired = d.connExpired := rfl
@[simp] theorem DRegs.disarmIdle_ie : (d.disarmIdle).ie = d.ie := rfl
@[simp] theorem DRegs.disarmIdle_terminal : (d.disarmIdle).terminal = d.terminal := rfl
@[simp] theorem DRegs.disarmIdle_mphase : (d.disarmIdle).mphase = d.mphase := rfl
@[simp] theorem DRegs.disarmIdle_iapen : (d.disarmIdle).iapen = d.iapen := rfl
@[simp] theorem DRegs.disarmIdle_trace : (d.disarmIdle).trace = d.trace := rfl

/-! ### DRegs.disarmConn -/

@[simp] theorem DRegs.disarmConn_rxbuf : (d.disarmConn).rxbuf = d.rxbuf := rfl
@[simp] theorem DRegs.disarmConn_rxhead : (d.disarmConn).rxhead = d.rxhead := rfl
@[simp] theorem DRegs.disarmConn_rxready : (d.disarmConn).rxready = d.rxready := rfl
@[simp] theorem DRegs.disarmConn_txbuf : (d.disarmConn).txbuf = d.txbuf := rfl
@[simp] theorem DRegs.disarmConn_seq : (d.disarmConn).seq = d.seq := rfl
@[simp] theorem DRegs.disarmConn_cstate : (d.disarmConn).cstate = d.cstate := rfl
@[simp] theorem DRegs.disarmConn_startAddr : (d.disarmConn).startAddr = d.startAddr := rfl
@[simp] theorem DRegs.disarmConn_endAddr : (d.disarmConn).endAddr = d.endAddr := rfl
@[simp] theorem DRegs.disarmConn_curAddr : (d.disarmConn).curAddr = d.curAddr := rfl
@[simp] theorem DRegs.disarmConn_idleCnt : (d.disarmConn).idleCnt = d.idleCnt := rfl
@[simp] theorem DRegs.disarmConn_idleExpired : (d.disarmConn).idleExpired = d.idleExpired := rfl
@[simp] theorem DRegs.disarmConn_connCnt : (d.disarmConn).connCnt = 0 := rfl
@[simp] theorem DRegs.disarmConn_connExpired : (d.disarmConn).connExpired = false := rfl
@[simp] theorem DRegs.disarmConn_ie : (d.disarmConn).ie = d.ie := rfl
@[simp] theorem DRegs.disarmConn_terminal : (d.disarmConn).terminal = d.terminal := rfl
@[simp] theorem DRegs.disarmConn_mphase : (d.disarmConn).mphase = d.mphase := rfl
@[simp] theorem DRegs.disarmConn_iapen : (d.disarmConn).iapen = d.iapen := rfl
@[simp] theorem DRegs.disarmConn_trace : (d.disarmConn).trace = d.trace := rfl

/-! ### DRegs.packetReady -/

@[simp] theorem DRegs.packetReady_rxbuf : (d.packetReady).rxbuf = d.rxbuf := rfl
@[simp] theorem DRegs.packetReady_rxhead : (d.packetReady).rxhead = d.rxhead := rfl
@[simp] theorem DRegs.packetReady_rxready : (d.packetReady).rxready = true := rfl
@[simp] theorem DRegs.packetReady_txbuf : (d.packetReady).txbuf = d.txbuf := rfl
@[simp] theorem DRegs.packetReady_seq : (d.packetReady).seq = d.seq := rfl
@[simp] theorem DRegs.packetReady_cstate : (d.packetReady).cstate = d.cstate := rfl
@[simp] theorem DRegs.packetReady_startAddr : (d.packetReady).startAddr = d.startAddr := rfl
@[simp] theorem DRegs.packetReady_endAddr : (d.packetReady).endAddr = d.endAddr := rfl
@[simp] theorem DRegs.packetReady_curAddr : (d.packetReady).curAddr = d.curAddr := rfl
@[simp] theorem DRegs.packetReady_idleCnt : (d.packetReady).idleCnt = 0 := rfl
@[simp] theorem DRegs.packetReady_idleExpired : (d.packetReady).idleExpired = false := rfl
@[simp] theorem DRegs.packetReady_connCnt : (d.packetReady).connCnt = d.connCnt := rfl
@[simp] theorem DRegs.packetReady_connExpired : (d.packetReady).connExpired = d.connExpired := rfl
@[simp] theorem DRegs.packetReady_ie : (d.packetReady).ie = d.ie := rfl
@[simp] theorem DRegs.packetReady_terminal : (d.packetReady).terminal = d.terminal := rfl
@[simp] theorem DRegs.packetReady_mphase : (d.packetReady).mphase = d.mphase := rfl
@[simp] theorem DRegs.packetReady_iapen : (d.packetReady).iapen = d.iapen := rfl
@[simp] theorem DRegs.packetReady_trace : (d.packetReady).trace = d.trace := rfl

/-! ### DRegs.epilogue -/

@[simp] theorem DRegs.epilogue_rxbuf : (d.epilogue).rxbuf = d.rxbuf := rfl
@[simp] theorem DRegs.epilogue_rxhead : (d.epilogue).rxhead = 0 := rfl
@[simp] theorem DRegs.epilogue_rxready : (d.epilogue).rxready = false := rfl
@[simp] theorem DRegs.epilogue_txbuf : (d.epilogue).txbuf = d.txbuf := rfl
@[simp] theorem DRegs.epilogue_seq : (d.epilogue).seq = d.seq := rfl
@[simp] theorem DRegs.epilogue_cstate : (d.epilogue).cstate = d.cstate := rfl
@[simp] theorem DRegs.epilogue_startAddr : (d.epilogue).startAddr = d.startAddr := rfl
@[simp] theorem DRegs.epilogue_endAddr : (d.epilogue).endAddr = d.endAddr := rfl
@[simp] theorem DRegs.epilogue_curAddr : (d.epilogue).curAddr = d.curAddr := rfl
@[simp] theorem DRegs.epilogue_idleCnt : (d.epilogue).idleCnt = d.idleCnt := rfl
@[simp] theorem DRegs.epilogue_idleExpired : (d.epilogue).idleExpired = d.idleExpired := rfl
@[simp] theorem DRegs.epilogue_connCnt : (d.epilogue).connCnt = d.connCnt := rfl
@[simp] theorem DRegs.epilogue_connExpired : (d.epilogue).connExpired = d.connExpired := rfl
@[simp] theorem DRegs.epilogue_ie : (d.epilogue).ie = true := rfl
@[simp] theorem DRegs.epilogue_terminal : (d.epilogue).terminal = d.terminal := rfl
@[simp] theorem DRegs.epilogue_mphase : (d.epilogue).mphase = d.mphase := rfl
@[simp] theorem DRegs.epilogue_iapen : (d.epilogue).iapen = d.iapen := rfl
@[simp] theorem DRegs.epilogue_trace : (d.epilogue).trace = d.trace := rfl

end Sys2Proof.Machine
end

