-- ==== Sys2Proof/Laws/Reply.lean ====
section
/-! SUPPORT. What the reply helpers do, once: the checksum is the sum of the bytes, the stamped buffer
is the packet of the spec, and `ReplyOk` and `ReplyFail` leave that packet in `TXBUF` and send it. -/

namespace Sys2Proof.Machine

/-- The running 16-bit sum is the sum of the bytes modulo 65536 (R240). -/
theorem foldl_sum16 (bs : List Byte) (acc : Word) :
    bs.foldl (fun acc b => acc + b.setWidth 16) acc =
      acc + BitVec.ofNat 16 (bs.map BitVec.toNat).sum := by
  induction bs generalizing acc with
  | nil => simp
  | cons b bs ih =>
    simp only [List.foldl_cons, List.map_cons, List.sum_cons, ih]
    apply BitVec.eq_of_toNat_eq
    simp only [BitVec.toNat_add, BitVec.toNat_ofNat, BitVec.toNat_setWidth]
    omega

theorem checksum_eq (buf : Vector Byte 64) : checksum buf = BitVec.ofNat 16 (packetSum buf) := by
  rw [checksum, foldl_sum16, packetSum, zero_add]

theorem checksum_inbound (d : DRegs) : checksum d.rxbuf = inboundCk d := checksum_eq d.rxbuf

/-- Writing bytes into a buffer from an offset on, as a list. -/
theorem fillAt_toList (vs : List Byte) (buf : Vector Byte 64) (off : Nat)
    (h : off + vs.length ≤ 64) :
    (fillAt buf off vs).toList = buf.toList.take off ++ vs ++ buf.toList.drop (off + vs.length) := by
  induction vs generalizing buf off with
  | nil => simp [fillAt]
  | cons v vs ih =>
    have hlen : off < 64 := by simp at h; omega
    rw [fillAt, ih _ _ (by simp at h ⊢; omega)]
    have hs : (buf.setIfInBounds off v).toList = buf.toList.set off v := by
      simp [Vector.toList, Vector.setIfInBounds]
    have hb : buf.toList.length = 64 := by simp
    rw [hs, List.take_set, List.drop_set_of_lt (by omega), List.take_add_one]
    have : (List.take off buf.toList).length = off := by simp; omega
    rw [List.set_append_right _ _ (by omega), this]
    have hg : buf.toList[off]? = some (buf.toList[off]'(by omega)) := List.getElem?_eq_getElem _
    simp [hg]
    omega

theorem zeroBuf_toList : zeroBuf.toList = List.replicate 64 0 := by
  simp [zeroBuf]

theorem replyBuf_toList (c0 c1 : Byte) (seq : Word) :
    (replyBuf c0 c1 seq).toList = packetBytes c0 c1 seq [] := by
  rw [replyBuf, fillAt_toList _ _ _ (by simp), zeroBuf_toList]
  simp [packetBytes]

/-- The reply header with a payload written from offset 8 on (R122). -/
theorem payload_toList (c0 c1 : Byte) (seq : Word) (bs : List Byte) (h : bs.length ≤ 56) :
    (fillAt (replyBuf c0 c1 seq) 8 bs).toList = packetBytes c0 c1 seq bs := by
  rw [fillAt_toList _ _ _ (by omega), replyBuf_toList]
  simp only [packetBytes, List.length_nil, List.append_nil, Nat.sub_zero]
  rw [List.take_append_of_le_length (by simp), List.drop_append, List.drop_replicate,
    List.drop_eq_nil_of_le (by simp)]
  simp

theorem txEvents_eq (w : Bool) (bs : List Byte) : bs.flatMap (txEvents w) = sendEvents w bs := by
  unfold sendEvents
  congr 1
  funext b
  cases w <;> simp [txEvents]

/-- A transmission of a buffer that holds the packet `pkt`. -/
theorem transmit_spec {u : State} {buf : Vector Byte 64} {pkt : List Byte} (h : buf.toList = pkt) :
    SentFrom u (transmit { u with d := { u.d with txbuf := buf } }) pkt := by
  refine ⟨buf, h, ?_⟩
  simp only [transmit, emitD, txEvents_eq, h]

/-- `ReplyOk()` with a payload (R275): the good packet, left in `TXBUF` and sent. -/
theorem replyWith_spec (bs : List Byte) (s : State) (h : bs.length ≤ 56) :
    SentFrom s (replyWith bs s) (goodPacket s.d bs) := by
  refine transmit_spec (buf := fillAt (replyBuf (lo8 (checksum s.d.rxbuf))
    (hi8 (checksum s.d.rxbuf)) s.d.seq) 8 bs) ?_
  rw [payload_toList _ _ _ _ h, checksum_inbound]
  rfl

/-- `ReplyOk()` with the empty payload. -/
theorem replyOk_spec (s : State) : SentFrom s (replyOk s) (goodPacket s.d []) := by
  refine transmit_spec (buf := replyBuf (lo8 (checksum s.d.rxbuf))
    (hi8 (checksum s.d.rxbuf)) s.d.seq) ?_
  rw [replyBuf_toList, checksum_inbound]
  rfl

/-- `ReplyFail(kind, info)` (R275): the error event, then the fail packet. -/
theorem replyFail_spec (k : ErrKind) (i : Word) (s : State) :
    FailedFrom s (replyFail k i s) k i (failPacket s.d) := by
  refine transmit_spec (u := raise k i s) (buf := replyBuf (~~~lo8 (checksum s.d.rxbuf))
    (~~~hi8 (checksum s.d.rxbuf)) s.d.seq) ?_
  rw [replyBuf_toList, checksum_inbound]
  rfl

/-- What a reply leaves unchanged. -/
theorem SentFrom.frame {u t : State} {pkt : List Byte} (h : SentFrom u t pkt) :
    t.params = u.params ∧ t.ident = u.ident ∧ t.h = u.h ∧ t.flash = u.flash ∧ t.worn = u.worn ∧
      t.tgt = u.tgt ∧ t.targetKind = u.targetKind ∧ t.pinGrant = u.pinGrant ∧
      t.freeCtr = u.freeCtr ∧ t.sched = u.sched := by
  obtain ⟨buf, -, rfl⟩ := h
  exact ⟨rfl, rfl, rfl, rfl, rfl, rfl, rfl, rfl, rfl, rfl⟩

/-- What a reply leaves unchanged in machine D: every register but `TXBUF` and the trace. -/
theorem SentFrom.regs {u t : State} {pkt : List Byte} (h : SentFrom u t pkt) :
    ∃ buf tr, t.d = { u.d with txbuf := buf, trace := tr } := by
  obtain ⟨buf, -, rfl⟩ := h
  exact ⟨buf, _, rfl⟩

end Sys2Proof.Machine
end

