-- ==== Sys2Proof/Laws/Memory.lean ====
section
/-! SUPPORT. The laws of the flash array: what a write and an erase do to every read, and that both
keep the canonical form. -/

namespace Sys2Proof.Machine

theorem Memory.read_cons (b : Nat) (v : Byte) (m : Memory) (a : Nat) :
    Memory.read ((b, v) :: m) a = if b = a then v else Memory.read m a := rfl

/-- A cell below every listed one reads as erased. -/
theorem Memory.read_of_lt_all (m : Memory) (a : Nat) (h : ∀ c ∈ m, a < c.1) :
    m.read a = erasedByte := by
  induction m with
  | nil => rfl
  | cons c m ih =>
    obtain ⟨b, v⟩ := c
    have hb : a < b := h (b, v) (by simp)
    rw [Memory.read_cons, if_neg (by omega)]
    exact ih fun c hc => h c (by simp [hc])

/-- The tail of a canonical array is canonical. -/
theorem Memory.wf_tail {c : Host.Cell} {m : Memory} (h : Memory.wf (c :: m)) : Memory.wf m :=
  ⟨(List.pairwise_cons.mp h.1).2, fun x hx => h.2 x (by simp [hx])⟩

theorem Memory.lt_of_wf {c : Host.Cell} {m : Memory} (h : Memory.wf (c :: m)) :
    ∀ x ∈ m, c.1 < x.1 := (List.pairwise_cons.mp h.1).1

theorem Memory.mem_put {x : Host.Cell} {a : Nat} {v : Byte} {m : Memory}
    (h : x ∈ Memory.put a v m) : x = (a, v) ∨ x ∈ m := by
  unfold Memory.put at h
  split at h
  · exact .inr h
  · simpa using h

/-- A listed cell after a write is the written one or was listed before. -/
theorem Memory.mem_write {x : Host.Cell} {m : Memory} {a : Nat} {v : Byte}
    (h : x ∈ m.write a v) : x = (a, v) ∨ x ∈ m := by
  induction m with
  | nil => exact Memory.mem_put h
  | cons c m ih =>
    obtain ⟨b, w⟩ := c
    simp only [Memory.write] at h
    split at h
    · exact Memory.mem_put h
    · split at h
      · rcases Memory.mem_put h with h | h
        · exact .inl h
        · exact .inr (by simp [h])
      · rcases List.mem_cons.mp h with h | h
        · exact .inr (by simp [h])
        · rcases ih h with h | h
          · exact .inl h
          · exact .inr (by simp [h])

theorem Memory.wf_put {a : Nat} {v : Byte} {m : Memory} (h : m.wf) (ha : ∀ c ∈ m, a < c.1) :
    (Memory.put a v m).wf := by
  unfold Memory.put
  split
  · exact h
  · rename_i hv
    refine ⟨List.pairwise_cons.mpr ⟨ha, h.1⟩, fun c hc => ?_⟩
    rcases List.mem_cons.mp hc with rfl | hc
    · exact hv
    · exact h.2 c hc

/-- A write keeps the canonical form. -/
theorem Memory.wf_write {m : Memory} (h : m.wf) (a : Nat) (v : Byte) : (m.write a v).wf := by
  induction m with
  | nil => exact Memory.wf_put h (by simp)
  | cons c m ih =>
    obtain ⟨b, w⟩ := c
    have hlt := Memory.lt_of_wf h
    simp only [Memory.write]
    split
    · rename_i hab
      refine Memory.wf_put h fun c hc => ?_
      rcases List.mem_cons.mp hc with rfl | hc
      · exact hab
      · exact Nat.lt_trans hab (hlt c hc)
    · split
      · rename_i hab
        subst hab
        exact Memory.wf_put (Memory.wf_tail h) hlt
      · rename_i h1 h2
        have hw := ih (Memory.wf_tail h)
        refine ⟨List.pairwise_cons.mpr ⟨fun c hc => ?_, hw.1⟩, fun c hc => ?_⟩
        · rcases Memory.mem_write hc with rfl | hc
          · show b < a
            omega
          · exact hlt c hc
        · rcases List.mem_cons.mp hc with rfl | hc
          · exact h.2 _ (by simp)
          · exact hw.2 c hc

theorem Memory.read_put_of_wf {m : Memory} {a : Nat} {v : Byte} (ha : ∀ c ∈ m, a < c.1) (x : Nat) :
    (Memory.put a v m).read x = if x = a then v else m.read x := by
  unfold Memory.put
  split
  · rename_i hv
    split
    · rename_i hx
      rw [hx, Memory.read_of_lt_all m a ha, hv]
    · rfl
  · rw [Memory.read_cons]
    by_cases hx : a = x <;> simp [hx, eq_comm]

/-- Every read after a write to a canonical array. -/
theorem Memory.read_write {m : Memory} (h : m.wf) (a : Nat) (v : Byte) (x : Nat) :
    (m.write a v).read x = if x = a then v else m.read x := by
  induction m with
  | nil => exact Memory.read_put_of_wf (by simp) x
  | cons c m ih =>
    obtain ⟨b, w⟩ := c
    have hlt := Memory.lt_of_wf h
    simp only [Memory.write]
    split
    · rename_i hab
      exact Memory.read_put_of_wf (fun c hc => by
        rcases List.mem_cons.mp hc with rfl | hc
        · exact hab
        · exact Nat.lt_trans hab (hlt c hc)) x
    · split
      · rename_i hab
        subst hab
        rw [Memory.read_put_of_wf hlt, Memory.read_cons]
        by_cases hx : x = a
        · simp [hx]
        · have : ¬ a = x := fun e => hx e.symm
          simp [hx, this]
      · rename_i h1 h2
        rw [Memory.read_cons, Memory.read_cons, ih (Memory.wf_tail h)]
        by_cases hb : b = x
        · have : ¬ x = a := by omega
          simp [hb, this]
        · simp [hb]

/-- The written cell holds the written byte. -/
theorem Memory.read_write_same {m : Memory} (h : m.wf) (a : Nat) (v : Byte) :
    (m.write a v).read a = v := by rw [Memory.read_write h, if_pos rfl]

/-- A write leaves every other cell alone. -/
theorem Memory.read_write_other {m : Memory} (h : m.wf) {a x : Nat} (v : Byte) (hx : x ≠ a) :
    (m.write a v).read x = m.read x := by rw [Memory.read_write h, if_neg hx]

/-- Every read after an erase, canonical form or not. -/
theorem Memory.read_erase (m : Memory) (lo n x : Nat) :
    (m.erase lo n).read x = if lo ≤ x ∧ x < lo + n then erasedByte else m.read x := by
  induction m with
  | nil => simp [Memory.erase, Memory.read]
  | cons c m ih =>
    obtain ⟨b, v⟩ := c
    unfold Memory.erase at ih ⊢
    rw [List.filter_cons]
    by_cases hb : lo ≤ b ∧ b < lo + n
    · rw [if_neg (by simp [hb]), ih, Memory.read_cons]
      by_cases hx : lo ≤ x ∧ x < lo + n
      · simp [hx]
      · have : ¬ b = x := by rintro rfl; exact hx hb
        simp [hx, this]
    · rw [if_pos (by simp; omega), Memory.read_cons, Memory.read_cons, ih]
      by_cases hbx : b = x
      · subst hbx; simp [hb]
      · simp [hbx]

/-- An erase keeps the canonical form. -/
theorem Memory.wf_erase {m : Memory} (h : m.wf) (lo n : Nat) : (m.erase lo n).wf :=
  ⟨h.1.filter _, fun c hc => h.2 c (List.mem_of_mem_filter hc)⟩

/-- A listed cell after an erase was listed before. -/
theorem Memory.mem_erase {x : Host.Cell} {m : Memory} {lo n : Nat} (h : x ∈ m.erase lo n) : x ∈ m :=
  List.mem_of_mem_filter h

/-- The empty array is canonical. -/
theorem Memory.wf_nil : Memory.wf [] := by decide

/-- Two canonical arrays that read alike are one list. -/
theorem Memory.ext {m m' : Memory} (h : m.wf) (h' : m'.wf) (hr : ∀ a, m.read a = m'.read a) :
    m = m' := by
  induction m generalizing m' with
  | nil =>
    cases m' with
    | nil => rfl
    | cons c m' =>
      exact absurd ((hr c.1).symm.trans (by rfl)) (by
        rw [show (c :: m' : Memory) = (c.1, c.2) :: m' from rfl, Memory.read_cons, if_pos rfl]
        exact h'.2 c (by simp))
  | cons c m ih =>
    obtain ⟨b, v⟩ := c
    have hlt := Memory.lt_of_wf h
    have hv : v ≠ erasedByte := h.2 (b, v) (by simp)
    cases m' with
    | nil =>
      have := hr b
      rw [Memory.read_cons, if_pos rfl] at this
      exact absurd this hv
    | cons c' m' =>
      obtain ⟨b', v'⟩ := c'
      have hlt' := Memory.lt_of_wf h'
      have hv' : v' ≠ erasedByte := h'.2 (b', v') (by simp)
      have hb : b = b' := by
        rcases Nat.lt_trichotomy b b' with hb | hb | hb
        · have := hr b
          rw [Memory.read_cons, if_pos rfl, Memory.read_of_lt_all _ b (fun c hc => by
            rcases List.mem_cons.mp hc with rfl | hc
            · exact hb
            · exact Nat.lt_trans hb (hlt' c hc))] at this
          exact absurd this hv
        · exact hb
        · have := hr b'
          rw [Memory.read_cons (b := b'), if_pos rfl, Memory.read_of_lt_all _ b' (fun c hc => by
            rcases List.mem_cons.mp hc with rfl | hc
            · exact hb
            · exact Nat.lt_trans hb (hlt c hc))] at this
          exact absurd this.symm hv'
      subst hb
      have hvv : v = v' := by
        have := hr b
        rwa [Memory.read_cons, Memory.read_cons, if_pos rfl, if_pos rfl] at this
      subst hvv
      congr 1
      refine ih (Memory.wf_tail h) (Memory.wf_tail h') fun a => ?_
      by_cases ha : b = a
      · subst ha
        rw [Memory.read_of_lt_all m b hlt, Memory.read_of_lt_all m' b hlt']
      · have := hr a
        rwa [Memory.read_cons, Memory.read_cons, if_neg ha, if_neg ha] at this

theorem Memory.readN_length (m : Memory) (a n : Nat) : (m.readN a n).length = n := by
  induction n generalizing a with
  | zero => rfl
  | succ n ih => simp [Memory.readN, ih]

end Sys2Proof.Machine
end

