-- ==== Sys2Proof/Laws/Sequencer.lean ====
section
/-! SUPPORT. What the device-side flash sequencer does, once per operation: the pages an erase clears,
the cells a chunk programs, where a mismatch stops it, the bytes a dump reads. -/

namespace Sys2Proof.Machine

/-! ### One cell, one page -/

theorem flashProgram_on {s : State} (h : s.d.iapen = true) (sp : FlashSpace) (off : Nat) (v : Byte) :
    flashProgram sp off v s = setFlash (s.flash.write (cellAddr s.params sp off)
      (burnt s (cellAddr s.params sp off) v)) s := by
  simp only [flashProgram, h, if_true]
  rfl

theorem flashProgram_off {s : State} (h : s.d.iapen = false) (sp : FlashSpace) (off : Nat) (v : Byte) :
    flashProgram sp off v s = s := by simp [flashProgram, h]

theorem flashErasePage_off {s : State} (h : s.d.iapen = false) (sp : FlashSpace) (off : Nat) :
    flashErasePage sp off s = s := by simp [flashErasePage, h]

theorem flashErasePage_on {s : State} (h : s.d.iapen = true) (sp : FlashSpace) (off : Nat) :
    flashErasePage sp off s =
      setFlash (s.flash.erase (pageSpan s.params sp off).1 (pageSpan s.params sp off).2) s := by
  simp [flashErasePage, h]

theorem setFlash_setFlash (m m' : Memory) (s : State) : setFlash m (setFlash m' s) = setFlash m s := rfl

theorem setFlash_self (s : State) : setFlash s.flash s = s := rfl

/-! ### Erase -/

theorem eraseFrom_off {s : State} (h : s.d.iapen = false) (a n : Nat) : eraseFrom a n s = s := by
  induction n generalizing a with
  | zero => rfl
  | succ n ih => rw [eraseFrom, flashErasePage_off h, ih]

/-- A run of page erases from a page boundary on changes the flash only: the cells of its pages read
0xFF, every other cell as before. -/
theorem eraseFrom_spec {s : State} (h : s.d.iapen = true) (a n : Nat) (ha : a % 128 = 0) :
    ∃ m : Memory, eraseFrom a n s = setFlash m s ∧
      (∀ x, m.read x = if a ≤ x ∧ x < a + 128 * n then 0xFF else s.flash.read x) ∧
      (s.flash.wf → m.wf) ∧ ∀ c ∈ m, c ∈ s.flash := by
  induction n generalizing a s with
  | zero =>
    refine ⟨s.flash, rfl, fun x => ?_, id, fun c => id⟩
    rw [if_neg (by omega)]
  | succ n ih =>
    rw [eraseFrom, flashErasePage_on h]
    obtain ⟨m, hm, hr, hw, hs⟩ := ih (s := setFlash (s.flash.erase
      (pageSpan s.params .aprom a).1 (pageSpan s.params .aprom a).2) s) h (a + 128) (by omega)
    refine ⟨m, hm, fun x => ?_, fun hwf => hw (Memory.wf_erase hwf _ _), fun c hc =>
      Memory.mem_erase (hs c hc)⟩
    have hb : a / 128 * 128 = a := by omega
    rw [hr, setFlash_flash, Memory.read_erase]
    simp only [pageSpan, hb]
    by_cases h1 : a + 128 ≤ x ∧ x < a + 128 + 128 * n
    · rw [if_pos h1, if_pos (by omega)]
    · rw [if_neg h1]
      by_cases h2 : a ≤ x ∧ x < a + 128
      · rw [if_pos h2, if_pos (by omega)]; rfl
      · rw [if_neg h2, if_neg (by omega)]

/-- `a & 0xFF80` is the greatest multiple of 128 not above `a` (R78). -/
theorem pageBase_toNat (a : Word) : (pageBase a).toNat = a.toNat / 128 * 128 := by
  have h : pageBase a = (a >>> 7) <<< 7 := by
    unfold pageBase
    ext i hi
    simp only [BitVec.getElem_and, BitVec.getElem_shiftLeft, BitVec.getElem_ushiftRight]
    have : (0xFF80 : Word)[i] = decide (7 ≤ i) := by
      revert hi; revert i; decide
    rw [this]
    by_cases hi7 : i < 7
    · simp [hi7]
    · simp [hi7, show 7 ≤ i by omega, show 7 + (i - 7) = i by omega]
      exact (BitVec.getLsbD_eq_getElem hi).symm
  rw [h]
  simp only [BitVec.toNat_shiftLeft, BitVec.toNat_ushiftRight, Nat.shiftRight_eq_div_pow,
    Nat.shiftLeft_eq]
  have := a.isLt
  omega

/-- `ErasePages(start, end)` (R330): every page that meets the range, nothing else. -/
theorem erasePages_spec {s : State} (h : s.d.iapen = true) (start last : Word) :
    ∃ m : Memory, erasePages start last s = setFlash m s ∧
      (∀ x, (inErasedPages start.toNat last.toNat x → m.read x = 0xFF) ∧
        (¬ inErasedPages start.toNat last.toNat x → m.read x = s.flash.read x)) ∧
      (s.flash.wf → m.wf) ∧ ∀ c ∈ m, c ∈ s.flash := by
  obtain ⟨m, hm, hr, hw, hs⟩ := eraseFrom_spec h (pageBase start).toNat
    (pageCount (pageBase start).toNat last.toNat) (by rw [pageBase_toNat]; omega)
  refine ⟨m, hm, fun x => ?_, hw, hs⟩
  have key : inErasedPages start.toNat last.toNat x ↔ (pageBase start).toNat ≤ x ∧
      x < (pageBase start).toNat + 128 * pageCount (pageBase start).toNat last.toNat := by
    rw [pageBase_toNat]
    unfold inErasedPages pageCount
    omega
  rw [key, hr]
  exact ⟨fun h => if_pos h, fun h => if_neg h⟩

/-- `EraseAll()` (R334): the whole of APROM, nothing else. -/
theorem eraseAllPages_spec {s : State} (h : s.d.iapen = true) (hp : s.params.apromSize % 128 = 0) :
    ∃ m : Memory, eraseAllPages s = setFlash m s ∧
      (∀ x, m.read x = if x < s.params.apromSize then 0xFF else s.flash.read x) ∧
      (s.flash.wf → m.wf) ∧ ∀ c ∈ m, c ∈ s.flash := by
  obtain ⟨m, hm, hr, hw, hs⟩ := eraseFrom_spec h 0 (pageCount 0 s.params.apromSize) (by omega)
  refine ⟨m, hm, fun x => ?_, hw, hs⟩
  rw [hr]
  have : (0 ≤ x ∧ x < 0 + 128 * pageCount 0 s.params.apromSize) ↔ x < s.params.apromSize := by
    unfold pageCount; omega
  by_cases hx : x < s.params.apromSize
  · rw [if_pos hx, if_pos (this.mpr hx)]
  · rw [if_neg hx, if_neg (mt this.mp hx)]

/-! ### Program and verify -/

/-- `ProgramVerify(a, v)` (R331): the cell holds `v`, or it does not and the machine halts at `a`. -/
theorem programVerify_spec {s : State} (h : s.d.iapen = true) (hw : s.flash.wf) (a : Word) (v : Byte) :
    programVerify a v s =
      if burnt s a.toNat v = v then setFlash (s.flash.write a.toNat v) s
      else halt a (setFlash (s.flash.write a.toNat (burnt s a.toNat v)) s) := by
  unfold programVerify
  simp only [flashProgram_on h, flashRead, cellAddr, setFlash_flash, Memory.read_write_same hw]
  by_cases hv : burnt s a.toNat v = v
  · rw [if_pos hv, if_pos hv, hv]
  · rw [if_neg hv, if_neg hv]

theorem burnt_congr {s t : State} {a : Nat} (hw : t.worn = s.worn) (hr : t.flash.read a = s.flash.read a)
    (v : Byte) : burnt t a v = burnt s a v := by
  unfold burnt
  rw [hw, hr]

/-- One byte programmed and verified, the current address moved on: the state the loop of
`ProgramChunk` goes on from. -/
def afterByte (v : Byte) (s : State) : State :=
  setD (fun d => { d with curAddr := d.curAddr + 1 }) (setFlash (s.flash.write s.d.curAddr.toNat v) s)

/-- The loop of `ProgramChunk`, one byte (R332). -/
theorem programBytes_cons {s : State} (h : s.d.iapen = true) (hrun : s.d.terminal = .running)
    (hw : s.flash.wf) (v : Byte) (vs : List Byte) :
    programBytes (v :: vs) s =
      if burnt s s.d.curAddr.toNat v = v then programBytes vs (afterByte v s)
      else halt s.d.curAddr
        (setFlash (s.flash.write s.d.curAddr.toNat (burnt s s.d.curAddr.toNat v)) s) := by
  rw [programBytes, programVerify_spec h hw]
  by_cases hv : burnt s s.d.curAddr.toNat v = v
  · simp only [if_pos hv, setFlash_d, hrun, if_true]
    rfl
  · simp only [if_neg hv, halt_d, reduceCtorEq, if_false]

/-- The current address moved on by `n`. -/
def moveCur (n : Nat) (s : State) : State :=
  setD (fun d => { d with curAddr := d.curAddr + BitVec.ofNat 16 n }) s

theorem moveCur_zero (s : State) : moveCur 0 s = s := by simp [moveCur, setD]

theorem curAddr_step (a : Word) (n : Nat) :
    a + 1 + BitVec.ofNat 16 n = a + BitVec.ofNat 16 (n + 1) := by
  apply BitVec.eq_of_toNat_eq
  simp
  omega

theorem moveCur_afterByte (n : Nat) (m : Memory) (v : Byte) (s : State) :
    moveCur n (setFlash m (afterByte v s)) = moveCur (n + 1) (setFlash m s) := by
  simp only [moveCur, afterByte, setD, setFlash, curAddr_step]

theorem afterByte_curAddr (v : Byte) (s : State) : (afterByte v s).d.curAddr = s.d.curAddr + 1 := rfl

theorem burnt_afterByte {s : State} (hw : s.flash.wf) {a : Nat} (ha : a ≠ s.d.curAddr.toNat)
    (v v' : Byte) : burnt (afterByte v s) a v' = burnt s a v' := by
  apply burnt_congr
  · rfl
  · exact Memory.read_write_other hw v ha

theorem succ_toNat {a : Word} (h : a.toNat + 1 < 65536) : (a + 1).toNat = a.toNat + 1 := by
  simp; omega

/-- The loop of `ProgramChunk` when every cell takes its byte (R332): the cells hold the bytes, the
current address has moved past them. -/
theorem programBytes_ok (vs : List Byte) {s : State} (h : s.d.iapen = true)
    (hrun : s.d.terminal = .running) (hw : s.flash.wf) (c : Nat) (hc : s.d.curAddr.toNat = c)
    (hlen : c + vs.length < 65536)
    (hok : ∀ k (hk : k < vs.length), burnt s (c + k) vs[k] = vs[k]) :
    ∃ m : Memory, programBytes vs s =
        moveCur vs.length (setFlash m s) ∧
      (∀ x, m.read x = if c ≤ x then vs.getD (x - c) (s.flash.read x) else s.flash.read x) ∧
      m.wf ∧ ∀ e ∈ m, e ∈ s.flash ∨ c ≤ e.1 ∧ e.1 < c + vs.length := by
  induction vs generalizing s c with
  | nil =>
    refine ⟨s.flash, by rw [programBytes]; exact (moveCur_zero _).symm, fun x => by simp, hw,
      fun e he => .inl he⟩
  | cons v vs ih =>
    simp only [List.length_cons] at hlen
    have h0 : burnt s s.d.curAddr.toNat v = v := by
      have := hok 0 (by simp)
      rw [hc]
      exact this
    rw [programBytes_cons h hrun hw, if_pos h0]
    obtain ⟨m, hm, hr, hmw, hms⟩ := ih (s := afterByte v s) h hrun (Memory.wf_write hw _ _) (c + 1)
      (by rw [afterByte_curAddr, succ_toNat (by omega), hc]) (by omega) (fun k hk => by
        rw [burnt_afterByte hw (by omega), show c + 1 + k = c + (k + 1) by omega]
        exact hok (k + 1) (by simpa using hk))
    refine ⟨m, ?_, fun x => ?_, hmw, fun e he => ?_⟩
    · rw [hm, moveCur_afterByte]
      rfl
    · rw [hr, show (afterByte v s).flash = s.flash.write s.d.curAddr.toNat v from rfl, hc,
        Memory.read_write hw]
      by_cases hx : c ≤ x
      · rw [if_pos hx]
        by_cases hx' : c + 1 ≤ x
        · rw [if_pos hx', if_neg (by omega), show x - c = (x - (c + 1)) + 1 by omega]
          simp
        · have : x = c := by omega
          subst this
          simp
      · rw [if_neg hx, if_neg (by omega), if_neg (by omega)]
    · simp only [List.length_cons]
      rcases hms e he with he | he
      · rcases Memory.mem_write he with rfl | he
        · exact .inr ⟨Nat.le_of_eq hc.symm, by show s.d.curAddr.toNat < _; omega⟩
        · exact .inl he
      · exact .inr ⟨by omega, by omega⟩

/-- The loop of `ProgramChunk` when the cell of byte `k` is the first not to take its byte (R332,
R336): the machine halts there, with the current address at that cell. -/
theorem programBytes_halt (vs : List Byte) {s : State} (h : s.d.iapen = true)
    (hrun : s.d.terminal = .running) (hw : s.flash.wf) (c : Nat) (hc : s.d.curAddr.toNat = c)
    (hlen : c + vs.length < 65536) (k : Nat) (hk : k < vs.length)
    (hok : ∀ j (hj : j < k), burnt s (c + j) (vs[j]'(by omega)) = vs[j]'(by omega))
    (hbad : burnt s (c + k) vs[k] ≠ vs[k]) :
    ∃ m : Memory, programBytes vs s =
        halt (s.d.curAddr + BitVec.ofNat 16 k)
          (moveCur k (setFlash m s)) ∧
      (∀ x, m.read x = if c ≤ x ∧ x < c + k then vs.getD (x - c) 0
        else if x = c + k then burnt s (c + k) vs[k] else s.flash.read x) ∧
      m.wf ∧ ∀ e ∈ m, e ∈ s.flash ∨ c ≤ e.1 ∧ e.1 < c + vs.length := by
  induction k generalizing vs s c with
  | zero =>
    cases vs with
    | nil => simp at hk
    | cons v vs =>
      have hbad' : ¬ burnt s s.d.curAddr.toNat v = v := by rw [hc]; exact hbad
      rw [programBytes_cons h hrun hw, if_neg hbad']
      refine ⟨s.flash.write s.d.curAddr.toNat (burnt s s.d.curAddr.toNat v), ?_, fun x => ?_,
        Memory.wf_write hw _ _, fun e he => ?_⟩
      · rw [moveCur_zero]
        simp
      · rw [Memory.read_write hw, hc, if_neg (c := c ≤ x ∧ x < c + 0) (by omega)]
        rfl
      · rcases Memory.mem_write he with rfl | he
        · exact .inr ⟨Nat.le_of_eq hc.symm, by show s.d.curAddr.toNat < _; simp; omega⟩
        · exact .inl he
  | succ k ih =>
    cases vs with
    | nil => simp at hk
    | cons v vs =>
      simp only [List.length_cons] at hlen hk
      have h0 : burnt s s.d.curAddr.toNat v = v := by
        have := hok 0 (by omega)
        rw [hc]
        exact this
      rw [programBytes_cons h hrun hw, if_pos h0]
      obtain ⟨m, hm, hr, hmw, hms⟩ := ih (vs := vs) (s := afterByte v s) h hrun
        (Memory.wf_write hw _ _) (c + 1) (by rw [afterByte_curAddr, succ_toNat (by omega), hc]) (by omega)
        (by omega)
        (fun j hj => by
          rw [burnt_afterByte hw (by omega), show c + 1 + j = c + (j + 1) by omega]
          exact hok (j + 1) (by omega))
        (by
          rw [burnt_afterByte hw (by omega), show c + 1 + k = c + (k + 1) by omega]
          exact hbad)
      refine ⟨m, ?_, fun x => ?_, hmw, fun e he => ?_⟩
      · rw [hm, moveCur_afterByte, afterByte_curAddr, curAddr_step]
      · rw [hr, show (afterByte v s).flash = s.flash.write s.d.curAddr.toNat v from rfl, hc,
          Memory.read_write hw]
        by_cases hx : x = c
        · subst hx
          rw [if_neg (by omega), if_neg (by omega), if_pos rfl, if_pos (by omega)]
          simp
        · by_cases hx1 : c + 1 ≤ x ∧ x < c + 1 + k
          · rw [if_pos hx1, if_pos (by omega), show x - c = (x - (c + 1)) + 1 by omega]
            simp
          · rw [if_neg hx1]
            by_cases hx2 : x = c + 1 + k
            · rw [if_pos hx2, if_neg (by omega), if_pos (by omega), burnt_afterByte hw (by omega),
                show c + 1 + k = c + (k + 1) by omega]
              rfl
            · rw [if_neg hx2, if_neg hx, if_neg (by omega), if_neg (by omega)]
      · simp only [List.length_cons]
        rcases hms e he with he | he
        · rcases Memory.mem_write he with rfl | he
          · exact .inr ⟨Nat.le_of_eq hc.symm, by show s.d.curAddr.toNat < _; omega⟩
          · exact .inl he
        · exact .inr ⟨by omega, by omega⟩

/-- Whether every byte takes, or there is a first that does not. -/
theorem takes_or_first_fails (s : State) (vs : List Byte) (a : Nat) :
    (∀ k (hk : k < vs.length), burnt s (a + k) vs[k] = vs[k]) ∨
    ∃ k, ∃ hk : k < vs.length, (∀ j (hj : j < k), burnt s (a + j) (vs[j]'(by omega)) = vs[j]'(by omega)) ∧
      burnt s (a + k) vs[k] ≠ vs[k] := by
  by_cases h : ∃ k, ∃ hk : k < vs.length, burnt s (a + k) vs[k] ≠ vs[k]
  · right
    classical
    let P : Nat → Prop := fun k => ∃ hk : k < vs.length, burnt s (a + k) vs[k] ≠ vs[k]
    have hP : ∃ k, P k := h
    obtain ⟨hk, hbad⟩ := Nat.find_spec hP
    refine ⟨Nat.find hP, hk, fun j hj => ?_, hbad⟩
    by_contra hne
    exact Nat.find_min hP hj ⟨by omega, hne⟩
  · left
    intro k hk
    by_contra hne
    exact h ⟨k, hk, hne⟩

/-! ### Dump -/

/-- Reading through the overlay address by address is the flat byte range (R71, R81). -/
theorem flatReadN_eq (s : State) (a n : Nat) (h : a + n ≤ s.params.apromSize + s.params.ldromSize) :
    flatReadN s a n = flatBytes s a n := by
  induction n generalizing a with
  | zero => rfl
  | succ n ih =>
    rw [flatReadN, ih _ (by omega)]
    simp only [flatBytes, List.range_succ_eq_map, List.map_cons, List.map_map]
    congr 1
    · unfold flatRead translate
      split
      · rename_i sp off heq
        split at heq
        · rename_i hlt
          cases heq
          simp [hlt]
        · split at heq
          · rename_i h1 h2
            cases heq
            simp [h1]
          · cases heq
      · rename_i heq
        split at heq
        · cases heq
        · split at heq
          · cases heq
          · omega
    · refine List.map_congr_left fun k _ => ?_
      simp [Nat.add_assoc, Nat.add_comm 1 k]

theorem flatReadN_length (s : State) (a n : Nat) : (flatReadN s a n).length = n := by
  induction n generalizing a with
  | zero => rfl
  | succ n ih => simp [flatReadN, ih]

theorem flatBytes_length (s : State) (a n : Nat) : (flatBytes s a n).length = n := by
  simp [flatBytes]

/-! ### Config -/

theorem programConfig_off {s : State} (h : s.d.iapen = false) (off : Nat) (vs : List Byte) :
    programConfig off vs s = s := by
  induction vs generalizing off with
  | nil => rfl
  | cons v vs ih => rw [programConfig, flashProgram_off h, ih]

/-- Programming config bytes (R335) changes the flash only: each cell holds what its programming
leaves, every other cell is as before. -/
theorem programConfig_spec (vs : List Byte) {s : State} (h : s.d.iapen = true) (hw : s.flash.wf)
    (off : Nat) :
    ∃ m : Memory, programConfig off vs s = setFlash m s ∧
      (∀ k (hk : k < vs.length), m.read (cfgAddr + off + k) = burnt s (cfgAddr + off + k) vs[k]) ∧
      (∀ x, ¬ (cfgAddr + off ≤ x ∧ x < cfgAddr + off + vs.length) → m.read x = s.flash.read x) ∧
      m.wf ∧ ∀ c ∈ m, c ∈ s.flash ∨ cfgAddr + off ≤ c.1 ∧ c.1 < cfgAddr + off + vs.length := by
  induction vs generalizing s off with
  | nil => exact ⟨s.flash, rfl, by simp, fun _ _ => rfl, hw, fun c hc => .inl hc⟩
  | cons v vs ih =>
    rw [programConfig, flashProgram_on h]
    obtain ⟨m, hm, hr, hf, hmw, hms⟩ := ih (s := setFlash (s.flash.write
      (cellAddr s.params .config off) (burnt s (cellAddr s.params .config off) v)) s) h
      (Memory.wf_write hw _ _) (off + 1)
    refine ⟨m, hm, fun k hk => ?_, fun x hx => ?_, hmw, fun c hc => ?_⟩
    · cases k with
      | zero =>
        rw [hf _ (by omega)]
        simp only [cellAddr, Nat.add_zero, List.getElem_cons_zero]
        exact Memory.read_write_same hw _ _
      | succ k =>
        have := hr k (by simpa using hk)
        rw [show cfgAddr + (off + 1) + k = cfgAddr + off + (k + 1) by omega] at this
        rw [this]
        apply burnt_congr
        · rfl
        · exact Memory.read_write_other hw _ (by simp only [cellAddr]; omega)
    · rw [hf _ (by simp only [List.length_cons] at hx; omega)]
      exact Memory.read_write_other hw _ (by simp only [cellAddr, List.length_cons] at hx ⊢; omega)
    · rcases hms c hc with hc | hc
      · rcases Memory.mem_write hc with rfl | hc
        · refine .inr ⟨?_, ?_⟩ <;> simp only [cellAddr, List.length_cons] <;> omega
        · exact .inl hc
      · refine .inr ⟨by omega, by simp only [List.length_cons]; omega⟩

end Sys2Proof.Machine
end

