-- ==== Sys2Proof/Laws/Commands.lean ====
section
/-! SUPPORT. What any command of machine D can do, said once: the frame of every meaning of a UART
packet, and the replies of the two multi-packet commands in full. -/

namespace Sys2Proof.Machine

/-! ### Changes confined to some cells -/

/-- `m'` is `m` with nothing changed outside the cells of `P`, in canonical form if `m` is. -/
structure Changes (P : Nat → Prop) (m m' : Memory) : Prop where
  wf : m.wf → m'.wf
  cells : ∀ c ∈ m', c ∈ m ∨ P c.1
  other : m.wf → ∀ x, ¬ P x → m'.read x = m.read x

theorem Changes.refl (P : Nat → Prop) (m : Memory) : Changes P m m :=
  ⟨id, fun _ h => .inl h, fun _ _ _ => rfl⟩

theorem Changes.trans {P : Nat → Prop} {m m' m'' : Memory} (h : Changes P m m')
    (h' : Changes P m' m'') : Changes P m m'' where
  wf hw := h'.wf (h.wf hw)
  cells c hc := by
    rcases h'.cells c hc with hc | hc
    · exact h.cells c hc
    · exact .inr hc
  other hw x hx := (h'.other (h.wf hw) x hx).trans (h.other hw x hx)

theorem Changes.mono {P Q : Nat → Prop} {m m' : Memory} (h : Changes P m m') (hq : ∀ x, P x → Q x) :
    Changes Q m m' where
  wf := h.wf
  cells c hc := (h.cells c hc).imp id (hq _)
  other hw x hx := h.other hw x fun hp => hx (hq x hp)

theorem Changes.write (m : Memory) (a : Nat) (v : Byte) : Changes (· = a) m (m.write a v) where
  wf hw := Memory.wf_write hw a v
  cells c hc := by
    rcases Memory.mem_write hc with rfl | hc
    · exact .inr rfl
    · exact .inl hc
  other hw _ hx := Memory.read_write_other hw v hx

theorem Changes.erase (m : Memory) (lo n : Nat) :
    Changes (fun x => lo ≤ x ∧ x < lo + n) m (m.erase lo n) where
  wf hw := Memory.wf_erase hw lo n
  cells _ hc := .inl (Memory.mem_erase hc)
  other _ x hx := by rw [Memory.read_erase, if_neg hx]

/-! ### The device-side flash port -/

/-- `FlashProgram` (R80), whatever the state. -/
theorem flashProgram_cases (sp : FlashSpace) (off : Nat) (v : Byte) (s : State) :
    ∃ m : Memory, flashProgram sp off v s = setFlash m s ∧
      Changes (· = cellAddr s.params sp off) s.flash m ∧ (s.d.iapen = false → m = s.flash) := by
  cases hi : s.d.iapen with
  | false =>
    exact ⟨s.flash, by rw [flashProgram_off hi, setFlash_self], .refl _ _, fun _ => rfl⟩
  | true => exact ⟨_, flashProgram_on hi _ _ _, .write _ _ _, fun h => by cases h⟩

/-- `FlashErasePage` (R80), whatever the state. -/
theorem flashErasePage_cases (sp : FlashSpace) (off : Nat) (s : State) :
    ∃ m : Memory, flashErasePage sp off s = setFlash m s ∧
      Changes (fun x => (pageSpan s.params sp off).1 ≤ x ∧
        x < (pageSpan s.params sp off).1 + (pageSpan s.params sp off).2) s.flash m ∧
      (s.d.iapen = false → m = s.flash) := by
  cases hi : s.d.iapen with
  | false =>
    exact ⟨s.flash, by rw [flashErasePage_off hi, setFlash_self], .refl _ _, fun _ => rfl⟩
  | true => exact ⟨_, flashErasePage_on hi _ _, .erase _ _ _, fun h => by cases h⟩

/-- A run of page erases from a page boundary on (R330, R334), whatever the state. -/
theorem eraseFrom_cases (a n : Nat) (s : State) (ha : a % 128 = 0) :
    ∃ m : Memory, eraseFrom a n s = setFlash m s ∧
      Changes (fun x => a ≤ x ∧ x < a + 128 * n) s.flash m ∧ (s.d.iapen = false → m = s.flash) := by
  cases hi : s.d.iapen with
  | false => exact ⟨s.flash, by rw [eraseFrom_off hi, setFlash_self], .refl _ _, fun _ => rfl⟩
  | true =>
    obtain ⟨m, hm, hr, hw, hc⟩ := eraseFrom_spec hi a n ha
    refine ⟨m, hm, ⟨hw, fun c h => .inl (hc c h), fun _ x hx => ?_⟩, fun h => by cases h⟩
    rw [hr, if_neg hx]

/-- What programming and verifying one byte can do (R331), whatever the state. -/
theorem programVerify_cases (a : Word) (v : Byte) (s : State) :
    ∃ m : Memory,
      (programVerify a v s = setFlash m s ∨ programVerify a v s = halt a (setFlash m s)) ∧
      Changes (· = a.toNat) s.flash m ∧ (s.d.iapen = false → m = s.flash) := by
  obtain ⟨m, hm, hr⟩ := flashProgram_cases .aprom a.toNat v s
  refine ⟨m, ?_, hr⟩
  unfold programVerify
  simp only [hm]
  split
  · exact .inl rfl
  · exact .inr rfl

/-- The loop of `ProgramChunk` (R332) in a machine that runs: it moves the current address past every
byte, or halts at one of them, and changes nothing else but those cells. -/
theorem programBytes_cases (vs : List Byte) {s : State} (hrun : s.d.terminal = .running)
    (hlen : s.d.curAddr.toNat + vs.length < 65536) :
    ∃ (m : Memory) (n : Nat),
      (n = vs.length ∧ programBytes vs s = moveCur n (setFlash m s) ∨
        n < vs.length ∧ programBytes vs s =
          halt (s.d.curAddr + BitVec.ofNat 16 n) (moveCur n (setFlash m s))) ∧
      Changes (fun x => s.d.curAddr.toNat ≤ x ∧ x < s.d.curAddr.toNat + vs.length) s.flash m ∧
      (s.d.iapen = false → m = s.flash) := by
  induction vs generalizing s with
  | nil => exact ⟨s.flash, 0, .inl ⟨rfl, by rw [moveCur_zero]; rfl⟩, .refl _ _, fun _ => rfl⟩
  | cons v vs ih =>
    obtain ⟨m, hm, hc, hi⟩ := programVerify_cases s.d.curAddr v s
    have hin : Changes (fun x => s.d.curAddr.toNat ≤ x ∧
        x < s.d.curAddr.toNat + (v :: vs).length) s.flash m :=
      hc.mono fun x hx => by simp only [List.length_cons]; omega
    rcases hm with hm | hm
    · have hcur : (advanceCur (setFlash m s)).d.curAddr.toNat = s.d.curAddr.toNat + 1 := by
        simp only [List.length_cons] at hlen
        exact succ_toNat (a := s.d.curAddr) (by omega)
      obtain ⟨m', n, hn, hc', hi'⟩ := ih (s := advanceCur (setFlash m s)) hrun
        (by rw [hcur]; simp only [List.length_cons] at hlen; omega)
      have hp : programBytes (v :: vs) s = programBytes vs (advanceCur (setFlash m s)) := by
        rw [programBytes]
        simp only [hm, setFlash_d, hrun, if_true]
      have hmv : ∀ k, moveCur k (setFlash m' (advanceCur (setFlash m s))) =
          moveCur (k + 1) (setFlash m' s) := by
        intro k
        simp only [moveCur, advanceCur, setD, setFlash, curAddr_step]
      refine ⟨m', n + 1, ?_, hin.trans (hc'.mono fun x hx => ?_), fun h => (hi' h).trans (hi h)⟩
      · rw [hp]
        rcases hn with ⟨rfl, he⟩ | ⟨hlt, he⟩
        · exact .inl ⟨rfl, by rw [he, hmv]⟩
        · refine .inr ⟨by simp only [List.length_cons]; omega, ?_⟩
          rw [he, hmv]
          show halt (s.d.curAddr + 1 + BitVec.ofNat 16 n) _ = _
          rw [curAddr_step]
      · rw [hcur] at hx
        simp only [List.length_cons]
        omega
    · refine ⟨m, 0, .inr ⟨by simp, ?_⟩, hin, hi⟩
      rw [programBytes]
      simp only [hm, halt_d, moveCur_zero]
      simp

/-- Programming config bytes (R335), whatever the state. -/
theorem programConfig_cases (vs : List Byte) (off : Nat) (s : State) :
    ∃ m : Memory, programConfig off vs s = setFlash m s ∧
      Changes (fun x => cfgAddr + off ≤ x ∧ x < cfgAddr + off + vs.length) s.flash m ∧
      (s.d.iapen = false → m = s.flash) := by
  induction vs generalizing s off with
  | nil => exact ⟨s.flash, rfl, .refl _ _, fun _ => rfl⟩
  | cons v vs ih =>
    obtain ⟨m, hm, hc, hi⟩ := flashProgram_cases .config off v s
    obtain ⟨m', hm', hc', hi'⟩ := ih (off + 1) (setFlash m s)
    refine ⟨m', by rw [programConfig, hm, hm', setFlash_setFlash],
      (hc.mono fun x hx => ?_).trans (hc'.mono fun x hx => ?_), fun h => (hi' h).trans (hi h)⟩
    · simp only [cellAddr, List.length_cons] at hx ⊢
      omega
    · simp only [List.length_cons] at hx ⊢
      omega

/-! ### Multi-packet commands -/

theorem end17_toNat (a b : Word) : (end17 a b).toNat = a.toNat + b.toNat := by
  have := a.isLt
  have := b.isLt
  simp only [end17, BitVec.toNat_add, BitVec.toNat_setWidth]
  omega

theorem end17_word (a b : Word) : (end17 a b).setWidth 16 = a + b := by
  apply BitVec.eq_of_toNat_eq
  simp [end17]

theorem updateRangeOk_iff (p : Params) (a b : Word) :
    updateRangeOk p a b = true ↔ b ≠ 0 ∧ a.toNat + b.toNat ≤ p.apromSize := by
  unfold updateRangeOk
  rw [end17_toNat]
  simp

theorem readRangeOk_iff (p : Params) (a b : Word) :
    readRangeOk p a b = true ↔ b ≠ 0 ∧ a.toNat + b.toNat ≤ p.apromSize + p.ldromSize := by
  unfold readRangeOk
  rw [end17_toNat]
  simp

/-- The end of a chunk of `min(k, END_ADDR - CUR_ADDR)` bytes (R332, R333). -/
theorem finishRange_eq {n k : Nat} {cur last : Word} (hn : n = min k (last.toNat - cur.toNat))
    (hle : cur.toNat ≤ last.toNat) {u : State} (h1 : u.d.curAddr = cur + BitVec.ofNat 16 n)
    (h2 : u.d.endAddr = last) :
    finishRange u =
      if last.toNat - cur.toNat ≤ k then setD (fun d => { d with cstate := .command }) u else u := by
  unfold finishRange
  rw [h1, h2]
  have := last.isLt
  have hs : (cur + BitVec.ofNat 16 n).toNat = cur.toNat + n := by
    rw [BitVec.toNat_add, BitVec.toNat_ofNat]; omega
  by_cases hc : last.toNat - cur.toNat ≤ k
  · rw [if_pos (BitVec.eq_of_toNat_eq (by omega)), if_pos hc]
  · rw [if_neg (fun he => by have := congrArg BitVec.toNat he; omega), if_neg hc]

theorem stamp_eq (s : State) :
    stamp s = { s with d := { s.d with
      txbuf := replyBuf (lo8 (checksum s.d.rxbuf)) (hi8 (checksum s.d.rxbuf)) s.d.seq } } := by
  simp only [stamp, setD]

/-- `Stamp(ck); DumpChunk(); Transmit()` (R274, R292, R333) within the flash. -/
theorem dumpReply_spec {s : State} (hle : s.d.curAddr.toNat ≤ s.d.endAddr.toNat)
    (hea : s.d.endAddr.toNat ≤ s.params.apromSize + s.params.ldromSize) :
    ∃ t, dumpReply s = .next t ∧
      SentFrom
        { s with d := { s.d with
            curAddr := s.d.curAddr + BitVec.ofNat 16 (min 56 (s.d.endAddr.toNat - s.d.curAddr.toNat))
            cstate := if s.d.endAddr.toNat - s.d.curAddr.toNat ≤ 56 then .command else s.d.cstate } } t
        (goodPacket s.d (flatBytes s s.d.curAddr.toNat
          (min 56 (s.d.endAddr.toNat - s.d.curAddr.toNat)))) := by
  have hcl : chunkLen 56 s.d.curAddr s.d.endAddr = min 56 (s.d.endAddr.toNat - s.d.curAddr.toNat) := rfl
  unfold dumpReply
  rw [if_pos (by simp only [chunkInFlash, hcl, decide_eq_true_eq]; omega)]
  refine ⟨_, rfl, ?_⟩
  have hdd : dumpData (stamp s) =
      flatBytes s s.d.curAddr.toNat (min 56 (s.d.endAddr.toNat - s.d.curAddr.toNat)) := by
    unfold dumpData
    rw [flatReadN_eq _ _ _ (by simp only [stamp_d, stamp_params, hcl]; omega)]
    simp only [flatBytes, flashRead, stamp_d, stamp_params, stamp_flash, hcl]
  have hlen : (fillAt (replyBuf (lo8 (checksum s.d.rxbuf)) (hi8 (checksum s.d.rxbuf)) s.d.seq) 8
      (flatBytes s s.d.curAddr.toNat (min 56 (s.d.endAddr.toNat - s.d.curAddr.toNat)))).toList =
      goodPacket s.d (flatBytes s s.d.curAddr.toNat
        (min 56 (s.d.endAddr.toNat - s.d.curAddr.toNat))) := by
    rw [payload_toList _ _ _ _ (by rw [flatBytes_length]; omega), checksum_inbound, goodPacket]
  unfold dumpChunk
  rw [hdd, finishRange_eq (n := min 56 (s.d.endAddr.toNat - s.d.curAddr.toNat)) (k := 56) rfl hle
    (by simp only [setD_d, putPayload_d, stamp_d, hcl]) (by simp only [setD_d, putPayload_d, stamp_d])]
  generalize hfl : flatBytes s s.d.curAddr.toNat
    (min 56 (s.d.endAddr.toNat - s.d.curAddr.toNat)) = fl at hlen ⊢
  generalize hb : replyBuf (lo8 (checksum s.d.rxbuf)) (hi8 (checksum s.d.rxbuf)) s.d.seq = rb at hlen
  by_cases hc : s.d.endAddr.toNat - s.d.curAddr.toNat ≤ 56
  · simp only [if_pos hc, setD, putPayload, stamp_eq, hb, hcl]
    exact transmit_spec (u := { s with d := { s.d with
      curAddr := s.d.curAddr + BitVec.ofNat 16 (min 56 (s.d.endAddr.toNat - s.d.curAddr.toNat))
      cstate := .command } }) hlen
  · simp only [if_neg hc, setD, putPayload, stamp_eq, hb, hcl]
    exact transmit_spec (u := { s with d := { s.d with
      curAddr := s.d.curAddr + BitVec.ofNat 16 (min 56 (s.d.endAddr.toNat - s.d.curAddr.toNat)) } }) hlen

/-- `UPDATE_APROM` accepted, up to its first chunk (R286, R330). -/
theorem beginUpdate_eq (start len : Word) (s : State) :
    beginUpdate start len s = setCState .updating
      (erasePages start (start + len) (acceptRange start len s)) := by
  unfold beginUpdate
  simp only [acceptRange_d, end17_word]

theorem acceptRange_eq (start len : Word) (s : State) :
    acceptRange start len s = { s with d := { s.d with
      startAddr := start, endAddr := start + len, curAddr := start } } := by
  simp only [acceptRange, setD, end17_word]

/-! ### The frame of every command -/

/-- A cell machine D can program or erase: of APROM, or of the config sector (R83, R431). -/
abbrev deviceCell (p : Params) (x : Nat) : Prop :=
  x < p.apromSize ∨ (cfgAddr ≤ x ∧ x < cfgAddr + 5)

/-- The range of an update or a dump is one the commands accept, and its end is not reached
(R286, R292, R299). -/
abbrev rangeOpen (p : Params) (d : DRegs) : Prop :=
  (d.cstate = .updating → d.startAddr.toNat ≤ d.curAddr.toNat ∧ d.curAddr.toNat < d.endAddr.toNat ∧
    d.endAddr.toNat ≤ p.apromSize) ∧
  (d.cstate = .dumping → d.startAddr.toNat ≤ d.curAddr.toNat ∧ d.curAddr.toNat < d.endAddr.toNat ∧
    d.endAddr.toNat ≤ p.apromSize + p.ldromSize)

/-- What a command of machine D run in `s` can have done in `t`. -/
structure CommandEffect (s t : State) : Prop where
  /-- it reaches machine D and the flash only -/
  rest : t = { s with d := t.d, flash := t.flash }
  rxbuf : t.d.rxbuf = s.d.rxbuf
  rxhead : t.d.rxhead = s.d.rxhead
  rxready : t.d.rxready = s.d.rxready
  idleCnt : t.d.idleCnt = s.d.idleCnt
  idleExpired : t.d.idleExpired = s.d.idleExpired
  mphase : t.d.mphase = s.d.mphase
  /-- the connection timer is left or disarmed -/
  conn : (t.d.connCnt = s.d.connCnt ∧ t.d.connExpired = s.d.connExpired) ∨
    (t.d.connCnt = 0 ∧ t.d.connExpired = false)
  /-- the machine goes on, halts or boots -/
  run : (t.d.terminal = .running ∧ t.d.ie = s.d.ie ∧ t.d.iapen = s.d.iapen) ∨
    (t.d.terminal = .haltVerify ∧ t.d.ie = s.d.ie ∧ t.d.iapen = s.d.iapen) ∨
    ((t.d.terminal = .bootAprom ∨ t.d.terminal = .bootLdrom) ∧ t.d.ie = false ∧ t.d.iapen = false)
  /-- the connection state stays, or is one of a connected device -/
  cstate : t.d.cstate = s.d.cstate ∨ t.d.cstate.connected = true
  /-- a range that is open in it is one the commands accept -/
  range : rangeOpen s.params t.d
  flash : Changes (deviceCell s.params) s.flash t.flash
  enable : s.d.iapen = false → t.flash = s.flash

/-- A reply changes `TXBUF` and the trace only, so it keeps the effect. -/
theorem CommandEffect.sent {s u t : State} {pkt : List Byte} (h : CommandEffect s u)
    (hs : SentFrom u t pkt) : CommandEffect s t := by
  obtain ⟨buf, -, rfl⟩ := hs
  have hr := h.rest
  exact
    { rest := by rw [hr], rxbuf := h.rxbuf, rxhead := h.rxhead, rxready := h.rxready,
      idleCnt := h.idleCnt, idleExpired := h.idleExpired, mphase := h.mphase, conn := h.conn,
      run := h.run, cstate := h.cstate, range := h.range, flash := h.flash, enable := h.enable }

/-- A state with nothing done to it. -/
theorem CommandEffect.same {s : State} (hrun : s.d.terminal = .running)
    (hr : rangeOpen s.params s.d) : CommandEffect s s where
  rest := rfl
  rxbuf := rfl
  rxhead := rfl
  rxready := rfl
  idleCnt := rfl
  idleExpired := rfl
  mphase := rfl
  conn := .inl ⟨rfl, rfl⟩
  run := .inl ⟨hrun, rfl, rfl⟩
  cstate := .inl rfl
  range := hr
  flash := .refl _ _
  enable _ := rfl

/-- A fail reply. -/
theorem CommandEffect.failed {s : State} (hrun : s.d.terminal = .running)
    (hr : rangeOpen s.params s.d) (k : ErrKind) (i : Word) : CommandEffect s (replyFail k i s) := by
  have h : CommandEffect s { s with d := { s.d with trace := s.d.trace ++ [.err k i] } } :=
    { CommandEffect.same hrun hr with rest := rfl }
  exact h.sent (replyFail_spec k i s)

/-- A command that changes flash cells only, then replies. -/
theorem CommandEffect.flashed {s : State} (hrun : s.d.terminal = .running)
    (hr : rangeOpen s.params s.d) {m : Memory} (hm : Changes (deviceCell s.params) s.flash m)
    (hi : s.d.iapen = false → m = s.flash) : CommandEffect s (setFlash m s) :=
  { CommandEffect.same hrun hr with rest := rfl, flash := hm, enable := hi }

/-- The end of a range never leaves an open range with nothing in it. -/
theorem finishRange_cases (u : State) :
    (u.d.curAddr = u.d.endAddr ∧ finishRange u = setD (fun d => { d with cstate := .command }) u) ∨
      (u.d.curAddr ≠ u.d.endAddr ∧ finishRange u = u) := by
  unfold finishRange
  by_cases h : u.d.curAddr = u.d.endAddr
  · exact .inl ⟨h, if_pos h⟩
  · exact .inr ⟨h, if_neg h⟩

/-- A program chunk with its reply (R273, R286, R332, R336) in a running machine whose update range is
open. -/
theorem programReply_cases {s : State} (data : List Byte) (hp : s.params.Wf)
    (hrun : s.d.terminal = .running) (hc : s.d.cstate = .updating) (hr : rangeOpen s.params s.d) :
    ∃ t, programReply data s = .next t ∧ CommandEffect s t := by
  obtain ⟨h1, h2, h3⟩ := hr.1 hc
  have hp5 := hp.2.2.2.2.1
  have hlen : (data.take (chunkLen data.length s.d.curAddr s.d.endAddr)).length =
      chunkLen data.length s.d.curAddr s.d.endAddr := by
    rw [List.length_take]; unfold chunkLen; omega
  have hcl : s.d.curAddr.toNat + chunkLen data.length s.d.curAddr s.d.endAddr ≤ s.d.endAddr.toNat := by
    unfold chunkLen; omega
  unfold programReply
  rw [if_pos (by simp only [chunkInAprom, decide_eq_true_eq]; omega)]
  refine ⟨_, rfl, ?_⟩
  obtain ⟨m, n, hn, hm, hi⟩ := programBytes_cases
    (data.take (chunkLen data.length s.d.curAddr s.d.endAddr)) hrun (by omega)
  rw [hlen] at hn hm
  have hm' : Changes (deviceCell s.params) s.flash m := hm.mono fun x hx => by omega
  have hcur : ∀ k, k ≤ chunkLen data.length s.d.curAddr s.d.endAddr →
      (s.d.curAddr + BitVec.ofNat 16 k).toNat = s.d.curAddr.toNat + k := by
    intro k hk
    rw [BitVec.toNat_add, BitVec.toNat_ofNat]; omega
  unfold programChunk nextChunk
  rcases hn with ⟨hn, he⟩ | ⟨hn, he⟩
  · simp only [he, moveCur, setD_d, setFlash_d, hrun, if_true]
    rcases finishRange_cases (setD (fun d => { d with curAddr := d.curAddr + BitVec.ofNat 16 n })
      (setFlash m s)) with ⟨hend, hf⟩ | ⟨hend, hf⟩
    · simp only [hf, setD_d, setFlash_d, hrun, if_true]
      refine CommandEffect.sent (u := { s with flash := m, d := { s.d with
        curAddr := s.d.curAddr + BitVec.ofNat 16 n, cstate := .command } }) ?_ (replyOk_spec _)
      exact
        { CommandEffect.flashed hrun hr hm' hi with
          rest := rfl, cstate := .inr rfl
          range := ⟨fun h => (nomatch h), fun h => (nomatch h)⟩ }
    · simp only [hf, setD_d, setFlash_d, hrun, if_true]
      refine CommandEffect.sent (u := { s with flash := m, d := { s.d with
        curAddr := s.d.curAddr + BitVec.ofNat 16 n } }) ?_ (replyOk_spec _)
      have hne : s.d.curAddr.toNat + n ≠ s.d.endAddr.toNat := by
        intro h
        apply hend
        exact BitVec.eq_of_toNat_eq ((hcur n (by omega)).trans h)
      exact
        { CommandEffect.flashed hrun hr hm' hi with
          rest := rfl
          range := by
            constructor
            · intro _
              show s.d.startAddr.toNat ≤ (s.d.curAddr + BitVec.ofNat 16 n).toNat ∧
                (s.d.curAddr + BitVec.ofNat 16 n).toNat < s.d.endAddr.toNat ∧
                s.d.endAddr.toNat ≤ s.params.apromSize
              rw [hcur n (by omega)]
              omega
            · intro h
              exact absurd (hc.symm.trans h) (by decide) }
  · have hd : ∀ a u, (halt a u).d.terminal = .haltVerify := fun a u => by rw [halt_d]
    have hne : ¬ Terminal.haltVerify = Terminal.running := by decide
    simp only [he, hd, if_neg hne]
    have hh : halt (s.d.curAddr + BitVec.ofNat 16 n) (moveCur n (setFlash m s)) =
        { s with flash := m, d := { s.d with
          curAddr := s.d.curAddr + BitVec.ofNat 16 n, terminal := .haltVerify,
          trace := s.d.trace ++ [.err .fatalVerify (s.d.curAddr + BitVec.ofNat 16 n)] } } := by
      simp only [halt, moveCur, setD, setFlash, raise, emitD]
    rw [hh]
    exact
      { CommandEffect.flashed hrun hr hm' hi with
        rest := rfl
        run := .inr (.inl ⟨rfl, rfl, rfl⟩)
        range := by
          constructor
          · intro _
            show s.d.startAddr.toNat ≤ (s.d.curAddr + BitVec.ofNat 16 n).toNat ∧
              (s.d.curAddr + BitVec.ofNat 16 n).toNat < s.d.endAddr.toNat ∧
                s.d.endAddr.toNat ≤ s.params.apromSize
            rw [hcur n (by omega)]
            omega
          · intro h
            exact absurd (hc.symm.trans h) (by decide) }

/-- A dump chunk with its reply (R274, R292, R333) whose range is open. -/
theorem dumpReply_cases {s : State} (hp : s.params.Wf) (hrun : s.d.terminal = .running)
    (hc : s.d.cstate = .dumping) (hr : rangeOpen s.params s.d) :
    ∃ t, dumpReply s = .next t ∧ CommandEffect s t := by
  obtain ⟨h1, h2, h3⟩ := hr.2 hc
  have hp5 := hp.2.2.2.2.1
  obtain ⟨t, ht, hs⟩ := dumpReply_spec (by omega : s.d.curAddr.toNat ≤ s.d.endAddr.toNat) h3
  refine ⟨t, ht, CommandEffect.sent ?_ hs⟩
  have hcur : (s.d.curAddr + BitVec.ofNat 16 (min 56 (s.d.endAddr.toNat - s.d.curAddr.toNat))).toNat =
      s.d.curAddr.toNat + min 56 (s.d.endAddr.toNat - s.d.curAddr.toNat) := by
    rw [BitVec.toNat_add, BitVec.toNat_ofNat]; omega
  by_cases hk : s.d.endAddr.toNat - s.d.curAddr.toNat ≤ 56
  · simp only [if_pos hk]
    exact
      { CommandEffect.same hrun hr with
        rest := rfl, cstate := .inr rfl
        range := ⟨fun h => (nomatch h), fun h => (nomatch h)⟩ }
  · simp only [if_neg hk]
    exact
      { CommandEffect.same hrun hr with
        rest := rfl
        range := by
          constructor
          · intro h
            exact absurd (hc.symm.trans h) (by decide)
          · intro _
            show s.d.startAddr.toNat ≤ (s.d.curAddr + BitVec.ofNat 16
                (min 56 (s.d.endAddr.toNat - s.d.curAddr.toNat))).toNat ∧
              (s.d.curAddr + BitVec.ofNat 16
                (min 56 (s.d.endAddr.toNat - s.d.curAddr.toNat))).toNat < s.d.endAddr.toNat ∧
              s.d.endAddr.toNat ≤ s.params.apromSize + s.params.ldromSize
            rw [hcur]
            omega }

/-- An accepted update, up to its first chunk (R286, R330). -/
theorem beginUpdate_cases {s : State} (hp : s.params.Wf) {start len : Word}
    (h : updateRangeOk s.params start len = true) :
    ∃ m : Memory, beginUpdate start len s = { s with flash := m, d := { s.d with
        startAddr := start, endAddr := start + len, curAddr := start, cstate := .updating } } ∧
      Changes (deviceCell s.params) s.flash m ∧ (s.d.iapen = false → m = s.flash) ∧
      start.toNat < (start + len).toNat ∧ (start + len).toNat ≤ s.params.apromSize := by
  obtain ⟨h0, hle⟩ := (updateRangeOk_iff _ _ _).mp h
  obtain ⟨hp1, -, -, -, hp5, -⟩ := hp
  have hpos : 0 < len.toNat := by
    rcases Nat.eq_zero_or_pos len.toNat with hz | hz
    · exact absurd (BitVec.eq_of_toNat_eq (by simpa using hz)) h0
    · exact hz
  have hse : (start + len).toNat = start.toNat + len.toNat := by
    rw [BitVec.toNat_add]; apply Nat.mod_eq_of_lt; omega
  obtain ⟨m, hm, hc, hi⟩ := eraseFrom_cases (pageBase start).toNat
    (pageCount (pageBase start).toNat (start + len).toNat) (acceptRange start len s)
    (by rw [pageBase_toNat]; omega)
  refine ⟨m, ?_, hc.mono fun x hx => ?_, hi, by omega, by omega⟩
  · rw [beginUpdate_eq, erasePages, hm, acceptRange_eq]
    simp only [setCState, setD, setFlash]
  · rw [pageBase_toNat] at hx
    unfold pageCount at hx
    omega

/-- Every command of machine D, run in a running machine whose open range is one the commands accept,
goes on, and has the effect of a command. -/
theorem exec_command {i : Instr} (hd : i.ofD = true) {s : State} (hp : s.params.Wf)
    (hrun : s.d.terminal = .running) (hr : rangeOpen s.params s.d) :
    ∃ t, exec i s = .next t ∧ CommandEffect s t := by
  have hsame := CommandEffect.same hrun hr
  have hboot : ∀ b : BootTarget, CommandEffect s (bootSequence b s) := fun b =>
    { hsame with
      rest := rfl
      run := .inr (.inr ⟨by cases b; exacts [.inl rfl, .inr rfl], rfl, rfl⟩) }
  have hdisarm : ∀ q : Word, CommandEffect s
      { s with d := { s.d with connCnt := 0, connExpired := false, seq := q } } := fun q =>
    { hsame with rest := rfl, conn := .inr ⟨rfl, rfl⟩ }
  have hreply : ∀ bs, CommandEffect s (replyWith bs s) := fun bs => by
    simp only [replyWith, putPayload, setD, stamp_eq]
    exact hsame.sent (transmit_spec rfl)
  cases i with
  | continuation h data =>
    simp only [exec, execContinuation]
    cases hc : s.d.cstate with
    | updating => exact programReply_cases data hp hrun hc hr
    | dumping => exact dumpReply_cases hp hrun hc hr
    | command => exact ⟨_, rfl, .failed hrun hr _ _⟩
    | connecting => exact ⟨_, rfl, .failed hrun hr _ _⟩
    | disconnected => exact ⟨_, rfl, .failed hrun hr _ _⟩
  | updateAprom h start g1 len g2 data =>
    simp only [exec, execUpdateAprom]
    by_cases hk : updateRangeOk s.params start len = true
    · rw [if_pos hk]
      obtain ⟨m, hb, hc, hi, h1, h2⟩ := beginUpdate_cases hp hk
      rw [hb]
      obtain ⟨t, ht, he⟩ := programReply_cases (s := { s with flash := m, d := { s.d with
        startAddr := start, endAddr := start + len, curAddr := start, cstate := .updating } })
        data hp hrun rfl ⟨fun _ => ⟨Nat.le_refl _, h1, h2⟩, fun h => (nomatch h)⟩
      have hrest := he.rest
      exact ⟨t, ht,
        { rest := by rw [hrest], rxbuf := he.rxbuf, rxhead := he.rxhead, rxready := he.rxready,
          idleCnt := he.idleCnt, idleExpired := he.idleExpired, mphase := he.mphase, conn := he.conn,
          run := he.run
          cstate := .inr (by rcases he.cstate with h | h; exacts [by rw [h]; rfl, h])
          range := he.range, flash := hc.trans he.flash
          enable := fun h => (he.enable h).trans (hi h) }⟩
    · rw [if_neg hk]
      exact ⟨_, rfl, .failed hrun hr _ _⟩
  | updateConfig h c rest =>
    obtain ⟨m, hm, hc, hi⟩ := flashErasePage_cases .config 0 s
    obtain ⟨m', hm', hc', hi'⟩ := programConfig_cases (configList c) 0 (setFlash m s)
    have hu : configUpdate c s = setFlash m' s := by
      rw [configUpdate, hm, hm', setFlash_setFlash]
    refine ⟨_, rfl, ?_⟩
    rw [hu]
    refine (CommandEffect.flashed hrun hr ((hc.mono fun x hx => .inr hx).trans
      (hc'.mono fun x hx => .inr hx)) fun h => (hi' h).trans (hi h)).sent
      (replyWith_spec _ _ (by simp [configList]))
  | readConfig h rest => exact ⟨_, rfl, hreply _⟩
  | eraseAll h rest =>
    obtain ⟨m, hm, hc, hi⟩ := eraseFrom_cases 0 (pageCount 0 s.params.apromSize) s (by decide)
    refine ⟨_, rfl, ?_⟩
    rw [eraseAllPages, hm]
    refine (CommandEffect.flashed hrun hr (hc.mono fun x hx => ?_) hi).sent (replyOk_spec _)
    have := hp.1
    unfold pageCount at hx
    omega
  | syncSeq h rest => exact ⟨_, rfl, (hdisarm s.d.seq).sent (replyOk_spec _)⟩
  | readRom h start g1 len rest =>
    simp only [exec, execReadRom]
    by_cases hk : readRangeOk s.params start len = true
    · rw [if_pos hk]
      obtain ⟨h0, hle⟩ := (readRangeOk_iff _ _ _).mp hk
      have hp5 := hp.2.2.2.2.1
      have hpos : 0 < len.toNat := by
        rcases Nat.eq_zero_or_pos len.toNat with hz | hz
        · exact absurd (BitVec.eq_of_toNat_eq (by simpa using hz)) h0
        · exact hz
      have hse : (start + len).toNat = start.toNat + len.toNat := by
        rw [BitVec.toNat_add]; apply Nat.mod_eq_of_lt; omega
      have hu : setCState .dumping (acceptRange start len s) = { s with d := { s.d with
          startAddr := start, endAddr := start + len, curAddr := start, cstate := .dumping } } := by
        rw [acceptRange_eq]
        simp only [setCState, setD]
      rw [hu]
      obtain ⟨t, ht, he⟩ := dumpReply_cases (s := { s with d := { s.d with
        startAddr := start, endAddr := start + len, curAddr := start, cstate := .dumping } })
        hp hrun rfl ⟨fun h => (nomatch h), fun _ => ⟨Nat.le_refl _, by
          show start.toNat < (start + len).toNat; omega, by
          show (start + len).toNat ≤ s.params.apromSize + s.params.ldromSize; omega⟩⟩
      have hrest := he.rest
      exact ⟨t, ht,
        { rest := by rw [hrest], rxbuf := he.rxbuf, rxhead := he.rxhead, rxready := he.rxready,
          idleCnt := he.idleCnt, idleExpired := he.idleExpired, mphase := he.mphase, conn := he.conn,
          run := he.run
          cstate := .inr (by rcases he.cstate with h | h; exacts [by rw [h]; rfl, h])
          range := he.range, flash := he.flash, enable := he.enable }⟩
    · rw [if_neg hk]
      exact ⟨_, rfl, .failed hrun hr _ _⟩
  | getFwVersion h rest => exact ⟨_, rfl, hreply _⟩
  | runAprom h rest => exact ⟨_, rfl, hboot _⟩
  | runLdrom h rest => exact ⟨_, rfl, hboot _⟩
  | resetCmd h rest => exact ⟨_, rfl, hboot _⟩
  | connect h rest =>
    refine ⟨_, rfl, ?_⟩
    refine CommandEffect.sent (u := setD (fun d =>
      if s.params.connectResetsSeq then { d.disarmConn with seq := 1 } else d.disarmConn) s) ?_
      (replyOk_spec _)
    cases s.params.connectResetsSeq with
    | false => exact hdisarm s.d.seq
    | true => exact hdisarm 1
  | getDeviceId h rest => exact ⟨_, rfl, hreply _⟩
  | getUid h rest => exact ⟨_, rfl, hreply _⟩
  | getCid h rest => exact ⟨_, rfl, hreply _⟩
  | getUcid h rest => exact ⟨_, rfl, hreply _⟩
  | getFlashMode h rest => exact ⟨_, rfl, hreply _⟩
  | pageErase h addr rest =>
    simp only [exec, execPageErase]
    by_cases ha : addr.toNat < s.params.apromSize
    · rw [if_pos ha]
      obtain ⟨m, hm, hc, hi⟩ := flashErasePage_cases .aprom (pageBase addr).toNat s
      refine ⟨_, rfl, ?_⟩
      rw [hm]
      refine (CommandEffect.flashed hrun hr (hc.mono fun x hx => ?_) hi).sent (replyOk_spec _)
      have := hp.1
      simp only [pageSpan, pageBase_toNat] at hx
      omega
    · rw [if_neg ha]
      exact ⟨_, rfl, .failed hrun hr _ _⟩
  | unrecognized op h rest => exact ⟨_, rfl, .failed hrun hr _ _⟩
  | _ => cases hd

end Sys2Proof.Machine
end

