-- ==== Sys2Proof/Laws/Decode.lean ====
section
/-! SUPPORT. The fields of an encoding taken apart and put together again, and which machine a decoded
instruction belongs to. -/

namespace Sys2Proof

/-! ### Fields -/

theorem getLsbD_le16 (a b : Byte) (i : Nat) :
    (le16 a b).getLsbD i = if i < 8 then a.getLsbD i else b.getLsbD (i - 8) := by
  unfold le16
  rw [BitVec.getLsbD_append]

theorem le16_bytes (v : Word) : le16 (lo8 v) (hi8 v) = v := by
  apply BitVec.eq_of_getLsbD_eq
  intro i hi
  rw [getLsbD_le16]
  unfold lo8 hi8
  rw [BitVec.getLsbD_extractLsb', BitVec.getLsbD_extractLsb']
  split
  · simp_all
  · rw [show 8 + (i - 8) = i by omega]
    simp only [show i - 8 < 8 by omega, decide_true, Bool.true_and]

@[simp] theorem lo8_le16 (a b : Byte) : lo8 (le16 a b) = a := by
  apply BitVec.eq_of_getLsbD_eq
  intro i hi
  unfold lo8
  rw [BitVec.getLsbD_extractLsb', getLsbD_le16]
  simp [hi]

@[simp] theorem hi8_le16 (a b : Byte) : hi8 (le16 a b) = b := by
  apply BitVec.eq_of_getLsbD_eq
  intro i hi
  unfold hi8
  rw [BitVec.getLsbD_extractLsb', getLsbD_le16]
  simp [hi]

@[simp] theorem bytes16_le16 (a b : Byte) : bytes16 (le16 a b) = [a, b] := by
  simp [bytes16]

theorem getLsbD_le24 (a b c : Byte) (i : Nat) :
    (le24 a b c).getLsbD i =
      if i < 8 then a.getLsbD i else if i - 8 < 8 then b.getLsbD (i - 8) else c.getLsbD (i - 8 - 8) := by
  unfold le24
  rw [BitVec.getLsbD_append, BitVec.getLsbD_append]

theorem le24_bytes (v : BitVec 24) :
    le24 (v.extractLsb' 0 8) (v.extractLsb' 8 8) (v.extractLsb' 16 8) = v := by
  apply BitVec.eq_of_getLsbD_eq
  intro i hi
  rw [getLsbD_le24, BitVec.getLsbD_extractLsb', BitVec.getLsbD_extractLsb', BitVec.getLsbD_extractLsb']
  split
  · simp_all
  · split
    · rw [show 8 + (i - 8) = i by omega]
      simp only [show i - 8 < 8 by omega, decide_true, Bool.true_and]
    · rw [show 16 + (i - 8 - 8) = i by omega]
      simp only [show i - 8 - 8 < 8 by omega, decide_true, Bool.true_and]

@[simp] theorem bytes24_le24 (a b c : Byte) : bytes24 (le24 a b c) = [a, b, c] := by
  unfold bytes24
  refine List.cons_eq_cons.mpr ⟨?_, List.cons_eq_cons.mpr ⟨?_, List.cons_eq_cons.mpr ⟨?_, rfl⟩⟩⟩ <;>
    apply BitVec.eq_of_getLsbD_eq <;> intro i hi <;>
    rw [BitVec.getLsbD_extractLsb', getLsbD_le24] <;> simp only [hi, decide_true, Bool.true_and]
  · simp [hi]
  · rw [if_neg (by omega), if_pos (by omega), show 8 + i - 8 = i by omega]
  · rw [if_neg (by omega), if_neg (by omega), show 16 + i - 8 - 8 = i by omega]

theorem frameOf_cmd (cmd : BitVec 6) (param : BitVec 18) : (frameOf cmd param).extractLsb' 0 6 = cmd := by
  apply BitVec.eq_of_getLsbD_eq
  intro i hi
  unfold frameOf
  rw [BitVec.getLsbD_extractLsb', BitVec.getLsbD_append]
  simp [hi]

theorem frameOf_param (cmd : BitVec 6) (param : BitVec 18) :
    (frameOf cmd param).extractLsb' 6 18 = param := by
  apply BitVec.eq_of_getLsbD_eq
  intro i hi
  unfold frameOf
  rw [BitVec.getLsbD_extractLsb', BitVec.getLsbD_append]
  simp [hi]

theorem frameOf_fields (w : Icp24) : frameOf (w.extractLsb' 0 6) (w.extractLsb' 6 18) = w := by
  apply BitVec.eq_of_getLsbD_eq
  intro i hi
  unfold frameOf
  rw [BitVec.getLsbD_append, BitVec.getLsbD_extractLsb', BitVec.getLsbD_extractLsb']
  split
  · simp_all
  · rw [show 6 + (i - 6) = i by omega]
    simp only [show i - 6 < 18 by omega, decide_true, Bool.true_and]

theorem nineBits_data (d : Byte) (e : Bool) : (nineBits d e).extractLsb' 1 8 = d := by
  apply BitVec.eq_of_getLsbD_eq
  intro i hi
  unfold nineBits
  rw [BitVec.getLsbD_extractLsb', BitVec.getLsbD_append]
  simp [hi]

theorem nineBits_end (d : Byte) (e : Bool) : (nineBits d e).getLsbD 0 = e := by
  unfold nineBits
  rw [BitVec.getLsbD_append]
  simp

/-! ### Packets -/

theorem hdrBytes_length (op : Byte) (h : PktHdr) : (hdrBytes op h).length = 8 := rfl

/-- A packet put together from an opcode, the seven bytes after it and 56 more decodes by its opcode. -/
theorem decodePacket_hdr (op : Byte) (h : PktHdr) (pl : List Byte) (hl : pl.length = 56) :
    decodePacket (hdrBytes op h ++ pl) = decodeBody op h pl := by
  simp only [hdrBytes, bytes24, bytes16, List.cons_append, List.nil_append, decodePacket, hl, if_true,
    le24_bytes, le16_bytes]

/-- The first eight bytes of a packet and the header they make are the same thing. -/
theorem hdrBytes_of (op c1 c2 c3 s0 s1 p0 p1 : Byte) :
    hdrBytes op ⟨le24 c1 c2 c3, le16 s0 s1, le16 p0 p1⟩ = [op, c1, c2, c3, s0, s1, p0, p1] := by
  simp [hdrBytes]

namespace Machine

theorem decodeBody_ofD {op : Byte} {h : PktHdr} {pl : List Byte} {i : Instr}
    (hd : decodeBody op h pl = .ok i) : i.ofD = true := by
  have key : ∀ (c : Prop) [Decidable c] (j : Instr) (x : Decoded), j.ofD = true →
      (x = .ok i → i.ofD = true) → (if c then .ok j else x) = Decoded.ok i → i.ofD = true := by
    intro c _ j x hj hx h
    by_cases hc : c
    · rw [if_pos hc] at h
      cases h
      exact hj
    · rw [if_neg hc] at h
      exact hx h
  have keyM : ∀ (c : Prop) [Decidable c] (y x : Decoded), (y = .ok i → i.ofD = true) →
      (x = .ok i → i.ofD = true) → (if c then y else x) = Decoded.ok i → i.ofD = true := by
    intro c _ y x hy hx h
    by_cases hc : c
    · rw [if_pos hc] at h
      exact hy h
    · rw [if_neg hc] at h
      exact hx h
  revert hd
  unfold decodeBody
  refine key _ _ _ rfl ?_
  refine keyM _ _ _ (fun h => by split at h <;> cases h; rfl) ?_
  refine keyM _ _ _ (fun h => by split at h <;> cases h; rfl) ?_
  refine key _ _ _ rfl (key _ _ _ rfl (key _ _ _ rfl ?_))
  refine keyM _ _ _ (fun h => by split at h <;> cases h; rfl) ?_
  refine key _ _ _ rfl (key _ _ _ rfl (key _ _ _ rfl (key _ _ _ rfl (key _ _ _ rfl
    (key _ _ _ rfl (key _ _ _ rfl (key _ _ _ rfl (key _ _ _ rfl (key _ _ _ rfl ?_)))))))))
  refine keyM _ _ _ (fun h => by split at h <;> cases h; rfl) ?_
  intro h
  cases h
  rfl

/-- What a packet decodes to is an instruction of machine D. -/
theorem decodePacket_ofD {bs : List Byte} {i : Instr} (h : decodePacket bs = .ok i) :
    i.ofD = true := by
  unfold decodePacket at h
  split at h
  · split at h
    · exact decodeBody_ofD h
    · cases h
  · cases h

/-- What anything but a packet decodes to is not. -/
theorem decode_not_ofD {p : Params} {c : Code} {i : Instr} (h : decode p c = .ok i)
    (hc : ∀ bs, c ≠ .packet bs) : i.ofD = false := by
  cases c with
  | packet bs => exact absurd rfl (hc bs)
  | data24 w =>
    simp only [decode, decodeData24] at h
    repeat' split at h
    all_goals first | (cases h; rfl) | cases h
  | reset24 w =>
    simp only [decode] at h
    split at h <;> cases h
    rfl
  | read9 w => cases h; rfl
  | write9 w => cases h; rfl
  | call j =>
    simp only [decode] at h
    split at h
    · rename_i hj
      cases h
      cases i <;> first | rfl | cases hj
    · cases h

/-- Every 64-byte packet decodes (R123). -/
theorem decodePacket_total {bs : List Byte} (h : bs.length = 64) : ∃ i, decodePacket bs = .ok i := by
  match bs, h with
  | op :: c1 :: c2 :: c3 :: s0 :: s1 :: p0 :: p1 :: a0 :: a1 :: a2 :: a3 :: a4 :: a5 :: a6 :: a7 :: pl,
      h =>
    have hl : (a0 :: a1 :: a2 :: a3 :: a4 :: a5 :: a6 :: a7 :: pl).length = 56 := by simpa using h
    simp only [decodePacket]
    rw [if_pos hl]
    unfold decodeBody
    have key : ∀ (c : Prop) [Decidable c] (j : Instr) (x : Decoded), (∃ i, x = .ok i) →
        ∃ i, (if c then .ok j else x) = Decoded.ok i := by
      intro c _ j x hx
      by_cases hc : c
      · exact ⟨j, if_pos hc⟩
      · rw [if_neg hc]
        exact hx
    repeat refine key _ _ _ ?_
    exact ⟨_, rfl⟩

/-- Only its length can turn a packet away (R123). -/
theorem decodePacket_reject {bs : List Byte} {e : DecodeError} (h : decodePacket bs = .reject e) :
    e = .notAPacket := by
  by_cases hl : bs.length = 64
  · obtain ⟨i, hi⟩ := decodePacket_total hl
    rw [hi] at h
    cases h
  · unfold decodePacket at h
    split at h
    · rw [if_neg fun hp => hl (by simp only [List.length_cons, hp])] at h
      cases h
      rfl
    · cases h
      rfl

end Machine

end Sys2Proof
end

