-- ==== Sys2Proof/Laws/Engine.lean ====
section
/-! SUPPORT. What performing events does, once: the trace grows by exactly the events, the latches
follow them, the target consumes them, and nothing else changes; and the primitives' event lists are
the wire sequences of the spec. -/

namespace Sys2Proof.Machine

/-! ### The target consumes events -/

/-- Replace the registers of machine H. -/
def setH (h : HRegs) (s : State) : State := { s with h := h }

/-- Replace what the wire can reach of the environment: flash, target registers, free values drawn. -/
def setEnv (m : Memory) (tg : Target) (n : Nat) (s : State) : State :=
  { s with tflash := m, tgt := tg, freeCtr := n }

/-- Whether the target ignores the event (R380). -/
def HEvent.quiet : HEvent → Bool
  | .pin _ _ | .dir _ | .delay _ | .sample _ | .acquire _ | .release _ | .resetSeq => true
  | .entry | .exit | .frame _ | .rdByte _ _ | .wrByte _ _ _ _ => false

theorem targetConsume_quiet {ev : HEvent} (h : ev.quiet = true) (s : State) : targetConsume ev s = s := by
  unfold targetConsume
  cases s.targetKind <;> cases ev <;> first | rfl | cases h

@[simp] theorem setH_params (h : HRegs) (s : State) : (setH h s).params = s.params := rfl
@[simp] theorem setH_ident (h : HRegs) (s : State) : (setH h s).ident = s.ident := rfl
@[simp] theorem setH_d (h : HRegs) (s : State) : (setH h s).d = s.d := rfl
@[simp] theorem setH_tflash (h : HRegs) (s : State) : (setH h s).tflash = s.tflash := rfl
@[simp] theorem setH_flash (h : HRegs) (s : State) :
    (setH h s).flash = s.flash := rfl
@[simp] theorem setH_worn (h : HRegs) (s : State) : (setH h s).worn = s.worn := rfl
@[simp] theorem setH_targetKind (h : HRegs) (s : State) : (setH h s).targetKind = s.targetKind := rfl
@[simp] theorem setH_tgt (h : HRegs) (s : State) : (setH h s).tgt = s.tgt := rfl
@[simp] theorem setH_pinGrant (h : HRegs) (s : State) : (setH h s).pinGrant = s.pinGrant := rfl
@[simp] theorem setH_freeCtr (h : HRegs) (s : State) : (setH h s).freeCtr = s.freeCtr := rfl
@[simp] theorem setH_sched (h : HRegs) (s : State) : (setH h s).sched = s.sched := rfl
@[simp] theorem setH_h (h : HRegs) (s : State) : (setH h s).h = h := rfl
@[simp] theorem setH_setH (h h' : HRegs) (s : State) : setH h (setH h' s) = setH h s := rfl
@[simp] theorem setEnv_params (m : Memory) (tg : Target) (n : Nat) (s : State) :
    (setEnv m tg n s).params = s.params := rfl
@[simp] theorem setEnv_ident (m : Memory) (tg : Target) (n : Nat) (s : State) :
    (setEnv m tg n s).ident = s.ident := rfl
@[simp] theorem setEnv_d (m : Memory) (tg : Target) (n : Nat) (s : State) :
    (setEnv m tg n s).d = s.d := rfl
@[simp] theorem setEnv_tflash (m : Memory) (tg : Target) (n : Nat) (s : State) :
    (setEnv m tg n s).tflash = m := rfl
@[simp] theorem setEnv_flash (m : Memory) (tg : Target) (n : Nat) (s : State) :
    (setEnv m tg n s).flash = s.flash := rfl
@[simp] theorem setEnv_worn (m : Memory) (tg : Target) (n : Nat) (s : State) :
    (setEnv m tg n s).worn = s.worn := rfl
@[simp] theorem setEnv_targetKind (m : Memory) (tg : Target) (n : Nat) (s : State) :
    (setEnv m tg n s).targetKind = s.targetKind := rfl
@[simp] theorem setEnv_tgt (m : Memory) (tg : Target) (n : Nat) (s : State) :
    (setEnv m tg n s).tgt = tg := rfl
@[simp] theorem setEnv_pinGrant (m : Memory) (tg : Target) (n : Nat) (s : State) :
    (setEnv m tg n s).pinGrant = s.pinGrant := rfl
@[simp] theorem setEnv_freeCtr (m : Memory) (tg : Target) (n : Nat) (s : State) :
    (setEnv m tg n s).freeCtr = n := rfl
@[simp] theorem setEnv_sched (m : Memory) (tg : Target) (n : Nat) (s : State) :
    (setEnv m tg n s).sched = s.sched := rfl
@[simp] theorem setEnv_h (m : Memory) (tg : Target) (n : Nat) (s : State) :
    (setEnv m tg n s).h = s.h := rfl

theorem targetWrite_setH (h : HRegs) (c : IcpCmd) (a : Nat) (v : Byte) (s : State) :
    targetWrite c a v (setH h s) = setH h (targetWrite c a v s) := by
  cases c <;> simp only [targetWrite]
  · by_cases h1 : s.tgt.locked = true <;>
      by_cases h2 : a < flashSize s.params ∨ (cfgAddr ≤ a ∧ a < cfgAddr + 5) <;>
      simp only [targetProgram, setH_tgt, setH_params, setH_tflash, h1, h2, if_true, if_false] <;> rfl
  · by_cases h1 : s.tgt.locked = true <;> by_cases h2 : a < flashSize s.params <;>
      by_cases h3 : cfgAddr ≤ a ∧ a ≤ cfgAddr + 0x7F <;>
      simp only [targetPageErase, setH_tgt, setH_params, setH_tflash, h1, h2, h3, if_true, if_false] <;>
      rfl
  · by_cases h1 : s.tgt.armed = true <;>
      simp only [targetMassErase, setH_tgt, setH_params, setH_tflash, h1, if_true] <;> rfl

theorem targetConsume_setH (ev : HEvent) (h : HRegs) (s : State) :
    targetConsume ev (setH h s) = setH h (targetConsume ev s) := by
  unfold targetConsume
  rw [setH_targetKind]
  cases s.targetKind with
  | oracle => rfl
  | reference =>
    cases ev <;> try rfl
    simp only [targetOnWrite, setH_tgt]
    cases s.tgt.open with
    | none => rfl
    | some c => simp only [targetWrite_setH]; rfl

/-- The events as the target sees them, in order. -/
def targetAll (evs : List HEvent) (s : State) : State := evs.foldl (fun s ev => targetConsume ev s) s

theorem targetAll_append (a b : List HEvent) (s : State) :
    targetAll (a ++ b) s = targetAll b (targetAll a s) := by simp [targetAll]

theorem targetAll_quiet {evs : List HEvent} (h : ∀ ev ∈ evs, ev.quiet = true) (s : State) :
    targetAll evs s = s := by
  induction evs with
  | nil => rfl
  | cons ev evs ih =>
    show targetAll evs (targetConsume ev s) = s
    rw [targetConsume_quiet (h ev (by simp)), ih fun e he => h e (by simp [he])]

/-- The latches after events, in order (R42, R150). -/
def pinsAfter (evs : List HEvent) (p : Pins) : Pins := evs.foldl (fun p ev => p.apply ev) p

theorem pinsAfter_append (a b : List HEvent) (p : Pins) :
    pinsAfter (a ++ b) p = pinsAfter b (pinsAfter a p) := by simp [pinsAfter]

/-- Performing events, in one equation. -/
theorem perform_eq (evs : List HEvent) (s : State) :
    perform evs s = setH { s.h with pins := pinsAfter evs s.h.pins, trace := s.h.trace ++ evs }
      (targetAll evs s) := by
  induction evs generalizing s with
  | nil => simp [perform, pinsAfter, targetAll, setH]
  | cons ev evs ih =>
    show perform evs (performOne s ev) = _
    have h1 : performOne s ev = setH { s.h with pins := s.h.pins.apply ev, trace := s.h.trace ++ [ev] }
        (targetConsume ev s) := targetConsume_setH ev _ s
    have hT : ∀ (evs : List HEvent) (h : HRegs) (s : State),
        targetAll evs (setH h s) = setH h (targetAll evs s) := by
      intro evs
      induction evs with
      | nil => intros; rfl
      | cons e es ih' => intro h s; simp only [targetAll, List.foldl_cons] at *; rw [targetConsume_setH, ih']
    rw [h1, ih, hT]
    simp [setH, targetAll, pinsAfter]

theorem perform_append (a b : List HEvent) (s : State) :
    perform (a ++ b) s = perform b (perform a s) := by simp [perform]

/-! ### Event lists -/

theorem sendBits_eq {w : Nat} (v : BitVec w) (d n : Nat) (value : BitVec 32)
    (hv : ∀ i < n, value.getLsbD i = v.getLsbD i) :
    sendBits value d n = pulses d ((List.range n).map fun i => v.getLsbD (n - 1 - i)) := by
  induction n with
  | zero => rfl
  | succ n ih =>
    rw [sendBits, ih fun i hi => hv i (by omega), List.range_succ_eq_map]
    simp only [List.map_cons, List.map_map, pulses, List.flatMap_cons, hv n (by omega), clockBit]
    congr 2
    refine List.map_congr_left fun i hi => ?_
    have := List.mem_range.mp hi
    simp only [Function.comp_apply]
    congr 1
    omega

/-- `BitSend` of all the bits of a value no wider than 32 (R152). -/
theorem bitSend_eq {w : Nat} (v : BitVec w) (d : Nat) (hw : w ≤ 32) :
    bitSend (v.setWidth 32) w d = sendTrace v d := by
  unfold bitSend sendTrace msbFirst
  rw [sendBits_eq v d w]
  intro i hi
  rw [BitVec.getLsbD_setWidth]
  simp
  omega

theorem frameEvents_eq (f : Icp24) (d : Nat) : frameEvents f d = frameTrace f d := by
  rw [frameEvents, bitSend_eq f d (by omega), frameTrace]

/-- The frame of the model is the frame of the wire (R127). -/
theorem frame_eq (cmd : BitVec 6) (param : BitVec 32) : frame cmd param = wireFrame cmd param.toNat := by
  have h1 : (param <<< 6 ||| cmd.setWidth 32) = param <<< 6 + cmd.setWidth 32 := by
    refine (BitVec.add_eq_or_of_and_eq_zero _ _ ?_).symm
    ext i hi
    simp only [BitVec.getElem_and, BitVec.getElem_shiftLeft, BitVec.getElem_setWidth,
      BitVec.getElem_zero]
    by_cases h6 : i < 6
    · simp [h6]
    · simp [BitVec.getLsbD_of_ge cmd i (by omega)]
  apply BitVec.eq_of_toNat_eq
  rw [frame, h1]
  simp only [wireFrame, BitVec.toNat_setWidth, BitVec.toNat_add, BitVec.toNat_shiftLeft,
    BitVec.toNat_ofNat, Nat.shiftLeft_eq]
  have := cmd.isLt
  omega

theorem sampleBits_eq (v : Byte) (d n : Nat) (hn : n ≤ 8) :
    sampleBits v d n = ((List.range n).map fun i => v.getLsbD (n - 1 - i)).flatMap fun b =>
      ([.delay d, .sample b, .pin .clk true, .delay d, .pin .clk false] : List HEvent) := by
  induction n with
  | zero => rfl
  | succ n ih =>
    rw [sampleBits, ih (by omega), List.range_succ_eq_map]
    simp only [List.map_cons, List.map_map, List.flatMap_cons, List.cons_append, List.nil_append,
      Nat.add_sub_cancel, Nat.sub_zero]
    congr 6
    refine List.map_congr_left fun i hi => ?_
    simp only [Function.comp_apply]
    congr 1
    omega

/-- The events of a byte read are those of the spec (R153). -/
theorem readByteEvents_eq (v : Byte) (e : Bool) (d : Nat) : readByteEvents v e d = readTrace d v e := by
  rw [readByteEvents, sampleBits_eq v d 8 (by omega)]
  rfl

/-- The events of a byte write are those of the spec (R154). -/
theorem writeByteEvents_eq (v : Byte) (e : Bool) (d1 d2 d : Nat) :
    writeByteEvents v e d1 d2 d = writeTrace d1 d2 d v e := by
  rw [writeByteEvents, bitSend_eq v d (by omega), writeTrace]

theorem resetLevels_eq (w : Icp24) (d n : Nat) :
    resetLevels w d n = ((List.range n).map fun i => w.getLsbD (n - 1 - i)).flatMap fun b =>
      ([.pin .rst b, .delay d] : List HEvent) := by
  induction n with
  | zero => rfl
  | succ n ih =>
    rw [resetLevels, ih, List.range_succ_eq_map]
    simp only [List.map_cons, List.map_map, List.flatMap_cons, List.cons_append, List.nil_append,
      Nat.add_sub_cancel, Nat.sub_zero]
    congr 3
    refine List.map_congr_left fun i hi => ?_
    simp only [Function.comp_apply]
    congr 1
    omega

theorem resetSeqEvents_eq (p : Params) (t : Timing) :
    resetSeqEvents p t = resetTrace p.resetSeq t.rstseqBit.toNat := by
  rw [resetSeqEvents, resetLevels_eq]; rfl

theorem entryEvents_eq (t : Timing) (settle : Nat) : entryEvents t settle = entryTrace t settle := by
  rw [entryEvents, bitSend_eq entryBits _ (by omega)]; rfl

theorem exitEvents_eq (t : Timing) : exitEvents t = exitTrace t := by
  rw [exitEvents, bitSend_eq exitBits _ (by omega)]; rfl

theorem exitCoreEvents_eq (p : Params) (t : Timing) : exitCoreEvents p t = exitCoreTrace p t := by
  rw [exitCoreEvents, exitEvents_eq]; rfl

/-! ### Latches and the target over the wire sequences -/

theorem pinsAfter_pulses (d : Nat) (bits : List Bool) (p : Pins) :
    pinsAfter (pulses d bits) p =
      match bits.getLast? with
      | none => p
      | some b => { p with datOut := b, clk := false } := by
  induction bits using List.reverseRecOn with
  | nil => rfl
  | append_singleton bits b ih =>
    rw [pulses, List.flatMap_append, ← pulses, pinsAfter_append, ih]
    simp only [List.getLast?_append, List.getLast?_singleton, Option.some_or]
    cases bits.getLast? <;> rfl

theorem quiet_pulses (d : Nat) (bits : List Bool) : ∀ ev ∈ pulses d bits, ev.quiet = true := by
  intro ev h
  obtain ⟨b, -, hb⟩ := List.mem_flatMap.mp h
  simp only [List.mem_cons, List.not_mem_nil, or_false] at hb
  rcases hb with rfl | rfl | rfl | rfl | rfl <;> rfl

theorem quiet_sendTrace {w : Nat} (v : BitVec w) (d : Nat) : ∀ ev ∈ sendTrace v d, ev.quiet = true := by
  intro ev h
  rcases List.mem_cons.mp h with rfl | h
  · rfl
  · exact quiet_pulses _ _ ev h

theorem msbFirst_getLast? {w : Nat} (v : BitVec (w + 1)) : (msbFirst v).getLast? = some (v.getLsbD 0) := by
  simp [msbFirst, List.range_succ]

theorem pinsAfter_sendTrace {w : Nat} (v : BitVec (w + 1)) (d : Nat) (p : Pins) :
    pinsAfter (sendTrace v d) p = p.sentLast (v.getLsbD 0) := by
  show pinsAfter (pulses d (msbFirst v)) { p with datDir := .output } = _
  rw [pinsAfter_pulses, msbFirst_getLast?]
  rfl

/-- The latches after a frame (R152): DATA at the code's last bit. -/
theorem pinsAfter_frameTrace (f : Icp24) (d : Nat) (p : Pins) :
    pinsAfter (frameTrace f d) p = p.sentLast (f.getLsbD 0) := by
  rw [frameTrace, pinsAfter_append, pinsAfter_sendTrace]
  rfl

theorem targetAll_frameTrace (f : Icp24) (d : Nat) (s : State) :
    targetAll (frameTrace f d) s = targetConsume (.frame f) s := by
  rw [frameTrace, targetAll_append, targetAll_quiet (quiet_sendTrace f d)]
  rfl

/-- The eight sampled bits of a byte read (R153). -/
def sampleTrace (d : Nat) (bits : List Bool) : List HEvent :=
  bits.flatMap fun b => ([.delay d, .sample b, .pin .clk true, .delay d, .pin .clk false] : List HEvent)

/-- The end-flag pulse of a byte read, without its record (R153). -/
def readTail (d : Nat) (e : Bool) : List HEvent :=
  [.dir .output, .delay d, .pin .dat e, .delay d, .pin .clk true, .delay d, .pin .clk false,
    .delay d, .pin .dat false]

/-- The end-flag pulse of a byte write, without its record (R154). -/
def writeTail (d1 d2 : Nat) (e : Bool) : List HEvent :=
  [.pin .dat e, .delay d1, .pin .clk true, .delay d2, .pin .dat false, .pin .clk false]

theorem readTrace_parts (d : Nat) (v : Byte) (e : Bool) :
    readTrace d v e = ([.dir .input, .delay d] ++ sampleTrace d (msbFirst v) ++ readTail d e) ++
      [.rdByte v e] := by
  simp [readTrace, sampleTrace, readTail]

theorem writeTrace_parts (d1 d2 d : Nat) (v : Byte) (e : Bool) :
    writeTrace d1 d2 d v e = (sendTrace v d ++ writeTail d1 d2 e) ++ [.wrByte v e d1 d2] := by
  simp [writeTrace, writeTail]

theorem pinsAfter_sampleTrace (d : Nat) (bits : List Bool) (p : Pins) :
    ∃ c, pinsAfter (sampleTrace d bits) p = { p with clk := c } := by
  induction bits generalizing p with
  | nil => exact ⟨p.clk, rfl⟩
  | cons b bits ih =>
    have : sampleTrace d (b :: bits) =
      [.delay d, .sample b, .pin .clk true, .delay d, .pin .clk false] ++ sampleTrace d bits := rfl
    rw [this, pinsAfter_append]
    obtain ⟨c, hc⟩ := ih (pinsAfter
      [.delay d, .sample b, .pin .clk true, .delay d, .pin .clk false] p)
    exact ⟨c, hc⟩

theorem quiet_sampleTrace (d : Nat) (bits : List Bool) :
    ∀ ev ∈ sampleTrace d bits, ev.quiet = true := by
  intro ev h
  obtain ⟨b, -, hb⟩ := List.mem_flatMap.mp h
  simp only [List.mem_cons, List.not_mem_nil, or_false] at hb
  rcases hb with rfl | rfl | rfl | rfl | rfl <;> rfl

theorem quiet_readTail (d : Nat) (e : Bool) : ∀ ev ∈ readTail d e, ev.quiet = true := by
  intro ev h
  simp only [readTail, List.mem_cons, List.not_mem_nil, or_false] at h
  rcases h with rfl | rfl | rfl | rfl | rfl | rfl | rfl | rfl | rfl <;> rfl

theorem quiet_writeTail (d1 d2 : Nat) (e : Bool) : ∀ ev ∈ writeTail d1 d2 e, ev.quiet = true := by
  intro ev h
  simp only [writeTail, List.mem_cons, List.not_mem_nil, or_false] at h
  rcases h with rfl | rfl | rfl | rfl | rfl | rfl <;> rfl

theorem pinsAfter_readTrace (d : Nat) (v : Byte) (e : Bool) (p : Pins) :
    pinsAfter (readTrace d v e) p = p.rested := by
  rw [readTrace_parts, pinsAfter_append, pinsAfter_append, pinsAfter_append]
  obtain ⟨c, hc⟩ := pinsAfter_sampleTrace d (msbFirst v) (pinsAfter [.dir .input, .delay d] p)
  rw [hc]
  rfl

theorem targetAll_readTrace (d : Nat) (v : Byte) (e : Bool) (s : State) :
    targetAll (readTrace d v e) s = targetConsume (.rdByte v e) s := by
  have h1 : ∀ ev ∈ ([.dir .input, .delay d] ++ sampleTrace d (msbFirst v) ++ readTail d e),
      ev.quiet = true := by
    intro ev hev
    rcases List.mem_append.mp hev with hev | hev
    · rcases List.mem_append.mp hev with hev | hev
      · simp only [List.mem_cons, List.not_mem_nil, or_false] at hev
        rcases hev with rfl | rfl <;> rfl
      · exact quiet_sampleTrace _ _ ev hev
    · exact quiet_readTail _ _ ev hev
  rw [readTrace_parts, targetAll_append, targetAll_quiet h1]
  rfl

theorem pinsAfter_writeTrace (d1 d2 d : Nat) (v : Byte) (e : Bool) (p : Pins) :
    pinsAfter (writeTrace d1 d2 d v e) p = p.rested := by
  rw [writeTrace, pinsAfter_append, pinsAfter_sendTrace]
  rfl

theorem targetAll_writeTrace (d1 d2 d : Nat) (v : Byte) (e : Bool) (s : State) :
    targetAll (writeTrace d1 d2 d v e) s = targetConsume (.wrByte v e d1 d2) s := by
  have h1 : ∀ ev ∈ (sendTrace v d ++ writeTail d1 d2 e), ev.quiet = true := by
    intro ev hev
    rcases List.mem_append.mp hev with hev | hev
    · exact quiet_sendTrace _ _ ev hev
    · exact quiet_writeTail _ _ _ ev hev
  rw [writeTrace_parts, targetAll_append, targetAll_quiet h1]
  rfl

/-! ### The primitives -/

/-- `SendCommand` (R155). -/
theorem sendCommand_eq (cmd : BitVec 6) (param : BitVec 32) (s : State) :
    sendCommand cmd param s =
      setH { s.h with
        pins := s.h.pins.sentLast (cmd.getLsbD 0)
        trace := s.h.trace ++ frameTrace (wireFrame cmd param.toNat) s.h.timing.cmdBit.toNat }
      (targetConsume (.frame (wireFrame cmd param.toNat)) s) := by
  rw [sendCommand, frame_eq, frameEvents_eq, perform_eq, targetAll_frameTrace, pinsAfter_frameTrace]
  congr 3
  rw [← frame_eq]
  simp [frame]

/-- `ReadByte(end)` (R153). -/
theorem readByte_eq (e : Bool) (s : State) :
    readByte e s = ((supplyByte s).1,
      setH { s.h with
        pins := s.h.pins.rested
        trace := s.h.trace ++ readTrace s.h.timing.readBit.toNat (supplyByte s).1 e }
      (targetConsume (.rdByte (supplyByte s).1 e) (supplyByte s).2)) := by
  have hh : (supplyByte s).2.h = s.h := by
    unfold supplyByte
    cases s.targetKind with
    | oracle => rfl
    | reference => cases s.tgt.open <;> rfl
  rw [readByte, readByteEvents_eq, perform_eq, targetAll_readTrace, pinsAfter_readTrace, hh]

/-- `WriteByte(data, end, delay1, delay2)` (R154). -/
theorem writeByte_eq (v : Byte) (e : Bool) (d1 d2 : Nat) (s : State) :
    writeByte v e d1 d2 s =
      setH { s.h with
        pins := s.h.pins.rested
        trace := s.h.trace ++ writeTrace d1 d2 s.h.timing.writeBit.toNat v e }
      (targetConsume (.wrByte v e d1 d2) s) := by
  rw [writeByte, writeByteEvents_eq, perform_eq, targetAll_writeTrace, pinsAfter_writeTrace]

/-! ### What the target can change -/

theorem targetConsume_frame (f : Icp24) (s : State) :
    ∃ tg, targetConsume (.frame f) s = setEnv s.tflash tg s.freeCtr s := by
  unfold targetConsume
  cases s.targetKind with
  | oracle => exact ⟨s.tgt, rfl⟩
  | reference => exact ⟨s.tgt.onFrame f, rfl⟩

theorem targetConsume_read (v : Byte) (e : Bool) (s : State) :
    ∃ tg, targetConsume (.rdByte v e) s = setEnv s.tflash tg s.freeCtr s := by
  unfold targetConsume
  cases s.targetKind with
  | oracle => exact ⟨s.tgt, rfl⟩
  | reference => exact ⟨s.tgt.onRead e, rfl⟩

theorem supplyByte_env (s : State) : ∃ n, (supplyByte s).2 = setEnv s.tflash s.tgt n s := by
  unfold supplyByte
  split
  · split
    · exact ⟨s.freeCtr, rfl⟩
    · exact ⟨s.freeCtr + 1, rfl⟩
  · exact ⟨s.freeCtr + 1, rfl⟩

/-- What a byte write can do to the flash: every cell changed exists. -/
theorem targetWrite_env (c : IcpCmd) (a : Nat) (v : Byte) (s : State) :
    ∃ m tg, targetWrite c a v s = setEnv m tg s.freeCtr s ∧ (s.tflash.wf → m.wf) ∧
      ∀ x ∈ m, x ∈ s.tflash ∨ x.1 < s.params.apromSize + s.params.ldromSize ∨
        (0x30000 ≤ x.1 ∧ x.1 < 0x30005) := by
  have base : ∀ (m : Memory) (tg : Target), (s.tflash.wf → m.wf) → (∀ x ∈ m, x ∈ s.tflash) →
      ∃ m' tg', setEnv m tg s.freeCtr s = setEnv m' tg' s.freeCtr s ∧ (s.tflash.wf → m'.wf) ∧
      ∀ x ∈ m', x ∈ s.tflash ∨ x.1 < s.params.apromSize + s.params.ldromSize ∨
        (0x30000 ≤ x.1 ∧ x.1 < 0x30005) := fun m tg h1 h2 =>
    ⟨m, tg, rfl, h1, fun x hx => .inl (h2 x hx)⟩
  have hid := base s.tflash s.tgt id fun _ h => h
  cases c with
  | readFlash => exact hid
  | readUid => exact hid
  | readCid => exact hid
  | readDeviceId => exact hid
  | writeFlash =>
    simp only [targetWrite, targetProgram]
    split
    · exact hid
    · split
      · rename_i h
        refine ⟨s.tflash.write a (s.tflash.read a &&& v), s.tgt, rfl,
          fun hw => Memory.wf_write hw _ _, fun x hx => ?_⟩
        rcases Memory.mem_write hx with rfl | hx
        · exact .inr h
        · exact .inl hx
      · exact hid
  | pageErase =>
    simp only [targetWrite, targetPageErase]
    split
    · exact hid
    · split
      · exact base (s.tflash.erase _ _) s.tgt (fun hw => Memory.wf_erase hw _ _)
          fun x hx => Memory.mem_erase hx
      · split
        · exact base (s.tflash.erase _ _) s.tgt (fun hw => Memory.wf_erase hw _ _)
            fun x hx => Memory.mem_erase hx
        · exact hid
  | massErase =>
    simp only [targetWrite, targetMassErase]
    split
    · exact base ((s.tflash.erase _ _).erase _ _) { s.tgt with locked := false }
        (fun hw => Memory.wf_erase (Memory.wf_erase hw _ _) _ _)
        fun x hx => Memory.mem_erase (Memory.mem_erase hx)
    · exact hid

theorem targetConsume_write (v : Byte) (e : Bool) (d1 d2 : Nat) (s : State) :
    ∃ m tg, targetConsume (.wrByte v e d1 d2) s = setEnv m tg s.freeCtr s ∧ (s.tflash.wf → m.wf) ∧
      ∀ x ∈ m, x ∈ s.tflash ∨ x.1 < s.params.apromSize + s.params.ldromSize ∨
        (0x30000 ≤ x.1 ∧ x.1 < 0x30005) := by
  unfold targetConsume
  cases s.targetKind with
  | oracle => exact ⟨s.tflash, s.tgt, rfl, id, fun x hx => .inl hx⟩
  | reference =>
    simp only [targetOnWrite]
    cases s.tgt.open with
    | none => exact ⟨s.tflash, s.tgt, rfl, id, fun x hx => .inl hx⟩
    | some c =>
      obtain ⟨m, tg, h1, h2, h3⟩ := targetWrite_env c s.tgt.ptr.toNat v s
      refine ⟨m, tg.advance e, ?_, h2, h3⟩
      simp only [h1]
      rfl

end Sys2Proof.Machine
end

