-- ==== Sys2Proof/Laws/FlashWork.lean ====
section
/-! SUPPORT. What is left of a dispatch that a reset cuts short, said once: only cells machine D can
write have changed. -/

namespace Sys2Proof.Machine

/-- `t` is `s` with only registers of machine D and cells it can write changed. -/
abbrev FlashOnly (s t : State) : Prop :=
  ∃ (d : DRegs) (m : Memory), t = { s with d := d, flash := m } ∧
    Changes (deviceCell s.params) s.flash m ∧ (s.d.iapen = false → m = s.flash)

theorem FlashOnly.refl (s : State) : FlashOnly s s :=
  ⟨s.d, s.flash, rfl, .refl _ _, fun _ => rfl⟩

/-- The bytes of a chunk that are taken are no more than the chunk has. -/
theorem take_nextChunk_length (k : Nat) (data : List Byte) (s : State) :
    ((nextChunk data s).take k).length ≤ chunkLen data.length s.d.curAddr s.d.endAddr := by
  simp only [nextChunk, List.length_take]
  omega

/-- A chunk cut short (R332, R452). -/
theorem chunkPart_cases {s : State} (k : Nat) (data : List Byte) (hp : s.params.Wf)
    (hrun : s.d.terminal = .running) : FlashOnly s (chunkPart k data s) := by
  have hp5 := hp.2.2.2.2.1
  unfold chunkPart
  by_cases h : chunkInAprom (chunkLen data.length s.d.curAddr s.d.endAddr) s = true
  · rw [if_pos h]
    simp only [chunkInAprom, decide_eq_true_eq] at h
    have hl := take_nextChunk_length k data s
    obtain ⟨m, n, hn, hm, hi⟩ := programBytes_cases ((nextChunk data s).take k) hrun (by omega)
    refine ⟨(programBytes ((nextChunk data s).take k) s).d, m, ?_, hm.mono fun x hx => by omega, hi⟩
    rcases hn with ⟨-, he⟩ | ⟨-, he⟩ <;> rw [he] <;> rfl
  · rw [if_neg h]
    exact .refl s

/-- An update cut short (R286, R452). -/
theorem updatePart_cases {s : State} (k : Nat) {start len : Word} (data : List Byte) (hp : s.params.Wf)
    (hrun : s.d.terminal = .running) (hr : updateRangeOk s.params start len = true) :
    FlashOnly s (updatePart k start len data s) := by
  obtain ⟨m, hb, hc, hi, -, hle⟩ := beginUpdate_cases hp hr
  have hp1 := hp.1
  unfold updatePart
  simp only [acceptRange_eq]
  split
  · rename_i hk
    obtain ⟨m', hm', hc', hi'⟩ := eraseFrom_cases (pageBase start).toNat k (acceptRange start len s)
      (by rw [pageBase_toNat]; omega)
    rw [acceptRange_eq] at hm'
    refine ⟨_, m', hm', hc'.mono fun x hx => ?_, hi'⟩
    rw [pageBase_toNat] at hx hk
    unfold pageCount at hk
    omega
  · rw [hb]
    obtain ⟨d', m', he, hc', hi'⟩ := chunkPart_cases (s := { s with flash := m, d := { s.d with
        startAddr := start, endAddr := start + len, curAddr := start, cstate := .updating } })
      (k - pageCount (pageBase start).toNat (start + len).toNat) data hp hrun
    exact ⟨d', m', he, hc.trans hc', fun h => (hi' h).trans (hi h)⟩

/-- A config update cut short (R335, R452). -/
theorem configPart_cases (k : Nat) (c : ConfigBytes) (s : State) :
    FlashOnly s (configPart k c s) := by
  cases k with
  | zero => exact .refl s
  | succ k =>
    obtain ⟨m, hm, hc, hi⟩ := flashErasePage_cases .config 0 s
    obtain ⟨m', hm', hc', hi'⟩ := programConfig_cases ((configList c).take k) 0 (setFlash m s)
    refine ⟨s.d, m', ?_, (hc.mono fun x hx => .inr hx).trans (hc'.mono fun x hx => .inr ?_),
      fun h => (hi' h).trans (hi h)⟩
    · simp only [configPart, hm, hm']
      rfl
    · simp only [List.length_take, configList, List.length_cons, List.length_nil] at hx
      omega

/-- A page erase cut short (R293, R452). -/
theorem pagePart_cases {s : State} (k : Nat) (addr : Word) (hp : s.params.Wf) :
    FlashOnly s (pagePart k addr s) := by
  unfold pagePart
  by_cases ha : addr.toNat < s.params.apromSize
  · rw [if_pos ha]
    cases k with
    | zero => exact .refl s
    | succ k =>
      obtain ⟨m, hm, hc, hi⟩ := flashErasePage_cases .aprom (pageBase addr).toNat s
      refine ⟨s.d, m, by simp only [hm]; rfl, hc.mono fun x hx => ?_, hi⟩
      have := hp.1
      simp only [pageSpan, pageBase_toNat] at hx
      omega
  · rw [if_neg ha]
    exact .refl s

/-- Any command of a running machine D, cut short inside its flash work (R452): registers of machine D
and cells it can write, nothing else. -/
theorem workPart_cases {s : State} (k : Nat) (i : Instr) (hp : s.params.Wf)
    (hrun : s.d.terminal = .running) : FlashOnly s (workPart k i s) := by
  cases i with
  | continuation h data =>
    simp only [workPart]
    split
    · exact chunkPart_cases k data hp hrun
    · exact .refl s
  | updateAprom h start g1 len g2 data =>
    simp only [workPart]
    split
    · rename_i hr
      exact updatePart_cases k data hp hrun hr
    · exact .refl s
  | updateConfig h c rest => exact configPart_cases k c s
  | eraseAll h rest =>
    obtain ⟨m, hm, hc, hi⟩ := eraseFrom_cases 0 (min k (pageCount 0 s.params.apromSize)) s (by decide)
    refine ⟨s.d, m, hm, hc.mono fun x hx => ?_, hi⟩
    have := hp.1
    unfold pageCount at hx
    omega
  | pageErase h addr rest => exact pagePart_cases k addr hp
  | _ => exact .refl s

/-! ### From the first write to the last -/

theorem finishRange_flash (s : State) : (finishRange s).flash = s.flash := by
  rcases finishRange_cases s with ⟨-, h⟩ | ⟨-, h⟩ <;> simp [h]

/-- Before its first write a command has changed no cell. -/
theorem workPart_zero (i : Instr) (s : State) : (workPart 0 i s).flash = s.flash := by
  have hchunk : ∀ data (u : State), (chunkPart 0 data u).flash = u.flash := fun data u => by
    unfold chunkPart
    split <;> simp [programBytes]
  cases i with
  | continuation h data =>
    simp only [workPart]
    split
    · exact hchunk data s
    · rfl
  | updateAprom h start g1 len g2 data =>
    simp only [workPart]
    split
    · unfold updatePart
      simp only
      split
      · rfl
      · rename_i hk
        rw [Nat.zero_sub, hchunk, beginUpdate, erasePages, Nat.eq_zero_of_not_pos hk]
        rfl
    · rfl
  | eraseAll h rest => rw [workPart, Nat.zero_min]; rfl
  | pageErase h addr rest =>
    simp only [workPart, pagePart]
    split <;> rfl
  | _ => rfl

/-- All of a chunk. -/
theorem chunkPart_whole {s t : State} {data : List Byte} (h : programReply data s = .next t) {k : Nat}
    (hk : data.length ≤ k) : (chunkPart k data s).flash = t.flash := by
  unfold programReply at h
  unfold chunkPart
  split at h
  · rename_i hin
    cases h
    rw [if_pos hin, List.take_of_length_le (by simp only [nextChunk, List.length_take]; omega)]
    unfold programChunk
    simp only
    by_cases hr : (programBytes (nextChunk data s) s).d.terminal = .running
    · simp only [if_pos hr, apply_ite State.flash, replyOk_flash, finishRange_flash, ite_self]
    · simp only [if_neg hr]
  · cases h

/-- After its last write a command has changed the cells its meaning changes. -/
theorem workPart_whole {i : Instr} (hd : i.ofD = true) {s t : State} (h : exec i s = .next t) :
    ∃ n, ∀ k, n ≤ k → (workPart k i s).flash = t.flash := by
  cases i with
  | continuation hdr data =>
    refine ⟨data.length, fun k hk => ?_⟩
    simp only [exec, execContinuation] at h
    cases hc : s.d.cstate with
    | updating =>
      rw [hc] at h
      rw [workPart, if_pos hc]
      exact chunkPart_whole h hk
    | dumping =>
      rw [hc] at h
      rw [workPart, if_neg (by rw [hc]; decide)]
      simp only [dumpReply] at h
      split at h
      · cases h
        simp [dumpChunk, finishRange_flash]
      · cases h
    | _ =>
      rw [hc] at h
      cases h
      rw [workPart, if_neg (by rw [hc]; decide)]
      simp
  | updateAprom hdr start g1 len g2 data =>
    simp only [exec, execUpdateAprom] at h
    by_cases hr : updateRangeOk s.params start len = true
    · rw [if_pos hr] at h
      refine ⟨pageCount (pageBase (acceptRange start len s).d.startAddr).toNat
        (acceptRange start len s).d.endAddr.toNat + data.length, fun k hk => ?_⟩
      rw [workPart, if_pos hr, updatePart]
      rw [if_neg (by omega)]
      exact chunkPart_whole h (by omega)
    · rw [if_neg hr] at h
      cases h
      exact ⟨0, fun k _ => by rw [workPart, if_neg hr]; simp⟩
  | updateConfig hdr c rest =>
    cases h
    refine ⟨6, fun k hk => ?_⟩
    match k, hk with
    | k + 6, _ => simp [workPart, configPart, configUpdate, configList]
  | eraseAll hdr rest =>
    cases h
    refine ⟨pageCount 0 s.params.apromSize, fun k hk => ?_⟩
    rw [workPart, Nat.min_eq_right hk]
    simp [eraseAllPages]
  | pageErase hdr addr rest =>
    simp only [exec, execPageErase] at h
    refine ⟨1, fun k hk => ?_⟩
    match k, hk with
    | k + 1, _ =>
      simp only [workPart, pagePart]
      split at h
      · rename_i ha
        cases h
        rw [if_pos ha]
        simp
      · rename_i ha
        cases h
        rw [if_neg ha]
        simp
  | readRom hdr start g1 len rest =>
    refine ⟨0, fun k _ => ?_⟩
    simp only [exec, execReadRom, dumpReply] at h
    split at h
    · split at h
      · cases h
        simp [workPart, dumpChunk, finishRange_flash, setCState, acceptRange]
      · cases h
    · cases h
      simp [workPart]
  | connect hdr rest => cases h; exact ⟨0, fun k _ => by simp [workPart]⟩
  | _ => first | (cases hd; done) | (cases h; exact ⟨0, fun k _ => by simp [workPart]⟩)

end Sys2Proof.Machine
end

