-- ==== Sys2Proof/Laws/HostSequencer.lean ====
section
/-! SUPPORT. What the loops of the host sequencer do, once: the events they record, and what a
target that is ready, or one that is not, makes of them. -/

namespace Sys2Proof.Machine

/-! ### Traces, one byte at a time -/

theorem flatMap_zipIdx_cons {α β : Type} (f : α → Nat → List β) (b : α) (bs : List α) (i : Nat) :
    ((b :: bs).zipIdx i).flatMap (fun p => f p.1 p.2) =
      f b i ++ (bs.zipIdx i).flatMap (fun p => f p.1 (p.2 + 1)) := by
  rw [List.zipIdx_cons, List.flatMap_cons, List.zipIdx_succ, List.flatMap_map]

theorem readsTrace_cons (d : Nat) (b : Byte) (bs : List Byte) :
    readsTrace d (b :: bs) = readTrace d b bs.isEmpty ++ readsTrace d bs := by
  unfold readsTrace
  rw [flatMap_zipIdx_cons fun (v : Byte) i => readTrace d v (i + 1 == (b :: bs).length)]
  congr 1
  · cases bs <;> simp
  · simp

theorem writesTrace_cons (d1 d2 d : Nat) (b : Byte) (bs : List Byte) :
    writesTrace d1 d2 d (b :: bs) = writeTrace d1 d2 d b bs.isEmpty ++ writesTrace d1 d2 d bs := by
  unfold writesTrace
  rw [flatMap_zipIdx_cons fun (v : Byte) i => writeTrace d1 d2 d v (i + 1 == (b :: bs).length)]
  congr 1
  · cases bs <;> simp
  · simp

theorem indexedTrace_cons (base : Nat) (t : Timing) (b : Byte) (bs : List Byte) :
    indexedTrace base t (b :: bs) =
      frameTrace (wireFrame cmdReadUid base) t.cmdBit.toNat ++ readTrace t.readBit.toNat b true ++
        indexedTrace (base + 1) t bs := by
  unfold indexedTrace
  rw [flatMap_zipIdx_cons fun (v : Byte) i =>
    frameTrace (wireFrame cmdReadUid (base + i)) t.cmdBit.toNat ++ readTrace t.readBit.toNat v true]
  simp [Nat.add_assoc, Nat.add_comm 1]

theorem icpBurnt_cons (b : Byte) (bs : List Byte) (a x : Nat) (old : Byte) :
    icpBurnt (b :: bs) a x old = icpBurnt bs (a + 1) x (if a % 2 ^ 18 = x then old &&& b else old) := by
  unfold icpBurnt
  rw [List.zipIdx_cons, List.foldl_cons, List.zipIdx_succ, List.foldl_map]
  simp [Nat.add_assoc, Nat.add_comm 1]

/-! ### Frames and the target -/

theorem wireFrame_cmd (cmd : BitVec 6) (param : Nat) : (wireFrame cmd param).extractLsb' 0 6 = cmd := by
  apply BitVec.eq_of_toNat_eq
  have := cmd.isLt
  simp only [wireFrame, BitVec.extractLsb'_toNat, BitVec.toNat_ofNat, Nat.shiftRight_zero]
  omega

theorem wireFrame_param (cmd : BitVec 6) (param : Nat) :
    ((wireFrame cmd param).extractLsb' 6 18).toNat = param % 2 ^ 18 := by
  have := cmd.isLt
  simp only [wireFrame, BitVec.extractLsb'_toNat, BitVec.toNat_ofNat, Nat.shiftRight_eq_div_pow]
  omega

/-- A target that takes no byte transfer: an oracle, or the reference target with no command open or
with framing lost (R150, R383). -/
def closed (s : State) : Prop := s.targetKind = .oracle ∨ s.tgt.open = none

/-- A frame to a target that is not ready opens nothing (R382). -/
theorem closed_of_not_ready {s : State} (h : ¬ targetReady s) (f : Icp24) :
    closed (targetConsume (.frame f) s) := by
  unfold closed targetConsume
  cases hk : s.targetKind with
  | oracle => exact .inl hk
  | reference =>
    right
    have hr : ¬ s.tgt.ready := fun hr => h ⟨hk, hr⟩
    simp only [setTgt_tgt, Target.onFrame]
    by_cases hp : s.tgt.prog = true
    · rw [if_neg (by simp [hp])]
      by_cases hc : s.tgt.cmd.isSome = true
      · rw [if_pos hc]; simp [Target.open]
      · rw [if_neg hc]
        have hcn : s.tgt.cmd = none := by simpa using hc
        have hd : s.tgt.desync = true := by
          cases hds : s.tgt.desync
          · exact absurd ⟨hp, hcn, hds⟩ hr
          · rfl
        split <;> simp [Target.open, hd]
    · rw [if_pos (by simpa using hp)]
      simp [Target.open, show s.tgt.prog = false by simpa using hp]

/-- A frame to a ready target opens its command at its parameter (R382). -/
theorem frame_ready {s : State} (h : targetReady s) {cmd : BitVec 6} {c : IcpCmd}
    (hc : IcpCmd.ofCode cmd = some c) (param : Nat) :
    ∃ armed p, targetConsume (.frame (wireFrame cmd param)) s =
        setTgt { s.tgt with cmd := some c, ptr := p, armed := armed } s ∧ p.toNat = param % 2 ^ 18 ∧
      armed = (c == .massErase && p == massEraseMagic) := by
  obtain ⟨hk, hp, hn, hd⟩ := h
  refine ⟨_, (wireFrame cmd param).extractLsb' 6 18, ?_, wireFrame_param cmd param, rfl⟩
  unfold targetConsume
  simp only [hk, Target.onFrame, hp, hn, wireFrame_cmd, hc]
  rfl

theorem read_closed {s : State} (h : closed s) (v : Byte) (e : Bool) : targetConsume (.rdByte v e) s = s := by
  unfold targetConsume
  cases hk : s.targetKind with
  | oracle => rfl
  | reference =>
    rcases h with h | h
    · rw [hk] at h; cases h
    · simp only [Target.onRead, h]; rfl

theorem write_closed {s : State} (h : closed s) (v : Byte) (e : Bool) (d1 d2 : Nat) :
    targetConsume (.wrByte v e d1 d2) s = s := by
  unfold targetConsume
  cases hk : s.targetKind with
  | oracle => rfl
  | reference =>
    rcases h with h | h
    · rw [hk] at h; cases h
    · simp only [targetOnWrite, h]

theorem supply_closed {s : State} (h : closed s) :
    supplyByte s = (Config.freeByte s.freeCtr, setEnv s.tflash s.tgt (s.freeCtr + 1) s) := by
  unfold supplyByte
  cases hk : s.targetKind with
  | oracle => simp only [setEnv, hk]
  | reference =>
    rcases h with h | h
    · rw [hk] at h; cases h
    · simp only [h, setEnv, hk]

/-! ### One byte -/

/-- A byte read, whatever the target (R153). -/
theorem readByte_env (e : Bool) (s : State) :
    ∃ v tg n, readByte e s = (v, setH { s.h with
        pins := s.h.pins.rested
        trace := s.h.trace ++ readTrace s.h.timing.readBit.toNat v e } (setEnv s.tflash tg n s)) := by
  obtain ⟨n, hn⟩ := supplyByte_env s
  obtain ⟨tg, ht⟩ := targetConsume_read (supplyByte s).1 e (supplyByte s).2
  refine ⟨(supplyByte s).1, tg, n, ?_⟩
  rw [readByte_eq, ht, hn]
  rfl

/-- A byte read from an open command (R383). -/
theorem readByte_open {s : State} (hk : s.targetKind = .reference) {c : IcpCmd}
    (ho : s.tgt.open = some c) (e : Bool) :
    readByte e s = (targetRead s c s.tgt.ptr.toNat, setH { s.h with
        pins := s.h.pins.rested
        trace := s.h.trace ++
          readTrace s.h.timing.readBit.toNat (targetRead s c s.tgt.ptr.toNat) e }
      (setTgt (s.tgt.advance e) s)) := by
  have hs : supplyByte s = (targetRead s c s.tgt.ptr.toNat, s) := by
    simp only [supplyByte, hk, ho]
  rw [readByte_eq, hs]
  unfold targetConsume
  simp only [hk, Target.onRead, ho]

/-- A byte write to an open command (R383). -/
theorem writeByte_open {s : State} (hk : s.targetKind = .reference) {c : IcpCmd}
    (ho : s.tgt.open = some c) (v : Byte) (e : Bool) (d1 d2 : Nat) :
    writeByte v e d1 d2 s = setH { s.h with
        pins := s.h.pins.rested
        trace := s.h.trace ++ writeTrace d1 d2 s.h.timing.writeBit.toNat v e }
      (setTgt ((targetWrite c s.tgt.ptr.toNat v s).tgt.advance e) (targetWrite c s.tgt.ptr.toNat v s)) := by
  rw [writeByte_eq]
  unfold targetConsume
  simp only [hk, targetOnWrite, ho]

/-! ### Loops -/

/-- A loop of byte reads, whatever the target (R192, R195). -/
theorem readBytes_env (n : Nat) (s : State) :
    ∃ bs tg k, bs.length = n ∧ readBytes n s = (bs, setH { s.h with
        pins := if n = 0 then s.h.pins else s.h.pins.rested
        trace := s.h.trace ++ readsTrace s.h.timing.readBit.toNat bs } (setEnv s.tflash tg k s)) := by
  induction n generalizing s with
  | zero => exact ⟨[], s.tgt, s.freeCtr, rfl, by simp [readBytes, readsTrace, setH, setEnv]⟩
  | succ n ih =>
    obtain ⟨v, tg, k, hv⟩ := readByte_env (n == 0) s
    obtain ⟨bs, tg', k', hl, hb⟩ := ih (readByte (n == 0) s).2
    refine ⟨v :: bs, tg', k', by simp [hl], ?_⟩
    rw [readBytes]
    simp only [hb]
    rw [hv]
    have he : (n == 0) = bs.isEmpty := by
      subst hl
      cases bs <;> simp
    simp only [setH_h, setH_tflash, setEnv_tflash, readsTrace_cons, he, Prod.mk.injEq]
    refine ⟨trivial, ?_⟩
    simp only [setH, setEnv, List.append_assoc]
    by_cases h0 : n = 0
    · simp [h0]
    · simp [h0, Pins.rested]

/-- A loop of byte reads from an open command (R383): consecutive cells, the command closed by the
end flag of the last. -/
theorem readBytes_open (n : Nat) {s : State} (hk : s.targetKind = .reference) {c : IcpCmd}
    (ho : s.tgt.open = some c) (a : Nat) (ha : s.tgt.ptr.toNat = a % 2 ^ 18) :
    ∃ tg, readBytes n s = ((List.range n).map fun k => targetRead s c ((a + k) % 2 ^ 18),
      setH { s.h with
        pins := if n = 0 then s.h.pins else s.h.pins.rested
        trace := s.h.trace ++ readsTrace s.h.timing.readBit.toNat
          ((List.range n).map fun k => targetRead s c ((a + k) % 2 ^ 18)) } (setTgt tg s)) ∧
      (0 < n → tg.cmd = none) ∧ tg.prog = s.tgt.prog ∧ tg.desync = s.tgt.desync ∧
      tg.locked = s.tgt.locked := by
  induction n generalizing s a with
  | zero =>
    refine ⟨s.tgt, ?_, by simp, rfl, rfl, rfl⟩
    simp [readBytes, readsTrace, setH, setTgt]
  | succ n ih =>
    have hro := readByte_open hk ho (n == 0)
    rw [readBytes]
    simp only [hro]
    by_cases hn : n = 0
    · subst hn
      refine ⟨s.tgt.advance true, ?_, fun _ => rfl, rfl, rfl, rfl⟩
      have h1 : (List.range (0 + 1)).map (fun k => targetRead s c ((a + k) % 2 ^ 18)) =
          [targetRead s c (a % 2 ^ 18)] := rfl
      simp only [beq_self_eq_true, readBytes, ha, h1, readsTrace_cons, Prod.mk.injEq]
      refine ⟨trivial, ?_⟩
      simp [readsTrace]
    · have hb : (n == 0) = false := by simpa using hn
      have ho' : (s.tgt.advance false).open = some c := by
        unfold Target.open at ho ⊢
        simpa [Target.advance] using ho
      have hp' : (s.tgt.advance false).ptr.toNat = (a + 1) % 2 ^ 18 := by
        simp [Target.advance, ha]
      obtain ⟨tg, h1, h2, h3, h4, h5⟩ := ih (s := setH { s.h with
        pins := s.h.pins.rested
        trace := s.h.trace ++
          readTrace s.h.timing.readBit.toNat (targetRead s c s.tgt.ptr.toNat) false }
        (setTgt (s.tgt.advance false) s)) hk ho' (a + 1) hp'
      have hr : ∀ x, targetRead (setH { s.h with
          pins := s.h.pins.rested
          trace := s.h.trace ++
            readTrace s.h.timing.readBit.toNat (targetRead s c s.tgt.ptr.toNat) false }
          (setTgt (s.tgt.advance false) s)) c x = targetRead s c x := fun x => by cases c <;> rfl
      simp only [hr] at h1
      refine ⟨tg, ?_, fun _ => h2 (by omega), h3, h4, h5⟩
      rw [hb, h1]
      have hlist : (List.range (n + 1)).map (fun k => targetRead s c ((a + k) % 2 ^ 18)) =
          targetRead s c s.tgt.ptr.toNat ::
            (List.range n).map fun k => targetRead s c ((a + 1 + k) % 2 ^ 18) := by
        rw [List.range_succ_eq_map, List.map_cons, List.map_map, ha]
        congr 1
        refine List.map_congr_left fun k _ => ?_
        simp only [Function.comp_apply]
        congr 2
        omega
      rw [hlist, readsTrace_cons]
      have hemp : ((List.range n).map fun k => targetRead s c ((a + 1 + k) % 2 ^ 18)).isEmpty = false := by
        simpa using hn
      rw [hemp]
      simp only [Prod.mk.injEq, true_and]
      simp only [setH, setTgt, hn, if_false, List.append_assoc]
      simp [Pins.rested]

/-- A loop of byte writes, whatever the target (R196). -/
theorem writeBytes_env (d1 d2 : Nat) (bs : List Byte) (s : State) :
    ∃ m tg, writeBytes d1 d2 bs s = setH { s.h with
        pins := if bs = [] then s.h.pins else s.h.pins.rested
        trace := s.h.trace ++ writesTrace d1 d2 s.h.timing.writeBit.toNat bs } (setEnv m tg s.freeCtr s) ∧
      (s.tflash.wf → m.wf) ∧ ∀ x ∈ m, x ∈ s.tflash ∨ x.1 < s.params.apromSize + s.params.ldromSize ∨
        (0x30000 ≤ x.1 ∧ x.1 < 0x30005) := by
  induction bs generalizing s with
  | nil =>
    refine ⟨s.tflash, s.tgt, by simp [writeBytes, writesTrace, setH, setEnv], id, fun x hx => .inl hx⟩
  | cons v vs ih =>
    obtain ⟨m, tg, h1, h2, h3⟩ := targetConsume_write v vs.isEmpty d1 d2 s
    obtain ⟨m', tg', h1', h2', h3'⟩ := ih (writeByte v vs.isEmpty d1 d2 s)
    have hw := writeByte_eq v vs.isEmpty d1 d2 s
    rw [h1] at hw
    refine ⟨m', tg', ?_, fun h => ?_, fun x hx => ?_⟩
    · rw [writeBytes, h1', hw]
      simp only [setH_h, writesTrace_cons]
      simp only [setH, setEnv, List.append_assoc]
      by_cases h0 : vs = []
      · simp [h0]
      · simp [h0, Pins.rested]
    · exact h2' (by rw [hw]; exact h2 h)
    · rcases h3' x hx with hx | hx
      · rw [hw] at hx
        exact h3 x hx
      · rw [hw] at hx
        exact .inr hx

/-- A loop of byte writes to a target that takes none: nothing but the wire. -/
theorem writeBytes_closed (d1 d2 : Nat) (bs : List Byte) {s : State} (hc : closed s) :
    writeBytes d1 d2 bs s = setH { s.h with
        pins := if bs = [] then s.h.pins else s.h.pins.rested
        trace := s.h.trace ++ writesTrace d1 d2 s.h.timing.writeBit.toNat bs } s := by
  induction bs generalizing s with
  | nil => simp [writeBytes, writesTrace, setH]
  | cons v vs ih =>
    have hw := writeByte_eq v vs.isEmpty d1 d2 s
    rw [write_closed hc] at hw
    have ih' := ih (s := writeByte v vs.isEmpty d1 d2 s) (by rw [hw]; exact hc)
    rw [writeBytes, ih', hw]
    simp only [setH_h, setH_setH, writesTrace_cons, List.append_assoc]
    by_cases h0 : vs = []
    · simp [h0]
    · simp [h0, Pins.rested]

/-- A loop of byte writes to an open WRITE_FLASH of an unlocked target (R388): each byte is ANDed into
its cell if the cell exists; the end flag of the last closes the command. -/
theorem writeBytes_open (d1 d2 : Nat) (bs : List Byte) {s : State} (hk : s.targetKind = .reference)
    (ho : s.tgt.open = some .writeFlash) (hl : s.tgt.locked = false) (hw : s.tflash.wf) (a : Nat)
    (ha : s.tgt.ptr.toNat = a % 2 ^ 18) :
    ∃ m tg, writeBytes d1 d2 bs s = setH { s.h with
        pins := if bs = [] then s.h.pins else s.h.pins.rested
        trace := s.h.trace ++ writesTrace d1 d2 s.h.timing.writeBit.toNat bs } (setEnv m tg s.freeCtr s) ∧
      m.wf ∧ (∀ x, m.read x = if x < s.params.apromSize + s.params.ldromSize ∨
          (0x30000 ≤ x ∧ x < 0x30005) then icpBurnt bs a x (s.tflash.read x) else s.tflash.read x) ∧
      (bs ≠ [] → tg.cmd = none) ∧ tg.prog = s.tgt.prog ∧ tg.desync = s.tgt.desync ∧
      tg.locked = s.tgt.locked := by
  induction bs generalizing s a with
  | nil =>
    refine ⟨s.tflash, s.tgt, by simp [writeBytes, writesTrace, setH, setEnv], hw, fun x => ?_, by simp,
      rfl, rfl, rfl⟩
    simp [icpBurnt]
  | cons v vs ih =>
    have hwb := writeByte_open hk ho v vs.isEmpty d1 d2
    obtain ⟨m1, hm1, hw1, hr1⟩ : ∃ m1 : Memory, targetWrite .writeFlash s.tgt.ptr.toNat v s = setTFlash m1 s ∧
        m1.wf ∧ ∀ x, m1.read x = if (x < s.params.apromSize + s.params.ldromSize ∨
          (0x30000 ≤ x ∧ x < 0x30005)) ∧ a % 2 ^ 18 = x then s.tflash.read x &&& v
          else s.tflash.read x := by
      simp only [targetWrite, targetProgram, hl, ha]
      by_cases hx : a % 2 ^ 18 < flashSize s.params ∨ (cfgAddr ≤ a % 2 ^ 18 ∧ a % 2 ^ 18 < cfgAddr + 5)
      · refine ⟨_, by rw [if_neg (by simp), if_pos hx], Memory.wf_write hw _ _, fun x => ?_⟩
        rw [Memory.read_write hw]
        by_cases hxa : x = a % 2 ^ 18
        · subst hxa
          rw [if_pos rfl, if_pos ⟨hx, rfl⟩]
        · rw [if_neg hxa, if_neg fun h => hxa h.2.symm]
      · refine ⟨s.tflash, by rw [if_neg (by simp), if_neg hx]; rfl, hw, fun x => ?_⟩
        rw [if_neg]
        rintro ⟨h1, rfl⟩
        exact hx h1
    rw [hm1] at hwb
    simp only [setTFlash_tgt] at hwb
    have hbase : (∀ x, m1.read x = if x < s.params.apromSize + s.params.ldromSize ∨
        (0x30000 ≤ x ∧ x < 0x30005) then (if a % 2 ^ 18 = x then s.tflash.read x &&& v
          else s.tflash.read x) else s.tflash.read x) := fun x => by
      rw [hr1]
      by_cases h1 : x < s.params.apromSize + s.params.ldromSize ∨ (0x30000 ≤ x ∧ x < 0x30005)
      · simp [h1]
      · simp [h1]
    by_cases hv : vs = []
    · subst hv
      refine ⟨m1, s.tgt.advance true, ?_, hw1, fun x => ?_, fun _ => rfl, rfl, rfl, rfl⟩
      · rw [writeBytes, hwb, writeBytes, writesTrace_cons]
        simp [writesTrace, setH, setEnv, setTgt, setTFlash]
      · rw [hbase]
        simp [icpBurnt]
    · have he : vs.isEmpty = false := by simpa using hv
      rw [he] at hwb
      have ho' : (s.tgt.advance false).open = some .writeFlash := by
        unfold Target.open at ho ⊢
        simpa [Target.advance] using ho
      have hp' : (s.tgt.advance false).ptr.toNat = (a + 1) % 2 ^ 18 := by
        simp [Target.advance, ha]
      obtain ⟨m, tg, h1, h2, h3, h4, h5, h6, h7⟩ := ih (s := writeByte v false d1 d2 s)
        (by rw [hwb]; exact hk) (by rw [hwb]; exact ho') (by rw [hwb]; exact hl)
        (by rw [hwb]; exact hw1) (a + 1) (by rw [hwb]; exact hp')
      refine ⟨m, tg, ?_, h2, fun x => ?_, fun _ => h4 hv, ?_, ?_, ?_⟩
      · rw [writeBytes, he, h1, hwb]
        simp only [setH_h, writesTrace_cons, he]
        simp only [setH, setEnv, setTgt, setTFlash, hv, List.append_assoc, if_false]
        simp [Pins.rested]
      · have hpa : (writeByte v false d1 d2 s).params = s.params := by rw [hwb]; rfl
        have hfl : (writeByte v false d1 d2 s).tflash = m1 := by rw [hwb]; rfl
        by_cases hx : x < s.params.apromSize + s.params.ldromSize ∨ (0x30000 ≤ x ∧ x < 0x30005)
        · have e := (h3 x).trans (if_pos (by rw [hpa]; exact hx))
          rw [e, hfl, hbase, if_pos hx, if_pos hx, icpBurnt_cons]
        · have e := (h3 x).trans (if_neg (by rw [hpa]; exact hx))
          rw [e, hfl, hbase, if_neg hx, if_neg hx]
      · rw [h5, hwb]; rfl
      · rw [h6, hwb]; rfl
      · rw [h7, hwb]; rfl

end Sys2Proof.Machine
end

