-- ==== Sys2Proof/Laws/HostOps.lean ====
section
/-! SUPPORT. What any operation of machine H can do, said once: the frame of every meaning that is not
a UART packet's. -/

namespace Sys2Proof.Machine

/-- The latches that every operation leaves as it found them at rest (R152 to R154, R162). -/
abbrev Pins.atRest (p : Pins) : Prop := p.clk = false ∧ p.trig = false ∧ p.datDir = .output

/-- What the wire can have done in `t`, from `s` on. -/
structure WireEffect (s t : State) : Prop where
  /-- it reaches machine H, the flash and the target only -/
  rest : t = { s with h := t.h, tflash := t.tflash, tgt := t.tgt, freeCtr := t.freeCtr }
  istate : t.h.istate = s.h.istate
  owned : t.h.pinsOwned = s.h.pinsOwned
  timing : t.h.timing = s.h.timing
  ret : t.h.ret = s.h.ret
  /-- the trace only grows -/
  trace : ∃ evs, t.h.trace = s.h.trace ++ evs
  pins : s.h.pins.atRest → t.h.pins.atRest
  tgt : s.tgt.Inv → t.tgt.Inv
  flashWf : s.tflash.wf → t.tflash.wf
  cells : ∀ c ∈ t.tflash, c ∈ s.tflash ∨ cellExists s.params c.1

theorem WireEffect.refl (s : State) : WireEffect s s where
  rest := rfl
  istate := rfl
  owned := rfl
  timing := rfl
  ret := rfl
  trace := ⟨[], by simp⟩
  pins := id
  tgt := id
  flashWf := id
  cells _ h := .inl h

theorem WireEffect.params_eq {s t : State} (h : WireEffect s t) : t.params = s.params := by rw [h.rest]

theorem WireEffect.trans {s t u : State} (h : WireEffect s t) (h' : WireEffect t u) :
    WireEffect s u where
  rest := by rw [h'.rest, h.rest]
  istate := h'.istate.trans h.istate
  owned := h'.owned.trans h.owned
  timing := h'.timing.trans h.timing
  ret := h'.ret.trans h.ret
  trace := by
    obtain ⟨e, he⟩ := h.trace
    obtain ⟨e', he'⟩ := h'.trace
    exact ⟨e ++ e', by rw [he', he, List.append_assoc]⟩
  pins hp := h'.pins (h.pins hp)
  tgt ht := h'.tgt (h.tgt ht)
  flashWf hw := h'.flashWf (h.flashWf hw)
  cells c hc := by
    rcases h'.cells c hc with hc | hc
    · exact h.cells c hc
    · rw [h.params_eq] at hc
      exact .inr hc

/-! ### The target -/

theorem Target.advance_inv {t : Target} (h : t.Inv) (e : Bool) : (t.advance e).Inv := by
  intro hp
  have := h hp
  unfold Target.advance
  cases e <;> simp [this]

theorem Target.onRead_inv {t : Target} (h : t.Inv) (e : Bool) : (t.onRead e).Inv := by
  unfold Target.onRead
  split
  · exact Target.advance_inv h e
  · exact h

theorem Target.onFrame_inv {t : Target} (h : t.Inv) (f : Icp24) : (t.onFrame f).Inv := by
  unfold Target.onFrame
  split
  · exact h
  · rename_i hp
    have hp' : t.prog = true := by simpa using hp
    split
    · intro h'
      exact absurd (hp'.symm.trans h') (by decide)
    · split
      · intro h'
        exact absurd (hp'.symm.trans h') (by decide)
      · intro h'
        exact absurd (hp'.symm.trans h') (by decide)

theorem targetWrite_inv (c : IcpCmd) (a : Nat) (v : Byte) {s : State} (h : s.tgt.Inv) :
    (targetWrite c a v s).tgt.Inv := by
  cases c with
  | writeFlash =>
    simp only [targetWrite, targetProgram]
    split
    · exact h
    · split <;> exact h
  | pageErase =>
    simp only [targetWrite, targetPageErase]
    split
    · exact h
    · split
      · exact h
      · split <;> exact h
  | massErase =>
    simp only [targetWrite, targetMassErase]
    split <;> exact h
  | readFlash => exact h
  | readUid => exact h
  | readCid => exact h
  | readDeviceId => exact h

/-- What the target does on any event (R382, R383), as an effect. -/
theorem targetConsume_effect (ev : HEvent) (s : State) : WireEffect s (targetConsume ev s) := by
  have htgt : ∀ tg : Target, (s.tgt.Inv → tg.Inv) → WireEffect s (setTgt tg s) := fun tg h =>
    { WireEffect.refl s with rest := rfl, tgt := h }
  cases hk : s.targetKind with
  | oracle =>
    have : targetConsume ev s = s := by
      unfold targetConsume
      rw [hk]
    rw [this]
    exact .refl s
  | reference =>
    cases ev with
    | entry =>
      unfold targetConsume
      simp only [hk, targetEntry]
      exact htgt _ fun _ _ => rfl
    | exit =>
      unfold targetConsume
      simp only [hk]
      exact htgt _ fun _ _ => rfl
    | frame f =>
      unfold targetConsume
      simp only [hk]
      exact htgt _ fun h => Target.onFrame_inv h f
    | rdByte v e =>
      unfold targetConsume
      simp only [hk]
      exact htgt _ fun h => Target.onRead_inv h e
    | wrByte v e d1 d2 =>
      obtain ⟨m, tg, hm, hw, hc⟩ := targetConsume_write v e d1 d2 s
      have ht : s.tgt.Inv → tg.Inv := by
        intro h
        have : tg = (targetConsume (.wrByte v e d1 d2) s).tgt := by rw [hm]; rfl
        rw [this]
        unfold targetConsume
        simp only [hk, targetOnWrite]
        split
        · exact Target.advance_inv (targetWrite_inv _ _ _ h) e
        · exact h
      rw [hm]
      exact { WireEffect.refl s with rest := rfl, tgt := ht, flashWf := hw, cells := hc }
    | pin l v => rw [targetConsume_quiet rfl]; exact .refl s
    | dir d => rw [targetConsume_quiet rfl]; exact .refl s
    | delay t => rw [targetConsume_quiet rfl]; exact .refl s
    | sample v => rw [targetConsume_quiet rfl]; exact .refl s
    | acquire b => rw [targetConsume_quiet rfl]; exact .refl s
    | release b => rw [targetConsume_quiet rfl]; exact .refl s
    | resetSeq => rw [targetConsume_quiet rfl]; exact .refl s

theorem targetAll_effect (evs : List HEvent) (s : State) : WireEffect s (targetAll evs s) := by
  induction evs generalizing s with
  | nil => exact .refl s
  | cons ev evs ih => exact (targetConsume_effect ev s).trans (ih _)

theorem WireEffect.setH {s t : State} (h : WireEffect s t) {p : Pins} {evs : List HEvent}
    (hp : s.h.pins.atRest → p.atRest) :
    WireEffect s (setH { s.h with pins := p, trace := s.h.trace ++ evs } t) :=
  have hr := h.rest
  { rest := by rw [hr]; rfl, istate := rfl, owned := rfl, timing := rfl, ret := rfl
    trace := ⟨evs, rfl⟩, pins := hp, tgt := h.tgt, flashWf := h.flashWf, cells := h.cells }

/-- Performing events that leave the latches at rest. -/
theorem perform_effect (evs : List HEvent) (s : State)
    (hp : s.h.pins.atRest → (pinsAfter evs s.h.pins).atRest) : WireEffect s (perform evs s) := by
  rw [perform_eq]
  exact (targetAll_effect evs s).setH hp

/-! ### Primitives and loops -/

theorem sendCommand_effect (cmd : BitVec 6) (param : BitVec 32) (s : State) :
    WireEffect s (sendCommand cmd param s) := by
  rw [sendCommand_eq]
  exact (targetConsume_effect _ s).setH fun h => ⟨rfl, h.2.1, rfl⟩

theorem readByte_effect (e : Bool) (s : State) : WireEffect s (readByte e s).2 := by
  rw [readByte_eq]
  obtain ⟨n, hn⟩ := supplyByte_env s
  have h1 : WireEffect s (supplyByte s).2 := by
    rw [hn]
    exact { WireEffect.refl s with rest := rfl }
  exact (h1.trans (targetConsume_effect _ _)).setH fun h => ⟨rfl, h.2.1, rfl⟩

theorem writeByte_effect (v : Byte) (e : Bool) (d1 d2 : Nat) (s : State) :
    WireEffect s (writeByte v e d1 d2 s) := by
  rw [writeByte_eq]
  exact (targetConsume_effect _ s).setH fun h => ⟨rfl, h.2.1, rfl⟩

theorem readBytes_effect (n : Nat) (s : State) : WireEffect s (readBytes n s).2 := by
  induction n generalizing s with
  | zero => exact .refl s
  | succ n ih => exact (readByte_effect _ s).trans (ih _)

theorem writeBytes_effect (d1 d2 : Nat) (bs : List Byte) (s : State) :
    WireEffect s (writeBytes d1 d2 bs s) := by
  induction bs generalizing s with
  | nil => exact .refl s
  | cons v vs ih => exact (writeByte_effect _ _ _ _ s).trans (ih _)

theorem readIndexed_effect (i n : Nat) (s : State) : WireEffect s (readIndexed i n s).2 := by
  induction n generalizing s i with
  | zero => exact .refl s
  | succ n ih => exact ((sendCommand_effect _ _ s).trans (readByte_effect _ _)).trans (ih _ _)

theorem readFlash_effect (addr : BitVec 32) (len : Nat) (s : State) :
    WireEffect s (readFlash addr len s).2 :=
  (sendCommand_effect _ _ s).trans (readBytes_effect _ _)

theorem writeFlash_effect (addr : BitVec 32) (data : List Byte) (s : State) :
    WireEffect s (writeFlash addr data s) :=
  (sendCommand_effect _ _ s).trans (writeBytes_effect _ _ _ _)

theorem massErase_effect (s : State) : WireEffect s (massErase s) :=
  (sendCommand_effect _ _ s).trans (writeByte_effect _ _ _ _ _)

theorem pageEraseHost_effect (addr : BitVec 32) (s : State) : WireEffect s (pageEraseHost addr s) :=
  (sendCommand_effect _ _ s).trans (writeByte_effect _ _ _ _ _)

theorem readDeviceId_effect (s : State) : WireEffect s (readDeviceId s).2 := by
  simp only [readDeviceId]
  exact ((sendCommand_effect _ _ s).trans (readByte_effect _ _)).trans (readByte_effect _ _)

theorem verifyFlash_effect (addr : BitVec 32) (len : Nat) (expected : List Byte) (s : State) :
    WireEffect s (verifyFlash addr len expected s).2 := readFlash_effect addr len s

theorem pageErases_effect (a n : Nat) (s : State) : WireEffect s (pageErases a n s) := by
  induction n generalizing s a with
  | zero => exact .refl s
  | succ n ih => exact (pageEraseHost_effect _ s).trans (ih _ _)

theorem eraseRegion_effect (addr : BitVec 32) (len : Nat) (s : State) :
    WireEffect s (eraseRegion addr len s) := pageErases_effect _ _ s

/-! ### Latches after the patterns -/

theorem pinsAfter_entryEvents (t : Timing) (d : Nat) (p : Pins) :
    pinsAfter (entryEvents t d) p = p.sentLast true := by
  have hb : (0x5AA503 : Icp24).getLsbD 0 = true := by decide
  rw [entryEvents_eq, entryTrace, pinsAfter_append, pinsAfter_sendTrace, hb]
  rfl

theorem pinsAfter_exitEvents (t : Timing) (p : Pins) :
    pinsAfter (exitEvents t) p = p.sentLast false := by
  have hb : (0x0F78F0 : Icp24).getLsbD 0 = false := by decide
  rw [exitEvents_eq, exitTrace, pinsAfter_append, pinsAfter_sendTrace, hb]
  rfl

theorem pinsAfter_resetLevels (w : Icp24) (d n : Nat) (p : Pins) :
    pinsAfter (resetLevels w d (n + 1)) p = { p with rst := w.getLsbD 0 } := by
  induction n generalizing p with
  | zero => rfl
  | succ n ih =>
    show pinsAfter (resetLevels w d (n + 1)) { p with rst := w.getLsbD (n + 1) } = _
    rw [ih]

theorem pinsAfter_resetSeqEvents (q : Params) (t : Timing) (p : Pins) :
    pinsAfter (resetSeqEvents q t) p = { p with rst := q.resetSeq.getLsbD 0 } := by
  rw [resetSeqEvents, pinsAfter_append, pinsAfter_resetLevels]
  rfl

theorem pinsAfter_enterModeEvents (r : Bool) (q : Params) (t : Timing) (p : Pins) :
    pinsAfter (enterModeEvents r q t) p =
      { p with datOut := true, datDir := .output, clk := false,
               rst := if r then q.resetSeq.getLsbD 0 else q.rstAssertLevel } := by
  rw [enterModeEvents, pinsAfter_append, pinsAfter_entryEvents]
  cases r with
  | true =>
    simp only [if_true]
    rw [pinsAfter_resetSeqEvents]
    rfl
  | false => rfl

theorem pinsAfter_exitCoreEvents (q : Params) (t : Timing) (p : Pins) :
    pinsAfter (exitCoreEvents q t) p =
      { p with datOut := false, datDir := .output, clk := false, rst := q.rstAssertLevel } := by
  rw [exitCoreEvents, pinsAfter_append, pinsAfter_exitEvents]
  rfl

/-! ### Every operation -/

/-- What an operation of machine H, or a unit of its wire, can have done in `t`. -/
structure OpEffect (s t : State) : Prop where
  rest : t = { s with h := t.h, tflash := t.tflash, tgt := t.tgt, freeCtr := t.freeCtr }
  timing : t.h.timing = s.h.timing
  trace : ∃ evs, t.h.trace = s.h.trace ++ evs
  inv : s.h.Inv → t.h.Inv
  tgt : s.tgt.Inv → t.tgt.Inv
  flashWf : s.tflash.wf → t.tflash.wf
  cells : ∀ c ∈ t.tflash, c ∈ s.tflash ∨ cellExists s.params c.1

/-- An operation that leaves the engine's state as it is. -/
theorem WireEffect.returns {s t : State} (h : WireEffect s t) (st : Status) (r : RetData) :
    OpEffect s (returns st r t) :=
  have hr := h.rest
  { rest := by rw [hr]; rfl, timing := h.timing, trace := h.trace
    inv := fun hi => by
      refine ⟨?_, ?_, h.pins ⟨hi.2.2.1, hi.2.2.2.1, hi.2.2.2.2⟩⟩
      · rw [returns_h]
        show t.h.istate = .entered → t.h.pinsOwned = true
        rw [h.istate, h.owned]
        exact hi.1
      · rw [returns_h]
        show t.h.pinsOwned = true → t.h.istate ≠ .uninitialized
        rw [h.istate, h.owned]
        exact hi.2.1
    tgt := h.tgt, flashWf := h.flashWf, cells := h.cells }

/-- An operation that ends with the engine in a given state. -/
theorem OpEffect.moved {s t : State} (h : WireEffect s t) (i : IState) (owned : Bool)
    (hi : i = .entered → owned = true) (ho : owned = true → i ≠ .uninitialized) (st : Status)
    (r : RetData) :
    OpEffect s { t with h := { t.h with istate := i, pinsOwned := owned, ret := some (st, r) } } :=
  have hr := h.rest
  { rest := by rw [hr], timing := h.timing, trace := h.trace
    inv := fun hv => ⟨hi, ho, h.pins ⟨hv.2.2.1, hv.2.2.2.1, hv.2.2.2.2⟩⟩
    tgt := h.tgt, flashWf := h.flashWf, cells := h.cells }

theorem gated_effect {ok : Bool} {body : State → State} {s : State}
    (h : ok = true → OpEffect s (body s)) : ∃ t, gated ok body s = .next t ∧ OpEffect s t := by
  unfold gated
  cases ok with
  | true => exact ⟨_, if_pos rfl, h rfl⟩
  | false => exact ⟨_, if_neg (by decide), (WireEffect.refl s).returns _ _⟩

theorem unlessEmpty_effect {len : Nat} {body : State → State} {s : State}
    (h : OpEffect s (body s)) : OpEffect s (unlessEmpty len body s) := by
  unfold unlessEmpty
  split
  · exact (WireEffect.refl s).returns _ _
  · exact h

theorem lockStep_effect {s : State} (u : ConfigBytes) (lock : Bool) (r : (Status × RetData) × State)
    (h : WireEffect s r.2) : OpEffect s (lockStep u lock r) := by
  unfold lockStep
  split
  · cases lock with
    | true => exact (h.trans (writeFlash_effect _ _ _)).returns _ _
    | false => exact h.returns _ _
  · exact h.returns _ _

/-- Every operation of machine H goes on, and has the effect of an operation. -/
theorem exec_operation {i : Instr} (hd : i.ofD = false) (s : State) :
    ∃ t, exec i s = .next t ∧ OpEffect s t := by
  have hframe : ∀ cmd param, ∃ t, gated (enteredOwned s) (sendFrame cmd param) s = .next t ∧
      OpEffect s t := fun cmd param =>
    gated_effect fun _ => (sendCommand_effect _ _ s).returns _ _
  cases i with
  | icpReadFlash param => exact hframe _ _
  | icpReadUid param => exact hframe _ _
  | icpReadCid param => exact hframe _ _
  | icpReadDeviceId param => exact hframe _ _
  | icpWriteFlash param => exact hframe _ _
  | icpPageErase param => exact hframe _ _
  | icpMassErase param => exact hframe _ _
  | icpEntryPattern =>
    simp only [exec, execIcpEntryPattern]
    refine gated_effect fun _ => (perform_effect _ s fun h => ?_).returns _ _
    rw [pinsAfter_entryEvents]
    exact ⟨rfl, h.2.1, rfl⟩
  | icpExitPattern =>
    simp only [exec, execIcpExitPattern]
    refine gated_effect fun _ => (perform_effect _ s fun h => ?_).returns _ _
    rw [pinsAfter_exitEvents]
    exact ⟨rfl, h.2.1, rfl⟩
  | icpResetSeq =>
    simp only [exec, execIcpResetSeq]
    refine gated_effect fun _ => (perform_effect _ s fun h => ?_).returns _ _
    rw [pinsAfter_resetSeqEvents]
    exact h
  | icpByteRead e =>
    simp only [exec, execIcpByteRead]
    exact gated_effect fun _ => (readByte_effect _ s).returns _ _
  | icpByteWrite v e d1 d2 =>
    simp only [exec, execIcpByteWrite]
    exact gated_effect fun _ => (writeByte_effect _ _ _ _ s).returns _ _
  | hostInit r =>
    simp only [exec, execHostInit]
    refine gated_effect fun _ => ?_
    unfold initBody
    have h1 : WireEffect s (perform [.acquire s.pinGrant] s) := perform_effect _ s id
    split
    · have h2 : WireEffect { perform [.acquire s.pinGrant] s with
          h := { (perform [.acquire s.pinGrant] s).h with pinsOwned := true } }
          (perform (initPinEvents s.params ++ enterModeEvents r s.params s.h.timing)
            (setOwned true (perform [.acquire s.pinGrant] s))) := by
        refine perform_effect _ (setOwned true _) fun h => ?_
        rw [pinsAfter_append, pinsAfter_enterModeEvents]
        exact ⟨rfl, rfl, rfl⟩
      have hr1 := h1.rest
      have hr2 := h2.rest
      exact
        { rest := by
            show _ = _
            rw [returns, setIState, hr2, hr1]
          timing := by
            show (perform _ (setOwned true _)).h.timing = _
            rw [h2.timing]; exact h1.timing
          trace := by
            obtain ⟨e, he⟩ := h1.trace
            obtain ⟨e', he'⟩ := h2.trace
            exact ⟨e ++ e', by
              show (perform _ (setOwned true _)).h.trace = _
              rw [he', ← List.append_assoc, ← he]⟩
          inv := fun hi => ⟨fun _ => by
              show (perform _ (setOwned true _)).h.pinsOwned = true
              rw [h2.owned], fun _ => (fun h => nomatch h),
            h2.pins (h1.pins ⟨hi.2.2.1, hi.2.2.2.1, hi.2.2.2.2⟩)⟩
          tgt := fun ht => h2.tgt (h1.tgt ht)
          flashWf := fun hw => h2.flashWf (h1.flashWf hw)
          cells := fun c hc => by
            rcases h2.cells c hc with hc | hc
            · exact h1.cells c hc
            · exact .inr (by rw [← h1.params_eq]; exact hc) }
    · exact h1.returns _ _
  | hostExit =>
    simp only [exec, execHostExit]
    refine gated_effect fun hg => ?_
    have ho : s.h.pinsOwned = true := by
      unfold enteredOwned at hg
      simp only [Bool.and_eq_true] at hg
      exact hg.2
    have h := perform_effect (exitCoreEvents s.params s.h.timing ++
      [.pin .rst (rstReleased s.params)]) s fun h => by
        rw [pinsAfter_append, pinsAfter_exitCoreEvents]
        exact ⟨rfl, h.2.1, rfl⟩
    revert h
    generalize perform _ s = t
    intro h
    have hm := OpEffect.moved h .exited s.h.pinsOwned (fun h => nomatch h) (fun _ h => nomatch h)
      .ok (.bytes [])
    rw [← h.owned] at hm
    exact hm
  | hostDeinit leave =>
    simp only [exec, execHostDeinit]
    refine ⟨_, rfl, ?_⟩
    split
    · have h := perform_effect (deinitEvents leave s) s fun h => by
        rw [deinitEvents, pinsAfter_append]
        by_cases he : s.h.istate = .entered
        · rw [if_pos he, pinsAfter_exitCoreEvents]
          exact ⟨rfl, h.2.1, rfl⟩
        · rw [if_neg he]
          exact h
      revert h
      generalize perform _ s = t
      intro h
      exact OpEffect.moved h .exited false (fun h => nomatch h) (fun h => nomatch h) .ok (.bytes [])
    · exact (WireEffect.refl s).returns _ _
  | hostReentry d1 d2 d3 =>
    simp only [exec, execHostReentry]
    refine gated_effect fun hg => ?_
    have h := perform_effect (reentryEvents d1 d2 d3 s.params s.h.timing) s fun h => by
      unfold reentryEvents
      rw [pinsAfter_append, pinsAfter_append, pinsAfter_entryEvents]
      refine ⟨rfl, ?_, rfl⟩
      split <;> exact h.2.1
    revert h
    generalize perform _ s = t
    intro h
    have hm := OpEffect.moved h .entered s.h.pinsOwned (fun _ => hg) (fun _ h => nomatch h)
      .ok (.bytes [])
    rw [← h.owned] at hm
    exact hm
  | hostReentryGlitch d1 d2 d3 d4 =>
    simp only [exec, execHostReentryGlitch]
    refine gated_effect fun hg => ?_
    have h := perform_effect (glitchEvents d1 d2 d3 d4 s.params s.h.timing) s fun h => by
      unfold glitchEvents
      rw [pinsAfter_append, pinsAfter_entryEvents]
      exact ⟨rfl, rfl, rfl⟩
    revert h
    generalize perform _ s = t
    intro h
    have hm := OpEffect.moved h .entered s.h.pinsOwned (fun _ => hg) (fun _ h => nomatch h)
      .ok (.bytes [])
    rw [← h.owned] at hm
    exact hm
  | hostReadDeviceId =>
    simp only [exec, execHostReadDeviceId]
    exact gated_effect fun _ => (readDeviceId_effect s).returns _ _
  | hostCheckDeviceId =>
    simp only [exec, execHostCheckDeviceId]
    exact gated_effect fun _ => (readDeviceId_effect s).returns _ _
  | hostReadCid =>
    simp only [exec, execHostReadCid]
    exact gated_effect fun _ =>
      ((sendCommand_effect _ _ s).trans (readBytes_effect _ _)).returns _ _
  | hostReadUid =>
    simp only [exec, execHostReadUid]
    exact gated_effect fun _ => (readIndexed_effect _ _ s).returns _ _
  | hostReadUcid =>
    simp only [exec, execHostReadUcid]
    exact gated_effect fun _ => (readIndexed_effect _ _ s).returns _ _
  | hostReadFlash a n =>
    simp only [exec, execHostReadFlash]
    exact gated_effect fun _ => unlessEmpty_effect ((readFlash_effect a n s).returns _ _)
  | hostWriteFlash a n d =>
    simp only [exec, execHostWriteFlash]
    exact gated_effect fun _ => unlessEmpty_effect ((writeFlash_effect a _ s).returns _ _)
  | hostMassErase =>
    simp only [exec, execHostMassErase]
    exact gated_effect fun _ => (massErase_effect s).returns _ _
  | hostPageErase a =>
    simp only [exec, execHostPageErase]
    exact gated_effect fun _ => (pageEraseHost_effect a s).returns _ _
  | hostVerifyFlash a n d =>
    simp only [exec, execHostVerifyFlash]
    exact gated_effect fun _ => unlessEmpty_effect ((verifyFlash_effect a n d s).returns _ _)
  | hostReadConfig =>
    simp only [exec, execHostReadConfig]
    exact gated_effect fun _ => (readFlash_effect _ _ s).returns _ _
  | hostWriteConfig c l =>
    simp only [exec, execHostWriteConfig]
    exact gated_effect fun _ => lockStep_effect _ _ _
      (((pageEraseHost_effect _ s).trans (writeFlash_effect _ _ _)).trans (verifyFlash_effect _ _ _ _))
  | hostProgramRegion a n d =>
    simp only [exec, execHostProgramRegion]
    exact gated_effect fun _ => unlessEmpty_effect
      ((((eraseRegion_effect a n s).trans (writeFlash_effect _ _ _)).trans
        (verifyFlash_effect _ _ _ _)).returns _ _)
  | configDecode b => exact ⟨_, rfl, (WireEffect.refl s).returns _ _⟩
  | configEncode f => exact ⟨_, rfl, (WireEffect.refl s).returns _ _⟩
  | _ => cases hd

end Sys2Proof.Machine
end

