-- ==== Sys2Proof/Laws/HostFlash.lean ====
section
/-! SUPPORT. The flash operations of machine H in full: the events they record, whatever answers, and
what a reference target that is ready for a frame makes of them. -/

namespace Sys2Proof.Machine

/-- `s` once byte transfers have recorded `evs` and left the environment so. -/
def wired (evs : List HEvent) (m : Memory) (tg : Target) (n : Nat) (s : State) : State :=
  setH { s.h with pins := s.h.pins.rested, trace := s.h.trace ++ evs } (setEnv m tg n s)

@[simp] theorem wired_params (evs : List HEvent) (m : Memory) (tg : Target) (n : Nat) (s : State) :
    (wired evs m tg n s).params = s.params := rfl
@[simp] theorem wired_ident (evs : List HEvent) (m : Memory) (tg : Target) (n : Nat) (s : State) :
    (wired evs m tg n s).ident = s.ident := rfl
@[simp] theorem wired_d (evs : List HEvent) (m : Memory) (tg : Target) (n : Nat) (s : State) :
    (wired evs m tg n s).d = s.d := rfl
@[simp] theorem wired_h (evs : List HEvent) (m : Memory) (tg : Target) (n : Nat) (s : State) :
    (wired evs m tg n s).h =
      { s.h with pins := s.h.pins.rested, trace := s.h.trace ++ evs } := rfl
@[simp] theorem wired_tflash (evs : List HEvent) (m : Memory) (tg : Target) (n : Nat) (s : State) :
    (wired evs m tg n s).tflash = m := rfl
@[simp] theorem wired_flash (evs : List HEvent) (m : Memory) (tg : Target) (n : Nat) (s : State) :
    (wired evs m tg n s).flash = s.flash := rfl
@[simp] theorem wired_worn (evs : List HEvent) (m : Memory) (tg : Target) (n : Nat) (s : State) :
    (wired evs m tg n s).worn = s.worn := rfl
@[simp] theorem wired_targetKind (evs : List HEvent) (m : Memory) (tg : Target) (n : Nat) (s : State) :
    (wired evs m tg n s).targetKind = s.targetKind := rfl
@[simp] theorem wired_tgt (evs : List HEvent) (m : Memory) (tg : Target) (n : Nat) (s : State) :
    (wired evs m tg n s).tgt = tg := rfl
@[simp] theorem wired_pinGrant (evs : List HEvent) (m : Memory) (tg : Target) (n : Nat) (s : State) :
    (wired evs m tg n s).pinGrant = s.pinGrant := rfl
@[simp] theorem wired_freeCtr (evs : List HEvent) (m : Memory) (tg : Target) (n : Nat) (s : State) :
    (wired evs m tg n s).freeCtr = n := rfl
@[simp] theorem wired_sched (evs : List HEvent) (m : Memory) (tg : Target) (n : Nat) (s : State) :
    (wired evs m tg n s).sched = s.sched := rfl

/-- One thing after another on the wire. -/
theorem wired_wired (e e' : List HEvent) (m m' : Memory) (tg tg' : Target) (n n' : Nat) (s : State) :
    wired e' m' tg' n' (wired e m tg n s) = wired (e ++ e') m' tg' n' s := by
  simp only [wired, setH, setEnv, List.append_assoc, Pins.rested]

theorem returns_wired (st : Status) (r : RetData) (evs : List HEvent) (m : Memory) (tg : Target)
    (n : Nat) (s : State) :
    returns st r (wired evs m tg n s) = wireDone evs s.h.pins.rested (st, r) m tg n s := rfl

/-- Gating in a state that admits the operation. -/
theorem gated_of {ok : Bool} (h : ok = true) (body : State → State) (s : State) :
    gated ok body s = .next (body s) := if_pos h

/-- Gating in a state that does not. -/
theorem gated_not {ok : Bool} (h : ok = false) (body : State → State) (s : State) :
    gated ok body s = .next (answered (.eBadState, .bytes []) s) := by
  subst h; rfl

theorem enteredOwned_of {s : State} (h1 : s.h.istate = .entered) (h2 : s.h.pinsOwned = true) :
    enteredOwned s = true := by
  simp [enteredOwned, h1, h2]

/-! ### A frame, then bytes -/

theorem sendCommand_env (cmd : BitVec 6) (param : BitVec 32) (s : State) :
    ∃ tg, sendCommand cmd param s = setH { s.h with
        pins := s.h.pins.sentLast (cmd.getLsbD 0)
        trace := s.h.trace ++ frameTrace (wireFrame cmd param.toNat) s.h.timing.cmdBit.toNat }
      (setTgt tg s) := by
  obtain ⟨tg, ht⟩ := targetConsume_frame (wireFrame cmd param.toNat) s
  exact ⟨tg, by rw [sendCommand_eq, ht]; rfl⟩

/-- A frame to a ready target (R382): its command is open at the low 18 bits of the parameter. -/
theorem sendCommand_ready {s : State} (h : targetReady s) {cmd : BitVec 6} {c : IcpCmd}
    (hc : IcpCmd.ofCode cmd = some c) (param : BitVec 32) :
    ∃ tg, sendCommand cmd param s = setH { s.h with
        pins := s.h.pins.sentLast (cmd.getLsbD 0)
        trace := s.h.trace ++ frameTrace (wireFrame cmd param.toNat) s.h.timing.cmdBit.toNat }
      (setTgt tg s) ∧ tg.open = some c ∧ tg.ptr.toNat = param.toNat % 2 ^ 18 ∧
      tg.prog = true ∧ tg.desync = false ∧ tg.locked = s.tgt.locked ∧
      tg.armed = (c == .massErase && tg.ptr == massEraseMagic) := by
  obtain ⟨armed, p, hf, hp, ha⟩ := frame_ready h hc param.toNat
  refine ⟨{ s.tgt with cmd := some c, ptr := p, armed := armed }, by rw [sendCommand_eq, hf], ?_, hp,
    h.2.1, h.2.2.2, rfl, ha⟩
  simp [Target.open, h.2.1, h.2.2.2]

/-- `read_flash` of at least one byte (R195), whatever answers; and from a ready target (R383, R384,
R387). -/
theorem readFlash_spec (addr : BitVec 32) (len : Nat) (hl : 0 < len) (s : State) :
    ∃ (bs : List Byte) (tg : Target) (n : Nat), bs.length = len ∧
      readFlash addr len s = (bs, wired (readFlashTrace s.h.timing addr.toNat bs) s.tflash tg n s) ∧
      (targetReady s → bs = icpBytes s addr.toNat len ∧ tg.ready ∧ tg.locked = s.tgt.locked ∧
        n = s.freeCtr) := by
  by_cases hr : targetReady s
  · obtain ⟨tg, ht, ho, hp, hpr, hd, hk, -⟩ := sendCommand_ready hr (cmd := cmdReadFlash) rfl addr
    obtain ⟨tg', h1, h2, h3, h4, h5⟩ := readBytes_open len (s := sendCommand cmdReadFlash addr s)
      (by rw [ht]; exact hr.1) (by rw [ht]; exact ho) addr.toNat (by rw [ht]; exact hp)
    have hcell : ∀ x, targetRead (sendCommand cmdReadFlash addr s) .readFlash x = icpCell s x := by
      intro x
      rw [ht]
      simp only [targetRead, icpCell, readFlashCell, setH_tgt, setTgt_tgt, hk, setH_params,
        setTgt_params, setH_tflash, setTgt_tflash, flashSize, cfgAddr]
      by_cases hx : x < s.params.apromSize + s.params.ldromSize <;>
        by_cases hx' : 0x30000 ≤ x ∧ x < 0x30005 <;> simp [hx, hx']
    simp only [hcell] at h1
    refine ⟨icpBytes s addr.toNat len, tg', s.freeCtr, by simp [icpBytes], ?_, fun _ =>
      ⟨rfl, ⟨?_, h2 hl, ?_⟩, ?_, rfl⟩⟩
    · rw [readFlash, h1, ht]
      simp only [wired, setH, setEnv, setTgt, readFlashTrace, List.append_assoc,
        if_neg (Nat.ne_of_gt hl), Pins.rested, Pins.sentLast, icpBytes]
    · rw [h3, ht]; exact hpr
    · rw [h4, ht]; exact hd
    · rw [h5, ht]; exact hk
  · obtain ⟨tg, ht⟩ := sendCommand_env cmdReadFlash addr s
    obtain ⟨bs, tg', n, hlen, hb⟩ := readBytes_env len (sendCommand cmdReadFlash addr s)
    refine ⟨bs, tg', n, hlen, ?_, fun h => absurd h hr⟩
    rw [readFlash, hb, ht]
    simp only [wired, setH, setEnv, setTgt, readFlashTrace, List.append_assoc,
      if_neg (Nat.ne_of_gt hl), Pins.rested, Pins.sentLast]

/-- A loop of byte writes to an open WRITE_FLASH (R383, R384): the end flag of the last closes the
command, and a locked target changes no cell. -/
theorem writeBytes_opened (d1 d2 : Nat) (bs : List Byte) {s : State} (hk : s.targetKind = .reference)
    (ho : s.tgt.open = some .writeFlash) (hne : bs ≠ []) :
    ∃ m tg, writeBytes d1 d2 bs s = setH { s.h with
        pins := if bs = [] then s.h.pins else s.h.pins.rested
        trace := s.h.trace ++ writesTrace d1 d2 s.h.timing.writeBit.toNat bs } (setEnv m tg s.freeCtr s) ∧
      tg.cmd = none ∧ tg.prog = s.tgt.prog ∧ tg.desync = s.tgt.desync ∧
      tg.locked = s.tgt.locked ∧ (s.tgt.locked = true → m = s.tflash) := by
  induction bs generalizing s with
  | nil => exact absurd rfl hne
  | cons v vs ih =>
    have hwb := writeByte_open hk ho v vs.isEmpty d1 d2
    obtain ⟨m1, htw, hm1⟩ : ∃ m1, targetWrite .writeFlash s.tgt.ptr.toNat v s = setTFlash m1 s ∧
        (s.tgt.locked = true → m1 = s.tflash) := by
      simp only [targetWrite, targetProgram]
      split
      · exact ⟨s.tflash, rfl, fun _ => rfl⟩
      · rename_i h
        split
        · exact ⟨_, rfl, fun h' => absurd h' h⟩
        · exact ⟨s.tflash, rfl, fun _ => rfl⟩
    rw [htw] at hwb
    by_cases hv : vs = []
    · subst hv
      refine ⟨m1, s.tgt.advance true, ?_, rfl, rfl, rfl, rfl, hm1⟩
      rw [writeBytes, hwb, writeBytes, writesTrace_cons]
      simp [writesTrace, setH, setEnv, setTgt, setTFlash]
    · have he : vs.isEmpty = false := by simpa using hv
      rw [he] at hwb
      obtain ⟨m, tg', h1, h2, h3, h4, h5, h6⟩ := ih (s := writeByte v false d1 d2 s)
        (by rw [hwb]; exact hk)
        (by rw [hwb]
            unfold Target.open at ho ⊢
            simpa [Target.advance] using ho) hv
      refine ⟨m, tg', ?_, h2, by rw [h3, hwb]; rfl, by rw [h4, hwb]; rfl, by rw [h5, hwb]; rfl,
        fun hl => ?_⟩
      · rw [writeBytes, he, h1, hwb]
        simp only [setH_h, writesTrace_cons, he]
        simp only [setH, setEnv, setTgt, setTFlash, hv, List.append_assoc, if_false]
        simp [Pins.rested]
      · rw [h6 (by rw [hwb]; exact hl), hwb]
        exact hm1 hl

/-- `write_flash` of at least one byte (R196), whatever answers; and on a ready target (R384, R388). -/
theorem writeFlash_spec (addr : BitVec 32) (data : List Byte) (hne : data ≠ []) (s : State) :
    ∃ (m : Memory) (tg : Target),
      writeFlash addr data s =
        wired (writeFlashTrace s.h.timing addr.toNat data) m tg s.freeCtr s ∧
      (s.tflash.wf → m.wf) ∧
      (targetReady s → tg.ready ∧ tg.locked = s.tgt.locked) ∧
      (targetReady s → s.tgt.locked = false → s.tflash.wf → ∀ x, m.read x =
        if cellExists s.params x then icpBurnt data addr.toNat x (s.tflash.read x)
        else s.tflash.read x) ∧
      (targetReady s → s.tgt.locked = true → m = s.tflash) ∧ (¬ targetReady s → m = s.tflash) := by
  have hw : ∀ (u : State) (tg : Target), u = setH { s.h with
        pins := s.h.pins.sentLast (cmdWriteFlash.getLsbD 0)
        trace := s.h.trace ++ frameTrace (wireFrame cmdWriteFlash addr.toNat) s.h.timing.cmdBit.toNat }
      (setTgt tg s) → ∀ (m : Memory) (tg' : Target), setH { u.h with
        pins := if data = [] then u.h.pins else u.h.pins.rested
        trace := u.h.trace ++ writesTrace s.h.timing.program.toNat s.h.timing.writeHold.toNat
          u.h.timing.writeBit.toNat data } (setEnv m tg' u.freeCtr u) =
      wired (writeFlashTrace s.h.timing addr.toNat data) m tg' s.freeCtr s := by
    intro u tg hu m tg'
    subst hu
    simp only [wired, setH, setEnv, setTgt, writeFlashTrace, List.append_assoc, if_neg hne,
      Pins.rested, Pins.sentLast]
  by_cases hr : targetReady s
  · obtain ⟨tg, ht, ho, hp, hpr, hd, hk, -⟩ := sendCommand_ready hr (cmd := cmdWriteFlash) rfl addr
    obtain ⟨m, tg', h1, h2, h3, h4, h5, h6⟩ := writeBytes_opened s.h.timing.program.toNat
      s.h.timing.writeHold.toNat data (s := sendCommand cmdWriteFlash addr s)
      (by rw [ht]; exact hr.1) (by rw [ht]; exact ho) hne
    have hfl : (sendCommand cmdWriteFlash addr s).tflash = s.tflash := by rw [ht]; rfl
    have hpa : (sendCommand cmdWriteFlash addr s).params = s.params := by rw [ht]; rfl
    have hcells := (writeBytes_effect s.h.timing.program.toNat s.h.timing.writeHold.toNat data
      (sendCommand cmdWriteFlash addr s)).flashWf
    rw [h1, hfl] at hcells
    refine ⟨m, tg', by rw [writeFlash, h1]; exact hw _ tg ht _ _, hcells, fun _ =>
      ⟨⟨by rw [h3, ht]; exact hpr, h2, by rw [h4, ht]; exact hd⟩, by rw [h5, ht]; exact hk⟩,
      fun _ hl hwf x => ?_, fun _ hl => ?_, fun h => absurd hr h⟩
    · obtain ⟨m', tg'', e1, -, e3, -⟩ := writeBytes_open s.h.timing.program.toNat
        s.h.timing.writeHold.toNat data (s := sendCommand cmdWriteFlash addr s)
        (by rw [ht]; exact hr.1) (by rw [ht]; exact ho) (by rw [ht]; exact hk.trans hl)
        (by rw [ht]; exact hwf) addr.toNat (by rw [ht]; exact hp)
      have hm : m = m' := congrArg State.tflash (h1.symm.trans e1)
      rw [hm, e3, hpa, hfl]
    · rw [h6 (by rw [ht]; exact hk.trans hl), hfl]
  · obtain ⟨tg, ht⟩ := sendCommand_env cmdWriteFlash addr s
    have hc : closed (sendCommand cmdWriteFlash addr s) := by
      rw [sendCommand_eq]
      exact closed_of_not_ready hr _
    have h1 := writeBytes_closed s.h.timing.program.toNat s.h.timing.writeHold.toNat data hc
    refine ⟨s.tflash, tg, ?_, id, fun h => absurd h hr, fun h => absurd h hr, fun h => absurd h hr,
      fun _ => rfl⟩
    rw [writeFlash, h1, ← hw _ tg ht s.tflash tg, ht]
    rfl

/-! ### Erases -/

/-- One erasing byte write to an open command that is not a write (R383, R385, R386). -/
theorem eraseByte_open {s : State} (hk : s.targetKind = .reference) {c : IcpCmd}
    (ho : s.tgt.open = some c) (d1 d2 : Nat) :
    writeByte 0xFF true d1 d2 s = setH { s.h with
        pins := s.h.pins.rested
        trace := s.h.trace ++ writeTrace d1 d2 s.h.timing.writeBit.toNat 0xFF true }
      (setTgt ((targetWrite c s.tgt.ptr.toNat 0xFF s).tgt.advance true)
        (targetWrite c s.tgt.ptr.toNat 0xFF s)) :=
  writeByte_open hk ho 0xFF true d1 d2

/-- `page_erase` (R198), whatever answers; and on a ready target (R384, R385). -/
theorem pageEraseHost_spec (addr : BitVec 32) (s : State) :
    ∃ (m : Memory) (tg : Target),
      pageEraseHost addr s = wired (pageEraseTrace s.h.timing addr.toNat) m tg s.freeCtr s ∧
      (s.tflash.wf → m.wf) ∧
      (targetReady s → tg.ready ∧ tg.locked = s.tgt.locked) ∧
      (targetReady s → s.tgt.locked = false → ∀ a, m.read a =
        if inIcpPage s.params (addr.toNat % 2 ^ 18) a then 0xFF else s.tflash.read a) ∧
      (targetReady s → s.tgt.locked = true → m = s.tflash) ∧ (¬ targetReady s → m = s.tflash) := by
  by_cases hr : targetReady s
  · obtain ⟨tg, ht, ho, hp, hpr, hd, hk, -⟩ := sendCommand_ready hr (cmd := cmdPageErase) rfl addr
    have hb := eraseByte_open (s := sendCommand cmdPageErase addr s) (by rw [ht]; exact hr.1)
      (by rw [ht]; exact ho) s.h.timing.pageErase.toNat s.h.timing.pageEraseHold.toNat
    obtain ⟨m, hm, hw, hu, hl⟩ : ∃ m, targetWrite .pageErase
        (sendCommand cmdPageErase addr s).tgt.ptr.toNat 0xFF (sendCommand cmdPageErase addr s) =
          setTFlash m (sendCommand cmdPageErase addr s) ∧ (s.tflash.wf → m.wf) ∧
        (s.tgt.locked = false → ∀ a, m.read a =
          if inIcpPage s.params (addr.toNat % 2 ^ 18) a then 0xFF else s.tflash.read a) ∧
        (s.tgt.locked = true → m = s.tflash) := by
      rw [ht]
      simp only [targetWrite, targetPageErase, setH_tgt, setTgt_tgt, hk, hp, setH_params,
        setTgt_params, flashSize, cfgAddr, setH_tflash, setTgt_tflash]
      split
      · rename_i h
        exact ⟨s.tflash, rfl, id, fun h' => absurd (h.symm.trans h') (by decide), fun _ => rfl⟩
      · rename_i h
        split
        · refine ⟨_, rfl, fun hw => Memory.wf_erase hw _ _, fun _ a => ?_, fun h' => absurd h' h⟩
          rw [Memory.read_erase]
          by_cases ha : inIcpPage s.params (addr.toNat % 2 ^ 18) a
          · rw [if_pos ha, if_pos (by unfold inIcpPage at ha; omega)]
            rfl
          · rw [if_neg ha, if_neg (by unfold inIcpPage at ha; omega)]
        · split
          · refine ⟨_, rfl, fun hw => Memory.wf_erase hw _ _, fun _ a => ?_, fun h' => absurd h' h⟩
            rw [Memory.read_erase]
            by_cases ha : inIcpPage s.params (addr.toNat % 2 ^ 18) a
            · rw [if_pos ha, if_pos (by unfold inIcpPage at ha; omega)]
              rfl
            · rw [if_neg ha, if_neg (by unfold inIcpPage at ha; omega)]
          · refine ⟨s.tflash, rfl, id, fun _ a => ?_, fun _ => rfl⟩
            rw [if_neg (by unfold inIcpPage; omega)]
    rw [hm] at hb
    refine ⟨m, tg.advance true, ?_, hw, fun _ => ⟨⟨hpr, rfl, hd⟩, hk⟩, fun _ => hu, fun _ => hl,
      fun h => absurd hr h⟩
    rw [pageEraseHost, hb, ht]
    simp only [wired, setH, setEnv, setTgt, setTFlash, pageEraseTrace, List.append_assoc, Pins.rested,
      Pins.sentLast]
  · obtain ⟨tg, ht⟩ := sendCommand_env cmdPageErase addr s
    have hc : closed (sendCommand cmdPageErase addr s) := by
      rw [sendCommand_eq]
      exact closed_of_not_ready hr _
    refine ⟨s.tflash, tg, ?_, id, fun h => absurd h hr, fun h => absurd h hr, fun h => absurd h hr,
      fun _ => rfl⟩
    rw [pageEraseHost, writeByte_eq, write_closed hc, ht]
    simp only [wired, setH, setEnv, setTgt, pageEraseTrace, List.append_assoc, Pins.rested,
      Pins.sentLast]

/-- The events of `mass_erase` (R197). -/
abbrev massEraseTrace (t : Timing) : List HEvent :=
  frameTrace (wireFrame 0x26 0x3A5A5) t.cmdBit.toNat ++
    writeTrace t.massErase.toNat t.massEraseHold.toNat t.writeBit.toNat 0xFF true

/-- `mass_erase` (R197), whatever answers; and on a ready target (R386). -/
theorem massErase_spec (s : State) :
    ∃ (m : Memory) (tg : Target),
      massErase s = wired (massEraseTrace s.h.timing) m tg s.freeCtr s ∧
      (s.tflash.wf → m.wf) ∧
      (targetReady s → tg.ready ∧ tg.locked = false ∧ ∀ a, m.read a =
        if cellExists s.params a then 0xFF else s.tflash.read a) ∧
      (¬ targetReady s → m = s.tflash) := by
  by_cases hr : targetReady s
  · obtain ⟨tg, ht, ho, hp, hpr, hd, hk, ha⟩ := sendCommand_ready hr (cmd := cmdMassErase) rfl
      massEraseParam
    have harm : tg.armed = true := by
      have hpt : tg.ptr = massEraseMagic := BitVec.eq_of_toNat_eq hp
      rw [ha, hpt]
      rfl
    have hb := eraseByte_open (s := sendCommand cmdMassErase massEraseParam s) (by rw [ht]; exact hr.1)
      (by rw [ht]; exact ho) s.h.timing.massErase.toNat s.h.timing.massEraseHold.toNat
    have hm : targetWrite .massErase (sendCommand cmdMassErase massEraseParam s).tgt.ptr.toNat 0xFF
        (sendCommand cmdMassErase massEraseParam s) = setTgt { tg with locked := false }
          (setTFlash ((s.tflash.erase 0 (flashSize s.params)).erase cfgAddr 5)
            (sendCommand cmdMassErase massEraseParam s)) := by
      rw [ht]
      simp only [targetWrite, targetMassErase, setH_tgt, setTgt_tgt, harm, if_true, setH_params,
        setTgt_params, setH_tflash, setTgt_tflash]
    rw [hm] at hb
    refine ⟨(s.tflash.erase 0 (flashSize s.params)).erase cfgAddr 5, ({ tg with locked := false } : Target).advance true, ?_,
      fun hw => Memory.wf_erase (Memory.wf_erase hw _ _) _ _, fun _ => ⟨⟨hpr, rfl, hd⟩, rfl, fun a => ?_⟩, fun h => absurd hr h⟩
    · rw [massErase, hb, ht]
      simp only [wired, setH, setEnv, setTgt, setTFlash, massEraseTrace, List.append_assoc,
        Pins.rested, Pins.sentLast]
      rfl
    · rw [Memory.read_erase, Memory.read_erase]
      by_cases h1 : cfgAddr ≤ a ∧ a < cfgAddr + 5
      · rw [if_pos h1, if_pos (.inr h1)]
        rfl
      · rw [if_neg h1]
        by_cases h2 : 0 ≤ a ∧ a < 0 + flashSize s.params
        · rw [if_pos h2, if_pos (.inl (by have := h2.2; unfold flashSize at this; omega))]
          rfl
        · rw [if_neg h2, if_neg]
          rintro (h | h)
          · exact h2 ⟨Nat.zero_le _, by unfold flashSize; omega⟩
          · exact h1 h
  · obtain ⟨tg, ht⟩ := sendCommand_env cmdMassErase massEraseParam s
    have hc : closed (sendCommand cmdMassErase massEraseParam s) := by
      rw [sendCommand_eq]
      exact closed_of_not_ready hr _
    refine ⟨s.tflash, tg, ?_, id, fun h => absurd h hr, fun _ => rfl⟩
    rw [massErase, writeByte_eq, write_closed hc, ht]
    simp only [wired, setH, setEnv, setTgt, massEraseTrace, List.append_assoc, Pins.rested,
      Pins.sentLast]
    rfl

/-! ### A target that is not ready for a frame -/

/-- A target that takes no byte transfer and no frame (R382, R383). -/
def dead (s : State) : Prop := closed s ∧ ¬ targetReady s

/-- A target that is not ready loses its framing or ignores the frame (R382). -/
theorem dead_frame {s : State} (h : ¬ targetReady s) (f : Icp24) :
    dead (targetConsume (.frame f) s) := by
  refine ⟨closed_of_not_ready h f, fun hr => h ?_⟩
  unfold targetConsume at hr
  cases hk : s.targetKind with
  | oracle =>
    simp only [hk] at hr
    exact hr
  | reference =>
    simp only [hk] at hr
    obtain ⟨-, hp, hn, hd⟩ := hr
    simp only [setTgt_tgt, Target.onFrame] at hp hn hd
    refine ⟨hk, ?_⟩
    split at hp
    · rename_i hq
      rw [hp] at hq
      cases hq
    · rename_i hq
      rw [if_neg hq] at hn hd
      split at hn
      · rename_i hc
        rw [hn] at hc
        cases hc
      · rename_i hc
        rw [if_neg hc] at hd
        split at hd
        · rename_i he
          simp only [he] at hn
          cases hn
        · cases hd

theorem sendCommand_dead {s : State} (h : ¬ targetReady s) (cmd : BitVec 6) (param : BitVec 32) :
    dead (sendCommand cmd param s) ∧ (sendCommand cmd param s).tflash = s.tflash := by
  obtain ⟨tg, ht⟩ := sendCommand_env cmd param s
  refine ⟨?_, by rw [ht]; rfl⟩
  rw [sendCommand_eq]
  exact dead_frame h _

theorem writeByte_dead {s : State} (h : dead s) (v : Byte) (e : Bool) (d1 d2 : Nat) :
    dead (writeByte v e d1 d2 s) ∧ (writeByte v e d1 d2 s).tflash = s.tflash := by
  rw [writeByte_eq, write_closed h.1]
  exact ⟨h, rfl⟩

theorem readByte_dead {s : State} (h : dead s) (e : Bool) : dead (readByte e s).2 := by
  have hs := supply_closed h.1
  rw [readByte_eq, hs, read_closed (s := setEnv s.tflash s.tgt (s.freeCtr + 1) s) h.1]
  exact h

theorem readBytes_dead (n : Nat) {s : State} (h : dead s) : dead (readBytes n s).2 := by
  induction n generalizing s with
  | zero => exact h
  | succ n ih => exact ih (readByte_dead h _)

theorem writeBytes_dead (d1 d2 : Nat) (bs : List Byte) {s : State} (h : dead s) :
    dead (writeBytes d1 d2 bs s) := by
  induction bs generalizing s with
  | nil => exact h
  | cons v vs ih => exact ih (writeByte_dead h v _ d1 d2).1

/-- Every flash operation leaves a target that was not ready not ready. -/
theorem readFlash_dead {s : State} (h : ¬ targetReady s) (addr : BitVec 32) (len : Nat) :
    ¬ targetReady (readFlash addr len s).2 :=
  (readBytes_dead len (sendCommand_dead h _ addr).1).2

theorem writeFlash_dead {s : State} (h : ¬ targetReady s) (addr : BitVec 32) (data : List Byte) :
    ¬ targetReady (writeFlash addr data s) :=
  (writeBytes_dead _ _ data (sendCommand_dead h _ addr).1).2

theorem pageEraseHost_dead {s : State} (h : ¬ targetReady s) (addr : BitVec 32) :
    ¬ targetReady (pageEraseHost addr s) := by
  unfold pageEraseHost
  exact (writeByte_dead (sendCommand_dead h _ addr).1 _ _ _ _).1.2

theorem pageErases_dead (a n : Nat) {s : State} (h : ¬ targetReady s) :
    ¬ targetReady (pageErases a n s) := by
  induction n generalizing a s with
  | zero => exact h
  | succ n ih => exact ih (a + 128) (pageEraseHost_dead h _)

theorem flatMap_range_step {α : Type} (f : Nat → List α) (a n : Nat) :
    (List.range (n + 1)).flatMap (fun j => f (a + 128 * j)) =
      f a ++ (List.range n).flatMap fun j => f (a + 128 + 128 * j) := by
  have hf : ∀ j, a + 128 * (j + 1) = a + 128 + 128 * j := fun j => by omega
  simp only [List.range_succ_eq_map, List.flatMap_cons, List.flatMap_map, Nat.succ_eq_add_one, hf,
    Nat.mul_zero, Nat.add_zero]

/-- The erase loop of `program_region` (R205): one page erase after another. -/
theorem pageErases_spec (a n : Nat) (s : State) (hn : 0 < n) :
    ∃ (m : Memory) (tg : Target),
      pageErases a n s = wired ((List.range n).flatMap fun j => pageEraseTrace s.h.timing (a + 128 * j))
        m tg s.freeCtr s ∧
      (s.tflash.wf → m.wf) ∧
      (targetReady s → tg.ready ∧ tg.locked = s.tgt.locked) ∧
      (targetReady s → s.tgt.locked = false → ∀ x,
        ((∃ j < n, inIcpPage s.params ((a + 128 * j) % 2 ^ 18) x) → m.read x = 0xFF) ∧
        ((∀ j < n, ¬ inIcpPage s.params ((a + 128 * j) % 2 ^ 18) x) → m.read x = s.tflash.read x)) ∧
      (targetReady s → s.tgt.locked = true → m = s.tflash) ∧ (¬ targetReady s → m = s.tflash) := by
  induction n generalizing a s with
  | zero => omega
  | succ n ih =>
    obtain ⟨m, tg, h1, h2, h3, h4, h5, h6⟩ := pageEraseHost_spec (BitVec.ofNat 32 a) s
    have hmod : (BitVec.ofNat 32 a).toNat % 2 ^ 18 = a % 2 ^ 18 := by
      rw [BitVec.toNat_ofNat]; omega
    have htr : pageEraseTrace s.h.timing (BitVec.ofNat 32 a).toNat = pageEraseTrace s.h.timing a := by
      simp only [pageEraseTrace, wireFrame, hmod]
    rw [htr] at h1
    rw [hmod] at h4
    have hlist := flatMap_range_step (pageEraseTrace s.h.timing) a
    by_cases hz : n = 0
    · subst hz
      refine ⟨m, tg, ?_, h2, h3, fun hr hl x => ?_, h5, h6⟩
      · rw [pageErases, pageErases, h1, hlist 0]
        simp
      · rw [h4 hr hl]
        refine ⟨fun ⟨j, hj, h⟩ => ?_, fun h => if_neg (h 0 (by omega))⟩
        have : j = 0 := by omega
        subst this
        exact if_pos h
    · obtain ⟨m', tg', i1, i2, i3, i4, i5, i6⟩ := ih (a + 128)
        (pageEraseHost (BitVec.ofNat 32 a) s) (by omega)
      have hdead := fun hr => i6 (pageEraseHost_dead (s := s) hr (BitVec.ofNat 32 a))
      rw [h1] at i1 i2 i3 i4 i5 hdead
      refine ⟨m', tg', ?_, fun hw => i2 (h2 hw), fun hr => ?_, fun hr hl x => ?_, fun hr hl => ?_,
        fun hr => (hdead hr).trans (h6 hr)⟩
      · rw [pageErases, h1, i1, hlist n, wired_wired]
        rfl
      · obtain ⟨r1, r2⟩ := h3 hr
        obtain ⟨q1, q2⟩ := i3 ⟨hr.1, r1⟩
        exact ⟨q1, q2.trans r2⟩
      · obtain ⟨r1, r2⟩ := h3 hr
        obtain ⟨e1, e2⟩ := i4 ⟨hr.1, r1⟩ (r2.trans hl) x
        rw [wired_tflash, h4 hr hl] at e2
        refine ⟨fun ⟨j, hj, h⟩ => ?_, fun h => ?_⟩
        · cases j with
          | zero =>
            by_cases hA : ∃ j < n, inIcpPage s.params ((a + 128 + 128 * j) % 2 ^ 18) x
            · exact e1 hA
            · rw [e2 fun j hj h' => hA ⟨j, hj, h'⟩]
              exact if_pos h
          | succ j =>
            refine e1 ⟨j, by omega, ?_⟩
            rw [show a + 128 + 128 * j = a + 128 * (j + 1) by omega]
            exact h
        · rw [e2 fun j hj h' => h (j + 1) (by omega) (by
            rw [show a + 128 * (j + 1) = a + 128 + 128 * j by omega]
            exact h')]
          exact if_neg (h 0 (by omega))
      · obtain ⟨r1, r2⟩ := h3 hr
        exact (i5 ⟨hr.1, r1⟩ (r2.trans hl)).trans (h5 hr hl)

/-! ### Verification -/

theorem firstMismatch_eq (got expected : List Byte) (h : got.length = expected.length) (i : Nat) :
    firstMismatch got expected i = (firstDiff got expected).map (i + ·) := by
  induction got generalizing expected i with
  | nil => simp [firstMismatch, firstDiff]
  | cons g gs ih =>
    cases expected with
    | nil => simp at h
    | cons e es =>
      have hl : gs.length = es.length := by simpa using h
      have hd : firstDiff (g :: gs) (e :: es) =
          if g = e then (firstDiff gs es).map (· + 1) else some 0 := by
        unfold firstDiff
        rw [List.length_cons, List.range_succ_eq_map, List.find?_cons]
        by_cases hge : g = e
        · simp [hge, List.find?_map]
        · have hb : (some g != some e) = true := by simpa using hge
          simp [hge, hb]
      rw [firstMismatch, hd, ih es hl]
      by_cases hge : g = e
      · rw [if_pos hge, if_pos hge, Option.map_map]
        congr 1
        funext k
        simp only [Function.comp_apply]
        omega
      · rw [if_neg hge, if_neg hge]
        simp

theorem verdict_eq (got expected : List Byte) (h : got.length = expected.length) :
    verdict got expected = verifyAnswer got expected := by
  unfold verdict verifyAnswer
  rw [firstMismatch_eq got expected h]
  cases firstDiff got expected <;> simp

/-- Two lists of one length differ nowhere exactly when they are equal. -/
theorem firstDiff_none {got expected : List Byte} (h : got.length = expected.length) :
    firstDiff got expected = none ↔ got = expected := by
  unfold firstDiff
  rw [List.find?_eq_none]
  constructor
  · intro hk
    refine List.ext_getElem? fun k => ?_
    by_cases hlt : k < got.length
    · simpa using hk k (List.mem_range.mpr hlt)
    · rw [List.getElem?_eq_none (by omega), List.getElem?_eq_none (by omega)]
  · rintro rfl k -
    simp

/-! ### The target, in the terms of the statements -/

/-- The byte the target gives is the one of the table of R387. -/
theorem targetRead_eq (s : State) (c : IcpCmd) (a : Nat) : targetRead s c a = icpAnswer s c a := by
  cases c with
  | readFlash =>
    by_cases hl : s.tgt.locked = true
    · simp [targetRead, icpAnswer, icpCell, hl]
    · by_cases h1 : a < s.params.apromSize + s.params.ldromSize
      · simp [targetRead, icpAnswer, icpCell, hl, readFlashCell, flashSize, h1]
      · simp [targetRead, icpAnswer, icpCell, hl, readFlashCell, flashSize, cfgAddr, h1]
        rfl
  | readUid =>
    simp only [targetRead, icpAnswer, readUidCell, idAt]
    split
    · simp
    · split
      · rw [if_neg (by omega)]
        simp
      · split
        · rfl
        · rw [List.getElem?_eq_none (by omega)]
          rfl
  | _ => simp [targetRead, icpAnswer, idAt]

/-- What the target makes of a frame (R382). -/
theorem targetConsume_frame_eq {cmd : BitVec 6} {c : IcpCmd} (hc : IcpCmd.ofCode cmd = some c)
    (param : BitVec 18) (s : State) :
    targetConsume (.frame (wireFrame cmd param.toNat)) s = setTgt (targetFramed s c param) s := by
  have hw1 : (wireFrame cmd param.toNat).extractLsb' 0 6 = cmd := wireFrame_cmd _ _
  have hw2 : (wireFrame cmd param.toNat).extractLsb' 6 18 = param := by
    apply BitVec.eq_of_toNat_eq
    rw [wireFrame_param]
    have := param.isLt
    omega
  unfold targetConsume targetFramed
  cases hk : s.targetKind with
  | oracle => simp [setTgt]
  | reference =>
    simp only [Target.onFrame, hw1, hw2, hc]
    cases hp : s.tgt.prog with
    | false => simp [setTgt]
    | true =>
      cases hm : s.tgt.cmd with
      | some d => simp
      | none =>
        simp [massEraseMagic]
        rfl

/-! ### The caller's array -/

@[simp] theorem argBytes_length (len : Nat) (data : List Byte) : (argBytes len data).length = len := by
  simp [argBytes]

/-- What a call uses of the array it was given. -/
theorem argBytes_takes (len : Nat) (data : List Byte) : takesArray len data (argBytes len data) := by
  refine ⟨argBytes_length len data, fun k hk hd => ?_⟩
  simp [argBytes, hk, List.getElem?_eq_getElem hd]

/-- An array long enough gives its first elements. -/
theorem argBytes_take {len : Nat} {data : List Byte} (h : len ≤ data.length) :
    argBytes len data = data.take len := by
  refine List.ext_getElem? fun k => ?_
  by_cases hk : k < len
  · rw [(argBytes_takes len data).2 k hk (by omega), List.getElem?_take_of_lt hk]
  · rw [List.getElem?_eq_none (by simp; omega), List.getElem?_eq_none (by simp; omega)]

theorem argBytes_self (data : List Byte) : argBytes data.length data = data := by
  rw [argBytes_take (Nat.le_refl _), List.take_length]

theorem argBytes_ne_nil {len : Nat} (h : 0 < len) (data : List Byte) : argBytes len data ≠ [] :=
  List.length_pos_iff.mp (by simpa using h)

end Sys2Proof.Machine
end

