-- ==== Sys2Proof/Laws/HostMode.lean ====
section
/-! SUPPORT. The patterns of the mode operations as the target sees them, the identity reads frame by
frame, and what a run of byte writes leaves in one cell. -/

namespace Sys2Proof.Machine

/-! ### Patterns -/

theorem targetConsume_entry (s : State) : targetConsume .entry s = setTgt (targetEntered s) s := by
  unfold targetConsume targetEntered targetEntry
  cases s.targetKind with
  | oracle => rfl
  | reference => simp [isLocked, targetConfig, cfgAddr]

theorem targetConsume_exit (s : State) : targetConsume .exit s = setTgt (targetExited s) s := by
  unfold targetConsume targetExited
  cases s.targetKind <;> rfl

theorem targetAll_delay_then (t : Nat) (ev : HEvent) (s : State) :
    targetAll [.delay t, ev] s = targetConsume ev s := by
  show targetConsume ev (targetConsume (.delay t) s) = _
  rw [targetConsume_quiet (ev := .delay t) rfl]

theorem targetAll_entryEvents (t : Timing) (d : Nat) (s : State) :
    targetAll (entryEvents t d) s = setTgt (targetEntered s) s := by
  rw [entryEvents_eq, entryTrace, targetAll_append, targetAll_quiet (quiet_sendTrace _ _),
    targetAll_delay_then, targetConsume_entry]

theorem targetAll_exitEvents (t : Timing) (s : State) :
    targetAll (exitEvents t) s = setTgt (targetExited s) s := by
  rw [exitEvents_eq, exitTrace, targetAll_append, targetAll_quiet (quiet_sendTrace _ _),
    targetAll_delay_then, targetConsume_exit]

theorem quiet_resetSeqEvents (p : Params) (t : Timing) : ∀ ev ∈ resetSeqEvents p t, ev.quiet = true := by
  rw [resetSeqEvents_eq, resetTrace]
  intro ev h
  simp only [List.mem_append, List.mem_flatMap, List.mem_cons, List.not_mem_nil, or_false] at h
  rcases h with ⟨b, -, h | h⟩ | h <;> subst h <;> rfl

theorem targetAll_enterModeEvents (r : Bool) (p : Params) (t : Timing) (s : State) :
    targetAll (enterModeEvents r p t) s = setTgt (targetEntered s) s := by
  rw [enterModeEvents, targetAll_append, targetAll_entryEvents, targetAll_quiet]
  cases r with
  | true => exact quiet_resetSeqEvents p t
  | false =>
    intro ev h
    simp only [Bool.false_eq_true, if_false, List.mem_cons, List.not_mem_nil, or_false] at h
    rcases h with h | h | h | h <;> subst h <;> rfl

theorem targetAll_exitCoreEvents (p : Params) (t : Timing) (s : State) :
    targetAll (exitCoreEvents p t) s = setTgt (targetExited s) s := by
  rw [exitCoreEvents, targetAll_append, targetAll_exitEvents, targetAll_quiet]
  intro ev h
  simp only [List.mem_cons, List.not_mem_nil, or_false] at h
  rcases h with h | h | h | h <;> subst h <;> rfl

/-! ### Cells after a run of byte writes -/

/-- A cell no byte falls on is as it was. -/
theorem icpBurnt_other (data : List Byte) (a x : Nat) (old : Byte)
    (h : ∀ k < data.length, (a + k) % 2 ^ 18 ≠ x) : icpBurnt data a x old = old := by
  induction data generalizing a old with
  | nil => rfl
  | cons b bs ih =>
    rw [icpBurnt_cons, if_neg (by have := h 0 (by simp); simpa using this)]
    refine ih _ _ fun k hk => ?_
    have := h (k + 1) (by simpa using hk)
    rwa [show a + 1 + k = a + (k + 1) by omega]

/-- A cell within a range that does not wrap takes the one byte that falls on it. -/
theorem icpBurnt_at (data : List Byte) (a : Nat) (old : Byte) (k : Nat) (hk : k < data.length)
    (hle : a + data.length ≤ 2 ^ 18) : icpBurnt data a (a + k) old = old &&& data[k] := by
  induction data generalizing a old k with
  | nil => simp at hk
  | cons b bs ih =>
    rw [icpBurnt_cons]
    simp only [List.length_cons] at hle hk
    cases k with
    | zero =>
      rw [if_pos (by rw [Nat.mod_eq_of_lt (by omega)]; rfl),
        icpBurnt_other _ _ _ _ fun j hj => by rw [Nat.mod_eq_of_lt (by omega)]; omega]
      rfl
    | succ k =>
      rw [if_neg (by rw [Nat.mod_eq_of_lt (by omega)]; omega),
        show a + (k + 1) = a + 1 + k by omega, ih (a + 1) old k (by omega) (by omega)]
      rfl

/-! ### Frame-by-frame reads -/

/-- One READ_UID frame and one closing byte read for each index (R193, R194), whatever answers; and
from a ready target (R387). -/
theorem readIndexed_spec (n i : Nat) (h32 : i + n ≤ 2 ^ 32) (s : State) (hn : 0 < n) :
    ∃ (bs : List Byte) (tg : Target) (k : Nat), bs.length = n ∧
      readIndexed i n s = (bs, wired (indexedTrace i s.h.timing bs) s.tflash tg k s) ∧
      (targetReady s → bs = ((List.range n).map fun j => readUidCell s ((i + j) % 2 ^ 18)) ∧
        tg.ready ∧ tg.locked = s.tgt.locked ∧ k = s.freeCtr) := by
  induction n generalizing i s with
  | zero => omega
  | succ n ih =>
    have hi : (BitVec.ofNat 32 i).toNat = i := by
      rw [BitVec.toNat_ofNat]; apply Nat.mod_eq_of_lt; omega
    -- the first frame and byte
    obtain ⟨v, tg, k, h1, h2⟩ : ∃ (v : Byte) (tg : Target) (k : Nat),
        readByte true (sendCommand cmdReadUid (BitVec.ofNat 32 i) s) = (v, wired
          (frameTrace (wireFrame cmdReadUid i) s.h.timing.cmdBit.toNat ++
            readTrace s.h.timing.readBit.toNat v true) s.tflash tg k s) ∧
        (targetReady s → v = readUidCell s (i % 2 ^ 18) ∧ tg.ready ∧ tg.locked = s.tgt.locked ∧
          k = s.freeCtr) := by
      by_cases hr : targetReady s
      · obtain ⟨tg, ht, ho, hp, hpr, hd, hk, -⟩ := sendCommand_ready hr (cmd := cmdReadUid) rfl
          (BitVec.ofNat 32 i)
        rw [hi] at ht hp
        have hb := readByte_open (s := sendCommand cmdReadUid (BitVec.ofNat 32 i) s)
          (by rw [ht]; exact hr.1) (by rw [ht]; exact ho) true
        have hv : targetRead (sendCommand cmdReadUid (BitVec.ofNat 32 i) s) .readUid
            (sendCommand cmdReadUid (BitVec.ofNat 32 i) s).tgt.ptr.toNat =
              readUidCell s (i % 2 ^ 18) := by
          rw [ht]
          simp only [targetRead, setH_tgt, setTgt_tgt, hp, readUidCell, setH_ident, setTgt_ident,
            setH_params, setTgt_params]
        rw [hv] at hb
        refine ⟨_, tg.advance true, s.freeCtr, ?_, fun _ => ⟨rfl, ⟨hpr, rfl, hd⟩, hk, rfl⟩⟩
        rw [hb, ht]
        simp only [wired, setH, setEnv, setTgt, List.append_assoc, Pins.rested, Pins.sentLast]
      · obtain ⟨tg, ht⟩ := sendCommand_env cmdReadUid (BitVec.ofNat 32 i) s
        obtain ⟨v, tg', k, hv⟩ := readByte_env true (sendCommand cmdReadUid (BitVec.ofNat 32 i) s)
        rw [hi] at ht
        refine ⟨v, tg', k, ?_, fun h => absurd h hr⟩
        rw [hv, ht]
        simp only [wired, setH, setEnv, setTgt, List.append_assoc, Pins.rested, Pins.sentLast]
    by_cases hz : n = 0
    · subst hz
      refine ⟨[v], tg, k, rfl, ?_, fun hr => ?_⟩
      · rw [readIndexed, h1]
        simp only [readIndexed, indexedTrace_cons]
        rw [show indexedTrace (i + 1) s.h.timing [] = [] from rfl, List.append_nil]
      · obtain ⟨q1, q2⟩ := h2 hr
        exact ⟨by rw [q1]; rfl, q2⟩
    · obtain ⟨bs, tg', k', hl, i1, i2⟩ := ih (i + 1) (by omega) (wired
        (frameTrace (wireFrame cmdReadUid i) s.h.timing.cmdBit.toNat ++
          readTrace s.h.timing.readBit.toNat v true) s.tflash tg k s) (by omega)
      refine ⟨v :: bs, tg', k', by simp [hl], ?_, fun hr => ?_⟩
      · rw [readIndexed]
        simp only [h1]
        rw [i1, indexedTrace_cons, wired_wired]
        rfl
      · obtain ⟨q1, q2, q3, q4⟩ := h2 hr
        obtain ⟨r1, r2, r3, r4⟩ := i2 ⟨hr.1, q2⟩
        refine ⟨?_, r2, r3.trans q3, r4.trans q4⟩
        rw [r1, q1, List.range_succ_eq_map, List.map_cons, List.map_map]
        refine List.cons_eq_cons.mpr ⟨rfl, List.map_congr_left fun j _ => ?_⟩
        show readUidCell s ((i + 1 + j) % 2 ^ 18) = readUidCell s ((i + (j + 1)) % 2 ^ 18)
        rw [show i + 1 + j = i + (j + 1) by omega]

end Sys2Proof.Machine
end

