-- ==== Sys2Proof/Laws/Inputs.lean ====
section
/-! SUPPORT. What an input can do, said once: the resets of machine D at any instant, the sizes of the
run a reset begins, and what the call port turns away. -/

namespace Sys2Proof.Machine

/-! ### The sizes of a run -/

theorem ldromSizeOf_le (c : BitVec 3) : ldromSizeOf c ≤ 4096 := Nat.min_le_left _ _

theorem ldromSizeOf_page (c : BitVec 3) : ldromSizeOf c % 128 = 0 := by revert c; decide

/-- The chip's flash keeps its size. -/
@[simp] theorem repartition_total (b : ConfigBytes) (p : Params) :
    (repartition b p).apromSize + (repartition b p).ldromSize = p.apromSize + p.ldromSize := by
  unfold repartition
  split
  · simp only; omega
  · rfl

/-- Only the two sizes are derived again. -/
theorem repartition_sizes (b : ConfigBytes) (p : Params) :
    repartition b p = { p with
      apromSize := (repartition b p).apromSize, ldromSize := (repartition b p).ldromSize } := by
  unfold repartition
  split <;> rfl

theorem repartition_connTimeoutTicks (b : ConfigBytes) (p : Params) :
    (repartition b p).connTimeoutTicks = p.connTimeoutTicks := by rw [repartition_sizes]

/-- The sizes of the new run keep to R7. -/
theorem repartition_wf {b : ConfigBytes} {p : Params} (h : p.Wf) : (repartition b p).Wf := by
  obtain ⟨h1, h2, h3, h4, h5, h6, h7⟩ := h
  unfold repartition
  split
  · have := ldromSizeOf_page (configDecode b).ldsize
    have := ldromSizeOf_le (configDecode b).ldsize
    exact ⟨by simp only; omega, by simp only; omega, by simp only; omega, by simp only; omega,
      by simp only; omega, h6, h7⟩
  · exact ⟨h1, h2, h3, h4, h5, h6, h7⟩

/-- The same cells exist in the new run. -/
theorem flashOk_repartition {b : ConfigBytes} {p : Params} {m : Memory} (h : flashOk p m) :
    flashOk (repartition b p) m := by
  unfold flashOk
  rw [repartition_total]
  exact h

/-! ### Resets of machine D -/

/-- The registers machine D is reset to satisfy the invariant. -/
theorem DRegs.reset_inv (p : Params) : (DRegs.reset p).Inv p :=
  ⟨Nat.zero_le _, ⟨fun h => (nomatch h), fun h => (nomatch h)⟩, ⟨fun _ => rfl, fun _ => rfl⟩,
    ⟨fun _ => .inl rfl, fun _ => rfl⟩, fun _ => rfl, fun h => (nomatch h), fun h => (nomatch h),
    fun h => (nomatch h), fun h => (nomatch h), fun h => absurd rfl h, Nat.zero_le _, fun _ => rfl,
    Nat.le_refl _, fun h => absurd h (Nat.lt_irrefl 0)⟩

/-- A reset of machine D keeps the invariant of the state. -/
theorem resetD_inv {s : State} (hp : s.params.Wf) (hh : s.h.Inv) (ht : s.tgt.Inv)
    (hf : flashOk s.params s.flash) (hg : flashOk s.params s.tflash) : (resetD s).Inv :=
  ⟨repartition_wf hp, DRegs.reset_inv _, hh, ht, flashOk_repartition hf, flashOk_repartition hg⟩

/-- What a dispatch cut short can have done (R452). -/
theorem dispatchPart_cases {s : State} (k : Nat) (hp : s.params.Wf) :
    FlashOnly s (dispatchPart k s) := by
  unfold dispatchPart
  by_cases h : s.d.terminal = .running ∧ s.d.mphase = .m1 ∧ s.d.rxready = true ∧
      seqPolicyHolds s.params.seqPolicy s.d.seq (rxSeqField s.d) = true
  · rw [if_pos h]
    split
    · rename_i i _
      obtain ⟨d, m, he, hc, hi⟩ := workPart_cases (s := prologue s) k i hp h.1
      exact ⟨d, m, he, hc, hi⟩
    · exact .refl s
  · rw [if_neg h]
    exact .refl s

/-- A reset inside a dispatch (R452) is a reset of machine D over a flash in which only cells it can
write have changed. -/
theorem resetDDuring_cases {s : State} (k : Nat) (hp : s.params.Wf) :
    ∃ m : Memory, resetDDuring k s = resetD (setFlash m s) ∧
      Changes (deviceCell s.params) s.flash m := by
  obtain ⟨d, m, he, hc, -⟩ := dispatchPart_cases (s := s) k hp
  exact ⟨m, by rw [resetDDuring, he]; rfl, hc⟩

/-- The instruction whose flash work a reset cuts short. -/
theorem dispatchPart_of {s : State} {i : Instr} (k : Nat) (hrun : s.d.terminal = .running)
    (hm : s.d.mphase = .m1) (hr : s.d.rxready = true)
    (hq : seqPolicyHolds s.params.seqPolicy s.d.seq (rxSeqField s.d) = true)
    (hi : decodePacket s.d.rxbuf.toList = .ok i) :
    dispatchPart k s = workPart k i (prologue s) := by
  unfold dispatchPart
  rw [if_pos ⟨hrun, hm, hr, hq⟩]
  simp only [rxCode, decode, hi]

/-- Before its first write a dispatch has changed no cell. -/
theorem dispatchPart_zero (s : State) : (dispatchPart 0 s).flash = s.flash := by
  unfold dispatchPart
  split
  · split
    · rw [workPart_zero]
      rfl
    · rfl
  · rfl

/-- After its last write a dispatch has changed the cells the main-loop step changes. -/
theorem dispatchPart_whole {s t : State} (h : mainStep s = .next t) :
    ∃ n, ∀ k, n ≤ k → (dispatchPart k s).flash = t.flash := by
  have hnext : ∀ u : State, (nextPhase u).flash = u.flash := fun u => by
    unfold nextPhase
    split <;> rfl
  have hepi : ∀ u : State, (epilogue u).flash = u.flash := fun u => by
    unfold epilogue
    split <;> rfl
  unfold mainStep at h
  by_cases hrun : s.d.terminal = .running
  swap
  · rw [if_neg hrun] at h
    cases h
    exact ⟨0, fun k _ => by rw [dispatchPart, if_neg fun hc => hrun hc.1]⟩
  rw [if_pos hrun] at h
  cases hm : s.d.mphase with
  | m2 =>
    simp only [phaseAction, hm, mapNext] at h
    cases h
    refine ⟨0, fun k _ => ?_⟩
    rw [dispatchPart, if_neg (by rw [hm]; simp), hnext]
    split <;> rfl
  | m3 =>
    simp only [phaseAction, hm, mapNext] at h
    cases h
    refine ⟨0, fun k _ => ?_⟩
    rw [dispatchPart, if_neg (by rw [hm]; simp), hnext]
    split <;> rfl
  | m1 =>
    simp only [phaseAction, hm] at h
    by_cases hr : s.d.rxready = true
    swap
    · rw [if_neg hr] at h
      cases h
      exact ⟨0, fun k _ => by rw [dispatchPart, if_neg fun hc => hr hc.2.2.1, hnext]⟩
    rw [if_pos hr, dispatch] at h
    by_cases hq : seqPolicyHolds s.params.seqPolicy s.d.seq (rxSeqField s.d) = true
    swap
    · rw [if_neg hq] at h
      cases h
      exact ⟨0, fun k _ => by rw [dispatchPart, if_neg fun hc => hq hc.2.2.2, hnext]; rfl⟩
    rw [if_pos hq] at h
    obtain ⟨i, hi⟩ := decodePacket_total (bs := s.d.rxbuf.toList) (by simp)
    have hrp : runPacket (prologue s) = exec i (prologue s) := by
      have : (prologue s).d.rxbuf = s.d.rxbuf := rfl
      simp only [runPacket, rxCode, decode, this, hi]
    rw [hrp] at h
    cases he : exec i (prologue s) with
    | next u =>
      obtain ⟨n, hn⟩ := workPart_whole (decodePacket_ofD hi) he
      rw [he] at h
      cases h
      exact ⟨n, fun k hk => by
        rw [dispatchPart_of k hrun hm hr hq hi, hn k hk, hnext, hepi]⟩
    | fault r => rw [he] at h; cases h
    | refused r => rw [he] at h; cases h

/-! ### The call port -/

/-- What anything but a packet decodes to on the call port. -/
theorem decodeCall_eq {p : Params} {c : Code} (h : ∀ bs, c ≠ .packet bs) :
    decodeCall p c = decode p c := by
  cases c with
  | packet bs => exact absurd rfl (h bs)
  | _ => rfl

/-- An instruction the call port takes is one of machine H. -/
theorem decodeCall_not_ofD {p : Params} {c : Code} {i : Instr} (h : decodeCall p c = .ok i) :
    i.ofD = false := by
  cases c with
  | packet bs => cases h
  | _ => exact decode_not_ofD (by rwa [decodeCall_eq (by simp)] at h) (by simp)

/-- What is turned away is answered, and nothing is done. -/
theorem turnAway_eq (e : DecodeError) (s : State) :
    turnAway e s = .next (answered (if turnGate e s then .eBadArg else .eBadState, .bytes []) s) := by
  unfold turnAway gated
  split <;> rfl

/-- Whatever is put to the call port, machine H goes on. -/
theorem callStep_effect (c : Code) (s : State) : ∃ t, callStep c s = .next t ∧ OpEffect s t := by
  unfold callStep
  split
  · rename_i h
    exact exec_operation (decodeCall_not_ofD h) s
  · exact gated_effect fun _ => (WireEffect.refl s).returns _ _

end Sys2Proof.Machine
end

