-- ==== Sys2Proof/Laws/PerInstr.lean ====
section
/-! SUPPORT. A statement about every instruction as syntax, one lemma per constructor: the encoding of a
well-formed instruction has the shape the spec's tables give its row. -/

namespace Sys2Proof.Laws.EncodedShape

/-- The opcode byte of a UART packet's row (R116, R123). -/
def packetOpcode : Instr → Option Byte
  | .continuation _ _ => some 0x00
  | .updateAprom _ _ _ _ _ _ => some 0xA0
  | .updateConfig _ _ _ => some 0xA1
  | .readConfig _ _ => some 0xA2
  | .eraseAll _ _ => some 0xA3
  | .syncSeq _ _ => some 0xA4
  | .readRom _ _ _ _ _ => some 0xA5
  | .getFwVersion _ _ => some 0xA6
  | .runAprom _ _ => some 0xAB
  | .runLdrom _ _ => some 0xAC
  | .resetCmd _ _ => some 0xAD
  | .connect _ _ => some 0xAE
  | .getDeviceId _ _ => some 0xB1
  | .getUid _ _ => some 0xB2
  | .getCid _ _ => some 0xB3
  | .getUcid _ _ => some 0xB4
  | .getFlashMode _ _ => some 0xCA
  | .pageErase _ _ _ => some 0xD5
  | .unrecognized op _ _ => some op
  | .icpReadFlash _ | .icpReadUid _ | .icpReadCid _ | .icpReadDeviceId _ | .icpWriteFlash _
  | .icpPageErase _ | .icpMassErase _ | .icpEntryPattern | .icpExitPattern | .icpResetSeq
  | .icpByteRead _ | .icpByteWrite _ _ _ _ => none
  | .hostInit _ | .hostExit | .hostDeinit _ | .hostReentry _ _ _ | .hostReentryGlitch _ _ _ _
  | .hostReadDeviceId | .hostCheckDeviceId | .hostReadCid | .hostReadUid | .hostReadUcid
  | .hostReadFlash _ _ | .hostWriteFlash _ _ _ | .hostMassErase | .hostPageErase _
  | .hostVerifyFlash _ _ _ | .hostReadConfig | .hostWriteConfig _ _ | .hostProgramRegion _ _ _
  | .configDecode _ | .configEncode _ => none

/-- The 6-bit code of a command frame's row (R126). -/
def frameCode : Instr → Option (BitVec 6)
  | .icpReadFlash _ => some 0x00
  | .icpReadUid _ => some 0x04
  | .icpReadCid _ => some 0x0B
  | .icpReadDeviceId _ => some 0x0C
  | .icpWriteFlash _ => some 0x21
  | .icpPageErase _ => some 0x22
  | .icpMassErase _ => some 0x26
  | .continuation _ _ | .updateAprom _ _ _ _ _ _ | .updateConfig _ _ _ | .readConfig _ _
  | .eraseAll _ _ | .syncSeq _ _ | .readRom _ _ _ _ _ | .getFwVersion _ _ | .runAprom _ _
  | .runLdrom _ _ | .resetCmd _ _ | .connect _ _ | .getDeviceId _ _ | .getUid _ _ | .getCid _ _
  | .getUcid _ _ | .getFlashMode _ _ | .pageErase _ _ _ | .unrecognized _ _ _ => none
  | .icpEntryPattern | .icpExitPattern | .icpResetSeq | .icpByteRead _ | .icpByteWrite _ _ _ _
  | .hostInit _ | .hostExit | .hostDeinit _ | .hostReentry _ _ _ | .hostReentryGlitch _ _ _ _
  | .hostReadDeviceId | .hostCheckDeviceId | .hostReadCid | .hostReadUid | .hostReadUcid
  | .hostReadFlash _ _ | .hostWriteFlash _ _ _ | .hostMassErase | .hostPageErase _
  | .hostVerifyFlash _ _ _ | .hostReadConfig | .hostWriteConfig _ _ | .hostProgramRegion _ _ _
  | .configDecode _ | .configEncode _ => none

/-- The encoding of `i` has the shape of its row: a packet of 64 bytes with its opcode at offset 0
(R110, R111, R116), a frame with its code in the low six bits (R125, R126), the pattern of R128 on
its line, nine bits (R129, R130), or the call itself (R440). -/
def Statement (i : Instr) : Prop :=
  i.WellFormed → ∀ p : Params,
    (∀ op, packetOpcode i = some op →
      ∃ bs, encode p i = .packet bs ∧ bs.length = 64 ∧ bs.head? = some op) ∧
    (∀ c, frameCode i = some c → ∃ w, encode p i = .data24 w ∧ w.extractLsb' 0 6 = c) ∧
    (i.isHostOp = true → encode p i = .call i) ∧
    (i = .icpEntryPattern → encode p i = .data24 0x5AA503) ∧
    (i = .icpExitPattern → encode p i = .data24 0x0F78F0) ∧
    (i = .icpResetSeq → encode p i = .reset24 p.resetSeq) ∧
    (∀ e, i = .icpByteRead e → ∃ w, encode p i = .read9 w ∧ w.getLsbD 0 = e) ∧
    (∀ v e d1 d2, i = .icpByteWrite v e d1 d2 →
      ∃ w, encode p i = .write9 w d1 d2 ∧ w.extractLsb' 1 8 = v ∧ w.getLsbD 0 = e)

/-- A packet's row. -/
theorem packet_shape {i : Instr} {op : Byte} (ho : packetOpcode i = some op) (hf : frameCode i = none)
    (hh : i.isHostOp = false) (hd : i.ofD = true)
    (he : ∀ p, i.WellFormed → ∃ bs, encode p i = .packet bs ∧ bs.length = 64 ∧ bs.head? = some op) :
    Statement i := by
  intro hw p
  refine ⟨fun op' h => ?_, fun c h => ?_, fun h => ?_, fun h => ?_, fun h => ?_, fun h => ?_,
    fun e h => ?_, fun v e d1 d2 h => ?_⟩
  · rw [ho] at h
    cases h
    exact he p hw
  · rw [hf] at h
    cases h
  · rw [hh] at h
    cases h
  all_goals
    rw [h] at hd
    cases hd

/-- A frame's row. -/
theorem frame_shape {i : Instr} {c : BitVec 6} {param : BitVec 18} (ho : packetOpcode i = none)
    (hf : frameCode i = some c) (hh : i.isHostOp = false)
    (he : ∀ p, encode p i = .data24 (frameOf c param)) : Statement i := by
  intro _ p
  refine ⟨fun op' h => ?_, fun c' h => ?_, fun h => ?_, fun h => ?_, fun h => ?_, fun h => ?_,
    fun e h => ?_, fun v e d1 d2 h => ?_⟩
  · rw [ho] at h
    cases h
  · rw [hf] at h
    cases h
    exact ⟨_, he p, frameOf_cmd _ _⟩
  · rw [hh] at h
    cases h
  all_goals
    rw [h] at hf
    cases hf

/-- A called operation's row. -/
theorem call_shape {i : Instr} (ho : packetOpcode i = none) (hf : frameCode i = none)
    (hh : i.isHostOp = true) (he : ∀ p, encode p i = .call i) : Statement i := by
  intro _ p
  refine ⟨fun op' h => ?_, fun c h => ?_, fun _ => he p, fun h => ?_, fun h => ?_, fun h => ?_,
    fun e h => ?_, fun v e d1 d2 h => ?_⟩
  · rw [ho] at h
    cases h
  · rw [hf] at h
    cases h
  all_goals
    rw [h] at hh
    cases hh

/-! ### One lemma per constructor -/

theorem continuation (h : PktHdr) (data : List Byte) : Statement (.continuation h data) :=
  packet_shape rfl rfl rfl rfl fun _ hw => ⟨_, rfl, by
    simp only [Instr.WellFormed, Instr.wellFormed, beq_iff_eq] at hw
    simp [hdrBytes_length, hw], rfl⟩

theorem updateAprom (h : PktHdr) (a g1 l g2 : Word) (data : List Byte) : Statement (.updateAprom h a g1 l g2 data) :=
  packet_shape rfl rfl rfl rfl fun _ hw => ⟨_, rfl, by
    simp only [Instr.WellFormed, Instr.wellFormed, beq_iff_eq] at hw
    simp [hdrBytes_length, bytes16, hw], rfl⟩

theorem updateConfig (h : PktHdr) (c : ConfigBytes) (rest : List Byte) : Statement (.updateConfig h c rest) :=
  packet_shape rfl rfl rfl rfl fun _ hw => ⟨_, rfl, by
    simp only [Instr.WellFormed, Instr.wellFormed, beq_iff_eq] at hw
    simp [hdrBytes_length, hw], rfl⟩

theorem readConfig (h : PktHdr) (rest : List Byte) : Statement (.readConfig h rest) :=
  packet_shape rfl rfl rfl rfl fun _ hw => ⟨_, rfl, by
    simp only [Instr.WellFormed, Instr.wellFormed, beq_iff_eq] at hw
    simp [hdrBytes_length, hw], rfl⟩

theorem eraseAll (h : PktHdr) (rest : List Byte) : Statement (.eraseAll h rest) :=
  packet_shape rfl rfl rfl rfl fun _ hw => ⟨_, rfl, by
    simp only [Instr.WellFormed, Instr.wellFormed, beq_iff_eq] at hw
    simp [hdrBytes_length, hw], rfl⟩

theorem syncSeq (h : PktHdr) (rest : List Byte) : Statement (.syncSeq h rest) :=
  packet_shape rfl rfl rfl rfl fun _ hw => ⟨_, rfl, by
    simp only [Instr.WellFormed, Instr.wellFormed, beq_iff_eq] at hw
    simp [hdrBytes_length, hw], rfl⟩

theorem readRom (h : PktHdr) (a g l : Word) (rest : List Byte) : Statement (.readRom h a g l rest) :=
  packet_shape rfl rfl rfl rfl fun _ hw => ⟨_, rfl, by
    simp only [Instr.WellFormed, Instr.wellFormed, beq_iff_eq] at hw
    simp [hdrBytes_length, bytes16, hw], rfl⟩

theorem getFwVersion (h : PktHdr) (rest : List Byte) : Statement (.getFwVersion h rest) :=
  packet_shape rfl rfl rfl rfl fun _ hw => ⟨_, rfl, by
    simp only [Instr.WellFormed, Instr.wellFormed, beq_iff_eq] at hw
    simp [hdrBytes_length, hw], rfl⟩

theorem runAprom (h : PktHdr) (rest : List Byte) : Statement (.runAprom h rest) :=
  packet_shape rfl rfl rfl rfl fun _ hw => ⟨_, rfl, by
    simp only [Instr.WellFormed, Instr.wellFormed, beq_iff_eq] at hw
    simp [hdrBytes_length, hw], rfl⟩

theorem runLdrom (h : PktHdr) (rest : List Byte) : Statement (.runLdrom h rest) :=
  packet_shape rfl rfl rfl rfl fun _ hw => ⟨_, rfl, by
    simp only [Instr.WellFormed, Instr.wellFormed, beq_iff_eq] at hw
    simp [hdrBytes_length, hw], rfl⟩

theorem resetCmd (h : PktHdr) (rest : List Byte) : Statement (.resetCmd h rest) :=
  packet_shape rfl rfl rfl rfl fun _ hw => ⟨_, rfl, by
    simp only [Instr.WellFormed, Instr.wellFormed, beq_iff_eq] at hw
    simp [hdrBytes_length, hw], rfl⟩

theorem connect (h : PktHdr) (rest : List Byte) : Statement (.connect h rest) :=
  packet_shape rfl rfl rfl rfl fun _ hw => ⟨_, rfl, by
    simp only [Instr.WellFormed, Instr.wellFormed, beq_iff_eq] at hw
    simp [hdrBytes_length, hw], rfl⟩

theorem getDeviceId (h : PktHdr) (rest : List Byte) : Statement (.getDeviceId h rest) :=
  packet_shape rfl rfl rfl rfl fun _ hw => ⟨_, rfl, by
    simp only [Instr.WellFormed, Instr.wellFormed, beq_iff_eq] at hw
    simp [hdrBytes_length, hw], rfl⟩

theorem getUid (h : PktHdr) (rest : List Byte) : Statement (.getUid h rest) :=
  packet_shape rfl rfl rfl rfl fun _ hw => ⟨_, rfl, by
    simp only [Instr.WellFormed, Instr.wellFormed, beq_iff_eq] at hw
    simp [hdrBytes_length, hw], rfl⟩

theorem getCid (h : PktHdr) (rest : List Byte) : Statement (.getCid h rest) :=
  packet_shape rfl rfl rfl rfl fun _ hw => ⟨_, rfl, by
    simp only [Instr.WellFormed, Instr.wellFormed, beq_iff_eq] at hw
    simp [hdrBytes_length, hw], rfl⟩

theorem getUcid (h : PktHdr) (rest : List Byte) : Statement (.getUcid h rest) :=
  packet_shape rfl rfl rfl rfl fun _ hw => ⟨_, rfl, by
    simp only [Instr.WellFormed, Instr.wellFormed, beq_iff_eq] at hw
    simp [hdrBytes_length, hw], rfl⟩

theorem getFlashMode (h : PktHdr) (rest : List Byte) : Statement (.getFlashMode h rest) :=
  packet_shape rfl rfl rfl rfl fun _ hw => ⟨_, rfl, by
    simp only [Instr.WellFormed, Instr.wellFormed, beq_iff_eq] at hw
    simp [hdrBytes_length, hw], rfl⟩

theorem pageErase (h : PktHdr) (a : Word) (rest : List Byte) : Statement (.pageErase h a rest) :=
  packet_shape rfl rfl rfl rfl fun _ hw => ⟨_, rfl, by
    simp only [Instr.WellFormed, Instr.wellFormed, beq_iff_eq] at hw
    simp [hdrBytes_length, bytes16, hw], rfl⟩

theorem unrecognized (op : Byte) (h : PktHdr) (rest : List Byte) :
    Statement (.unrecognized op h rest) :=
  packet_shape rfl rfl rfl rfl fun _ hw => ⟨_, rfl, by
    simp only [Instr.WellFormed, Instr.wellFormed, Bool.and_eq_true, beq_iff_eq] at hw
    simp [hdrBytes_length, hw.2], rfl⟩

theorem icpReadFlash (param : BitVec 18) : Statement (.icpReadFlash param) := frame_shape rfl rfl rfl fun _ => rfl

theorem icpReadUid (param : BitVec 18) : Statement (.icpReadUid param) := frame_shape rfl rfl rfl fun _ => rfl

theorem icpReadCid (param : BitVec 18) : Statement (.icpReadCid param) := frame_shape rfl rfl rfl fun _ => rfl

theorem icpReadDeviceId (param : BitVec 18) : Statement (.icpReadDeviceId param) := frame_shape rfl rfl rfl fun _ => rfl

theorem icpWriteFlash (param : BitVec 18) : Statement (.icpWriteFlash param) := frame_shape rfl rfl rfl fun _ => rfl

theorem icpPageErase (param : BitVec 18) : Statement (.icpPageErase param) := frame_shape rfl rfl rfl fun _ => rfl

theorem icpMassErase (param : BitVec 18) : Statement (.icpMassErase param) := frame_shape rfl rfl rfl fun _ => rfl

theorem icpEntryPattern : Statement .icpEntryPattern := by
  intro _ p
  refine ⟨?_, ?_, ?_, fun _ => rfl, ?_, ?_, ?_, ?_⟩ <;> intros <;> contradiction

theorem icpExitPattern : Statement .icpExitPattern := by
  intro _ p
  refine ⟨?_, ?_, ?_, ?_, fun _ => rfl, ?_, ?_, ?_⟩ <;> intros <;> contradiction

theorem icpResetSeq : Statement .icpResetSeq := by
  intro _ p
  refine ⟨?_, ?_, ?_, ?_, ?_, fun _ => rfl, ?_, ?_⟩ <;> intros <;> contradiction

theorem icpByteRead (endFlag : Bool) : Statement (.icpByteRead endFlag) := by
  intro _ p
  refine ⟨?_, ?_, ?_, ?_, ?_, ?_, fun e h => ?_, ?_⟩
  case refine_7 =>
    cases h
    exact ⟨_, rfl, nineBits_end _ _⟩
  all_goals
    intros
    contradiction

theorem icpByteWrite (data : Byte) (endFlag : Bool) (delay1 delay2 : Nat) :
    Statement (.icpByteWrite data endFlag delay1 delay2) := by
  intro _ p
  refine ⟨?_, ?_, ?_, ?_, ?_, ?_, ?_, fun v e d1 d2 h => ?_⟩
  case refine_8 =>
    cases h
    exact ⟨_, rfl, nineBits_data _ _, nineBits_end _ _⟩
  all_goals
    intros
    contradiction

theorem hostInit (r : Bool) : Statement (.hostInit r) := call_shape rfl rfl rfl fun _ => rfl

theorem hostExit : Statement .hostExit := call_shape rfl rfl rfl fun _ => rfl

theorem hostDeinit (r : Bool) : Statement (.hostDeinit r) := call_shape rfl rfl rfl fun _ => rfl

theorem hostReentry (d1 d2 d3 : Nat) : Statement (.hostReentry d1 d2 d3) :=
  call_shape rfl rfl rfl fun _ => rfl

theorem hostReentryGlitch (d1 d2 d3 d4 : Nat) : Statement (.hostReentryGlitch d1 d2 d3 d4) :=
  call_shape rfl rfl rfl fun _ => rfl

theorem hostReadDeviceId : Statement .hostReadDeviceId := call_shape rfl rfl rfl fun _ => rfl

theorem hostCheckDeviceId : Statement .hostCheckDeviceId := call_shape rfl rfl rfl fun _ => rfl

theorem hostReadCid : Statement .hostReadCid := call_shape rfl rfl rfl fun _ => rfl

theorem hostReadUid : Statement .hostReadUid := call_shape rfl rfl rfl fun _ => rfl

theorem hostReadUcid : Statement .hostReadUcid := call_shape rfl rfl rfl fun _ => rfl

theorem hostReadFlash (a : BitVec 32) (n : Nat) : Statement (.hostReadFlash a n) :=
  call_shape rfl rfl rfl fun _ => rfl

theorem hostWriteFlash (a : BitVec 32) (n : Nat) (d : List Byte) : Statement (.hostWriteFlash a n d) :=
  call_shape rfl rfl rfl fun _ => rfl

theorem hostMassErase : Statement .hostMassErase := call_shape rfl rfl rfl fun _ => rfl

theorem hostPageErase (a : BitVec 32) : Statement (.hostPageErase a) :=
  call_shape rfl rfl rfl fun _ => rfl

theorem hostVerifyFlash (a : BitVec 32) (n : Nat) (d : List Byte) : Statement (.hostVerifyFlash a n d) :=
  call_shape rfl rfl rfl fun _ => rfl

theorem hostReadConfig : Statement .hostReadConfig := call_shape rfl rfl rfl fun _ => rfl

theorem hostWriteConfig (c : ConfigBytes) (l : Bool) : Statement (.hostWriteConfig c l) :=
  call_shape rfl rfl rfl fun _ => rfl

theorem hostProgramRegion (a : BitVec 32) (n : Nat) (d : List Byte) : Statement (.hostProgramRegion a n d) :=
  call_shape rfl rfl rfl fun _ => rfl

theorem configDecode (b : ConfigBytes) : Statement (.configDecode b) :=
  call_shape rfl rfl rfl fun _ => rfl

theorem configEncode (f : ConfigFlags) : Statement (.configEncode f) :=
  call_shape rfl rfl rfl fun _ => rfl

end Sys2Proof.Laws.EncodedShape
end

