-- ==== Sys2Proof/Tests/Slice0.lean ====
section
/-! SUPPORT. Tests: ill-formed terms, words written out from the encodings of 30_encoding.md, vectors
and program steps of 95_test_vectors.md (named V<n> and P<n> in the docstrings), and for each
obligation with hypotheses a state and operands that meet them. -/

namespace Sys2Proof.Tests

open Sys2Proof Sys2Proof.Machine

-- One theorem after the other: each evaluates in the kernel, and all at once they ask for a thread each.
set_option Elab.async false

/-! ### Helpers -/

/-- The bytes listed and zeros to 64 (R133). -/
def pkt (bs : List Byte) : List Byte := bs ++ List.replicate (64 - bs.length) 0

/-- A header of eight different bytes follows the opcode; the payload begins 8, 9, 10, … -/
def marked (op : Byte) : List Byte :=
  op :: (List.range 63).map fun k => BitVec.ofNat 8 (k + 1)

/-- Bytes `k` to 63 of `marked`. -/
def markedFrom (k : Nat) : List Byte := (List.range (64 - k)).map fun i => BitVec.ofNat 8 (k + i)

/-- The header of `marked`. -/
def h1 : PktHdr := ⟨0x030201, 0x0504, 0x0706⟩

/-- An empty header. -/
def h0 : PktHdr := ⟨0, 0, 0⟩

/-- The outcome is a next state of which `f` holds. -/
def nextIs (f : State → Bool) : Out → Bool
  | .next t => f t
  | .fault _ => false
  | .refused _ => false

/-- Machine D connected, the packet complete in `RXBUF`, the main loop's step next. -/
def ready (seq : Word) (bs : List Byte) : State :=
  { State.reset with
    d := { State.reset.d with
      rxbuf := bufOf (pkt bs), rxhead := 64, rxready := true, seq := seq, cstate := .command,
      connCnt := 0 }
    sched := [.main] }

/-- `s` with `CSTATE` and the address registers of a range in progress. -/
def inRange (c : CState) (start cur last : Word) (s : State) : State :=
  { s with d := { s.d with cstate := c, startAddr := start, curAddr := cur, endAddr := last } }

/-- `s` with the bytes in flash from `a` on. -/
def withFlash (a : Nat) (bs : List Byte) (s : State) : State :=
  { s with flash := (bs.zipIdx.map fun p => (a + p.2, p.1)) ++ s.flash }

/-- `s` with the bytes in the target's flash from `a` on. -/
def withTFlash (a : Nat) (bs : List Byte) (s : State) : State :=
  { s with tflash := (bs.zipIdx.map fun p => (a + p.2, p.1)) ++ s.tflash }

/-- The bytes transmitted. -/
def sent (t : State) : List Byte := t.d.trace.filterMap fun e => match e with
  | .tx b => some b
  | .wdtKick | .err _ _ | .sysTrimRestore | .sysSwReset _ => none

/-- The errors raised. -/
def raised (t : State) : List DEvent := t.d.trace.filter fun e => match e with
  | .err _ _ => true
  | .tx _ | .wdtKick | .sysTrimRestore | .sysSwReset _ => false

/-- The timing test values of R12. -/
def tim : Timing where
  cmdBit := 1
  readBit := 1
  writeBit := 1
  program := 20
  writeHold := 5
  massErase := 65000
  massEraseHold := 500
  pageErase := 10000
  pageEraseHold := 1000
  rstseqBit := 10000
  rstHigh := 5000
  rstLow := 1000
  entryBit := 1
  entrySettle := 10
  exitRstHigh := 5000
  exitRstLow := 10000
  exitBit := 1
  exitSettle := 500

/-- Both machines at reset, the timing registers at the test values. -/
def timed : State := { State.reset with h := { State.reset.h with timing := tim } }

/-- The engine entered, the target ready. -/
def entered : State :=
  { timed with
    h := { timed.h with istate := .entered, pinsOwned := true }
    tgt := { Target.initial with prog := true } }

/-- The engine entered, the target locked. -/
def lockedTgt : State := { entered with tgt := { entered.tgt with locked := true } }

/-- The transaction events of `TRACE_H` (R151). -/
def transactions (t : State) : List HEvent := t.h.trace.filter fun e => match e with
  | .pin _ _ | .dir _ | .delay _ | .sample _ => false
  | .acquire _ | .release _ | .entry | .resetSeq | .exit | .frame _ | .rdByte _ _ | .wrByte _ _ _ _ =>
    true

/-- Zeros of a payload. -/
def zs (n : Nat) : List Byte := List.replicate n 0

/-! ### Ill-formed terms are refused -/

theorem test_wellFormed_refuses_a_payload_of_another_length :
    ([.continuation h0 (zs 55), .updateAprom h0 0 0 1 0 (zs 49), .updateConfig h0 ⟨0, 0, 0, 0, 0⟩ (zs 50),
      .readConfig h0 (zs 57), .eraseAll h0 [], .syncSeq h0 (zs 55), .readRom h0 0 0 1 (zs 51),
      .getFwVersion h0 (zs 55), .runAprom h0 (zs 57), .runLdrom h0 [], .resetCmd h0 (zs 55),
      .connect h0 (zs 57), .getDeviceId h0 (zs 55), .getUid h0 [], .getCid h0 (zs 57),
      .getUcid h0 (zs 55), .getFlashMode h0 (zs 64), .pageErase h0 0 (zs 53),
      .unrecognized 0x77 h0 (zs 55)] : List Instr).map Instr.wellFormed =
      List.replicate 19 false := by decide +kernel

theorem test_wellFormed_refuses_a_known_opcode_in_the_default_row :
    (recognisedOpcodes.map fun op => (Instr.unrecognized op h0 (zs 56)).wellFormed) =
      List.replicate 18 false := by decide +kernel

/-- R196, R199, R205: the length and the array of a call are passed apart. -/
theorem test_wellFormed_takes_arrays_of_any_length :
    ([.hostWriteFlash 0 2 [1], .hostVerifyFlash 0 1 [1, 2], .hostProgramRegion 0 0 [7]] :
      List Instr).map Instr.wellFormed = [true, true, true] := by decide +kernel

theorem test_decoder_refuses_what_is_ill_formed :
    decodePacket (zs 63) = .reject .notAPacket ∧ decodePacket (zs 65) = .reject .notAPacket ∧
    decode Params.testValues (.call .icpEntryPattern) = .reject .notAnOperation ∧
    decode Params.testValues (.reset24 0x9E1CB7) = .reject .notTheResetPattern ∧
    decodeData24 0x000001 = .reject .reservedIcpCode := by decide +kernel

/-! ### Decoding, from words written out by the encodings -/

/-- R116 to R121: every opcode, with every header byte and payload byte different. -/
theorem test_decode_packets :
    decodePacket (marked 0x00) = .ok (.continuation h1 (markedFrom 8)) ∧
    decodePacket (marked 0xA0) =
      .ok (.updateAprom h1 0x0908 0x0B0A 0x0D0C 0x0F0E (markedFrom 16)) ∧
    decodePacket (marked 0xA1) = .ok (.updateConfig h1 ⟨8, 9, 10, 11, 12⟩ (markedFrom 13)) ∧
    decodePacket (marked 0xA2) = .ok (.readConfig h1 (markedFrom 8)) ∧
    decodePacket (marked 0xA3) = .ok (.eraseAll h1 (markedFrom 8)) ∧
    decodePacket (marked 0xA4) = .ok (.syncSeq h1 (markedFrom 8)) ∧
    decodePacket (marked 0xA5) = .ok (.readRom h1 0x0908 0x0B0A 0x0D0C (markedFrom 14)) ∧
    decodePacket (marked 0xA6) = .ok (.getFwVersion h1 (markedFrom 8)) ∧
    decodePacket (marked 0xAB) = .ok (.runAprom h1 (markedFrom 8)) ∧
    decodePacket (marked 0xAC) = .ok (.runLdrom h1 (markedFrom 8)) ∧
    decodePacket (marked 0xAD) = .ok (.resetCmd h1 (markedFrom 8)) ∧
    decodePacket (marked 0xAE) = .ok (.connect h1 (markedFrom 8)) ∧
    decodePacket (marked 0xB1) = .ok (.getDeviceId h1 (markedFrom 8)) ∧
    decodePacket (marked 0xB2) = .ok (.getUid h1 (markedFrom 8)) ∧
    decodePacket (marked 0xB3) = .ok (.getCid h1 (markedFrom 8)) ∧
    decodePacket (marked 0xB4) = .ok (.getUcid h1 (markedFrom 8)) ∧
    decodePacket (marked 0xCA) = .ok (.getFlashMode h1 (markedFrom 8)) ∧
    decodePacket (marked 0xD5) = .ok (.pageErase h1 0x0908 (markedFrom 10)) ∧
    decodePacket (marked 0xAA) = .ok (.unrecognized 0xAA h1 (markedFrom 8)) := by decide +kernel

/-- V70 to V82: the frames and the patterns, bit by bit. -/
theorem test_decode_icp_words :
    decodeData24 0b000000000000000000000000 = .ok (.icpReadFlash 0) ∧
    decodeData24 0b000000000010010000000000 = .ok (.icpReadFlash 0x0090) ∧
    decodeData24 0b110000000000000000000000 = .ok (.icpReadFlash 0x30000) ∧
    decodeData24 0b000000000010000000100001 = .ok (.icpWriteFlash 0x0080) ∧
    decodeData24 0b111010010110100101100110 = .ok (.icpMassErase 0x3A5A5) ∧
    decodeData24 0b110000000000000000100010 = .ok (.icpPageErase 0x30000) ∧
    decodeData24 0b000011011110000000100010 = .ok (.icpPageErase 0x3780) ∧
    decodeData24 0b000000000000000000001100 = .ok (.icpReadDeviceId 0) ∧
    decodeData24 0b000000000000000000001011 = .ok (.icpReadCid 0) ∧
    decodeData24 0b000000000000101111000100 = .ok (.icpReadUid 0x2F) ∧
    decodeData24 0b010110101010010100000011 = .ok .icpEntryPattern ∧
    decodeData24 0b000011110111100011110000 = .ok .icpExitPattern ∧
    decode Params.testValues (.reset24 0b100111100001110010110110) = .ok .icpResetSeq := by
  decide +kernel

/-- R129, R130: eight data bits, the most significant first, then the end flag. -/
theorem test_decode_nine_bits :
    decode Params.testValues (.read9 0b000000001) = .ok (.icpByteRead true) ∧
    decode Params.testValues (.read9 0b010100000) = .ok (.icpByteRead false) ∧
    decode Params.testValues (.write9 0b111011111 20 5) = .ok (.icpByteWrite 0xEF true 20 5) ∧
    decode Params.testValues (.write9 0b010100000 20 5) = .ok (.icpByteWrite 0x50 false 20 5) := by
  decide +kernel

/-- The called operations, which have no bits of their own (R3, R440). -/
theorem test_decode_calls :
    (([.hostInit true, .hostExit, .hostDeinit false, .hostReentry 1 2 3, .hostReentryGlitch 1 2 3 4,
      .hostReadDeviceId, .hostCheckDeviceId, .hostReadCid, .hostReadUid, .hostReadUcid,
      .hostReadFlash 16 0, .hostWriteFlash 16 2 [1, 2], .hostMassErase, .hostPageErase 0x3780,
      .hostVerifyFlash 16 1 [7], .hostReadConfig, .hostWriteConfig ⟨1, 2, 3, 4, 5⟩ true,
      .hostProgramRegion 16 2 [1, 2], .configDecode ⟨1, 2, 3, 4, 5⟩,
      .configEncode (configDecode ⟨1, 2, 3, 4, 5⟩)] : List Instr).all fun i =>
        decide (decode Params.testValues (.call i) = .ok i)) = true := by decide +kernel

/-- Words numbered as the opcode table numbers them: the first byte of a packet lowest, the 24 bits of
the ICP wire, nine bits of a byte read. -/
theorem test_decodeTableWord :
    decodeTableWord 8 0xAE = some (.connect h0 (zs 56)) ∧
    decodeTableWord 512 (0x95 * 2 ^ 64 + 0xD5) = some (.pageErase h0 0x0095 (zs 54)) ∧
    decodeTableWord 8 0x77 = some (.unrecognized 0x77 h0 (zs 56)) ∧
    decodeTableWord 24 0x002021 = some (.icpWriteFlash 0x80) ∧
    decodeTableWord 24 0x9E1CB6 = some .icpResetSeq ∧
    decodeTableWord 9 1 = some (.icpByteRead true) := by decide +kernel

/-- A placed packet and a placed wire unit are what the very next step runs (log entry 5). -/
theorem test_withFetchWord :
    nextIs (fun t => sent t == pkt [0xA6, 0, 0, 0, 1, 0, 0, 0, 0x27])
      (step (State.reset.withFetchWord 8 0xA6)) = true ∧
    nextIs (fun t => t.h.ret == some (.eBadState, .bytes []))
      (step (State.reset.withFetchWord 24 0x002400)) = true := by decide +kernel

/-- R131, U9, R204: what is turned away on the call port is answered and nothing is done (log
entry 23). -/
theorem test_turned_away :
    nextIs (fun t => t.h.trace == [] && t.h.ret == some (.eBadArg, .bytes []))
      (step { entered with sched := [.call (.data24 0x000001)] }) = true ∧
    nextIs (fun t => t.h.trace == [] && t.h.ret == some (.eBadState, .bytes []))
      (step { timed with sched := [.call (.data24 0x000001)] }) = true ∧
    nextIs (fun t => t.h.trace == [] && t.h.ret == some (.eBadArg, .bytes []) && t.d.trace == [])
      (step { timed with sched := [.call (.packet (pkt [0xA6]))] }) = true := by decide +kernel

/-! ### Transport and main loop -/

/-- `s` after the bytes were received and the main loop stepped, in the order given. -/
def after (evs : List Event) (s : State) : Out := Host.Core.run Sys2Proof.core evs.length { s with sched := evs }

/-- V5. -/
theorem test_rejected_first_byte :
    nextIs (fun t => raised t == [.err .frameBadConnect 0x55] && t.d.rxhead == 0 &&
      t.d.cstate == .disconnected && t.d.idleCnt == 0) (after [.rx 0x55] State.reset) = true := by
  decide +kernel

/-- V6, V7. -/
theorem test_bad_magic :
    nextIs (fun t => raised t == [.err .frameBadMagic 2] && t.d.rxhead == 0 &&
      t.d.cstate == .disconnected && t.d.idleCnt == 90)
      (after [.rx 0xAE, .rx 0, .rx 1] State.reset) = true := by decide +kernel

/-- V14. -/
theorem test_overrun :
    nextIs (fun t => raised t == [.err .rxOverrun 0x99] && t.d.rxhead == 64 && t.d.rxready &&
      t.d.rxbuf == (ready 1 [0xA6]).d.rxbuf) (after [.rx 0x99] (ready 1 [0xA6])) = true := by
  decide +kernel

/-- V11, V12, with ten bytes in the buffer. -/
theorem test_idle_timeout :
    nextIs (fun t => raised t == [.err .frameIdleTimeout 10] && t.d.rxhead == 0 &&
      t.d.cstate == .command && t.d.idleExpired && t.d.mphase == .m1)
      (after [.tick, .main, .main, .main] { ready 1 [0xA6] with
        d := { (ready 1 [0xA6]).d with rxhead := 10, rxready := false, idleCnt := 1 } }) = true := by
  decide +kernel

/-- V18. -/
theorem test_connection_timeout :
    nextIs (fun t => t.d.trace == [.err .connTimeout 0, .sysTrimRestore, .sysSwReset .aprom] &&
      t.d.terminal == .bootAprom && !t.d.ie && !t.d.iapen && t.d.mphase == .m2)
      (after [.tick, .main, .main]
        { State.reset with d := { State.reset.d with connCnt := 1 } }) = true := by decide +kernel

/-- V32. -/
theorem test_sequence_mismatch :
    nextIs (fun t => t.d.trace == [.err .seqMismatch 5] && t.d.seq == 1 && t.d.rxhead == 0 &&
      !t.d.rxready && t.d.ie)
      (step { ready 1 [0xA6, 0, 0, 0, 5] with
        params := { Params.testValues with seqPolicy := .mustMatch } }) = true := by decide +kernel

/-- V3, V4. -/
theorem test_checksum_extremes :
    checksum (bufOf (List.replicate 64 0xFF)) = 0x3FC0 ∧ checksum (bufOf (pkt [])) = 0 := by
  decide +kernel

/-- V23, its first four events. -/
theorem test_watchdog_kicks :
    (transmit { ready 1 [] with params := { Params.testValues with wdtBuild := true } }).d.trace.take 4 =
      [.tx 0, .wdtKick, .tx 0, .wdtKick] := by decide +kernel

/-! ### Commands of machine D -/

/-- V25. -/
theorem test_connect :
    nextIs (fun t => sent t == pkt [0xAE, 0, 0, 0, 1] && t.d.cstate == .command && t.d.seq == 1 &&
      t.d.connCnt == 0)
      (step { ready 0 [0xAE] with
        d := { (ready 0 [0xAE]).d with cstate := .connecting, connCnt := 1000 } }) = true := by
  decide +kernel

/-- V31. -/
theorem test_connect_resets_seq :
    nextIs (fun t => sent t == pkt [0xB1, 0, 0, 0, 1] && t.d.seq == 1)
      (step { ready 3 [0xAE, 0, 0, 0, 3] with
        params := { Params.testValues with connectResetsSeq := true } }) = true := by decide +kernel

/-- V26. -/
theorem test_syncSeq :
    nextIs (fun t => sent t == pkt [0xA5, 0, 0, 0, 2] && t.d.seq == 2)
      (step (ready 1 [0xA4, 0, 0, 0, 1])) = true := by decide +kernel

/-- V27. -/
theorem test_getFwVersion :
    nextIs (fun t => sent t == pkt [0xA7, 0, 0, 0, 2, 0, 0, 0, 0x27] && t.d.rxhead == 0 && t.d.ie &&
      t.d.mphase == .m2) (step (ready 1 [0xA6, 0, 0, 0, 1])) = true := by decide +kernel

/-- V30: the counter wraps. -/
theorem test_getFwVersion_wraps :
    nextIs (fun t => sent t == pkt [0xA4, 2, 0, 0, 0, 0, 0, 0, 0x27] && t.d.seq == 0)
      (step (ready 0xFFFF [0xA6, 0, 0, 0, 0xFF, 0xFF])) = true := by decide +kernel

/-- V28. -/
theorem test_getDeviceId :
    nextIs (fun t => sent t == pkt [0xB3, 0, 0, 0, 3, 0, 0, 0, 0x50, 0x36])
      (step (ready 2 [0xB1, 0, 0, 0, 2])) = true := by decide +kernel

/-- V29. -/
theorem test_getUid :
    nextIs (fun t => sent t == pkt [0xB4, 0, 0, 0, 3, 0, 0, 0, 0x10, 0x11, 0x12, 0x13, 0x14, 0x15,
        0x16, 0x17, 0x18, 0x19, 0x1A, 0x1B])
      (step (ready 2 [0xB2, 0, 0, 0, 2])) = true := by decide +kernel

/-- V29a. -/
theorem test_getCid :
    nextIs (fun t => sent t == pkt [0xB5, 0, 0, 0, 3, 0, 0, 0, 0xDA])
      (step (ready 2 [0xB3, 0, 0, 0, 2])) = true := by decide +kernel

/-- V29b. -/
theorem test_getUcid :
    nextIs (fun t => sent t == pkt [0xB6, 0, 0, 0, 3, 0, 0, 0, 0x20, 0x21, 0x22, 0x23, 0x24, 0x25,
        0x26, 0x27, 0x28, 0x29, 0x2A, 0x2B, 0x2C, 0x2D, 0x2E, 0x2F])
      (step (ready 2 [0xB4, 0, 0, 0, 2])) = true := by decide +kernel

/-- V29c. -/
theorem test_getFlashMode :
    nextIs (fun t => sent t == pkt [0xCC, 0, 0, 0, 3, 0, 0, 0, 2])
      (step (ready 2 [0xCA, 0, 0, 0, 2])) = true := by decide +kernel

/-- V29d. -/
theorem test_readConfig :
    nextIs (fun t => sent t == pkt [0xA4, 0, 0, 0, 3, 0, 0, 0, 0xFF, 0xFF, 0xFF, 0xFF, 0xFF])
      (step (ready 2 [0xA2, 0, 0, 0, 2])) = true := by decide +kernel

/-- V29e, from a sector of zeros (V58). -/
theorem test_updateConfig :
    nextIs (fun t => sent t == pkt [0x7C, 4, 0, 0, 3, 0, 0, 0, 0x7F, 0xFD, 0xFF, 0xFF, 0x5F] &&
        t.flash == [(0x30000, 0x7F), (0x30001, 0xFD), (0x30004, 0x5F)])
      (step (withFlash 0x30000 (zs 5)
        (ready 2 [0xA1, 0, 0, 0, 2, 0, 0, 0, 0x7F, 0xFD, 0xFF, 0xFF, 0x5F]))) = true := by
  decide +kernel

/-- V29f: APROM is erased up to its last byte, LDROM and the config are not. -/
theorem test_eraseAll :
    nextIs (fun t => sent t == pkt [0xA5, 0, 0, 0, 3] && t.flash == [(0x3800, 2), (0x30000, 3)])
      (step { ready 2 [0xA3, 0, 0, 0, 2] with
        flash := [(0, 1), (0x37FF, 1), (0x3800, 2), (0x30000, 3)] }) = true := by decide +kernel

/-- V29g. -/
theorem test_pageErase :
    nextIs (fun t => sent t == pkt [0x6C, 1, 0, 0, 3] && t.flash == [(0x7F, 1), (0x100, 4)])
      (step { ready 2 [0xD5, 0, 0, 0, 2, 0, 0, 0, 0x95] with
        flash := [(0x7F, 1), (0x80, 2), (0xFF, 3), (0x100, 4)] }) = true := by decide +kernel

/-- V42. -/
theorem test_pageErase_of_ldrom :
    nextIs (fun t => sent t == pkt [0xED, 0xFE, 0, 0, 6] && raised t == [.err .nackRange 0x3800] &&
        t.flash == [(0x3800, 2)])
      (step { ready 5 [0xD5, 0, 0, 0, 5, 0, 0, 0, 0, 0x38] with flash := [(0x3800, 2)] }) = true := by
  decide +kernel

/-- V29h. -/
theorem test_runAprom :
    nextIs (fun t => t.d.trace == [.sysTrimRestore, .sysSwReset .aprom] && t.d.terminal == .bootAprom &&
        t.d.seq == 2 && !t.d.ie && !t.d.iapen && t.d.rxready && t.d.rxhead == 64 && t.d.mphase == .m1)
      (step (ready 1 [0xAB, 0, 0, 0, 1])) = true := by decide +kernel

/-- V29i. -/
theorem test_resetCmd :
    nextIs (fun t => t.d.trace == [.sysTrimRestore, .sysSwReset .aprom] && t.d.terminal == .bootAprom)
      (step (ready 1 [0xAD, 0, 0, 0, 1])) = true := by decide +kernel

/-- V29j. -/
theorem test_runLdrom :
    nextIs (fun t => t.d.trace == [.sysTrimRestore, .sysSwReset .ldrom] && t.d.terminal == .bootLdrom)
      (step (ready 1 [0xAC, 0, 0, 0, 1])) = true := by decide +kernel

/-- P2 step 4: one byte at the last address of APROM. -/
theorem test_updateAprom :
    nextIs (fun t => sent t == pkt [0x83, 2, 0, 0, 3] &&
        t.flash == [(0x377F, 1), (0x37FF, 0xAA), (0x3800, 3)] &&
        t.d.cstate == .command && t.d.curAddr == 0x3800 && t.d.endAddr == 0x3800)
      (step { ready 2 [0xA0, 0, 0, 0, 2, 0, 0, 0, 0xFF, 0x37, 0, 0, 1, 0, 0, 0, 0xAA] with
        flash := [(0x377F, 1), (0x3780, 2), (0x3800, 3)] }) = true := by decide +kernel

/-- V44: a cell that reads back 00 after programming 80. -/
theorem test_updateAprom_halts :
    nextIs (fun t => t.d.trace == [.err .fatalVerify 0x0205] && t.d.terminal == .haltVerify &&
        t.d.curAddr == 0x0205 && t.d.cstate == .updating && !t.d.ie && t.d.rxhead == 64 &&
        t.d.seq == 2 && t.flash == [(0x205, 0)])
      (step { ready 1 [0xA0, 0, 0, 0, 1, 0, 0, 0, 0, 2, 0, 0, 0x10, 0, 0, 0, 0xFF, 0xFF, 0xFF, 0xFF,
          0xFF, 0x80, 0x11] with worn := [(0x205, 0)] }) = true := by decide +kernel

/-- P5 step 2: across the end of APROM. -/
theorem test_readRom :
    nextIs (fun t => sent t == pkt [0xE1, 1, 0, 0, 2, 0, 0, 0, 1, 2, 3, 4, 5, 6, 7, 8] &&
        t.d.cstate == .command && t.d.curAddr == 0x3804)
      (step (withFlash 0x37FC [1, 2, 3, 4, 5, 6, 7, 8]
        (ready 1 [0xA5, 0, 0, 0, 1, 0, 0, 0, 0xFC, 0x37, 0, 0, 8]))) = true := by decide +kernel

/-- V43. -/
theorem test_readRom_out_of_range :
    nextIs (fun t => sent t == pkt [0x0B, 0xFF, 0, 0, 7] && raised t == [.err .nackRange 0x4700] &&
        t.d.cstate == .command)
      (step (ready 6 [0xA5, 0, 0, 0, 6, 0, 0, 0, 0, 0x47, 0, 0, 1, 1])) = true := by decide +kernel

/-- P1 step 4 with two of its bytes. -/
theorem test_continuation_programs :
    nextIs (fun t => sent t == pkt [0xB0, 0, 0, 0, 4] && t.flash == [(0xCA, 0x53), (0xCB, 0x5A)] &&
        t.d.cstate == .command && t.d.curAddr == 0xCC)
      (step (inRange .updating 0x90 0xCA 0xCC (ready 3 [0, 0, 0, 0, 3, 0, 0, 0, 0x53, 0x5A]))) =
        true := by decide +kernel

/-- P1 step 6. -/
theorem test_continuation_dumps :
    nextIs (fun t => sent t == pkt [5, 0, 0, 0, 6, 0, 0, 0, 0x8B, 0x92, 0x99, 0xA0] &&
        t.d.cstate == .command)
      (step (withFlash 0xC8 [0x8B, 0x92, 0x99, 0xA0]
        (inRange .dumping 0x90 0xC8 0xCC (ready 5 [0, 0, 0, 0, 5])))) = true := by decide +kernel

/-- P2 step 5. -/
theorem test_unrecognized :
    nextIs (fun t => sent t == pkt [0x85, 0xFF, 0, 0, 4] && raised t == [.err .nackOpcode 0x77] &&
        t.d.cstate == .command) (step (ready 3 [0x77, 0, 0, 0, 3])) = true := by decide +kernel

/-! ### Units of the ICP wire -/

/-- The end of V83: a 24-bit frame is 121 pin events and its record, 48 microseconds. -/
theorem test_icpReadFlash :
    nextIs (fun t => t.h.trace.length == 122 && waited t.h.trace == 48 &&
        t.h.trace.getLast? == some (.frame 0x002400) && t.tgt.cmd == some .readFlash &&
        t.tgt.ptr == 0x90) (exec (.icpReadFlash 0x90) entered) = true := by decide +kernel

/-- V78. -/
theorem test_icpReadUid :
    nextIs (fun t => t.h.trace.getLast? == some (.frame 0x000BC4) && t.tgt.cmd == some .readUid)
      (exec (.icpReadUid 0x2F) entered) = true := by decide +kernel

/-- V77. -/
theorem test_icpReadCid :
    nextIs (fun t => t.h.trace.getLast? == some (.frame 0x00000B) && t.tgt.cmd == some .readCid)
      (exec (.icpReadCid 0) entered) = true := by decide +kernel

/-- V76. -/
theorem test_icpReadDeviceId :
    nextIs (fun t => t.h.trace.getLast? == some (.frame 0x00000C) && t.tgt.cmd == some .readDeviceId)
      (exec (.icpReadDeviceId 0) entered) = true := by decide +kernel

/-- V73a. -/
theorem test_icpWriteFlash :
    nextIs (fun t => t.h.trace.getLast? == some (.frame 0xC00021) && t.tgt.cmd == some .writeFlash)
      (exec (.icpWriteFlash 0x30000) entered) = true := by decide +kernel

/-- V75a. -/
theorem test_icpPageErase :
    nextIs (fun t => t.h.trace.getLast? == some (.frame 0x0DE022) && t.tgt.cmd == some .pageErase)
      (exec (.icpPageErase 0x3780) entered) = true := by decide +kernel

/-- V74. -/
theorem test_icpMassErase :
    nextIs (fun t => t.h.trace.getLast? == some (.frame 0xE96966) && t.tgt.armed)
      (exec (.icpMassErase 0x3A5A5) entered) = true := by decide +kernel

/-- R386: any other parameter does not arm the erase. -/
theorem test_icpMassErase_of_another_parameter :
    nextIs (fun t => t.tgt.cmd == some .massErase && !t.tgt.armed)
      (exec (.icpMassErase 0x3A5A4) entered) = true := by decide +kernel

/-- V80, and the lock latched from a locked sector (R382). -/
theorem test_icpEntryPattern :
    nextIs (fun t => t.h.trace.take 6 == [.dir .output, .pin .dat false, .delay 1, .pin .clk true,
        .delay 1, .pin .clk false] && t.h.pins.datOut && t.tgt.locked && t.tgt.prog)
      (exec .icpEntryPattern { entered with tgt := Target.initial, tflash := [(0x30000, 0xFD)] }) =
        true := by decide +kernel

/-- V81. -/
theorem test_icpExitPattern :
    nextIs (fun t => t.h.trace.length == 123 && waited t.h.trace == 548 && !t.tgt.prog)
      (exec .icpExitPattern entered) = true := by decide +kernel

/-- V82. -/
theorem test_icpResetSeq :
    nextIs (fun t => (t.h.trace.filterMap fun e => match e with
        | .pin .rst v => some v
        | _ => none) == [true, false, false, true, true, true, true, false, false, false, false, true,
          true, true, false, false, true, false, true, true, false, true, true, false] &&
        t.h.trace.getLast? == some .resetSeq) (exec .icpResetSeq entered) = true := by decide +kernel

/-- V84. -/
theorem test_icpByteRead :
    nextIs (fun t => t.h.trace.length == 52 && waited t.h.trace == 21 &&
        t.h.trace.take 5 == [.dir .input, .delay 1, .delay 1, .sample false, .pin .clk true] &&
        t.h.ret == some (.ok, .bytes [0x50]) && t.tgt.cmd == some .readDeviceId && t.tgt.ptr == 1)
      (exec (.icpByteRead false) { entered with tgt := { entered.tgt with cmd := some .readDeviceId } }) =
        true := by decide +kernel

/-- V101, its first read: the end flag closes the command. -/
theorem test_icpByteRead_end :
    nextIs (fun t => t.h.ret == some (.ok, .bytes [1]) && t.tgt.cmd == none)
      (exec (.icpByteRead true) (withTFlash 0 [1, 2, 3, 4]
        { entered with tgt := { entered.tgt with cmd := some .readFlash } })) = true := by decide +kernel

/-- V85. -/
theorem test_icpByteWrite :
    nextIs (fun t => t.h.trace.length == 48 && waited t.h.trace == 41 &&
        t.h.trace.getLast? == some (.wrByte 0xEF true 20 5) && t.tgt.cmd == none &&
        t.tflash == [(0x80, 0xE0)])
      (exec (.icpByteWrite 0xEF true 20 5) { entered with
        tflash := [(0x80, 0xF0)],
        tgt := { entered.tgt with cmd := some .writeFlash, ptr := 0x80 } }) = true := by decide +kernel

/-! ### Operations of machine H -/

/-- V86. -/
theorem test_init :
    nextIs (fun t => t.h.trace.length == 133 && t.h.istate == .entered && t.h.pinsOwned &&
        t.h.pins == ⟨true, .output, false, false, false⟩ && t.tgt.prog)
      (exec (.hostInit false) timed) = true := by decide +kernel

/-- V87. -/
theorem test_init_with_reset :
    nextIs (fun t => t.h.trace.length == 178 && waited t.h.trace == 240058)
      (exec (.hostInit true) timed) = true := by decide +kernel

/-- V90. -/
theorem test_exit :
    nextIs (fun t => t.h.trace.take 4 == [.pin .rst true, .delay 5000, .pin .rst false, .delay 10000] &&
        t.h.trace.getLast? == some (.pin .rst true) && t.h.istate == .exited && t.h.pinsOwned &&
        t.h.pins.rst) (exec .hostExit entered) = true := by decide +kernel

/-- V89, its last call: the target is held in reset. -/
theorem test_deinit :
    nextIs (fun t => (t.h.trace.drop 127) == [.pin .rst false, .release true] &&
        t.h.istate == .exited && !t.h.pinsOwned && !t.h.pins.rst)
      (exec (.hostDeinit true) entered) = true := by decide +kernel

/-- V89: a zero first delay skips the release pulse. -/
theorem test_reentry :
    nextIs (fun t => t.h.trace.take 3 == [.pin .rst false, .delay 1000, .dir .output] &&
        t.h.trace.drop 123 == [.delay 10, .entry] && t.h.istate == .entered)
      (exec (.hostReentry 0 1000 10) entered) = true := by decide +kernel

/-- R162. -/
theorem test_reentryGlitch :
    nextIs (fun t => t.h.trace.take 10 == [.pin .rst true, .delay 1, .pin .rst false, .delay 2,
        .pin .rst true, .pin .trig true, .delay 3, .pin .rst false, .delay 4, .pin .trig false])
      (exec (.hostReentryGlitch 1 2 3 4) entered) = true := by decide +kernel

/-- V91. -/
theorem test_readDeviceId :
    nextIs (fun t => transactions t == [.frame 0x00000C, .rdByte 0x50 false, .rdByte 0x36 true] &&
        t.h.ret == some (.ok, .word 0x3650)) (exec .hostReadDeviceId entered) = true := by
  decide +kernel

/-- P3 step 2. -/
theorem test_checkDeviceId :
    nextIs (fun t => t.h.trace.length == 226 && t.h.ret == some (.ok, .word 0x3650))
      (exec .hostCheckDeviceId entered) = true := by decide +kernel

/-- R191: another identity is expected. -/
theorem test_checkDeviceId_mismatch :
    nextIs (fun t => t.h.ret == some (.eDeviceId, .word 0x3650))
      (exec .hostCheckDeviceId { entered with
        params := { Params.testValues with expectedDid := 0x3651 } }) = true := by decide +kernel

/-- V92, and V98: a locked target answers FF. -/
theorem test_readCid :
    nextIs (fun t => transactions t == [.frame 0x00000B, .rdByte 0xDA true] &&
        t.h.ret == some (.ok, .bytes [0xDA])) (exec .hostReadCid entered) = true ∧
    nextIs (fun t => t.h.ret == some (.ok, .bytes [0xFF])) (exec .hostReadCid lockedTgt) = true := by
  decide +kernel

/-- V93, its first two bytes. -/
theorem test_readUid :
    nextIs (fun t => transactions t ==
          [.frame 0x000004, .rdByte 0x10 true, .frame 0x000044, .rdByte 0x11 true] &&
        t.h.ret == some (.ok, .bytes [0x10, 0x11]))
      (exec .hostReadUid { entered with ident := { Identity.testValues with uid := [0x10, 0x11] } }) =
        true := by decide +kernel

/-- V94, its first two bytes. -/
theorem test_readUcid :
    nextIs (fun t => transactions t ==
          [.frame 0x000804, .rdByte 0x20 true, .frame 0x000844, .rdByte 0x21 true] &&
        t.h.ret == some (.ok, .bytes [0x20, 0x21]))
      (exec .hostReadUcid { entered with ident := { Identity.testValues with ucid := [0x20, 0x21] } }) =
        true := by decide +kernel

/-- V101, its last call. -/
theorem test_readFlash :
    nextIs (fun t => transactions t == [.frame 0x000080, .rdByte 3 false, .rdByte 4 true] &&
        t.h.ret == some (.ok, .bytes [3, 4]))
      (exec (.hostReadFlash 2 2) (withTFlash 0 [1, 2, 3, 4] entered)) = true := by decide +kernel

/-- V89 and V102: refused before any pin event. -/
theorem test_readFlash_refused :
    nextIs (fun t => t.h.trace == [] && t.h.ret == some (.eBadState, .bytes []))
      (exec (.hostReadFlash 0 1) timed) = true ∧
    nextIs (fun t => t.h.trace == [] && t.h.ret == some (.eBadArg, .bytes []))
      (exec (.hostReadFlash 0 0) entered) = true := by decide +kernel

/-- V95: a byte is ANDed in. -/
theorem test_writeFlash :
    nextIs (fun t => transactions t == [.frame 0x000421, .wrByte 0x3C true 20 5] &&
        t.tflash == [(0x10, 0x30)])
      (exec (.hostWriteFlash 0x10 1 [0x3C]) { entered with tflash := [(0x10, 0xF0)] }) = true := by
  decide +kernel

/-- P3 step 4. -/
theorem test_writeFlash_sequence :
    nextIs (fun t => transactions t == [.frame 0x002021, .wrByte 0xDE false 20 5,
          .wrByte 0xAD false 20 5, .wrByte 0xBE false 20 5, .wrByte 0xEF true 20 5] &&
        t.tflash == [(0x80, 0xDE), (0x81, 0xAD), (0x82, 0xBE), (0x83, 0xEF)])
      (exec (.hostWriteFlash 0x80 4 [0xDE, 0xAD, 0xBE, 0xEF]) entered) = true := by decide +kernel

/-- R196: an array longer than the length gives its first elements. -/
theorem test_writeFlash_of_a_longer_array :
    nextIs (fun t => transactions t == [.frame 0x000421, .wrByte 0x3C true 20 5])
      (exec (.hostWriteFlash 0x10 1 [0x3C, 0x55]) entered) = true := by decide +kernel

/-- R196: an array shorter than the length is written as far as it goes; the rest is free. -/
theorem test_writeFlash_of_a_shorter_array :
    nextIs (fun t => (transactions t).take 2 == [.frame 0x000421, .wrByte 0x3C false 20 5] &&
        (transactions t).length == 3)
      (exec (.hostWriteFlash 0x10 2 [0x3C]) entered) = true := by decide +kernel

/-- V99. -/
theorem test_massErase :
    nextIs (fun t => transactions t == [.frame 0xE96966, .wrByte 0xFF true 65000 500] &&
        t.tflash == [] && !t.tgt.locked)
      (exec .hostMassErase { lockedTgt with tflash := [(0, 1), (0x47FF, 2), (0x30000, 0x7D)] }) =
        true := by decide +kernel

/-- R385: one page, and nothing in a locked target. -/
theorem test_hostPageErase :
    nextIs (fun t => transactions t == [.frame 0x004022, .wrByte 0xFF true 10000 1000] &&
        t.tflash == [(0xFF, 1), (0x180, 4)])
      (exec (.hostPageErase 0x100)
        { entered with tflash := [(0xFF, 1), (0x100, 2), (0x17F, 3), (0x180, 4)] }) = true ∧
    nextIs (fun t => t.tflash == [(0x100, 2)])
      (exec (.hostPageErase 0x100) { lockedTgt with tflash := [(0x100, 2)] }) = true := by decide +kernel

/-- P3 step 6. -/
theorem test_verifyFlash :
    nextIs (fun t => transactions t == [.frame 0x002000, .rdByte 0xDE false, .rdByte 0xAD false,
          .rdByte 0xBE false, .rdByte 0xEF true] && t.h.ret == some (.eVerify, .index 2))
      (exec (.hostVerifyFlash 0x80 4 [0xDE, 0xAD, 0xBF, 0xEF])
        (withTFlash 0x80 [0xDE, 0xAD, 0xBE, 0xEF] entered)) = true := by decide +kernel

/-- R199: elements past the length are not compared. -/
theorem test_verifyFlash_of_a_longer_array :
    nextIs (fun t => t.h.ret == some (.ok, .bytes []))
      (exec (.hostVerifyFlash 0x80 1 [0xDE, 0xAD]) (withTFlash 0x80 [0xDE, 0xAC] entered)) = true := by
  decide +kernel

/-- R196, R199, R205: a zero length with an array that is not empty (V102 for the read). -/
theorem test_zero_lengths :
    (([.hostWriteFlash 0 0 [1], .hostVerifyFlash 0 0 [1], .hostProgramRegion 0 0 [1]] :
      List Instr).all fun i => nextIs (fun t => t.h.trace == [] &&
        t.h.ret == some (.eBadArg, .bytes [])) (exec i entered)) = true := by decide +kernel

/-- V98. -/
theorem test_hostReadConfig :
    nextIs (fun t => t.h.ret == some (.ok, .bytes [0x7D, 0xFD, 0xFF, 0xFF, 0x5F]))
      (exec .hostReadConfig (withTFlash 0x30000 [0x7D, 0xFD, 0xFF, 0xFF, 0x5F] entered)) = true ∧
    nextIs (fun t => t.h.ret == some (.ok, .bytes [0xFF, 0xFF, 0xFF, 0xFF, 0xFF]))
      (exec .hostReadConfig (withTFlash 0x30000 [0x7D, 0xFD, 0xFF, 0xFF, 0x5F] lockedTgt)) = true := by
  decide +kernel

/-- V97: the sector as written and locked, the target not yet locked. -/
theorem test_writeConfig :
    nextIs (fun t => t.h.ret == some (.ok, .bytes []) && !t.tgt.locked &&
        t.tflash == [(0x30000, 0x7D), (0x30001, 0xFD), (0x30004, 0x5F)])
      (exec (.hostWriteConfig ⟨0x7D, 0xFD, 0xFF, 0xFF, 0x5F⟩ true) entered) = true := by decide +kernel

/-- R201: a verification that fails, here because the target is locked, leaves the lock unwritten. -/
theorem test_writeConfig_mismatch :
    nextIs (fun t => t.h.ret == some (.eVerify, .index 0) && t.tflash == [(0x30001, 0x12)])
      (exec (.hostWriteConfig ⟨0x7D, 0xFD, 0xFF, 0xFF, 0x5F⟩ true)
        { lockedTgt with tflash := [(0x30001, 0x12)] }) = true := by decide +kernel

/-- V96 with four stale cells. -/
theorem test_programRegion :
    nextIs (fun t => t.h.ret == some (.ok, .bytes []) &&
        t.tflash == [(0xFF, 0), (0x17E, 9), (0x17F, 8), (0x180, 7), (0x181, 6), (0x200, 0)])
      (exec (.hostProgramRegion 0x17E 4 [9, 8, 7, 6])
        { entered with tflash := [(0xFF, 0), (0x100, 0), (0x1FF, 0), (0x200, 0)] }) = true := by
  decide +kernel

/-- V60, V61. -/
theorem test_configDecode :
    configDecode ⟨0xFF, 0xFF, 0xFF, 0xFF, 0xFF⟩ =
      ⟨true, true, true, true, true, 7, true, 3, true, 0xF, 0x49, 0xF8, 0x4B, 0xFF, 0x0F⟩ ∧
    nextIs (fun t => match t.h.ret with
        | some (.ok, .flags f) => !f.cbs && f.lock && f.ldsize == 5 && f.wdten == 5 && f.cbov == 3
        | _ => false)
      (exec (.configDecode ⟨0x7F, 0xFD, 0xFF, 0xFF, 0x5F⟩) timed) = true := by decide +kernel

/-- V65, V67. -/
theorem test_configEncode :
    nextIs (fun t => t.h.ret == some (.ok, .bytes [0xFF, 0xFB, 0xFF, 0xFF, 0xFF]))
      (exec (.configEncode { configDecode ⟨0xFF, 0xFF, 0xFF, 0xFF, 0xFF⟩ with ldsize := 3 }) timed) =
        true ∧
    nextIs (fun t => t.h.ret == some (.ok, .bytes [0xB6, 0x07, 0xB4, 0, 0xF0]))
      (exec (.configEncode ⟨true, true, true, true, true, 7, true, 3, true, 0xF, 0, 0, 0, 0, 0⟩) timed) =
        true := by decide +kernel

/-! ### Resets and the chip -/

/-- R363, R467: the config decides the sizes at the reset, not before. -/
theorem test_reset_moves_the_boundary :
    nextIs (fun t => t.params.ldromSize == 4096 && t.params.apromSize == 0x3800)
      (step (ready 2 [0xA1, 0, 0, 0, 2, 0, 0, 0, 0x7F, 0xFD, 0xFF, 0xFF, 0x5F])) = true ∧
    nextIs (fun t => t.params.ldromSize == 2048 && t.params.apromSize == 0x4000)
      (step { withFlash 0x30001 [0xFD] (ready 2 []) with sched := [.resetD] }) = true := by
  decide +kernel

/-- R452: of four pages, two erased at the reset. -/
theorem test_reset_inside_an_erase :
    nextIs (fun t => t.flash == [(0x100, 3), (0x180, 4)] && t.d.cstate == .disconnected && t.d.seq == 0)
      (step { ready 2 [0xA3, 0, 0, 0, 2] with
        flash := [(0, 1), (0x80, 2), (0x100, 3), (0x180, 4)], sched := [.resetDDuring 2] }) = true := by
  decide +kernel

/-- R452: the page erased and one of two bytes programmed. -/
theorem test_reset_inside_an_update :
    nextIs (fun t => t.flash == [(0x37FE, 0xAA)] && t.d.trace == [])
      (step { ready 1 [0xA0, 0, 0, 0, 1, 0, 0, 0, 0xFE, 0x37, 0, 0, 2, 0, 0, 0, 0xAA, 0xBB] with
        flash := [(0x37FF, 0)], sched := [.resetDDuring 2] }) = true := by decide +kernel

/-- R452: the sector erased and two of its bytes programmed. -/
theorem test_reset_inside_a_config_update :
    nextIs (fun t => t.flash == [(0x30000, 1), (0x30001, 2)])
      (step { ready 1 [0xA1, 0, 0, 0, 1, 0, 0, 0, 1, 2, 3, 4, 5] with
        flash := [(0x30003, 0)], sched := [.resetDDuring 3] }) = true := by decide +kernel

/-- R381: what machine H programmed, machine D finds when it gets the chip, and the other way round. -/
theorem test_one_chip_after_the_other :
    nextIs (fun t => t.flash == [(0x10, 0x3C)] && t.d.cstate == .disconnected)
      (step { entered with tflash := [(0x10, 0x3C)], sched := [.chipToDevice] }) = true ∧
    nextIs (fun t => t.tflash == [(0x10, 0x3C)] && t.tgt == Target.initial)
      (step { entered with flash := [(0x10, 0x3C)], sched := [.chipToTarget] }) = true := by
  decide +kernel

/-- R382, R468: a frame sent with a command open, and one outside programming mode. -/
theorem test_frames_out_of_place :
    nextIs (fun t => t.tgt.desync && t.tgt.cmd == some .readFlash)
      (exec (.icpReadCid 0) { entered with tgt := { entered.tgt with cmd := some .readFlash } }) = true ∧
    nextIs (fun t => t.tgt == Target.initial)
      (exec (.icpReadCid 0) { entered with tgt := Target.initial }) = true := by decide +kernel

/-! ### Witnesses: for each obligation with hypotheses, a state and operands that meet them

One conjunct for each clause, at a boundary value of its range. -/

/-- An outcome `nextIs` accepts is a next state. -/
theorem next_of_nextIs {f : State → Bool} {o : Out} (h : nextIs f o = true) :
    ∃ t, o = .next t ∧ f t = true := by
  cases o with
  | next t => exact ⟨t, rfl, h⟩
  | fault r => cases h
  | refused r => cases h

/-- Machine D with `RXHEAD`, `CSTATE` and the next input as given. -/
def rxState (e : Event) (head : BitVec 7) (c : CState) : State :=
  { State.reset with d := { State.reset.d with rxhead := head, cstate := c }, sched := [e] }

/-- Machine D at a phase, with the idle and connection flags as given. -/
def phaseState (m : MPhase) (head : BitVec 7) (idle conn : Bool) : State :=
  { State.reset with d := { State.reset.d with
      mphase := m, rxhead := head, idleExpired := idle, connExpired := conn } }

/-- A machine that has ended. -/
def endedState : State :=
  { State.reset with
    d := { State.reset.d with terminal := .bootAprom, ie := false, iapen := false }
    sched := [.rx 0xAE, .tick, .main] }

/-- 48 bytes of update data. -/
def data48 : List Byte := 0xAA :: zs 47

theorem witness_EncodeThenDecodeIsTheInstruction :
    (Instr.updateAprom h1 0xFFFF 0 0xFFFF 0xFFFF (zs 48)).WellFormed ∧
    (Instr.unrecognized 0xFF h1 (zs 56)).WellFormed ∧ (Instr.icpReadUid 0x3FFFF).WellFormed ∧
    (Instr.hostProgramRegion 0xFFFFFFFF 1 [0xFF]).WellFormed := by decide +kernel

theorem witness_EveryPacketDecodesToItsOpcode :
    (zs 63).length ≠ 64 ∧ (zs 65).length ≠ 64 ∧ (pkt [0xAE]).length = 64 := by decide +kernel

theorem witness_ReservedIcpCodesAreRefused :
    decodeData24 0x000001 = .reject .reservedIcpCode ∧
    decodeData24 0xFFFFC0 = .ok (.icpReadFlash 0x3FFFF) := by decide +kernel

theorem witness_ABrokenHandshakeDisconnects :
    (let s := rxState (.rx 0xAD) 0 .connecting;
      s.sched = .rx 0xAD :: [] ∧ s.d.terminal = .running ∧ s.d.ie = true ∧ s.d.rxhead = 0 ∧
        (s.d.cstate = .disconnected ∨ s.d.cstate = .connecting) ∧ (0xAD : Byte) ≠ 0xAE) ∧
    (let s := rxState (.rx 1) 1 .connecting;
      s.sched = .rx 1 :: [] ∧ s.d.terminal = .running ∧ s.d.ie = true ∧ s.d.cstate = .connecting ∧
        1 ≤ s.d.rxhead.toNat ∧ s.d.rxhead.toNat ≤ 3 ∧ (1 : Byte) ≠ 0) ∧
    (let s := rxState (.rx 0xFF) 3 .connecting;
      s.sched = .rx 0xFF :: [] ∧ s.d.terminal = .running ∧ s.d.ie = true ∧ s.d.cstate = .connecting ∧
        1 ≤ s.d.rxhead.toNat ∧ s.d.rxhead.toNat ≤ 3 ∧ (0xFF : Byte) ≠ 0) := by decide +kernel

/-- The hypotheses of `KeptBytesFillThePacket` for one byte. -/
abbrev keptByte (s : State) (b : Byte) : Prop :=
  s.sched = .rx b :: [] ∧ s.d.terminal = .running ∧ s.d.ie = true ∧ s.d.rxhead.toNat < 64 ∧
    ¬ (s.d.rxhead = 0 ∧ s.d.cstate.connected = false ∧ b ≠ 0xAE) ∧
    ¬ (s.d.cstate = .connecting ∧ 1 ≤ s.d.rxhead.toNat ∧ s.d.rxhead.toNat ≤ 3 ∧ b ≠ 0)

theorem witness_KeptBytesFillThePacket :
    keptByte (rxState (.rx 0xAE) 0 .disconnected) 0xAE ∧
    keptByte (rxState (.rx 0xA6) 0 .command) 0xA6 ∧
    keptByte (rxState (.rx 0) 3 .connecting) 0 ∧ keptByte (rxState (.rx 9) 4 .connecting) 9 ∧
    keptByte (rxState (.rx 9) 63 .command) 9 := by
  refine ⟨?_, ?_, ?_, ?_, ?_⟩ <;> decide +kernel

theorem witness_BytesAndTicksThatAreDropped :
    (let s := rxState (.rx 0x99) 64 .command;
      s.sched = .rx 0x99 :: [] ∧ s.d.terminal = .running ∧ s.d.ie = true ∧ s.d.rxhead = 64) ∧
    (endedState.sched = .rx 0xAE :: [.tick, .main] ∧
      (endedState.d.terminal ≠ .running ∨ endedState.d.ie = false)) ∧
    (let s := { rxState .tick 0 .command with d := { State.reset.d with ie := false } };
      s.sched = .tick :: [] ∧ s.d.ie = false) := by decide +kernel

theorem witness_ATickCountsBothTimersDown :
    (let s := { rxState .tick 1 .command with
        d := { State.reset.d with idleCnt := 1, connCnt := 1 } };
      s.sched = .tick :: [] ∧ s.d.terminal = .running ∧ s.d.ie = true) := by decide +kernel

theorem witness_TimersExpireOnTheirLastTick :
    (let s := { State.reset with
        d := { State.reset.d with idleCnt := 2, connCnt := 2 }, sched := [.tick, .tick] };
      0 < 2 ∧ 2 ≤ 2 ∧ s.sched = List.replicate 2 .tick ++ [] ∧ s.d.terminal = .running ∧
        s.d.ie = true ∧ s.d.idleCnt.toNat = 2 ∧ s.d.idleExpired = false ∧ s.d.connCnt.toNat = 2 ∧
        s.d.connExpired = false) := by decide +kernel

theorem witness_TheMainLoopVisitsItsPhases :
    (let s := phaseState .m1 63 true true;
      atMain s ∧ s.d.terminal = .running ∧ s.d.mphase = .m1 ∧ s.d.rxready = false) ∧
    (let s := phaseState .m2 0 true false;
      atMain s ∧ s.d.terminal = .running ∧ s.d.mphase = .m2 ∧ s.d.connExpired = false) ∧
    (let s := phaseState .m3 0 true false;
      atMain s ∧ s.d.terminal = .running ∧ s.d.mphase = .m3 ∧
        ¬ (s.d.idleExpired = true ∧ 0 < s.d.rxhead.toNat ∧ s.d.rxhead.toNat < 64)) ∧
    (let s := phaseState .m3 64 true false;
      ¬ (s.d.idleExpired = true ∧ 0 < s.d.rxhead.toNat ∧ s.d.rxhead.toNat < 64)) ∧
    (let s := { endedState with sched := [.main] };
      atMain s ∧ s.d.terminal ≠ .running) := by decide +kernel

theorem witness_TheTwoTimeoutsAct :
    (let s := phaseState .m2 0 false true;
      atMain s ∧ s.d.terminal = .running ∧ s.d.mphase = .m2 ∧ s.d.connExpired = true) ∧
    (let s := phaseState .m3 1 true false;
      atMain s ∧ s.d.terminal = .running ∧ s.d.mphase = .m3 ∧ s.d.idleExpired = true ∧
        0 < s.d.rxhead.toNat ∧ s.d.rxhead.toNat < 64) ∧
    (let s := phaseState .m3 63 true false;
      s.d.idleExpired = true ∧ 0 < s.d.rxhead.toNat ∧ s.d.rxhead.toNat < 64) := by decide +kernel

/-- What a dispatch of an accepted packet needs. -/
abbrev accepted (s : State) : Prop :=
  atMain s ∧ s.d.terminal = .running ∧ s.d.mphase = .m1 ∧ s.d.rxready = true ∧
    seqPolicyHolds s.params.seqPolicy s.d.seq (le16 s.d.rxbuf[4] s.d.rxbuf[5]) = true

theorem witness_AStepRunsTheReceivedPacket :
    accepted (ready 1 [0xA6, 0, 0, 0, 1]) ∧
    decodePacket (ready 1 [0xA6, 0, 0, 0, 1]).d.rxbuf.toList =
      .ok (.getFwVersion ⟨0, 1, 0⟩ (zs 56)) := by decide +kernel

theorem witness_AStepRunsTheCalledOperation :
    (let s := { entered with sched := [.call (.data24 0x002400)] };
      s.sched = .call (.data24 0x002400) :: [] ∧
        decode s.params (.data24 0x002400) = .ok (.icpReadFlash 0x90) ∧
        ∀ bs, Code.data24 0x002400 ≠ .packet bs) ∧
    decode entered.params (.data24 0x000001) = .reject .reservedIcpCode ∧
    decode entered.params (.reset24 0) = .reject .notTheResetPattern ∧
    decode entered.params (.call .icpEntryPattern) = .reject .notAnOperation :=
  ⟨⟨rfl, by decide +kernel, fun _ h => (nomatch h)⟩, by decide +kernel⟩

theorem witness_TheSequencePolicyDiscards :
    (let s := { ready 1 [0xA6, 0, 0, 0, 5] with
        params := { Params.testValues with seqPolicy := .mustMatch } };
      atMain s ∧ s.d.terminal = .running ∧ s.d.mphase = .m1 ∧ s.d.rxready = true ∧
        seqPolicyHolds s.params.seqPolicy s.d.seq (le16 s.d.rxbuf[4] s.d.rxbuf[5]) = false) := by
  decide +kernel

theorem witness_DispatchCountsAndFreesTheBuffer :
    (∃ t, step (ready 0xFFFF [0xA6]) = .next t ∧ t.d.terminal = .running) ∧
    (∃ t, step (ready 1 [0xAB]) = .next t ∧ t.d.terminal ≠ .running) ∧
    accepted (ready 0xFFFF [0xA6]) ∧ accepted (ready 1 [0xAB]) := by
  obtain ⟨t, h, ht⟩ := next_of_nextIs (f := fun t => t.d.terminal == .running)
    (o := step (ready 0xFFFF [0xA6])) (by decide +kernel)
  obtain ⟨u, k, hu⟩ := next_of_nextIs (f := fun t => t.d.terminal != .running)
    (o := step (ready 1 [0xAB])) (by decide +kernel)
  exact ⟨⟨t, h, by simpa using ht⟩, ⟨u, k, by simpa using hu⟩, by decide +kernel, by decide +kernel⟩

theorem witness_QueriesReplyWithTheirData : entered.ident.Wf := by decide +kernel

theorem witness_UnknownOpcodesGetAFailPacket :
    (ready 1 []).d.cstate ≠ .updating ∧ (ready 1 []).d.cstate ≠ .dumping := by decide +kernel

theorem witness_UpdateConfigReplacesTheSector :
    (withFlash 0x30000 (zs 5) (ready 1 [])).d.iapen = true ∧
    (withFlash 0x30000 (zs 5) (ready 1 [])).flash.wf := by decide +kernel

theorem witness_PageEraseErasesOnePage :
    (ready 1 []).d.iapen = true ∧
    (0x37FF : Word).toNat < (ready 1 []).params.apromSize ∧
    (ready 1 []).params.apromSize ≤ (0x3800 : Word).toNat ∧ (ready 1 []).flash.wf := by decide +kernel

theorem witness_EraseAllErasesAprom :
    (ready 1 []).d.iapen = true ∧ (ready 1 []).params.apromSize % 128 = 0 ∧
    (ready 1 []).flash.wf := by decide +kernel

/-- What all three clauses about UPDATE_APROM need. -/
abbrev updatable (s : State) (data : List Byte) : Prop :=
  s.params.Wf ∧ s.flash.wf ∧ s.d.iapen = true ∧ s.d.terminal = .running ∧ data.length = 48

theorem witness_UpdateApromErasesAndPrograms :
    (let s := ready 1 [];
      updatable s data48 ∧
        s.params.apromSize < (0x37FF : Word).toNat + (2 : Word).toNat ∧
        (1 : Word) ≠ 0 ∧ (0x37FF : Word).toNat + (1 : Word).toNat ≤ s.params.apromSize ∧
        ∀ k < min 48 (1 : Word).toNat, takenByte s ((0x37FF : Word).toNat + k) (data48.getD k 0) =
          data48.getD k 0) ∧
    (let s := { ready 1 [] with worn := [(0x202, 0x55)] };
      updatable s data48 ∧ (3 : Word) ≠ 0 ∧ (0x200 : Word).toNat + (3 : Word).toNat ≤ s.params.apromSize ∧
        2 < min 48 (3 : Word).toNat ∧
        (∀ j < 2, takenByte s ((0x200 : Word).toNat + j) (data48.getD j 0) = data48.getD j 0) ∧
        takenByte s ((0x200 : Word).toNat + 2) (data48.getD 2 0) ≠ data48.getD 2 0) := by
  decide +kernel

/-- What both clauses about a continued update need. -/
abbrev updating (s : State) (data : List Byte) : Prop :=
  s.params.Wf ∧ s.flash.wf ∧ s.d.iapen = true ∧ s.d.terminal = .running ∧ s.d.cstate = .updating ∧
    data.length = 56 ∧ s.d.curAddr.toNat ≤ s.d.endAddr.toNat ∧ s.d.endAddr.toNat ≤ s.params.apromSize

theorem witness_ContinuationProgramsTheNextChunk :
    (let s := inRange .updating 0x3700 0x37FF 0x3800 (ready 1 []);
      updating s (zs 56) ∧
        ∀ k < min 56 (s.d.endAddr.toNat - s.d.curAddr.toNat),
          burnt s (s.d.curAddr.toNat + k) ((zs 56).getD k 0) = (zs 56).getD k 0) ∧
    (let s := { inRange .updating 0x3700 0x37FE 0x3800 (ready 1 []) with flash := [(0x37FF, 0x0F)] };
      let data := 0x12 :: List.replicate 55 (0x1F : Byte);
      updating s data ∧ 1 < min 56 (s.d.endAddr.toNat - s.d.curAddr.toNat) ∧
        (∀ j < 1, burnt s (s.d.curAddr.toNat + j) (data.getD j 0) = data.getD j 0) ∧
        burnt s (s.d.curAddr.toNat + 1) (data.getD 1 0) ≠ data.getD 1 0) := by decide +kernel

theorem witness_ReadRomDumpsTheFirstChunk :
    (let s := ready 1 [];
      s.params.Wf ∧
        s.params.apromSize + s.params.ldromSize < (0x4700 : Word).toNat + (0x101 : Word).toNat ∧
        (0x100 : Word) ≠ 0 ∧
        (0x4700 : Word).toNat + (0x100 : Word).toNat ≤ s.params.apromSize + s.params.ldromSize) := by
  decide +kernel

theorem witness_ContinuationDumpsTheNextChunk :
    (let s := inRange .dumping 0x4700 0x47C8 0x4800 (ready 1 []);
      s.params.Wf ∧ s.d.cstate = .dumping ∧ s.d.curAddr.toNat ≤ s.d.endAddr.toNat ∧
        s.d.endAddr.toNat ≤ s.params.apromSize + s.params.ldromSize) := by decide +kernel

theorem witness_ProgrammingNeedsTheEnable :
    (Instr.eraseAll h0 (zs 56)).ofD = true ∧
    (∃ t, exec (.eraseAll h0 (zs 56)) { endedState with flash := [(0, 1)] } = .next t ∧
      (t.flash == [(0, 1)]) = true) ∧ endedState.d.iapen = false :=
  ⟨rfl, next_of_nextIs (by decide +kernel), rfl⟩

theorem witness_InitEntersOrLeavesTheEngine :
    timed.h.pinsOwned = false ∧ timed.pinGrant = true ∧
    { timed with pinGrant := false }.h.pinsOwned = false := by decide +kernel

theorem witness_ExitAndDeinitLeave :
    (entered.h.istate = .entered ∧ entered.h.pinsOwned = true) ∧
    (let s := { entered with h := { entered.h with istate := .exited } };
      s.h.istate ≠ .entered ∧ s.h.pinsOwned = true) ∧ timed.h.pinsOwned = false := by decide +kernel

theorem witness_ReentryReissuesTheEntry :
    { entered with h := { entered.h with istate := .exited } }.h.pinsOwned = true := by decide +kernel

theorem witness_OperationsOutsideTheirStateAreRefused :
    admits entered (.hostInit true) = false ∧ admits timed .hostExit = false ∧
    admits timed (.hostReentry 0 1 1) = false ∧ admits timed (.icpByteRead true) = false ∧
    admits { entered with h := { entered.h with istate := .exited } } .icpExitPattern = false := by
  decide +kernel

theorem witness_ZeroLengthsAreRefused :
    entered.h.istate = .entered ∧ entered.h.pinsOwned = true := by decide +kernel

theorem witness_FrameUnitsSendTheirFrame :
    entered.h.istate = .entered ∧ entered.h.pinsOwned = true ∧ targetReady entered ∧
    { entered with tgt := { entered.tgt with cmd := some .readFlash } }.tgt.cmd ≠ none ∧
    { entered with tgt := Target.initial }.tgt.prog = false := by decide +kernel

theorem witness_PatternUnitsSendTheirPattern :
    { timed with h := { timed.h with pinsOwned := true } }.h.pinsOwned = true ∧
    entered.h.pinsOwned = true ∧ entered.h.istate = .entered := by decide +kernel

theorem witness_ByteUnitsTransferOneByte :
    (∀ c ∈ [IcpCmd.readFlash, .writeFlash, .pageErase, .massErase],
      let s := { entered with tgt := { entered.tgt with cmd := some c, ptr := 0x47FF, armed := true } };
      s.h.istate = .entered ∧ s.h.pinsOwned = true ∧ s.tflash.wf ∧ s.targetKind = .reference ∧
        s.tgt.prog = true ∧ s.tgt.desync = false ∧ s.tgt.cmd = some c ∧ s.tgt.locked = false ∧
        cellExists s.params 0x47FF ∧ inIcpPage s.params s.tgt.ptr.toNat 0x4780) ∧
    entered.tgt.cmd = none := by decide +kernel

theorem witness_IdentityReadsOnTheWire :
    entered.h.istate = .entered ∧ entered.h.pinsOwned = true ∧ entered.ident.Wf ∧
    targetReady entered ∧ entered.tgt.locked = false ∧ targetReady lockedTgt ∧
    lockedTgt.tgt.locked = true ∧
    entered.ident.uid.length ≤ entered.params.ucidParamBase.toNat ∧
    entered.params.ucidParamBase.toNat + entered.ident.ucid.length ≤ 2 ^ 18 := by decide +kernel

theorem witness_ReadFlashIsOneFrameAndItsReads :
    entered.h.istate = .entered ∧ entered.h.pinsOwned = true ∧ 0 < 1 ∧ targetReady entered := by
  decide +kernel

theorem witness_VerifyFlashComparesWhatItRead :
    entered.h.istate = .entered ∧ entered.h.pinsOwned = true ∧ 0 < 1 ∧
    targetReady entered ∧ takesArray 1 [0xFF, 0] [0xFF] ∧ takesArray 2 [0xFF] [0xFF, 7] := by
  decide +kernel

theorem witness_WriteFlashIsOneFrameAndItsWrites :
    entered.h.istate = .entered ∧ entered.h.pinsOwned = true ∧ entered.tflash.wf ∧
    0 < 1 ∧ targetReady entered ∧ entered.tgt.locked = false ∧
    lockedTgt.h.istate = .entered ∧ lockedTgt.h.pinsOwned = true ∧ targetReady lockedTgt ∧
    lockedTgt.tgt.locked = true ∧ ¬ targetReady { entered with targetKind := .oracle } := by
  decide +kernel

theorem witness_TheErasesOnTheWire :
    entered.h.istate = .entered ∧ entered.h.pinsOwned = true ∧ targetReady entered ∧
    entered.tgt.locked = false ∧ lockedTgt.h.istate = .entered ∧ lockedTgt.h.pinsOwned = true ∧
    targetReady lockedTgt ∧ lockedTgt.tgt.locked = true ∧
    ¬ targetReady { entered with targetKind := .oracle } ∧ cellExists entered.params 0x47FF ∧
    ¬ cellExists entered.params 0x4800 ∧ ¬ cellExists entered.params 0x30005 := by decide +kernel

theorem witness_WriteConfigLocksOnlyAfterVerification :
    entered.h.istate = .entered ∧ entered.h.pinsOwned = true ∧ entered.tflash.wf ∧
    entered.params.Wf ∧ targetReady entered ∧ entered.tgt.locked = false ∧
    lockedTgt.tgt.locked = true ∧ ¬ targetReady { entered with targetKind := .oracle } := by
  decide +kernel

theorem witness_ProgramRegionErasesWritesVerifies :
    entered.h.istate = .entered ∧ entered.h.pinsOwned = true ∧ entered.tflash.wf ∧
    entered.params.Wf ∧ 0 < 1 ∧ targetReady entered ∧
    entered.tgt.locked = false ∧
    (0x47FF : BitVec 32).toNat + 1 ≤
      entered.params.apromSize + entered.params.ldromSize ∧
    lockedTgt.tgt.locked = true ∧ ¬ targetReady { entered with targetKind := .oracle } := by
  decide +kernel

theorem witness_TheReferenceTargetReadsBack :
    entered.h.istate = .entered ∧ entered.h.pinsOwned = true ∧ targetReady entered ∧
    entered.tgt.locked = false ∧ entered.params.Wf ∧ entered.tflash.wf ∧ 0 < 1 ∧
    1 ≤ ([9, 8] : List Byte).length ∧ (0x47FF : BitVec 32).toNat + 1 ≤
      entered.params.apromSize + entered.params.ldromSize ∧
    (∀ k < 1, entered.tflash.read (0x47FF + k) = 0xFF) := by decide +kernel

theorem witness_WireTimesAddUp :
    entered.h.istate = .entered ∧ entered.h.pinsOwned = true ∧ 0 < 1 := by decide +kernel

theorem witness_TheConfigCodecRoundTrips :
    configConfined ⟨true, false, true, false, true, 5, false, 2, true, 9, 0x49, 0xF8, 0x4B, 0xFF, 0x0F⟩ := by
  decide +kernel

theorem witness_ConfigFieldsMeanWhatTheSpecSays :
    (0b1110 : BitVec 4) ≠ 0b1111 ∧ (0b1110 : BitVec 4) ≠ 0b0101 := by decide +kernel

/-- What the clauses about a reset inside a dispatch need. -/
abbrev resettable (k : Nat) (s : State) : Prop :=
  s.sched = .resetDDuring k :: [] ∧ s.params.Wf ∧ s.flash.wf ∧ s.d.terminal = .running ∧
    s.d.mphase = .m1 ∧ s.d.rxready = true ∧
    seqPolicyHolds s.params.seqPolicy s.d.seq (le16 s.d.rxbuf[4] s.d.rxbuf[5]) = true ∧
    s.d.iapen = true

theorem witness_ResetsLeaveTheResetValues :
    { endedState with sched := [.resetD] }.sched = .resetD :: [] ∧
    { entered with sched := [.resetH] }.sched = .resetH :: [] ∧
    (let s := { ready 2 [0xA3] with sched := [.resetDDuring 0] };
      resettable 0 s ∧ decodePacket s.d.rxbuf.toList = .ok (.eraseAll h0 (zs 56))) ∧
    (let s := { ready 2 [0xA0, 0, 0, 0, 0, 0, 0, 0, 0x7F, 0, 0, 0, 2, 0, 0, 0, 0xAA, 0xBB] with
        sched := [.resetDDuring 1] };
      resettable 1 s ∧
        decodePacket s.d.rxbuf.toList = .ok (.updateAprom h0 0x7F 0 2 0 (0xAA :: 0xBB :: zs 46)) ∧
        (2 : Word) ≠ 0 ∧ (0x7F : Word).toNat + (2 : Word).toNat ≤ s.params.apromSize ∧
        128 * 1 ≤ (0x7F : Word).toNat % 128 + (2 : Word).toNat ∧
        4 = ((0x7F : Word).toNat % 128 + (2 : Word).toNat + 127) / 128 + 2 ∧
        2 ≤ min 48 (2 : Word).toNat ∧
        ∀ l < 2, takenByte s ((0x7F : Word).toNat + l) ((0xAA :: 0xBB :: zs 46).getD l 0) =
          (0xAA :: 0xBB :: zs 46).getD l 0) ∧
    ∃ t, step { ready 2 [0xA3] with sched := [.main] } = .next t ∧ (t.d.mphase == .m2) = true :=
  ⟨by decide +kernel, by decide +kernel, by decide +kernel, by decide +kernel,
    next_of_nextIs (by decide +kernel)⟩

set_option synthInstance.maxSize 400 in
theorem witness_EveryStepKeepsTheInvariant :
    (ready 1 [0xA6]).Inv ∧
    ∃ t, step (ready 1 [0xA6]) = .next t ∧ (t.d.mphase == .m2) = true :=
  ⟨by decide +kernel, next_of_nextIs (by decide +kernel)⟩

theorem witness_MachineDNeverWritesLdrom :
    (let s := ready 1 [0xA3];
      s.params.Wf ∧ s.flash.wf ∧ (s.sched = [] ∨ s.sched.head?.any Event.ofD = true) ∧
        4095 < s.params.ldromSize) ∧
    ∃ t, step (ready 1 [0xA3]) = .next t ∧ (t.d.mphase == .m2) = true :=
  ⟨by decide +kernel, next_of_nextIs (by decide +kernel)⟩

theorem witness_AnEndedMachineStaysEnded :
    endedState.d.terminal ≠ .running ∧ (∀ e ∈ endedState.sched, e.beginsRun = false) ∧
    ∃ t, Host.Core.run Sys2Proof.core 3 endedState = .next t ∧ (t.d.terminal == .bootAprom) = true :=
  ⟨by decide +kernel, by decide +kernel, next_of_nextIs (by decide +kernel)⟩

theorem witness_AConnectedDeviceStaysConnected :
    (ready 1 [0xA6]).d.cstate.connected = true ∧ (∀ e ∈ (ready 1 [0xA6]).sched, e.beginsRun = false) ∧
    ∃ t, Host.Core.run Sys2Proof.core 1 (ready 1 [0xA6]) = .next t ∧
      (t.d.cstate == .command) = true :=
  ⟨by decide +kernel, by decide +kernel, next_of_nextIs (by decide +kernel)⟩

theorem witness_TheMachinesDoNotInterfere :
    (∃ t, step (ready 1 [0xA6]) = .next t ∧ (t.d.mphase == .m2) = true) ∧
    (ready 1 [0xA6]).sched.head?.any Event.ofD = true ∧
    (∃ t, step { entered with sched := [.call (.call .hostReadDeviceId)] } = .next t ∧
      (t.h.ret == some (.ok, .word 0x3650)) = true) ∧
    { entered with sched := [.call (.call .hostReadDeviceId)] }.sched.head?.any Event.ofH = true :=
  ⟨next_of_nextIs (by decide +kernel), by decide +kernel, next_of_nextIs (by decide +kernel),
    by decide +kernel⟩

theorem witness_ParametersAndIdentityAreConstant :
    (∃ t, step endedState = .next t ∧ (t.sched == [.tick, .main]) = true) ∧
    endedState.sched.head?.any Event.beginsRun = false ∧
    ∃ t, step { endedState with sched := [.resetD] } = .next t ∧
      (t.params.apromSize == 0x4800 && t.params.ldromSize == 0) = true :=
  ⟨next_of_nextIs (by decide +kernel), by decide +kernel, next_of_nextIs (by decide +kernel)⟩

set_option synthInstance.maxSize 400 in
theorem witness_InvariantStatesGoOn : (ready 1 [0xA6]).Inv ∧ entered.Inv :=
  ⟨by decide +kernel, by decide +kernel⟩

theorem witness_InputsReplaceWhatTheyName :
    { timed with sched := [.setTiming .cmdBit 1] }.sched = .setTiming .cmdBit 1 :: [] ∧
    { timed with sched := [.setTiming .exitSettle 1] }.sched = .setTiming .exitSettle 1 :: [] ∧
    { timed with sched := [.pinGrant false] }.sched = .pinGrant false :: [] ∧
    { timed with sched := [.flashWear [(1, 2)]] }.sched = .flashWear [(1, 2)] :: [] ∧
    { timed with sched := [.chipToTarget] }.sched = .chipToTarget :: [] ∧
    { timed with sched := [.chipToDevice] }.sched = .chipToDevice :: [] := by decide +kernel

end Sys2Proof.Tests
end

section
/-! SUPPORT. What machine D's side of a step can reach, for every state (the invariant is not asked
for): its own registers and its flash. From that, the parameters and the identity arrays: no input but
one that begins a run writes any, and such an input derives the two sizes again (R34, R52, R363, D28). -/

namespace Sys2Proof.Machine

/-! ### Operations that reach machine D only -/

/-- `t` is `s` with registers of machine D and cells of its flash changed, nothing else. -/
def DeviceOnly (s t : State) : Prop := ∃ (d : DRegs) (m : Memory), t = { s with d := d, flash := m }

theorem DeviceOnly.refl (s : State) : DeviceOnly s s := ⟨s.d, s.flash, rfl⟩

theorem DeviceOnly.trans {s t u : State} (h : DeviceOnly s t) (h' : DeviceOnly t u) :
    DeviceOnly s u := by
  obtain ⟨d, m, rfl⟩ := h
  obtain ⟨d', m', rfl⟩ := h'
  exact ⟨d', m', rfl⟩

theorem DeviceOnly.params_eq {s t : State} (h : DeviceOnly s t) : t.params = s.params := by
  obtain ⟨d, m, rfl⟩ := h
  rfl

theorem DeviceOnly.ident_eq {s t : State} (h : DeviceOnly s t) : t.ident = s.ident := by
  obtain ⟨d, m, rfl⟩ := h
  rfl

theorem DeviceOnly.ite {s t u : State} {c : Prop} [Decidable c] (h : DeviceOnly s t)
    (h' : DeviceOnly s u) : DeviceOnly s (if c then t else u) := by
  split
  · exact h
  · exact h'

theorem setD_deviceOnly (f : DRegs → DRegs) (s : State) : DeviceOnly s (setD f s) := ⟨_, _, rfl⟩

theorem setFlash_deviceOnly (m : Memory) (s : State) : DeviceOnly s (setFlash m s) := ⟨_, _, rfl⟩

theorem emitD_deviceOnly (es : List DEvent) (s : State) : DeviceOnly s (emitD es s) := ⟨_, _, rfl⟩

theorem raise_deviceOnly (k : ErrKind) (i : Word) (s : State) : DeviceOnly s (raise k i s) :=
  emitD_deviceOnly _ s

theorem halt_deviceOnly (a : Word) (s : State) : DeviceOnly s (halt a s) :=
  (raise_deviceOnly _ _ s).trans (setD_deviceOnly _ _)

theorem transmit_deviceOnly (s : State) : DeviceOnly s (transmit s) := emitD_deviceOnly _ s

theorem replyOk_deviceOnly (s : State) : DeviceOnly s (replyOk s) :=
  (setD_deviceOnly _ s).trans (transmit_deviceOnly (stamp s))

theorem replyWith_deviceOnly (bs : List Byte) (s : State) : DeviceOnly s (replyWith bs s) :=
  ((setD_deviceOnly _ s).trans (setD_deviceOnly _ (stamp s))).trans
    (transmit_deviceOnly (putPayload bs (stamp s)))

theorem replyFail_deviceOnly (k : ErrKind) (i : Word) (s : State) : DeviceOnly s (replyFail k i s) :=
  ((raise_deviceOnly k i s).trans (setD_deviceOnly _ (raise k i s))).trans
    (transmit_deviceOnly (failStamp (raise k i s)))

theorem bootSequence_deviceOnly (b : BootTarget) (s : State) : DeviceOnly s (bootSequence b s) :=
  setD_deviceOnly _ s

/-! ### The device-side flash sequencer -/

theorem flashErasePage_deviceOnly (sp : FlashSpace) (off : Nat) (s : State) :
    DeviceOnly s (flashErasePage sp off s) := by
  obtain ⟨m, hm, -⟩ := flashErasePage_cases sp off s
  rw [hm]
  exact setFlash_deviceOnly m s

theorem eraseFrom_deviceOnly (a n : Nat) (s : State) : DeviceOnly s (eraseFrom a n s) := by
  induction n generalizing a s with
  | zero => exact .refl s
  | succ n ih => exact (flashErasePage_deviceOnly .aprom a s).trans (ih _ _)

theorem programVerify_deviceOnly (a : Word) (v : Byte) (s : State) :
    DeviceOnly s (programVerify a v s) := by
  obtain ⟨m, hm | hm, -⟩ := programVerify_cases a v s
  · rw [hm]
    exact setFlash_deviceOnly m s
  · rw [hm]
    exact (setFlash_deviceOnly m s).trans (halt_deviceOnly a _)

theorem programBytes_deviceOnly (vs : List Byte) (s : State) : DeviceOnly s (programBytes vs s) := by
  induction vs generalizing s with
  | nil => exact .refl s
  | cons v vs ih =>
    have hv := programVerify_deviceOnly s.d.curAddr v s
    exact .ite ((hv.trans (setD_deviceOnly _ _)).trans (ih (advanceCur _))) hv

theorem finishRange_deviceOnly (s : State) : DeviceOnly s (finishRange s) :=
  .ite (setD_deviceOnly _ s) (.refl s)

theorem programConfig_deviceOnly (off : Nat) (vs : List Byte) (s : State) :
    DeviceOnly s (programConfig off vs s) := by
  obtain ⟨m, hm, -⟩ := programConfig_cases vs off s
  rw [hm]
  exact setFlash_deviceOnly m s

theorem configUpdate_deviceOnly (c : ConfigBytes) (s : State) : DeviceOnly s (configUpdate c s) :=
  (flashErasePage_deviceOnly .config 0 s).trans (programConfig_deviceOnly 0 (configList c) _)

theorem acceptRange_deviceOnly (start len : Word) (s : State) :
    DeviceOnly s (acceptRange start len s) := setD_deviceOnly _ s

theorem setCState_deviceOnly (c : CState) (s : State) : DeviceOnly s (setCState c s) :=
  setD_deviceOnly _ s

theorem beginUpdate_deviceOnly (start len : Word) (s : State) :
    DeviceOnly s (beginUpdate start len s) := by
  rw [beginUpdate_eq]
  exact ((acceptRange_deviceOnly start len s).trans (eraseFrom_deviceOnly _ _ _)).trans
    (setCState_deviceOnly .updating (erasePages start (start + len) (acceptRange start len s)))

theorem programReply_deviceOnly {data : List Byte} {s t : State} (h : programReply data s = .next t) :
    DeviceOnly s t := by
  have hchunk : DeviceOnly s (programChunk data s) :=
    have hb := programBytes_deviceOnly (nextChunk data s) s
    .ite (hb.trans (finishRange_deviceOnly _)) hb
  unfold programReply at h
  split at h
  · cases h
    exact .ite (hchunk.trans (replyOk_deviceOnly _)) hchunk
  · cases h

theorem dumpReply_deviceOnly {s t : State} (h : dumpReply s = .next t) : DeviceOnly s t := by
  have hpay : DeviceOnly s (putPayload (dumpData (stamp s)) (stamp s)) :=
    (setD_deviceOnly _ s).trans (setD_deviceOnly _ (stamp s))
  unfold dumpReply at h
  split at h
  · cases h
    exact ((hpay.trans (setD_deviceOnly _ _)).trans (finishRange_deviceOnly _)).trans
      (transmit_deviceOnly (dumpChunk (stamp s)))
  · cases h

/-! ### Commands of machine D, whole or cut short -/

/-- A command of machine D that goes on reaches machine D only, whatever the state. -/
theorem exec_deviceOnly {i : Instr} (hd : i.ofD = true) {s t : State} (h : exec i s = .next t) :
    DeviceOnly s t := by
  cases i with
  | continuation hdr data =>
    simp only [exec, execContinuation] at h
    cases hc : s.d.cstate with
    | updating => exact programReply_deviceOnly (by rwa [hc] at h)
    | dumping => exact dumpReply_deviceOnly (by rwa [hc] at h)
    | _ =>
      rw [hc] at h
      cases h
      exact replyFail_deviceOnly _ _ s
  | updateAprom hdr start g1 len g2 data =>
    simp only [exec, execUpdateAprom] at h
    split at h
    · exact (beginUpdate_deviceOnly start len s).trans (programReply_deviceOnly h)
    · cases h
      exact replyFail_deviceOnly _ _ s
  | readRom hdr start g1 len rest =>
    simp only [exec, execReadRom] at h
    split at h
    · exact ((acceptRange_deviceOnly start len s).trans (setCState_deviceOnly .dumping _)).trans
        (dumpReply_deviceOnly h)
    · cases h
      exact replyFail_deviceOnly _ _ s
  | pageErase hdr addr rest =>
    simp only [exec, execPageErase] at h
    split at h
    · cases h
      exact (flashErasePage_deviceOnly _ _ s).trans (replyOk_deviceOnly _)
    · cases h
      exact replyFail_deviceOnly _ _ s
  | eraseAll hdr rest =>
    cases h
    exact (eraseFrom_deviceOnly _ _ s).trans (replyOk_deviceOnly (eraseAllPages s))
  | updateConfig hdr c rest =>
    cases h
    exact (configUpdate_deviceOnly c s).trans (replyWith_deviceOnly _ _)
  | syncSeq _ _ | connect _ _ =>
    cases h
    exact (setD_deviceOnly _ s).trans (replyOk_deviceOnly _)
  | readConfig _ _ | getFwVersion _ _ | getFlashMode _ _ | getDeviceId _ _ | getUid _ _ | getCid _ _
  | getUcid _ _ =>
    cases h
    exact replyWith_deviceOnly _ s
  | runAprom _ _ | runLdrom _ _ | resetCmd _ _ =>
    cases h
    exact bootSequence_deviceOnly _ s
  | unrecognized op hdr rest =>
    cases h
    exact replyFail_deviceOnly _ _ s
  | _ => cases hd

theorem chunkPart_deviceOnly (k : Nat) (data : List Byte) (s : State) :
    DeviceOnly s (chunkPart k data s) :=
  .ite (programBytes_deviceOnly _ s) (.refl s)

/-- A command cut short inside its flash work (R452) reaches machine D only, whatever the state. -/
theorem workPart_deviceOnly (k : Nat) (i : Instr) (s : State) : DeviceOnly s (workPart k i s) := by
  cases i with
  | continuation hdr data => exact .ite (chunkPart_deviceOnly k data s) (.refl s)
  | updateAprom hdr start g1 len g2 data =>
    refine .ite (.ite ?_ ?_) (.refl s)
    · exact (acceptRange_deviceOnly start len s).trans (eraseFrom_deviceOnly _ _ _)
    · exact (beginUpdate_deviceOnly start len s).trans (chunkPart_deviceOnly _ data _)
  | updateConfig hdr c rest =>
    obtain ⟨d, m, he, -⟩ := configPart_cases k c s
    exact ⟨d, m, he⟩
  | eraseAll hdr rest => exact eraseFrom_deviceOnly _ _ s
  | pageErase hdr addr rest =>
    refine .ite ?_ (.refl s)
    cases k with
    | zero => exact .refl s
    | succ k => exact flashErasePage_deviceOnly _ _ s
  | _ => exact .refl s

/-- A dispatch cut short (R452) reaches machine D only, whatever the state. -/
theorem dispatchPart_deviceOnly (k : Nat) (s : State) : DeviceOnly s (dispatchPart k s) := by
  refine .ite ?_ (.refl s)
  split
  · rename_i i _
    exact (setD_deviceOnly _ s).trans (workPart_deviceOnly k i (prologue s))
  · exact .refl s

/-! ### The three agents of machine D -/

theorem rxStep_deviceOnly (b : Byte) (s : State) : DeviceOnly s (rxStep b s) := by
  refine .ite (.ite (raise_deviceOnly _ _ s) ?_) (.refl s)
  split
  · exact (setD_deviceOnly _ s).trans (raise_deviceOnly _ _ _)
  · exact setD_deviceOnly _ s

theorem tickStep_deviceOnly (s : State) : DeviceOnly s (tickStep s) :=
  .ite (setD_deviceOnly _ s) (.refl s)

/-- A next state under `mapNext f` is `f` of a next state. -/
theorem mapNext_eq_next {f : State → State} {o : Out} {t : State} (h : mapNext f o = .next t) :
    ∃ u, o = .next u ∧ t = f u := by
  cases o with
  | next u => cases h; exact ⟨u, rfl, rfl⟩
  | fault r => cases h
  | refused r => cases h

theorem dispatch_deviceOnly {s t : State} (h : dispatch s = .next t) : DeviceOnly s t := by
  unfold dispatch at h
  split at h
  · obtain ⟨u, hu, rfl⟩ := mapNext_eq_next h
    have hrun : DeviceOnly (prologue s) u := by
      unfold runPacket at hu
      split at hu
      · rename_i i hi
        exact exec_deviceOnly (decodePacket_ofD hi) hu
      · cases hu
        exact .refl _
    exact ((setD_deviceOnly _ s).trans hrun).trans (.ite (setD_deviceOnly _ u) (.refl u))
  · cases h
    exact ((setD_deviceOnly _ s).trans (raise_deviceOnly _ _ _)).trans (setD_deviceOnly _ _)

theorem phaseAction_deviceOnly {s t : State} (h : phaseAction s = .next t) : DeviceOnly s t := by
  unfold phaseAction at h
  split at h
  · split at h
    · exact dispatch_deviceOnly h
    · cases h
      exact .refl s
  · cases h
    exact .ite ((raise_deviceOnly _ _ s).trans (bootSequence_deviceOnly .aprom _)) (.refl s)
  · cases h
    exact .ite ((setD_deviceOnly _ s).trans (raise_deviceOnly _ _ _)) (.refl s)

/-- A main-loop step that goes on (R245) reaches machine D only, whatever the state. -/
theorem mainStep_deviceOnly {s t : State} (h : mainStep s = .next t) : DeviceOnly s t := by
  unfold mainStep at h
  split at h
  · obtain ⟨u, hu, rfl⟩ := mapNext_eq_next h
    exact (phaseAction_deviceOnly hu).trans (.ite (setD_deviceOnly _ u) (.refl u))
  · cases h
    exact .refl s

/-! ### Parameters and identity -/

/-- The parameters and the identity arrays of `t` are those of `s`. -/
abbrev SameConstants (s t : State) : Prop := t.params = s.params ∧ t.ident = s.ident

theorem DeviceOnly.sameConstants {s t : State} (h : DeviceOnly s t) : SameConstants s t :=
  ⟨h.params_eq, h.ident_eq⟩

theorem OpEffect.sameConstants {s t : State} (h : OpEffect s t) : SameConstants s t := by
  rw [h.rest]
  exact ⟨rfl, rfl⟩

/-- An input that begins no run leaves the parameters and the identity arrays. -/
theorem eventStep_sameConstants {e : Event} (he : e.beginsRun = false) {s t : State}
    (h : eventStep e s = .next t) : SameConstants s t := by
  cases e with
  | rx b => cases h; exact (rxStep_deviceOnly b s).sameConstants
  | tick => cases h; exact (tickStep_deviceOnly s).sameConstants
  | main => exact (mainStep_deviceOnly h).sameConstants
  | call c =>
    obtain ⟨u, hu, heff⟩ := callStep_effect c s
    cases hu.symm.trans h
    exact heff.sameConstants
  | resetD => cases he
  | resetDDuring k => cases he
  | chipToDevice => cases he
  | _ => cases h; exact ⟨rfl, rfl⟩

/-- An input that begins a run (U15) derives the sizes again from some config, and leaves the identity
arrays. -/
theorem eventStep_of_beginsRun {e : Event} (he : e.beginsRun = true) {s t : State}
    (h : eventStep e s = .next t) :
    (∃ b : ConfigBytes, t.params = repartition b s.params) ∧ t.ident = s.ident := by
  cases e with
  | resetD => cases h; exact ⟨⟨_, rfl⟩, rfl⟩
  | resetDDuring k =>
    cases h
    obtain ⟨hp, hi⟩ := (dispatchPart_deviceOnly k s).sameConstants
    exact ⟨⟨configBytes (dispatchPart k s), by rw [resetDDuring, resetD_params, hp]⟩, hi⟩
  | chipToDevice => cases h; exact ⟨⟨_, rfl⟩, rfl⟩
  | _ => cases he

/-- A step leaves the parameters and the identity arrays, or takes an input that begins a run, which
derives the sizes again from some config. -/
theorem step_constants {s t : State} (h : step s = .next t) :
    SameConstants s t ∨ s.sched.head?.any Event.beginsRun = true ∧
      (∃ b : ConfigBytes, t.params = repartition b s.params) ∧ t.ident = s.ident := by
  unfold step at h
  split at h
  · exact .inl (mainStep_deviceOnly h).sameConstants
  · rename_i e rest hs
    cases he : e.beginsRun with
    | false => exact .inl (eventStep_sameConstants (s := { s with sched := rest }) he h)
    | true =>
      exact .inr ⟨by rw [hs]; exact he, eventStep_of_beginsRun (s := { s with sched := rest }) he h⟩

/-- Settles O58: a step that begins no run changes none of them, and one that does derives the two sizes
again, which keeps their sum. -/
theorem parametersAndIdentityAreConstant : Obligations.ParametersAndIdentityAreConstant := by
  intro s t h
  rcases step_constants h with ⟨hp, hi⟩ | ⟨hrun, ⟨b, hp⟩, hi⟩
  · exact ⟨hi, fun _ => hp, _, _, rfl, hp⟩
  · refine ⟨hi, fun hno => ?_, _, _, repartition_total b s.params, ?_⟩
    · rw [hrun] at hno
      cases hno
    · rw [hp]
      exact repartition_sizes b s.params

end Sys2Proof.Machine
end

section
/-! SUPPORT. One tick of machine D (R236): what each timer's tick does to the registers, and the step that
a scheduled tick makes of a listening machine. -/

namespace Sys2Proof.Machine

/-- A pending input is the step's, and is taken off the schedule. -/
theorem step_of_sched_cons {s : State} {e : Event} {rest : List Event} (hs : s.sched = e :: rest) :
    step s = eventStep e { s with sched := rest } := by
  rw [step, hs]

/-- The handlers' gate is open while the machine runs with interrupts enabled (R29). -/
theorem DRegs.listening_iff (d : DRegs) :
    d.listening = true ↔ d.terminal = .running ∧ d.ie = true := by
  simp [DRegs.listening]

/-- An armed timer's flag after a tick (R236): raised by the last tick, else as it was. -/
theorem expired_or_last {w : Nat} (cnt : BitVec w) (expired : Bool) :
    (expired || cnt == 1) = if cnt = 1 then true else expired := by
  by_cases hlast : cnt = 1
  · rw [if_pos hlast, beq_iff_eq.mpr hlast, Bool.or_true]
  · rw [if_neg hlast, beq_eq_false_iff_ne.mpr hlast, Bool.or_false]

/-- R236 for the idle timer, register by register: only its counter and its flag can change. -/
theorem DRegs.tickIdle_eq (d : DRegs) :
    d.tickIdle = { d with
      idleCnt := if d.idleCnt = 0 then 0 else d.idleCnt - 1
      idleExpired := if d.idleCnt = 1 then true else d.idleExpired } := by
  unfold DRegs.tickIdle
  by_cases hdisarmed : d.idleCnt = 0
  · have hne : d.idleCnt ≠ 1 := by rw [hdisarmed]; decide
    rw [if_pos hdisarmed, if_pos hdisarmed, if_neg hne, ← hdisarmed]
  · rw [if_neg hdisarmed, if_neg hdisarmed, expired_or_last]

/-- R236 for the connection timer, register by register: only its counter and its flag can change. -/
theorem DRegs.tickConn_eq (d : DRegs) :
    d.tickConn = { d with
      connCnt := if d.connCnt = 0 then 0 else d.connCnt - 1
      connExpired := if d.connCnt = 1 then true else d.connExpired } := by
  unfold DRegs.tickConn
  by_cases hdisarmed : d.connCnt = 0
  · have hne : d.connCnt ≠ 1 := by rw [hdisarmed]; decide
    rw [if_pos hdisarmed, if_pos hdisarmed, if_neg hne, ← hdisarmed]
  · rw [if_neg hdisarmed, if_neg hdisarmed, expired_or_last]

/-- A scheduled tick steps both timers of a listening machine (R236, R239). -/
theorem step_tick_of_listening {s : State} {rest : List Event} (hs : s.sched = .tick :: rest)
    (hl : s.d.listening = true) : step s = .next (tickTimers { s with sched := rest }) := by
  rw [step_of_sched_cons hs]
  exact congrArg Host.Outcome.next (if_pos hl)

/-- Settles O11: the tick is the two timers' ticks in turn, and neither touches the other's registers. -/
theorem aTickCountsBothTimersDown : Obligations.ATickCountsBothTimersDown := by
  intro s rest hs hrun hie
  have hl : s.d.listening = true := s.d.listening_iff.mpr ⟨hrun, hie⟩
  rw [step_tick_of_listening hs hl, tickTimers, setD, DRegs.tickConn_eq, DRegs.tickIdle_eq]

end Sys2Proof.Machine
end

section
/-! SUPPORT. The continuation of a dump (R274): the packet's payload plays no part, and the dump chunk is
the one READ_ROM begins with (R333). -/

namespace Sys2Proof.Machine

/-- While `DUMPING`, CONTINUATION is the next dump chunk, whatever its header and payload (R274). -/
theorem exec_continuation_of_dumping {s : State} (hc : s.d.cstate = .dumping) (h : PktHdr)
    (data : List Byte) : exec (.continuation h data) s = dumpReply s := by
  simp only [exec, execContinuation, hc]

/-- Settles O29: the continuation is a dump chunk of the open range, whose end it finds by itself. -/
theorem continuationDumpsTheNextChunk : Obligations.ContinuationDumpsTheNextChunk := by
  intro s h data _ hc hle hend
  have hdump := dumpReply_spec hle hend
  rw [hc] at hdump
  rw [exec_continuation_of_dumping hc]
  exact hdump

end Sys2Proof.Machine
end

section
/-! SUPPORT. What can become of `CSTATE` (R25, R297): which operations keep it, that the others leave a
connected device connected, and so for every step, and every run, in which no input begins a run. -/

namespace Sys2Proof.Machine

/-! ### Operations that keep the connection state -/

@[simp] theorem replyOk_cstate (s : State) : (replyOk s).d.cstate = s.d.cstate := by
  simp only [replyOk, transmit_d, stamp_d]

@[simp] theorem replyWith_cstate (bs : List Byte) (s : State) :
    (replyWith bs s).d.cstate = s.d.cstate := by
  simp only [replyWith, transmit_d, putPayload_d, stamp_d]

@[simp] theorem replyFail_cstate (k : ErrKind) (i : Word) (s : State) :
    (replyFail k i s).d.cstate = s.d.cstate := by
  simp only [replyFail, transmit_d, failStamp_d, raise_d]

@[simp] theorem flashErasePage_cstate (sp : FlashSpace) (off : Nat) (s : State) :
    (flashErasePage sp off s).d.cstate = s.d.cstate := by
  obtain ⟨m, hm, -⟩ := flashErasePage_cases sp off s
  rw [hm, setFlash_d]

@[simp] theorem eraseFrom_cstate (a n : Nat) (s : State) :
    (eraseFrom a n s).d.cstate = s.d.cstate := by
  induction n generalizing a s with
  | zero => rfl
  | succ n ih => rw [eraseFrom, ih, flashErasePage_cstate]

@[simp] theorem programVerify_cstate (a : Word) (v : Byte) (s : State) :
    (programVerify a v s).d.cstate = s.d.cstate := by
  obtain ⟨m, hm | hm, -⟩ := programVerify_cases a v s
  · rw [hm, setFlash_d]
  · rw [hm, halt_d, setFlash_d]

@[simp] theorem programBytes_cstate (vs : List Byte) (s : State) :
    (programBytes vs s).d.cstate = s.d.cstate := by
  induction vs generalizing s with
  | nil => rfl
  | cons v vs ih =>
    simp only [programBytes]
    split
    · rw [ih, advanceCur_d, programVerify_cstate]
    · rw [programVerify_cstate]

@[simp] theorem configUpdate_cstate (c : ConfigBytes) (s : State) :
    (configUpdate c s).d.cstate = s.d.cstate := by
  obtain ⟨m, hm, -⟩ := programConfig_cases (configList c) 0 (flashErasePage .config 0 s)
  rw [configUpdate, hm, setFlash_d, flashErasePage_cstate]

@[simp] theorem DRegs.tickIdle_cstate (d : DRegs) : d.tickIdle.cstate = d.cstate := by
  rw [DRegs.tickIdle_eq]

@[simp] theorem DRegs.tickConn_cstate (d : DRegs) : d.tickConn.cstate = d.cstate := by
  rw [DRegs.tickConn_eq]

@[simp] theorem armOnFirst_cstate (p : BitVec 7) (n : BitVec 8) (d : DRegs) :
    (armOnFirst p n d).cstate = d.cstate := by
  unfold armOnFirst
  split
  · exact d.armIdle_cstate n
  · rfl

@[simp] theorem readyOnFull_cstate (d : DRegs) : (readyOnFull d).cstate = d.cstate := by
  unfold readyOnFull
  split
  · exact d.packetReady_cstate
  · rfl

/-! ### Connected before, connected after -/

/-- Machine D, if it was connected in `s`, is connected in `t`. -/
def StaysConnected (s t : State) : Prop := s.d.cstate.connected = true → t.d.cstate.connected = true

theorem StaysConnected.of_eq {s t : State} (h : t.d.cstate = s.d.cstate) : StaysConnected s t :=
  fun hs => by rw [h]; exact hs

theorem StaysConnected.of_connected {s t : State} (h : t.d.cstate.connected = true) :
    StaysConnected s t := fun _ => h

theorem StaysConnected.refl (s : State) : StaysConnected s s := id

theorem StaysConnected.trans {s t u : State} (h : StaysConnected s t) (h' : StaysConnected t u) :
    StaysConnected s u := fun hs => h' (h hs)

theorem StaysConnected.ite {s t u : State} {c : Prop} [Decidable c] (h : StaysConnected s t)
    (h' : StaysConnected s u) : StaysConnected s (if c then t else u) := by
  split
  · exact h
  · exact h'

/-! ### Commands of machine D -/

/-- The end of a range (R332, R333) is the return to `COMMAND`. -/
theorem finishRange_staysConnected (s : State) : StaysConnected s (finishRange s) :=
  .ite (.of_connected rfl) (.refl s)

theorem programReply_staysConnected {data : List Byte} {s t : State}
    (h : programReply data s = .next t) : StaysConnected s t := by
  have hbytes : StaysConnected s (programBytes (nextChunk data s) s) :=
    .of_eq (programBytes_cstate _ s)
  have hchunk : StaysConnected s (programChunk data s) :=
    .ite (hbytes.trans (finishRange_staysConnected _)) hbytes
  unfold programReply at h
  split at h
  · cases h
    exact .ite (hchunk.trans (.of_eq (replyOk_cstate _))) hchunk
  · cases h

theorem dumpReply_staysConnected {s t : State} (h : dumpReply s = .next t) : StaysConnected s t := by
  unfold dumpReply at h
  split at h
  · cases h
    have hpayload : StaysConnected s (setD (fun d =>
        { d with curAddr := d.curAddr + BitVec.ofNat 16 (chunkLen 56 d.curAddr d.endAddr) })
        (putPayload (dumpData (stamp s)) (stamp s))) := .of_eq (by simp)
    exact (hpayload.trans (finishRange_staysConnected _)).trans (.of_eq rfl)
  · cases h

/-- A command of machine D that goes on leaves a connected device connected, whatever the state: only a
range that begins or ends writes `CSTATE` (R286, R292, R332, R333). -/
theorem exec_staysConnected {i : Instr} (hd : i.ofD = true) {s t : State} (h : exec i s = .next t) :
    StaysConnected s t := by
  cases i with
  | continuation hdr data =>
    simp only [exec, execContinuation] at h
    cases hc : s.d.cstate with
    | updating => exact programReply_staysConnected (by rwa [hc] at h)
    | dumping => exact dumpReply_staysConnected (by rwa [hc] at h)
    | _ =>
      rw [hc] at h
      cases h
      exact .of_eq (replyFail_cstate _ _ s)
  | updateAprom hdr start g1 len g2 data =>
    simp only [exec, execUpdateAprom] at h
    split at h
    · have hbegin : StaysConnected s (beginUpdate start len s) :=
        .of_connected (by rw [beginUpdate_eq, setCState_d]; rfl)
      exact hbegin.trans (programReply_staysConnected h)
    · cases h
      exact .of_eq (replyFail_cstate _ _ s)
  | readRom hdr start g1 len rest =>
    simp only [exec, execReadRom] at h
    split at h
    · have hbegin : StaysConnected s (setCState .dumping (acceptRange start len s)) :=
        .of_connected rfl
      exact hbegin.trans (dumpReply_staysConnected h)
    · cases h
      exact .of_eq (replyFail_cstate _ _ s)
  | pageErase hdr addr rest =>
    simp only [exec, execPageErase] at h
    split at h
    · cases h
      exact .of_eq (by rw [replyOk_cstate, flashErasePage_cstate])
    · cases h
      exact .of_eq (replyFail_cstate _ _ s)
  | eraseAll hdr rest =>
    cases h
    exact .of_eq (by rw [replyOk_cstate, eraseAllPages, eraseFrom_cstate])
  | updateConfig hdr c rest =>
    cases h
    exact .of_eq (by rw [replyWith_cstate, configUpdate_cstate])
  | connect hdr rest =>
    cases h
    refine .of_eq ?_
    rw [replyOk_cstate, setD_d]
    split <;> rfl
  | syncSeq hdr rest =>
    cases h
    exact .of_eq (replyOk_cstate _)
  | readConfig _ _ | getFwVersion _ _ | getFlashMode _ _ | getDeviceId _ _ | getUid _ _ | getCid _ _
  | getUcid _ _ =>
    cases h
    exact .of_eq (replyWith_cstate _ s)
  | runAprom _ _ | runLdrom _ _ | resetCmd _ _ =>
    cases h
    exact .of_eq rfl
  | unrecognized op hdr rest =>
    cases h
    exact .of_eq (replyFail_cstate _ _ s)
  | _ => cases hd

/-! ### The three agents of machine D -/

/-- The handshake's checks concern a device that is not connected (R231, R232, R297). -/
theorem handshakeError_of_connected {c : CState} (hc : c.connected = true) (p : BitVec 7) (b : Byte) :
    handshakeError p c b = none := by
  cases c with
  | disconnected | connecting => cases hc
  | command | updating | dumping => simp [handshakeError]

/-- A first byte makes no connected device `CONNECTING` (R231). -/
theorem connectingOnFirst_of_connected {d : DRegs} (hc : d.cstate.connected = true) (p : BitVec 7) :
    connectingOnFirst p d = d := by
  refine if_neg fun hfirst => ?_
  rw [hfirst.2] at hc
  cases hc

theorem rxStep_staysConnected (b : Byte) (s : State) : StaysConnected s (rxStep b s) := by
  refine .ite (.ite (.of_eq rfl) fun hc => ?_) (.refl s)
  rw [handshakeError_of_connected hc]
  simp only [setD_d, readyOnFull_cstate, armOnFirst_cstate]
  rw [connectingOnFirst_of_connected (d := storeByte b s.d) hc]
  exact hc

theorem tickStep_staysConnected (s : State) : StaysConnected s (tickStep s) :=
  .ite (.of_eq (by simp)) (.refl s)

/-- The prologue keeps `CSTATE` or writes `COMMAND` (R272). -/
theorem prologue_staysConnected (s : State) : StaysConnected s (prologue s) := by
  intro hs
  rw [prologue_d]
  split
  · exact hs
  · rfl

theorem dispatch_staysConnected {s t : State} (h : dispatch s = .next t) : StaysConnected s t := by
  unfold dispatch at h
  split at h
  · obtain ⟨u, hu, rfl⟩ := mapNext_eq_next h
    have hrun : StaysConnected (prologue s) u := by
      unfold runPacket at hu
      split at hu
      · rename_i i hi
        exact exec_staysConnected (decodePacket_ofD hi) hu
      · cases hu
        exact .refl _
    have hepilogue : StaysConnected u (epilogue u) := .ite (.of_eq rfl) (.refl u)
    exact ((prologue_staysConnected s).trans hrun).trans hepilogue
  · cases h
    exact .of_eq (by rw [discardPacket_d])

theorem phaseAction_staysConnected {s t : State} (h : phaseAction s = .next t) :
    StaysConnected s t := by
  unfold phaseAction at h
  split at h
  · split at h
    · exact dispatch_staysConnected h
    · cases h
      exact .refl s
  · cases h
    exact .ite (.of_eq (by rw [connTimeout_d])) (.refl s)
  · cases h
    exact .ite (.of_eq (by rw [idleTimeout_d])) (.refl s)

theorem mainStep_staysConnected {s t : State} (h : mainStep s = .next t) : StaysConnected s t := by
  unfold mainStep at h
  split at h
  · obtain ⟨u, hu, rfl⟩ := mapNext_eq_next h
    exact (phaseAction_staysConnected hu).trans (.ite (.of_eq rfl) (.refl u))
  · cases h
    exact .refl s

/-! ### Steps and runs -/

/-- An input that begins no run leaves a connected device connected. -/
theorem eventStep_staysConnected {e : Event} (he : e.beginsRun = false) {s t : State}
    (h : eventStep e s = .next t) : StaysConnected s t := by
  cases e with
  | rx b => cases h; exact rxStep_staysConnected b s
  | tick => cases h; exact tickStep_staysConnected s
  | main => exact mainStep_staysConnected h
  | call c =>
    obtain ⟨u, hu, heff⟩ := callStep_effect c s
    cases hu.symm.trans h
    exact .of_eq (by rw [heff.rest])
  | resetD => cases he
  | resetDDuring k => cases he
  | chipToDevice => cases he
  | _ => cases h; exact .of_eq rfl

theorem DeviceOnly.sched_eq {s t : State} (h : DeviceOnly s t) : t.sched = s.sched := by
  obtain ⟨d, m, rfl⟩ := h
  rfl

/-- No input's own effect reaches the inputs still pending. -/
theorem eventStep_sched {e : Event} {s t : State} (h : eventStep e s = .next t) :
    t.sched = s.sched := by
  cases e with
  | rx b => cases h; exact (rxStep_deviceOnly b s).sched_eq
  | tick => cases h; exact (tickStep_deviceOnly s).sched_eq
  | main => exact (mainStep_deviceOnly h).sched_eq
  | call c =>
    obtain ⟨u, hu, heff⟩ := callStep_effect c s
    cases hu.symm.trans h
    rw [heff.rest]
  | resetDDuring k => cases h; exact (dispatchPart_deviceOnly k s).sched_eq
  | _ => cases h; rfl

/-- A step takes the next input, if one is pending, and leaves the others (R441). -/
theorem step_sched {s t : State} (h : step s = .next t) : t.sched = s.sched.tail := by
  cases hs : s.sched with
  | nil =>
    rw [step, hs] at h
    rw [(mainStep_deviceOnly h).sched_eq, hs]
    rfl
  | cons e rest =>
    rw [step_of_sched_cons hs] at h
    exact eventStep_sched h

/-- No input pending in `s` begins a run of machine D (U15). -/
abbrev NoRunBegins (s : State) : Prop := ∀ e ∈ s.sched, e.beginsRun = false

/-- R297 for one step. -/
theorem step_staysConnected {s t : State} (hno : NoRunBegins s) (h : step s = .next t) :
    StaysConnected s t := by
  cases hs : s.sched with
  | nil =>
    rw [step, hs] at h
    exact mainStep_staysConnected h
  | cons e rest =>
    rw [step_of_sched_cons hs] at h
    exact eventStep_staysConnected (s := { s with sched := rest }) (hno e (by simp [hs])) h

theorem step_noRunBegins {s t : State} (hno : NoRunBegins s) (h : step s = .next t) :
    NoRunBegins t := by
  intro e he
  rw [step_sched h] at he
  exact hno e (List.mem_of_mem_tail he)

/-- A run that goes on begins with a step that goes on. -/
theorem run_succ_eq_next {M : Host.Core} {n : Nat} {s t : M.State}
    (h : M.run (n + 1) s = .next t) : ∃ u, M.step s = .next u ∧ M.run n u = .next t := by
  rw [Host.Core.run] at h
  split at h
  · rename_i u hu
    exact ⟨u, hu, h⟩
  · cases h
  · cases h

/-- What every step keeps while no pending input begins a run, a run without such inputs keeps. -/
theorem run_keeps {P : State → Prop}
    (hstep : ∀ {s t : State}, NoRunBegins s → step s = .next t → P s → P t) {n : Nat} {s t : State}
    (hno : NoRunBegins s) (h : Host.Core.run Sys2Proof.core n s = .next t) (hs : P s) : P t := by
  induction n generalizing s with
  | zero => cases h; exact hs
  | succ n ih =>
    obtain ⟨u, hu, hrun⟩ := run_succ_eq_next h
    exact ih (step_noRunBegins hno hu) hrun (hstep hno hu hs)

/-- Settles O56: each step of such a run leaves a connected device connected. -/
theorem aConnectedDeviceStaysConnected : Obligations.AConnectedDeviceStaysConnected :=
  fun _ _ _ hconn hno h =>
    run_keeps (P := fun s => s.d.cstate.connected = true) step_staysConnected hno h hconn

end Sys2Proof.Machine
end

section
/-! SUPPORT. The config codec (45_config_flags.md): which field of the record each bit of the encoded bytes
is, and that the reserved masks name the other bits. From that, both round trips (R366). -/

namespace Sys2Proof.Machine

/-! ### Bits of the encoded bytes -/

theorem bitByte_getLsbD (v : Bool) (i : Nat) : (bitByte v).getLsbD i = (decide (i = 0) && v) := by
  cases i <;> cases v <;> simp [bitByte]

/-- A shifted single bit is at its place, and nowhere else (R362). -/
theorem bitByte_shiftLeft_getLsbD (v : Bool) (k : Nat) {i : Nat} (hi : i < 8) :
    (bitByte v <<< k).getLsbD i = (decide (i = k) && v) := by
  rw [BitVec.getLsbD_shiftLeft, bitByte_getLsbD]
  grind

/-- Byte 0 (R360): five flags, and the reserved bits kept. -/
theorem configEncode_b0_getLsbD (f : ConfigFlags) {i : Nat} (hi : i < 8) :
    (configEncode f).b0.getLsbD i =
      if i = 7 then f.cbs else if i = 5 then f.ocdpwm else if i = 4 then f.ocden
      else if i = 2 then f.rpd else if i = 1 then f.lock else f.rsv0.getLsbD i := by
  simp only [configEncode, BitVec.getLsbD_or, BitVec.getLsbD_and, bitByte_shiftLeft_getLsbD _ _ hi]
  interval_cases i <;> simp

/-- Byte 1 (R360): the LDROM size code, and the reserved bits kept. -/
theorem configEncode_b1_getLsbD (f : ConfigFlags) {i : Nat} (hi : i < 8) :
    (configEncode f).b1.getLsbD i = if i < 3 then f.ldsize.getLsbD i else f.rsv1.getLsbD i := by
  simp only [configEncode, BitVec.getLsbD_or, BitVec.getLsbD_and, BitVec.getLsbD_setWidth]
  interval_cases i <;> simp

/-- Byte 2 (R360): the brown-out fields, and the reserved bits kept. -/
theorem configEncode_b2_getLsbD (f : ConfigFlags) {i : Nat} (hi : i < 8) :
    (configEncode f).b2.getLsbD i =
      if i = 7 then f.cboden else if i = 4 ∨ i = 5 then f.cbov.getLsbD (i - 4)
      else if i = 2 then f.cborst else f.rsv2.getLsbD i := by
  simp only [configEncode, BitVec.getLsbD_or, BitVec.getLsbD_and, bitByte_shiftLeft_getLsbD _ _ hi,
    BitVec.getLsbD_shiftLeft, BitVec.getLsbD_setWidth]
  interval_cases i <;> simp

/-- Byte 4 (R360): the watchdog mode, and the reserved bits kept. -/
theorem configEncode_b4_getLsbD (f : ConfigFlags) {i : Nat} (hi : i < 8) :
    (configEncode f).b4.getLsbD i = if 4 ≤ i then f.wdten.getLsbD (i - 4) else f.rsv4.getLsbD i := by
  simp only [configEncode, BitVec.getLsbD_or, BitVec.getLsbD_and, BitVec.getLsbD_shiftLeft,
    BitVec.getLsbD_setWidth]
  interval_cases i <;> simp

/-! ### The fields of an encoded record -/

theorem configEncode_rsv0 (f : ConfigFlags) : (configEncode f).b0 &&& 0x49 = f.rsv0 &&& 0x49 := by
  refine BitVec.eq_of_getLsbD_eq fun i hi => ?_
  rw [BitVec.getLsbD_and, BitVec.getLsbD_and, configEncode_b0_getLsbD f hi]
  interval_cases i <;> simp

theorem configEncode_rsv1 (f : ConfigFlags) : (configEncode f).b1 &&& 0xF8 = f.rsv1 &&& 0xF8 := by
  refine BitVec.eq_of_getLsbD_eq fun i hi => ?_
  rw [BitVec.getLsbD_and, BitVec.getLsbD_and, configEncode_b1_getLsbD f hi]
  interval_cases i <;> simp

theorem configEncode_rsv2 (f : ConfigFlags) : (configEncode f).b2 &&& 0x4B = f.rsv2 &&& 0x4B := by
  refine BitVec.eq_of_getLsbD_eq fun i hi => ?_
  rw [BitVec.getLsbD_and, BitVec.getLsbD_and, configEncode_b2_getLsbD f hi]
  interval_cases i <;> simp

theorem configEncode_rsv4 (f : ConfigFlags) : (configEncode f).b4 &&& 0x0F = f.rsv4 &&& 0x0F := by
  refine BitVec.eq_of_getLsbD_eq fun i hi => ?_
  rw [BitVec.getLsbD_and, BitVec.getLsbD_and, configEncode_b4_getLsbD f hi]
  interval_cases i <;> simp

theorem configEncode_ldsize (f : ConfigFlags) : (configEncode f).b1.extractLsb' 0 3 = f.ldsize := by
  refine BitVec.eq_of_getLsbD_eq fun i hi => ?_
  rw [BitVec.getLsbD_extractLsb', configEncode_b1_getLsbD f (by omega)]
  simp [hi]

theorem configEncode_cbov (f : ConfigFlags) : (configEncode f).b2.extractLsb' 4 2 = f.cbov := by
  refine BitVec.eq_of_getLsbD_eq fun i hi => ?_
  rw [BitVec.getLsbD_extractLsb', configEncode_b2_getLsbD f (by omega)]
  interval_cases i <;> simp

theorem configEncode_wdten (f : ConfigFlags) : (configEncode f).b4.extractLsb' 4 4 = f.wdten := by
  refine BitVec.eq_of_getLsbD_eq fun i hi => ?_
  rw [BitVec.getLsbD_extractLsb', configEncode_b4_getLsbD f (by omega)]
  simp [hi]

/-! ### The round trips -/

/-- What `encode` puts together `decode` takes apart; the reserved bits come back as far as they keep to
their masks. -/
theorem configDecode_encode {f : ConfigFlags} (hf : configConfined f) :
    configDecode (configEncode f) = f := by
  obtain ⟨h0, h1, h2, h4⟩ := hf
  rw [configDecode, configEncode_rsv0, configEncode_rsv1, configEncode_rsv2, configEncode_rsv4,
    configEncode_ldsize, configEncode_cbov, configEncode_wdten, h0, h1, h2, h4]
  simp (disch := decide) only [configEncode_b0_getLsbD, configEncode_b2_getLsbD]
  rfl

/-- `decode` keeps every bit, so `encode` puts the five bytes together again. -/
theorem configEncode_decode (b : ConfigBytes) : configEncode (configDecode b) = b := by
  have hb0 : (configEncode (configDecode b)).b0 = b.b0 := by
    refine BitVec.eq_of_getLsbD_eq fun i hi => ?_
    rw [configEncode_b0_getLsbD _ hi]
    interval_cases i <;> simp [configDecode]
  have hb1 : (configEncode (configDecode b)).b1 = b.b1 := by
    refine BitVec.eq_of_getLsbD_eq fun i hi => ?_
    rw [configEncode_b1_getLsbD _ hi]
    interval_cases i <;> simp [configDecode]
  have hb2 : (configEncode (configDecode b)).b2 = b.b2 := by
    refine BitVec.eq_of_getLsbD_eq fun i hi => ?_
    rw [configEncode_b2_getLsbD _ hi]
    interval_cases i <;> simp [configDecode]
  have hb4 : (configEncode (configDecode b)).b4 = b.b4 := by
    refine BitVec.eq_of_getLsbD_eq fun i hi => ?_
    rw [configEncode_b4_getLsbD _ hi]
    interval_cases i <;> simp [configDecode]
  calc configEncode (configDecode b)
      = ⟨(configEncode (configDecode b)).b0, (configEncode (configDecode b)).b1,
          (configEncode (configDecode b)).b2, b.b3, (configEncode (configDecode b)).b4⟩ := rfl
    _ = b := by rw [hb0, hb1, hb2, hb4]

/-- Settles O49: the codec's two directions undo each other, field by field and bit by bit. -/
theorem theConfigCodecRoundTrips : Obligations.TheConfigCodecRoundTrips :=
  ⟨fun _ => configDecode_encode, configEncode_decode⟩

end Sys2Proof.Machine
end

section
/-! SUPPORT. What a reset leaves: the reset values of a run of machine D, with the sizes its config selects
(R363), over the flash as a dispatch cut short leaves it (R452). That flash is written out for ERASE_ALL
and for UPDATE_APROM. -/

namespace Sys2Proof.Machine

/-! ### A run of machine D begins -/

/-- The eight LDROM sizes (R363), listed as the statements list them. -/
theorem getD_ldromSizes (b1 : Byte) :
    [4096, 4096, 4096, 4096, 3072, 2048, 1024, 0].getD (b1.toNat % 8) 0 =
      ldromSizeOf (b1.extractLsb' 0 3) := by
  have hc : (b1.extractLsb' 0 3).toNat = b1.toNat % 8 := by simp
  have hlt : b1.toNat % 8 < 8 := Nat.mod_lt _ (by decide)
  rw [ldromSizeOf, hc]
  generalize b1.toNat % 8 = c at hlt
  interval_cases c <;> rfl

theorem repartition_eq_runParams (b : ConfigBytes) (p : Params) :
    repartition b p = runParams p b.b1 := by
  simp only [repartition, runParams, getD_ldromSizes, configDecode]
  grind

/-- A reset of machine D begins a run over the flash as it is (R450). -/
theorem resetD_beginsRun (s : State) : BeginsRun s.flash s (resetD s) :=
  ⟨zeroBuf, zeroBuf, by rw [resetD, repartition_eq_runParams]; rfl⟩

/-- A reset inside a dispatch begins a run over the flash the dispatch had got to (R452). -/
theorem resetDDuring_beginsRun (k : Nat) (s : State) :
    BeginsRun (dispatchPart k s).flash s (resetDDuring k s) := by
  obtain ⟨d, m, hpart⟩ := dispatchPart_deviceOnly k s
  obtain ⟨rx, tx, hreset⟩ := resetD_beginsRun (dispatchPart k s)
  refine ⟨rx, tx, ?_⟩
  rw [resetDDuring, hreset, hpart]

/-! ### The flash work of ERASE_ALL and UPDATE_APROM -/

/-- The first `k` pages of an ERASE_ALL (R334). -/
theorem workPart_eraseAll_read {s : State} (hi : s.d.iapen = true)
    (hpage : s.params.apromSize % 128 = 0) (k : Nat) (h : PktHdr) (rest : List Byte) (a : Nat) :
    (workPart k (.eraseAll h rest) s).flash.read a =
      if a < s.params.apromSize ∧ a < 128 * k then 0xFF else s.flash.read a := by
  obtain ⟨m, hm, hread, -⟩ := eraseFrom_spec hi 0 (min k (pageCount 0 s.params.apromSize)) rfl
  have hcells : (0 ≤ a ∧ a < 0 + 128 * min k (pageCount 0 s.params.apromSize)) ↔
      (a < s.params.apromSize ∧ a < 128 * k) := by
    unfold pageCount
    omega
  rw [workPart, hm, setFlash_flash, hread]
  simp only [hcells]

theorem apromSize_le_of_wf {p : Params} (hp : p.Wf) : p.apromSize ≤ 65535 := by
  obtain ⟨-, -, -, -, hsize, -⟩ := hp
  omega

/-- The pages of an update within the 16-bit addresses, counted from the page of its start (R330). -/
theorem pageCount_range {start len : Word} (hle : start.toNat + len.toNat ≤ 65535) :
    pageCount (pageBase start).toNat (start + len).toNat =
      (start.toNat % 128 + len.toNat + 127) / 128 := by
  have hend : (start + len).toNat = start.toNat + len.toNat := by
    rw [BitVec.toNat_add]
    omega
  rw [pageBase_toNat, hend, pageCount]
  omega

theorem chunkPart_zero (data : List Byte) (s : State) : (chunkPart 0 data s).flash = s.flash := by
  unfold chunkPart
  split <;> rfl

theorem beginUpdate_flash (start len : Word) (s : State) : (beginUpdate start len s).flash =
    (erasePages start (start + len) (acceptRange start len s)).flash := by
  rw [beginUpdate_eq]
  rfl

/-- Up to its last page erase an update has erased pages only. -/
theorem updatePart_flash_of_le {k : Nat} {start len : Word}
    (hk : k ≤ pageCount (pageBase start).toNat (start + len).toNat) (data : List Byte) (s : State) :
    (updatePart k start len data s).flash =
      (eraseFrom (pageBase start).toNat k (acceptRange start len s)).flash := by
  simp only [updatePart, acceptRange_d, end17_word]
  split
  · rfl
  · rename_i hge
    have hlast : k = pageCount (pageBase start).toNat (start + len).toNat := by omega
    rw [hlast, Nat.sub_self, chunkPart_zero, beginUpdate_flash, erasePages]

/-- After its page erases an update programs the first bytes of its chunk. -/
theorem updatePart_of_add (j : Nat) (start len : Word) (data : List Byte) (s : State) :
    updatePart (pageCount (pageBase start).toNat (start + len).toNat + j) start len data s =
      chunkPart j data (beginUpdate start len s) := by
  simp only [updatePart, acceptRange_d, end17_word]
  rw [if_neg (by omega), Nat.add_sub_cancel_left]

/-- The first `k` pages of an update (R286, R330). -/
theorem updatePart_read_of_le {s : State} (hi : s.d.iapen = true) {k : Nat} {start len : Word}
    (hk : k ≤ pageCount (pageBase start).toNat (start + len).toNat) (data : List Byte) (a : Nat) :
    (updatePart k start len data s).flash.read a =
      if start.toNat / 128 * 128 ≤ a ∧ a < start.toNat / 128 * 128 + 128 * k then 0xFF
      else s.flash.read a := by
  obtain ⟨m, hm, hread, -⟩ := eraseFrom_spec (s := acceptRange start len s) hi (pageBase start).toNat k
    (by rw [pageBase_toNat]; omega)
  rw [updatePart_flash_of_le hk, hm, setFlash_flash, hread, pageBase_toNat, acceptRange_flash]

/-- An erased cell takes the byte that is programmed, unless it is worn (R80, R331). -/
theorem burnt_of_erased {s : State} {a : Nat} (h : s.flash.read a = 0xFF) (v : Byte) :
    burnt s a v = takenByte s a v := by
  unfold burnt takenByte
  cases s.worn.lookup a with
  | none => simpa [h] using BitVec.allOnes_and (x := v)
  | some r => rfl

/-- The first `j` bytes of a chunk whose cells are erased and take them (R332). -/
theorem chunkPart_read {s : State} (hi : s.d.iapen = true) (hrun : s.d.terminal = .running)
    (hw : s.flash.wf) {j : Nat} {data : List Byte}
    (hin : chunkInAprom (chunkLen data.length s.d.curAddr s.d.endAddr) s = true)
    (hsize : s.params.apromSize ≤ 65535)
    (hj : j ≤ chunkLen data.length s.d.curAddr s.d.endAddr)
    (herased : ∀ l < j, s.flash.read (s.d.curAddr.toNat + l) = 0xFF)
    (htaken : ∀ l < j, takenByte s (s.d.curAddr.toNat + l) (data.getD l 0) = data.getD l 0) (a : Nat) :
    (chunkPart j data s).flash.read a =
      if s.d.curAddr.toNat ≤ a ∧ a < s.d.curAddr.toNat + j then data.getD (a - s.d.curAddr.toNat) 0
      else s.flash.read a := by
  have hdata : j ≤ data.length := hj.trans (Nat.min_le_left _ _)
  have hbytes : (nextChunk data s).take j = data.take j := by
    rw [nextChunk, List.take_take, Nat.min_eq_left hj]
  have hlen : (data.take j).length = j := by rw [List.length_take, Nat.min_eq_left hdata]
  have hfits : s.d.curAddr.toNat + j ≤ s.params.apromSize := by
    have := of_decide_eq_true hin
    omega
  obtain ⟨m, hm, hread, -⟩ := programBytes_ok (data.take j) hi hrun hw _ rfl (by omega)
    (fun l hl => by
      rw [hlen] at hl
      have hget : (data.take j)[l] = data.getD l 0 := by
        rw [List.getElem_take, List.getD_eq_getElem _ _ (by omega)]
      rw [hget, burnt_of_erased (herased l hl), htaken l hl])
  rw [chunkPart, if_pos hin, hbytes, hm]
  show m.read a = _
  rw [hread]
  by_cases hge : s.d.curAddr.toNat ≤ a
  · by_cases hlt : a - s.d.curAddr.toNat < j
    · rw [if_pos hge, if_pos (by omega), List.getD_eq_getElem _ _ (by omega), List.getElem_take,
        List.getD_eq_getElem _ _ (by omega)]
    · rw [if_pos hge, if_neg (by omega), List.getD_eq_default _ _ (by omega)]
  · rw [if_neg hge, if_neg (by omega)]

/-- The first `j` bytes of an accepted update, its pages erased (R286, R332): they hold the packet's
bytes, the rest of the erased pages reads 0xFF, every other cell is as before. -/
theorem updatePart_read_bytes {s : State} (hp : s.params.Wf) (hi : s.d.iapen = true)
    (hrun : s.d.terminal = .running) (hw : s.flash.wf) {start len : Word}
    (hend : start.toNat + len.toNat ≤ s.params.apromSize) {data : List Byte} {j : Nat}
    (hj : j ≤ min data.length len.toNat)
    (htaken : ∀ l < j, takenByte s (start.toNat + l) (data.getD l 0) = data.getD l 0) (a : Nat) :
    let m := (updatePart (pageCount (pageBase start).toNat (start + len).toNat + j) start len data
      s).flash
    (start.toNat ≤ a ∧ a < start.toNat + j → m.read a = data.getD (a - start.toNat) 0) ∧
    (¬ (start.toNat ≤ a ∧ a < start.toNat + j) →
      inErasedPages start.toNat (start.toNat + len.toNat) a → m.read a = 0xFF) ∧
    (¬ inErasedPages start.toNat (start.toNat + len.toNat) a → m.read a = s.flash.read a) := by
  have hsize := apromSize_le_of_wf hp
  have hlast : (start + len).toNat = start.toNat + len.toNat := by
    rw [BitVec.toNat_add]
    omega
  have hpages : ∀ l < j, inErasedPages start.toNat (start.toNat + len.toNat) (start.toNat + l) := by
    intro l hl
    unfold inErasedPages
    omega
  obtain ⟨m, hm, hread, hmw, -⟩ := erasePages_spec (s := acceptRange start len s) hi start (start + len)
  rw [hlast, acceptRange_flash] at hread
  have hbegin : beginUpdate start len s = { s with flash := m, d := { s.d with
      startAddr := start, endAddr := start + len, curAddr := start, cstate := .updating } } := by
    rw [beginUpdate_eq, hm, acceptRange_eq]
    rfl
  have hchunk : chunkLen data.length start (start + len) = min data.length len.toNat := by
    rw [chunkLen, hlast, Nat.add_sub_cancel_left]
  have hprog := chunkPart_read (s := beginUpdate start len s) (j := j) (data := data)
  rw [hbegin] at hprog
  have hcell := hprog hi hrun (hmw hw)
    (by simp only [chunkInAprom, hchunk, decide_eq_true_eq]; omega) hsize
    (by rw [hchunk]; exact hj) (fun l hl => (hread _).1 (hpages l hl)) htaken a
  simp only [updatePart_of_add, hbegin]
  rw [hcell]
  refine ⟨fun hin => if_pos hin, fun hout herased => ?_, fun hout => ?_⟩
  · rw [if_neg hout]
    exact (hread a).1 herased
  · have hnot : ¬ (start.toNat ≤ a ∧ a < start.toNat + j) := by
      rintro ⟨hge, hlt⟩
      have := hpages (a - start.toNat) (by omega)
      rw [Nat.add_sub_cancel' hge] at this
      exact hout this
    rw [if_neg hnot]
    exact (hread a).2 hout

/-! ### The length of a decoded update -/

/-- What follows from either arm's being `i` follows from the branch's being `i`. -/
theorem ite_eq_ok_imp {P c : Prop} [Decidable c] {x y : Decoded} {i : Instr} (hx : x = .ok i → P)
    (hy : y = .ok i → P) (h : (if c then x else y) = .ok i) : P := by
  split at h
  · exact hx h
  · exact hy h

/-- Bytes 16 to 63 of an UPDATE_APROM are its data (R117). -/
theorem decodeBody_updateAprom_length {op : Byte} {hdr h : PktHdr} {pl : List Byte}
    {start g1 len g2 : Word} {data : List Byte}
    (hd : decodeBody op hdr pl = .ok (.updateAprom h start g1 len g2 data)) :
    pl.length = data.length + 8 := by
  revert hd
  unfold decodeBody
  repeat' refine ite_eq_ok_imp ?_ ?_
  all_goals
    intro hd
    (try split at hd) <;> cases hd
  rfl

theorem decodePacket_updateAprom_length {bs : List Byte} {h : PktHdr} {start g1 len g2 : Word}
    {data : List Byte} (hd : decodePacket bs = .ok (.updateAprom h start g1 len g2 data)) :
    data.length = 48 := by
  unfold decodePacket at hd
  split at hd
  · split at hd
    · have := decodeBody_updateAprom_length hd
      omega
    · cases hd
  · cases hd
/-! ### A dispatch cut short -/

/-- An UPDATE_APROM of a range that is accepted (R286). -/
theorem workPart_updateAprom {s : State} {start len : Word} (h0 : len ≠ 0)
    (hend : start.toNat + len.toNat ≤ s.params.apromSize) (k : Nat) (h : PktHdr) (g1 g2 : Word)
    (data : List Byte) :
    workPart k (.updateAprom h start g1 len g2 data) s = updatePart k start len data s := by
  rw [workPart, if_pos ((updateRangeOk_iff _ _ _).mpr ⟨h0, hend⟩)]

/-- The next main-loop step dispatches the packet in `RXBUF` (R245, R271), and the flash takes erases and
programs (R83). -/
structure WritingDispatch (s : State) : Prop where
  running : s.d.terminal = .running
  atM1 : s.d.mphase = .m1
  ready : s.d.rxready = true
  policy : seqPolicyHolds s.params.seqPolicy s.d.seq (rxSeqField s.d) = true
  enabled : s.d.iapen = true

theorem WritingDispatch.part_eq {s : State} (hs : WritingDispatch s) {i : Instr}
    (hd : decodePacket s.d.rxbuf.toList = .ok i) (k : Nat) :
    dispatchPart k s = workPart k i (prologue s) :=
  dispatchPart_of k hs.running hs.atM1 hs.ready hs.policy hd

theorem WritingDispatch.eraseAll_read {s : State} (hs : WritingDispatch s)
    (hp : s.params.Wf) {h : PktHdr} {rest : List Byte}
    (hd : decodePacket s.d.rxbuf.toList = .ok (.eraseAll h rest)) (k a : Nat) :
    (dispatchPart k s).flash.read a =
      if a < s.params.apromSize ∧ a < 128 * k then 0xFF else s.flash.read a := by
  rw [hs.part_eq hd]
  exact workPart_eraseAll_read (s := prologue s) hs.enabled hp.1 k h rest a

section
variable {s : State} (hs : WritingDispatch s) (hp : s.params.Wf) {h : PktHdr}
  {start g1 len g2 : Word} {data : List Byte} (h0 : len ≠ 0)
  (hd : decodePacket s.d.rxbuf.toList = .ok (.updateAprom h start g1 len g2 data))
  (hend : start.toNat + len.toNat ≤ s.params.apromSize)
include hs hp h0 hd hend

theorem WritingDispatch.update_read_pages {k : Nat} (hk : 128 * k ≤ start.toNat % 128 + len.toNat)
    (a : Nat) : (dispatchPart k s).flash.read a =
      if start.toNat / 128 * 128 ≤ a ∧ a < start.toNat / 128 * 128 + 128 * k then 0xFF
      else s.flash.read a := by
  have hsize := apromSize_le_of_wf hp
  have hpages := pageCount_range (start := start) (len := len) (by omega)
  rw [hs.part_eq hd, workPart_updateAprom (s := prologue s) h0 hend]
  exact updatePart_read_of_le (s := prologue s) hs.enabled (by omega) data a

theorem WritingDispatch.update_read_bytes (hw : s.flash.wf) {j : Nat} (hj : j ≤ min 48 len.toNat)
    (htaken : ∀ l < j, takenByte s (start.toNat + l) (data.getD l 0) = data.getD l 0) (a : Nat) :
    let m := (dispatchPart ((start.toNat % 128 + len.toNat + 127) / 128 + j) s).flash
    (start.toNat ≤ a ∧ a < start.toNat + j → m.read a = data.getD (a - start.toNat) 0) ∧
    (¬ (start.toNat ≤ a ∧ a < start.toNat + j) →
      inErasedPages start.toNat (start.toNat + len.toNat) a → m.read a = 0xFF) ∧
    (¬ inErasedPages start.toNat (start.toNat + len.toNat) a → m.read a = s.flash.read a) := by
  have hsize := apromSize_le_of_wf hp
  have hpages := pageCount_range (start := start) (len := len) (by omega)
  rw [hs.part_eq hd, workPart_updateAprom (s := prologue s) h0 hend, ← hpages]
  exact updatePart_read_bytes (s := prologue s) hp hs.enabled hs.running hw hend
    (by rw [decodePacket_updateAprom_length hd]; exact hj) htaken a

end

/-- Settles O51: each reset is the step of its input; a reset inside a dispatch is one over the flash that
the part of the dispatch before it leaves. -/
theorem resetsLeaveTheResetValues : Obligations.ResetsLeaveTheResetValues := by
  intro s rest k
  refine ⟨fun hs => ?_, fun hs => ?_, fun hs hp => ?_, fun t ht => ?_⟩
  · rw [step_of_sched_cons hs]
    exact ⟨_, rfl, resetD_beginsRun _⟩
  · rw [step_of_sched_cons hs]
    exact ⟨_, _, rfl⟩
  · rw [step_of_sched_cons hs]
    refine ⟨_, _, rfl, resetDDuring_beginsRun k _, ?_, fun hw => ?_, fun hrun hm hr hq hi => ?_⟩
    · rintro rfl
      exact dispatchPart_zero _
    · obtain ⟨d, m, hpart, hc, -⟩ := dispatchPart_cases (s := { s with sched := rest }) k hp
      rw [hpart]
      exact ⟨hc.wf hw, hc.other hw⟩
    · have hwd : WritingDispatch { s with sched := rest } := ⟨hrun, hm, hr, hq, hi⟩
      refine ⟨fun h rest' hd => hwd.eraseAll_read hp hd k, fun h start g1 len g2 data hw hd h0 hend =>
        ⟨hwd.update_read_pages hp h0 hd hend, ?_⟩⟩
      rintro j rfl hj htaken
      exact hwd.update_read_bytes hp h0 hd hend hw hj htaken
  · obtain ⟨n, hn⟩ := dispatchPart_whole ht
    exact ⟨n, fun j hj => ⟨_, rfl, hn j hj⟩⟩

end Sys2Proof.Machine
end

section
/-! SUPPORT. The programming enable (R32, R431 (c)): with it off the flash port takes nothing (log entry 12),
so neither do the sequencer's operations, nor a command up to any point inside its flash work. -/

namespace Sys2Proof.Machine

/-! ### The sequencer with the enable off -/

/-- Only the read-back is left of `ProgramVerify` (R331): it meets the byte there is. -/
theorem programVerify_off {s : State} (h : s.d.iapen = false) (a : Word) (v : Byte) :
    programVerify a v s = if flashRead .aprom a.toNat s = v then s else halt a s := by
  simp only [programVerify, flashProgram_off h]

/-- A loop that goes on meets the enable off at every byte, one that halts has changed no cell either. -/
theorem programBytes_flash_off {s : State} (h : s.d.iapen = false) (vs : List Byte) :
    (programBytes vs s).flash = s.flash := by
  induction vs generalizing s with
  | nil => rfl
  | cons v vs ih =>
    simp only [programBytes, programVerify_off h]
    by_cases hv : flashRead .aprom s.d.curAddr.toNat s = v
    · simp only [if_pos hv]
      split
      · exact ih (s := advanceCur s) h
      · rfl
    · simp only [if_neg hv, halt_d, reduceCtorEq, if_false, halt_flash]

theorem beginUpdate_off {s : State} (h : s.d.iapen = false) (start len : Word) :
    beginUpdate start len s = setCState .updating (acceptRange start len s) := by
  rw [beginUpdate_eq, erasePages, eraseFrom_off (s := acceptRange start len s) h]

/-! ### Commands with the enable off -/

theorem chunkPart_flash_off {s : State} (h : s.d.iapen = false) (k : Nat) (data : List Byte) :
    (chunkPart k data s).flash = s.flash := by
  unfold chunkPart
  split
  · exact programBytes_flash_off h _
  · rfl

theorem updatePart_flash_off {s : State} (h : s.d.iapen = false) (k : Nat) (start len : Word)
    (data : List Byte) : (updatePart k start len data s).flash = s.flash := by
  simp only [updatePart, beginUpdate_off h]
  split
  · rw [eraseFrom_off (s := acceptRange start len s) h, acceptRange_flash]
  · exact chunkPart_flash_off (s := setCState .updating (acceptRange start len s)) h _ data

/-- No part of a command's flash work changes a cell. -/
theorem workPart_flash_off {s : State} (h : s.d.iapen = false) (k : Nat) (i : Instr) :
    (workPart k i s).flash = s.flash := by
  cases i with
  | continuation hdr data =>
    rw [workPart]
    split
    · exact chunkPart_flash_off h k data
    · rfl
  | updateAprom hdr start g1 len g2 data =>
    rw [workPart]
    split
    · exact updatePart_flash_off h k start len data
    · rfl
  | updateConfig hdr c rest =>
    obtain ⟨d, m, hpart, -, hoff⟩ := configPart_cases k c s
    rw [workPart, hpart]
    exact hoff h
  | eraseAll hdr rest => rw [workPart, eraseFrom_off h]
  | pageErase hdr addr rest =>
    simp only [workPart, pagePart]
    split
    · cases k with
      | zero => rfl
      | succ k => rw [flashErasePage_off h]
    · rfl
  | _ => rfl

/-- Settles O30: a command changes the cells that the whole of its flash work changes, and with the enable
off that work changes none. -/
theorem programmingNeedsTheEnable : Obligations.ProgrammingNeedsTheEnable := by
  intro i s t hd hoff h
  obtain ⟨n, hwhole⟩ := workPart_whole hd h
  rw [← hwhole n (Nat.le_refl n), workPart_flash_off hoff]

end Sys2Proof.Machine
end

section
/-! SUPPORT. An ended machine D (R421, R425): none of its three agents does anything, machine H and the
environment do not reach its registers, so no input but one that begins a run changes them. -/

namespace Sys2Proof.Machine

/-! ### The three agents of an ended machine -/

theorem DRegs.listening_of_ended {d : DRegs} (h : d.terminal ≠ .running) : d.listening = false :=
  Bool.eq_false_iff.mpr fun hl => h (d.listening_iff.mp hl).1

theorem rxStep_of_ended {s : State} (h : s.d.terminal ≠ .running) (b : Byte) : rxStep b s = s :=
  if_neg (by simp [DRegs.listening_of_ended h])

theorem tickStep_of_ended {s : State} (h : s.d.terminal ≠ .running) : tickStep s = s :=
  if_neg (by simp [DRegs.listening_of_ended h])

theorem mainStep_of_ended {s : State} (h : s.d.terminal ≠ .running) : mainStep s = .next s :=
  if_neg h

/-! ### Steps -/

/-- An input that begins no run leaves the registers of an ended machine. -/
theorem eventStep_d_of_ended {e : Event} (he : e.beginsRun = false) {s t : State}
    (hend : s.d.terminal ≠ .running) (h : eventStep e s = .next t) : t.d = s.d := by
  cases e with
  | rx b => cases h; rw [rxStep_of_ended hend]
  | tick => cases h; rw [tickStep_of_ended hend]
  | main => cases (mainStep_of_ended hend).symm.trans h; rfl
  | call c =>
    obtain ⟨u, hu, heff⟩ := callStep_effect c s
    cases hu.symm.trans h
    rw [heff.rest]
  | resetD => cases he
  | resetDDuring k => cases he
  | chipToDevice => cases he
  | resetH | setTiming _ _ | pinGrant _ | flashWear _ | chipToTarget => cases h; rfl

theorem step_d_of_ended {s t : State} (hno : NoRunBegins s) (hend : s.d.terminal ≠ .running)
    (h : step s = .next t) : t.d = s.d := by
  cases hs : s.sched with
  | nil =>
    rw [step, hs] at h
    cases (mainStep_of_ended hend).symm.trans h
    rfl
  | cons e rest =>
    rw [step_of_sched_cons hs] at h
    exact eventStep_d_of_ended (s := { s with sched := rest }) (hno e (by simp [hs])) hend h

/-- Settles O55: a machine whose registers are those of an ended one is ended, so each step of such a run
leaves them again. -/
theorem anEndedMachineStaysEnded : Obligations.AnEndedMachineStaysEnded :=
  fun _ s _ hend hno h =>
    run_keeps (P := fun u => u.d = s.d)
      (fun hno' hstep hd => (step_d_of_ended hno' (by rwa [hd]) hstep).trans hd) hno h rfl

end Sys2Proof.Machine
end

section
/-! SUPPORT. The decoder against the encoder (30_encoding.md): what each opcode and each frame code decodes
to, that encoding an instruction and decoding it gives it back, and that decoding loses no bit. -/

namespace Sys2Proof

/-! ### Packets -/

theorem decode_packet_hdr {p : Params} {op : Byte} {h : PktHdr} {pl : List Byte} {i : Instr}
    (hl : pl.length = 56) (hd : decodeBody op h pl = .ok i) :
    decode p (.packet (hdrBytes op h ++ pl)) = .ok i :=
  (decodePacket_hdr op h pl hl).trans hd

theorem decodeBody_updateAprom (h : PktHdr) (a g1 l g2 : Word) (data : List Byte) :
    decodeBody 0xA0 h (bytes16 a ++ bytes16 g1 ++ bytes16 l ++ bytes16 g2 ++ data) =
      .ok (.updateAprom h a g1 l g2 data) := by
  simp [decodeBody, bytes16, le16_bytes]

theorem decodeBody_readRom (h : PktHdr) (a g l : Word) (rest : List Byte) :
    decodeBody 0xA5 h (bytes16 a ++ bytes16 g ++ bytes16 l ++ rest) = .ok (.readRom h a g l rest) := by
  simp [decodeBody, bytes16, le16_bytes]

theorem decodeBody_pageErase (h : PktHdr) (a : Word) (rest : List Byte) :
    decodeBody 0xD5 h (bytes16 a ++ rest) = .ok (.pageErase h a rest) := by
  simp [decodeBody, bytes16, le16_bytes]

/-- The default row takes every opcode outside the table (R123). -/
theorem decodeBody_of_not_recognised {op : Byte} (hop : op ∉ recognisedOpcodes) (h : PktHdr)
    (pl : List Byte) : decodeBody op h pl = .ok (.unrecognized op h pl) := by
  simp only [recognisedOpcodes, List.mem_cons, List.not_mem_nil, or_false, not_or] at hop
  simp only [decodeBody, hop, if_false]

/-! ### Frames and patterns -/

theorem frameOf_cmd_ne {cmd : BitVec 6} {param : BitVec 18} {w : Icp24}
    (h : cmd ≠ w.extractLsb' 0 6) : frameOf cmd param ≠ w :=
  fun he => h (by rw [← he, frameOf_cmd])

/-- A frame is neither pattern, whose low six bits are no command code (R126, R128), so it decodes by its
code. -/
theorem decodeData24_frameOf {cmd : BitVec 6} (he : cmd ≠ 0x03) (hx : cmd ≠ 0x30) (param : BitVec 18) :
    decodeData24 (frameOf cmd param) =
      if cmd = cmdReadFlash then .ok (.icpReadFlash param)
      else if cmd = cmdReadUid then .ok (.icpReadUid param)
      else if cmd = cmdReadCid then .ok (.icpReadCid param)
      else if cmd = cmdReadDeviceId then .ok (.icpReadDeviceId param)
      else if cmd = cmdWriteFlash then .ok (.icpWriteFlash param)
      else if cmd = cmdPageErase then .ok (.icpPageErase param)
      else if cmd = cmdMassErase then .ok (.icpMassErase param)
      else .reject .reservedIcpCode := by
  have hentry : frameOf cmd param ≠ entryBits := frameOf_cmd_ne he
  have hexit : frameOf cmd param ≠ exitBits := frameOf_cmd_ne hx
  simp only [decodeData24, frameOf_cmd, frameOf_param, if_neg hentry, if_neg hexit]

/-- Settles O2: a packet by its opcode, a frame by its code, a byte transfer by its two fields; the
patterns and the calls are themselves. -/
theorem encodeThenDecodeIsTheInstruction : Obligations.EncodeThenDecodeIsTheInstruction := by
  intro p i hw
  cases i with
  | updateAprom h a g1 l g2 data =>
    have hl : data.length = 48 := eq_of_beq hw
    exact decode_packet_hdr (by simp [bytes16, hl]) (decodeBody_updateAprom h a g1 l g2 data)
  | updateConfig h c rest =>
    have hl : rest.length = 51 := eq_of_beq hw
    exact decode_packet_hdr (by simp [hl]) rfl
  | readRom h a g l rest =>
    have hl : rest.length = 50 := eq_of_beq hw
    exact decode_packet_hdr (by simp [bytes16, hl]) (decodeBody_readRom h a g l rest)
  | pageErase h a rest =>
    have hl : rest.length = 54 := eq_of_beq hw
    exact decode_packet_hdr (by simp [bytes16, hl]) (decodeBody_pageErase h a rest)
  | unrecognized op h rest =>
    simp only [Instr.WellFormed, Instr.wellFormed, Bool.and_eq_true, Bool.not_eq_true',
      List.contains_eq_mem, decide_eq_false_iff_not, beq_iff_eq] at hw
    exact decode_packet_hdr hw.2 (decodeBody_of_not_recognised hw.1 h rest)
  | continuation h rest | readConfig h rest | eraseAll h rest | syncSeq h rest | getFwVersion h rest
  | runAprom h rest | runLdrom h rest | resetCmd h rest | connect h rest | getDeviceId h rest
  | getUid h rest | getCid h rest | getUcid h rest | getFlashMode h rest =>
    exact decode_packet_hdr (eq_of_beq hw) rfl
  | icpReadFlash param | icpReadUid param | icpReadCid param | icpReadDeviceId param
  | icpWriteFlash param | icpPageErase param | icpMassErase param =>
    exact decodeData24_frameOf (by decide) (by decide) param
  | icpResetSeq => exact if_pos rfl
  | icpByteRead e => simp only [encode, decode, nineBits_end]
  | icpByteWrite d e d1 d2 => simp only [encode, decode, nineBits_end, nineBits_data]
  | _ => rfl

/-! ### No bit is lost -/

/-- The packet of the opcode `op`, the header `h` and the payload `pl` decodes to `x`, and `x` is an
instruction of machine D with every bit of the packet, the default row where the table has no row. -/
def KeepsPacket (op : Byte) (h : PktHdr) (pl : List Byte) (x : Decoded) : Prop :=
  ∃ i, x = .ok i ∧ i.WellFormed ∧ i.ofD = true ∧ (∀ p, encode p i = .packet (hdrBytes op h ++ pl)) ∧
    ((∃ op' h' rest, i = .unrecognized op' h' rest) ↔ op ∉ recognisedOpcodes)

/-- A row of the table other than the default row keeps its packet if its own encoding is that packet. -/
theorem KeepsPacket.of_row {op : Byte} {h : PktHdr} {pl : List Byte} {i : Instr}
    (hop : op ∈ recognisedOpcodes) (hd : decodeBody op h pl = .ok i) (hw : i.WellFormed)
    (he : ∀ p, encode p i = .packet (hdrBytes op h ++ pl))
    (hi : ∀ op' h' rest, i ≠ .unrecognized op' h' rest) :
    KeepsPacket op h pl (decodeBody op h pl) :=
  ⟨i, hd, hw, Machine.decodeBody_ofD hd, he,
    ⟨fun ⟨op', h', rest, hu⟩ => absurd hu (hi op' h' rest), fun hn => absurd hop hn⟩⟩

theorem decodeBody_keepsPacket (op : Byte) (h : PktHdr) {pl : List Byte} (hl : pl.length = 56) :
    KeepsPacket op h pl (decodeBody op h pl) := by
  by_cases hop : op ∈ recognisedOpcodes
  · have hlb : (pl.length == 56) = true := beq_iff_eq.mpr hl
    match pl, hl with
    | b0 :: b1 :: b2 :: b3 :: b4 :: b5 :: b6 :: b7 :: data, hl =>
      simp only [List.length_cons, Nat.reduceEqDiff] at hl
      have hop' := hop
      simp only [recognisedOpcodes, List.mem_cons, List.not_mem_nil, or_false] at hop'
      rcases hop' with rfl | rfl | rfl | rfl | rfl | rfl | rfl | rfl | rfl | rfl | rfl | rfl | rfl | rfl |
        rfl | rfl | rfl | rfl
      case inr.inl => -- UPDATE_APROM
        exact .of_row hop rfl (by simp [Instr.WellFormed, Instr.wellFormed, hl])
          (fun _ => by simp [encode]) nofun
      case inr.inr.inl => -- UPDATE_CONFIG
        exact .of_row hop rfl (by simp [Instr.WellFormed, Instr.wellFormed, hl]) (fun _ => rfl) nofun
      case inr.inr.inr.inr.inr.inr.inl => -- READ_ROM
        exact .of_row hop rfl (by simp [Instr.WellFormed, Instr.wellFormed, hl])
          (fun _ => by simp [encode]) nofun
      case inr.inr.inr.inr.inr.inr.inr.inr.inr.inr.inr.inr.inr.inr.inr.inr.inr => -- PAGE_ERASE
        exact .of_row hop rfl (by simp [Instr.WellFormed, Instr.wellFormed, hl])
          (fun _ => by simp [encode]) nofun
      all_goals exact .of_row hop rfl hlb (fun _ => rfl) nofun
  · rw [decodeBody_of_not_recognised hop]
    refine ⟨_, rfl, ?_, rfl, fun _ => rfl, fun _ => hop, fun _ => ⟨op, h, pl, rfl⟩⟩
    simp [Instr.WellFormed, Instr.wellFormed, hop, hl]

/-- Settles O3: the eight header bytes are a header and the opcode, and the rest is the payload. -/
theorem everyPacketDecodesToItsOpcode : Obligations.EveryPacketDecodesToItsOpcode := by
  intro p bs
  refine ⟨fun hl => ?_, fun hl => ?_⟩
  · unfold decodePacket
    split
    · exact if_neg fun h56 => hl (by simp only [List.length_cons, h56])
    · rfl
  · match bs, hl with
    | op :: c1 :: c2 :: c3 :: s0 :: s1 :: p0 :: p1 :: pl, hl =>
      have hpl : pl.length = 56 := by simpa using hl
      obtain ⟨i, hd, hw, hofD, he, hu⟩ :=
        decodeBody_keepsPacket op ⟨le24 c1 c2 c3, le16 s0 s1, le16 p0 p1⟩ hpl
      exact ⟨i, (if_pos hpl).trans hd, hw, hofD, by rw [he, hdrBytes_of]; rfl, hu⟩

/-! ### Reserved codes -/

theorem extractLsb'_cmd_toNat (w : Icp24) : (w.extractLsb' 0 6).toNat = w.toNat % 64 := by
  simp [BitVec.extractLsb'_toNat]

theorem cmd_eq_iff (w : Icp24) (c : BitVec 6) : w.extractLsb' 0 6 = c ↔ w.toNat % 64 = c.toNat := by
  rw [← extractLsb'_cmd_toNat, BitVec.toNat_inj]

/-- One comparison of the decoder's chain refuses where it fails and the rest of the chain refuses. -/
theorem ok_or_reject_iff {c : Prop} [Decidable c] {i : Instr} {x : Decoded} {e : DecodeError} :
    (if c then .ok i else x) = Decoded.reject e ↔ ¬c ∧ x = .reject e := by
  split <;> simp_all

/-- Whatever decodes keeps every bit: a pattern is itself, a frame is its two fields. -/
theorem encode_of_decodeData24 {p : Params} {w : Icp24} {i : Instr} (h : decodeData24 w = .ok i) :
    encode p i = .data24 w := by
  have hframe : ∀ {c : BitVec 6}, w.extractLsb' 0 6 = c →
      Code.data24 (frameOf c (w.extractLsb' 6 18)) = .data24 w := by
    rintro _ rfl
    rw [frameOf_fields]
  unfold decodeData24 at h
  simp only at h
  split at h
  · cases h; simp [encode, *]
  split at h
  · cases h; simp [encode, *]
  iterate 7
    split at h
    · cases h; exact hframe ‹_›
  cases h

/-- Settles O4: the chain of comparisons falls through exactly for the words none of them takes. -/
theorem reservedIcpCodesAreRefused : Obligations.ReservedIcpCodesAreRefused := by
  intro p w
  refine ⟨?_, fun e h => ?_, fun i h => encode_of_decodeData24 h⟩
  · simp only [decodeData24, ok_or_reject_iff, cmd_eq_iff, List.mem_cons, List.not_mem_nil, or_false,
      not_or, and_true]
    rfl
  · unfold decodeData24 at h
    simp only at h
    split_ifs at h
    cases h
    rfl

/-! ### The frame as the source computes it -/

theorem frame_toNat (cmd : BitVec 6) (param : BitVec 32) :
    (frame cmd param).toNat = param.toNat % 2 ^ 18 * 64 + cmd.toNat := by
  have hc := cmd.isLt
  rw [Machine.frame_eq, Machine.wireFrame, BitVec.toNat_ofNat]
  omega

/-- Settles O5: the wire frame has 24 bits of room for the 18 of the parameter and the 6 of the code. -/
theorem onlyTheLow18BitsReachTheWire : Obligations.OnlyTheLow18BitsReachTheWire :=
  ⟨frame_toNat, by decide, by decide, by decide, by decide, by decide, by decide⟩

/-- Settles O1: each word is decoded field by field. -/
theorem wordsOfTheSpecDecode : Obligations.WordsOfTheSpecDecode := by
  refine ⟨?_, ?_, ?_, ?_, ?_, ?_, ?_, ?_, ?_, ?_, ?_⟩ <;> decide

end Sys2Proof
end

section
/-! SUPPORT. The three agents of machine D, step by step: what a received byte does (R230 to R235, R238), the
timers over a run of ticks (R236, R237), the phases of the main loop (R245 to R248), and the step of every
input of the caller and the environment. -/

namespace Sys2Proof.Machine

/-! ### The receive agent -/

theorem step_rx_of_listening {s : State} {b : Byte} {rest : List Event} (hs : s.sched = .rx b :: rest)
    (hl : s.d.listening = true) : step s = .next (rxByte b { s with sched := rest }) := by
  rw [step_of_sched_cons hs]
  exact congrArg Host.Outcome.next (if_pos hl)

theorem DRegs.rxFull_iff (d : DRegs) : d.rxFull = true ↔ d.rxhead = 64 := by
  simp [DRegs.rxFull]

/-- A byte that finds a complete packet waiting (R238). -/
theorem rxByte_of_full {s : State} (h : s.d.rxhead = 64) (b : Byte) :
    rxByte b s = raise .rxOverrun (b.setWidth 16) s :=
  if_pos (s.d.rxFull_iff.mpr h)

theorem rxFull_of_lt {d : DRegs} (h : d.rxhead.toNat < 64) : d.rxFull = false := by
  rw [Bool.eq_false_iff, ne_eq, DRegs.rxFull_iff]
  rintro he
  rw [he] at h
  exact absurd h (by decide)

/-- A byte that breaks the connect handshake (R231, R232). -/
theorem rxByte_of_error {s : State} (hlt : s.d.rxhead.toNat < 64) {b : Byte} {kind : ErrKind} {info : Word}
    (h : handshakeError s.d.rxhead s.d.cstate b = some (kind, info)) :
    rxByte b s = { s with d := { s.d with
      rxbuf := s.d.rxbuf.setIfInBounds s.d.rxhead.toNat b
      rxhead := 0
      cstate := .disconnected
      trace := s.d.trace ++ [.err kind info] } } := by
  simp only [rxByte, rxFull_of_lt hlt, Bool.false_eq_true, if_false, h]
  rfl

/-- The first byte a device that is not connected refuses (R231). -/
theorem handshakeError_first {c : CState} (hc : c = .disconnected ∨ c = .connecting) {b : Byte}
    (hb : b ≠ 0xAE) : handshakeError 0 c b = some (.frameBadConnect, b.setWidth 16) :=
  if_pos ⟨rfl, hc, hb⟩

/-- The padding bytes of the handshake (R232). -/
theorem handshakeError_padding {p : BitVec 7} (h1 : 1 ≤ p.toNat) (h3 : p.toNat ≤ 3) {b : Byte}
    (hb : b ≠ 0) : handshakeError p .connecting b = some (.frameBadMagic, p.setWidth 16) := by
  have hp : p = 1 ∨ p = 2 ∨ p = 3 := by bv_omega
  have hp0 : p ≠ 0 := by rintro rfl; exact absurd h1 (by decide)
  rw [handshakeError, if_neg fun h => hp0 h.1, if_pos ⟨hp, rfl, hb⟩]

theorem handshakeError_eq_none {p : BitVec 7} {c : CState} {b : Byte}
    (hfirst : ¬ (p = 0 ∧ c.connected = false ∧ b ≠ 0xAE))
    (hpad : ¬ (c = .connecting ∧ 1 ≤ p.toNat ∧ p.toNat ≤ 3 ∧ b ≠ 0)) : handshakeError p c b = none := by
  rw [handshakeError, if_neg, if_neg]
  · rintro ⟨hp, hc, hb⟩
    exact hpad ⟨hc, by rcases hp with rfl | rfl | rfl <;> decide,
      by rcases hp with rfl | rfl | rfl <;> decide, hb⟩
  · rintro ⟨hp, hc, hb⟩
    exact hfirst ⟨hp, by rcases hc with rfl | rfl <;> rfl, hb⟩

/-- The registers after a byte that is kept (R230, R231, R234, R235). -/
def keptByte (b : Byte) (ticks : BitVec 8) (d : DRegs) : DRegs :=
  { d with
    rxbuf := d.rxbuf.setIfInBounds d.rxhead.toNat b
    rxhead := d.rxhead + 1
    cstate := if d.rxhead = 0 ∧ d.cstate = .disconnected then .connecting else d.cstate
    rxready := if d.rxhead = 63 then true else d.rxready
    idleCnt := if d.rxhead = 63 then 0 else if d.rxhead = 0 then ticks else d.idleCnt
    idleExpired := if d.rxhead = 63 ∨ d.rxhead = 0 then false else d.idleExpired }

theorem connectingOnFirst_eq (p : BitVec 7) (d : DRegs) : connectingOnFirst p d =
    { d with cstate := if p = 0 ∧ d.cstate = .disconnected then .connecting else d.cstate } := by
  unfold connectingOnFirst
  split <;> rfl

theorem armOnFirst_eq (p : BitVec 7) (n : BitVec 8) (d : DRegs) : armOnFirst p n d =
    { d with idleCnt := if p = 0 then n else d.idleCnt
             idleExpired := if p = 0 then false else d.idleExpired } := by
  unfold armOnFirst
  split <;> rfl

theorem readyOnFull_eq (d : DRegs) : readyOnFull d =
    { d with rxready := if d.rxhead = 64 then true else d.rxready
             idleCnt := if d.rxhead = 64 then 0 else d.idleCnt
             idleExpired := if d.rxhead = 64 then false else d.idleExpired } := by
  by_cases h : d.rxhead = 64
  · simp only [readyOnFull, if_pos (d.rxFull_iff.mpr h), if_pos h]
    rfl
  · simp only [readyOnFull, if_neg (mt d.rxFull_iff.mp h), if_neg h]

theorem rxByte_of_kept {s : State} (hlt : s.d.rxhead.toNat < 64) {b : Byte}
    (h : handshakeError s.d.rxhead s.d.cstate b = none) :
    rxByte b s = { s with d := keptByte b s.params.idleTicks s.d } := by
  have hlast : (s.d.rxhead + 1 = 64) = (s.d.rxhead = 63) := propext (by constructor <;> intro h <;> bv_omega)
  simp only [rxByte, rxFull_of_lt hlt, Bool.false_eq_true, if_false, h, setD, readyOnFull_eq,
    armOnFirst_eq, connectingOnFirst_eq, storeByte, hlast, keptByte]
  split_ifs <;> simp_all

/-- Settles O8: the two errors of the handshake, each with the registers it leaves. -/
theorem aBrokenHandshakeDisconnects : Obligations.ABrokenHandshakeDisconnects := by
  intro s b rest hs hrun hie
  have hl : s.d.listening = true := s.d.listening_iff.mpr ⟨hrun, hie⟩
  refine ⟨fun h0 hc hb => ?_, fun hc h1 h3 hb => ?_⟩
  · rw [step_rx_of_listening hs hl, rxByte_of_error (kind := .frameBadConnect) (info := b.setWidth 16)]
    · have hset : s.d.rxbuf.setIfInBounds (0 : BitVec 7).toNat b = s.d.rxbuf.set 0 b :=
        Vector.ext fun i hi => by rw [Vector.getElem_setIfInBounds, Vector.getElem_set]; rfl
      rw [h0, hset]
    · simp [h0]
    · simpa only [h0] using handshakeError_first hc hb
  · rw [step_rx_of_listening hs hl,
      rxByte_of_error (by exact Nat.lt_of_le_of_lt h3 (by decide))
        (by simpa only [hc] using handshakeError_padding h1 h3 hb)]

/-- Settles O9: neither error applies, and the effects of a position are those of the four operations a
kept byte goes through. -/
theorem keptBytesFillThePacket : Obligations.KeptBytesFillThePacket := by
  intro s b rest hs hrun hie hlt hfirst hpad
  rw [step_rx_of_listening hs (s.d.listening_iff.mpr ⟨hrun, hie⟩),
    rxByte_of_kept (s := { s with sched := rest }) hlt (handshakeError_eq_none hfirst hpad)]
  rfl

theorem DRegs.not_listening {d : DRegs} (h : d.terminal ≠ .running ∨ d.ie = false) :
    d.listening = false := by
  rw [Bool.eq_false_iff, ne_eq, DRegs.listening_iff]
  rintro ⟨hrun, hie⟩
  rcases h with h | h
  · exact h hrun
  · rw [hie] at h
    cases h

/-- Settles O10: a full buffer takes no byte, and the gate of the two handlers is closed otherwise. -/
theorem bytesAndTicksThatAreDropped : Obligations.BytesAndTicksThatAreDropped := by
  intro s b rest
  refine ⟨fun hs hrun hie h64 => ?_, fun hs hoff => ?_⟩
  · rw [step_rx_of_listening hs (s.d.listening_iff.mpr ⟨hrun, hie⟩),
      rxByte_of_full (s := { s with sched := rest }) h64]
    rfl
  · have hclosed : s.d.listening = false := DRegs.not_listening hoff
    rcases hs with hs | hs
    · rw [step_of_sched_cons hs]
      exact congrArg Host.Outcome.next (if_neg (by simp [hclosed]))
    · rw [step_of_sched_cons hs]
      exact congrArg Host.Outcome.next (if_neg (by simp [hclosed]))

/-! ### The timers -/

/-- One tick of both timers (R236). -/
def DRegs.tick (d : DRegs) : DRegs := d.tickIdle.tickConn

theorem DRegs.tick_eq (d : DRegs) : d.tick =
    { d with
      idleCnt := if d.idleCnt = 0 then 0 else d.idleCnt - 1
      idleExpired := if d.idleCnt = 1 then true else d.idleExpired
      connCnt := if d.connCnt = 0 then 0 else d.connCnt - 1
      connExpired := if d.connCnt = 1 then true else d.connExpired } := by
  rw [DRegs.tick, DRegs.tickConn_eq, DRegs.tickIdle_eq]

theorem DRegs.tick_listening (d : DRegs) : d.tick.listening = d.listening := by
  rw [DRegs.tick_eq]
  rfl

theorem run_succ_of_next {M : Host.Core} {k : Nat} {s t : M.State} (h : M.step s = .next t) :
    M.run (k + 1) s = M.run k t := by
  simp only [Host.Core.run, h]

/-- A run over scheduled ticks of a listening machine is that many ticks of its registers. -/
theorem run_ticks (k : Nat) {s : State} {rest : List Event} (hs : s.sched = List.replicate k .tick ++ rest)
    (hl : s.d.listening = true) :
    Host.Core.run Sys2Proof.core k s = .next { s with sched := rest, d := DRegs.tick^[k] s.d } := by
  induction k generalizing s with
  | zero =>
    rw [List.replicate_zero, List.nil_append] at hs
    subst hs
    rfl
  | succ k ih =>
    rw [List.replicate_succ, List.cons_append] at hs
    have hstep : Sys2Proof.core.step s =
        .next (tickTimers { s with sched := List.replicate k .tick ++ rest }) :=
      step_tick_of_listening hs hl
    rw [run_succ_of_next hstep, ih (s := tickTimers { s with sched := List.replicate k .tick ++ rest }) rfl
      (s.d.tick_listening.trans hl)]
    rfl

/-- A counter that a tick decrements until 0, and a flag that the last tick raises (R236): after `k` of `n`
ticks, `n - k` are left, and the flag is up exactly after the last. -/
theorem countdown {w : Nat} {cnt : Nat → BitVec w} {expired : Nat → Bool}
    (hcnt : ∀ k, cnt (k + 1) = if cnt k = 0 then 0 else cnt k - 1)
    (hexp : ∀ k, expired (k + 1) = if cnt k = 1 then true else expired k) {n : Nat} (hn : 0 < n)
    (hcnt0 : (cnt 0).toNat = n) (hexp0 : expired 0 = false) (k : Nat) (hk : k ≤ n) :
    (cnt k).toNat = n - k ∧ (expired k = true ↔ k = n) := by
  have h1 : (1 : BitVec w).toNat = 1 := Nat.mod_eq_of_lt (Nat.lt_of_le_of_lt (hcnt0 ▸ hn) (cnt 0).isLt)
  induction k with
  | zero => exact ⟨hcnt0, by simp [hexp0, hn.ne]⟩
  | succ k ih =>
    obtain ⟨hc, he⟩ := ih (by omega)
    have hne : cnt k ≠ 0 := fun h0 => by simp [h0] at hc; omega
    have hone : cnt k = 1 ↔ k + 1 = n := by
      rw [← BitVec.toNat_inj, hc, h1]
      omega
    refine ⟨?_, ?_⟩
    · have hle : 1 ≤ cnt k := by rw [BitVec.le_def, h1]; omega
      rw [hcnt, if_neg hne, BitVec.toNat_sub_of_le hle, hc, h1]
      omega
    · rw [hexp]
      split
      · rename_i hlast
        simp [hone.mp hlast]
      · rename_i hmore
        rw [he, ← hone]
        simp only [hmore, iff_false]
        omega

/-- Settles O12: the run is `k` ticks of the registers, and each timer counts them down by itself. -/
theorem timersExpireOnTheirLastTick : Obligations.TimersExpireOnTheirLastTick := by
  intro n k s rest hn hk hs hrun hie
  have hsched : s.sched = List.replicate k .tick ++ (List.replicate (n - k) .tick ++ rest) := by
    rw [hs, ← List.append_assoc, List.replicate_append_replicate, Nat.add_sub_cancel' hk]
  have htick (j : Nat) : DRegs.tick^[j + 1] s.d = (DRegs.tick^[j] s.d).tick :=
    Function.iterate_succ_apply' ..
  refine ⟨_, run_ticks k hsched (s.d.listening_iff.mpr ⟨hrun, hie⟩), fun hc he => ?_, fun hc he => ?_⟩
  · exact countdown (cnt := fun j => (DRegs.tick^[j] s.d).idleCnt)
      (expired := fun j => (DRegs.tick^[j] s.d).idleExpired)
      (fun j => by rw [htick, DRegs.tick_eq]) (fun j => by rw [htick, DRegs.tick_eq]) hn hc he k hk
  · exact countdown (cnt := fun j => (DRegs.tick^[j] s.d).connCnt)
      (expired := fun j => (DRegs.tick^[j] s.d).connExpired)
      (fun j => by rw [htick, DRegs.tick_eq]) (fun j => by rw [htick, DRegs.tick_eq]) hn hc he k hk

/-! ### The main loop -/

/-- A main-loop step is scheduled, or runs by itself with nothing pending (log entry 8). -/
theorem step_of_atMain {s : State} (h : atMain s) : step s = mainStep (inputTaken s) := by
  rcases h with hs | hs
  · have hsame : inputTaken s = s := by rw [inputTaken, hs, List.tail_nil, ← hs]
    rw [step, hs, hsame]
  · obtain ⟨rest, hrest⟩ : ∃ rest, s.sched = .main :: rest := by
      cases hc : s.sched with
      | nil => rw [hc] at hs; cases hs
      | cons e rest =>
        rw [hc] at hs
        cases hs
        exact ⟨rest, rfl⟩
    rw [step_of_sched_cons hrest, inputTaken, hrest]
    rfl

theorem mainStep_of_running {s : State} (h : s.d.terminal = .running) :
    mainStep s = mapNext nextPhase (phaseAction s) := if_pos h

theorem phaseAction_m1 {s : State} (h : s.d.mphase = .m1) :
    phaseAction s = if s.d.rxready then dispatch s else .next s := by
  simp only [phaseAction, h]

theorem phaseAction_m2 {s : State} (h : s.d.mphase = .m2) :
    phaseAction s = .next (if s.d.connExpired then connTimeout s else s) := by
  simp only [phaseAction, h]

theorem phaseAction_m3 {s : State} (h : s.d.mphase = .m3) :
    phaseAction s = .next (if s.d.idleExpired && s.d.partlyFilled then idleTimeout s else s) := by
  simp only [phaseAction, h]

theorem DRegs.partlyFilled_iff (d : DRegs) :
    d.partlyFilled = true ↔ 0 < d.rxhead.toNat ∧ d.rxhead.toNat < 64 := by
  simp [DRegs.partlyFilled, BitVec.lt_def]

theorem nextPhase_of_running {s : State} (h : s.d.terminal = .running) :
    nextPhase s = { s with d := { s.d with mphase := s.d.mphase.succ } } := if_pos h

theorem nextPhase_of_ended {s : State} (h : s.d.terminal ≠ .running) : nextPhase s = s := if_neg h

/-- Settles O13: an idle phase is `.next s`, and the loop moves on. -/
theorem theMainLoopVisitsItsPhases : Obligations.TheMainLoopVisitsItsPhases := by
  intro s hs
  rw [step_of_atMain hs]
  refine ⟨fun hrun hm hr => ?_, fun hrun hm hc => ?_, fun hrun hm hidle => ?_,
    fun hend => mainStep_of_ended (s := inputTaken s) hend⟩
  · rw [mainStep_of_running (s := inputTaken s) hrun, phaseAction_m1 (s := inputTaken s) hm,
      if_neg (by simp [inputTaken, hr]), mapNext,
      nextPhase_of_running (s := inputTaken s) hrun]
    simp only [inputTaken, hm, MPhase.succ]
  · rw [mainStep_of_running (s := inputTaken s) hrun, phaseAction_m2 (s := inputTaken s) hm,
      if_neg (by simp [inputTaken, hc]), mapNext,
      nextPhase_of_running (s := inputTaken s) hrun]
    simp only [inputTaken, hm, MPhase.succ]
  · have hno : ¬ ((inputTaken s).d.idleExpired && (inputTaken s).d.partlyFilled) = true := by
      rw [Bool.and_eq_true, DRegs.partlyFilled_iff]
      exact hidle
    rw [mainStep_of_running (s := inputTaken s) hrun, phaseAction_m3 (s := inputTaken s) hm, if_neg hno,
      mapNext, nextPhase_of_running (s := inputTaken s) hrun]
    simp only [inputTaken, hm, MPhase.succ]

/-- Settles O14: each timeout is its phase's action, and only the boot keeps the phase. -/
theorem theTwoTimeoutsAct : Obligations.TheTwoTimeoutsAct := by
  intro s hs hrun
  rw [step_of_atMain hs, mainStep_of_running (s := inputTaken s) hrun]
  refine ⟨fun hm hc => ?_, fun hm he h0 h64 => ?_⟩
  · have hex : (inputTaken s).d.connExpired = true := hc
    rw [phaseAction_m2 (s := inputTaken s) hm, if_pos hex, mapNext, nextPhase_of_ended (by simp)]
    simp [connTimeout, bootSequence, setD, raise, emitD, inputTaken, BootTarget.terminal]
  · have hact : ((inputTaken s).d.idleExpired && (inputTaken s).d.partlyFilled) = true := by
      rw [Bool.and_eq_true, DRegs.partlyFilled_iff]
      exact ⟨he, h0, h64⟩
    rw [phaseAction_m3 (s := inputTaken s) hm, if_pos hact, mapNext,
      nextPhase_of_running (by rw [idleTimeout_d]; exact hrun)]
    simp [idleTimeout, setD, raise, emitD, inputTaken, hm, MPhase.succ]

/-! ### Dispatch -/

/-- A main-loop step with a packet waiting is its dispatch and the move to the next phase (R246). -/
theorem step_of_packet {s : State} (hs : atMain s) (hrun : s.d.terminal = .running)
    (hm : s.d.mphase = .m1) (hr : s.d.rxready = true) :
    step s = mapNext nextPhase (dispatch (inputTaken s)) := by
  rw [step_of_atMain hs, mainStep_of_running (s := inputTaken s) hrun, phaseAction_m1 (s := inputTaken s) hm]
  exact congrArg (mapNext nextPhase) (if_pos hr)

theorem dispatch_of_policy {s : State} {i : Instr}
    (hq : seqPolicyHolds s.params.seqPolicy s.d.seq (rxSeqField s.d) = true)
    (hi : decodePacket s.d.rxbuf.toList = .ok i) :
    dispatch s = mapNext epilogue (exec i (prologue s)) := by
  have hrun : runPacket (prologue s) = exec i (prologue s) := by
    have hd : decode (prologue s).params (rxCode (prologue s).d) = .ok i := hi
    simp only [runPacket, hd]
  rw [dispatch, if_pos hq, hrun]

theorem dispatch_of_not_policy {s : State}
    (hq : seqPolicyHolds s.params.seqPolicy s.d.seq (rxSeqField s.d) = false) :
    dispatch s = .next (discardPacket s) := if_neg (by simp [hq])

/-- Epilogue and next phase together (R245, R276): all of both, or neither in a terminal state. -/
theorem nextPhase_epilogue (t : State) : nextPhase (epilogue t) =
    if t.d.terminal = .running then
      { t with d := { t.d with
          rxready := false, rxhead := 0, ie := true, mphase := t.d.mphase.succ } }
    else t := by
  by_cases h : t.d.terminal = .running
  · rw [epilogue, if_pos h, if_pos h, nextPhase_of_running (by exact h)]
    rfl
  · rw [epilogue, if_neg h, if_neg h, nextPhase_of_ended h]

/-- Settles O15: dispatch is prologue, command and epilogue, whatever the command answers. -/
theorem aStepRunsTheReceivedPacket : Obligations.AStepRunsTheReceivedPacket := by
  intro s i hs hrun hm hr hq hi
  rw [step_of_packet hs hrun hm hr, dispatch_of_policy (s := inputTaken s) hq hi]
  have hpro : prologue (inputTaken s) = { inputTaken s with d := { s.d with
      ie := false
      seq := s.d.seq + 1
      cstate := if s.d.rxbuf[0] = 0x00 then s.d.cstate else .command } } := rfl
  rw [← hpro]
  cases exec i (prologue (inputTaken s)) with
  | next t =>
    simp only [mapNext, nextPhase_epilogue]
    split <;> rfl
  | fault r => rfl
  | refused r => rfl

/-- Settles O17: the discarded packet frees the buffer; the two spelled-out policies are what R10 says. -/
theorem theSequencePolicyDiscards : Obligations.TheSequencePolicyDiscards := by
  refine ⟨fun s hs hrun hm hr hq => ?_, fun v h => ⟨rfl, ?_⟩⟩
  · rw [step_of_packet hs hrun hm hr, dispatch_of_not_policy (s := inputTaken s) hq, mapNext,
      nextPhase_of_running (by rw [discardPacket_d]; exact hrun)]
    have hm' : (discardPacket (inputTaken s)).d.mphase = .m1 := by rw [discardPacket_d]; exact hm
    rw [hm']
    rfl
  · simp [seqPolicyHolds]

/-! ### Inputs of the caller and the environment -/

/-- A write of one timing register, register by register (R43). -/
theorem Timing.set_eq (t : Timing) (r : TimingReg) (v : BitVec 32) : t.set r v =
    { cmdBit := if r = .cmdBit then v else t.cmdBit
      readBit := if r = .readBit then v else t.readBit
      writeBit := if r = .writeBit then v else t.writeBit
      program := if r = .program then v else t.program
      writeHold := if r = .writeHold then v else t.writeHold
      massErase := if r = .massErase then v else t.massErase
      massEraseHold := if r = .massEraseHold then v else t.massEraseHold
      pageErase := if r = .pageErase then v else t.pageErase
      pageEraseHold := if r = .pageEraseHold then v else t.pageEraseHold
      rstseqBit := if r = .rstseqBit then v else t.rstseqBit
      rstHigh := if r = .rstHigh then v else t.rstHigh
      rstLow := if r = .rstLow then v else t.rstLow
      entryBit := if r = .entryBit then v else t.entryBit
      entrySettle := if r = .entrySettle then v else t.entrySettle
      exitRstHigh := if r = .exitRstHigh then v else t.exitRstHigh
      exitRstLow := if r = .exitRstLow then v else t.exitRstLow
      exitBit := if r = .exitBit then v else t.exitBit
      exitSettle := if r = .exitSettle then v else t.exitSettle } := by
  cases r <;> rfl

/-- Settles O60: each input is its own step, and the chip put back begins a run over its flash. -/
theorem inputsReplaceWhatTheyName : Obligations.InputsReplaceWhatTheyName := by
  intro s rest r v ok cells
  refine ⟨fun hs => ?_, fun hs => step_of_sched_cons hs, fun hs => step_of_sched_cons hs,
    fun hs => step_of_sched_cons hs,
    fun hs => ⟨_, step_of_sched_cons hs, resetD_beginsRun { s with sched := rest, flash := s.tflash }⟩⟩
  rw [step_of_sched_cons hs, eventStep, setTiming, Timing.set_eq]

/-- The call port runs what it decodes (R440). -/
theorem callStep_of_decode {s : State} {c : Code} {i : Instr} (h : decodeCall s.params c = .ok i) :
    callStep c s = exec i s := by
  simp only [callStep, h]

theorem callStep_of_reject {s : State} {c : Code} {e : DecodeError}
    (h : decodeCall s.params c = .reject e) : callStep c s = turnAway e s := by
  simp only [callStep, h]

theorem decodeCall_packet (p : Params) (bs : List Byte) :
    decodeCall p (.packet bs) = .reject .notAnOperation := rfl

/-- Only the length of a packet is turned away as such, so no other carrier is. -/
theorem not_packet_of_reject {p : Params} {c : Code} {e : DecodeError} (h : decode p c = .reject e)
    (he : e ≠ .notAPacket) (bs : List Byte) : c ≠ .packet bs := by
  rintro rfl
  exact he (decodePacket_reject h)

/-- Settles O16: the call port decodes as the decoder does, but a packet, and turns away the rest. -/
theorem aStepRunsTheCalledOperation : Obligations.AStepRunsTheCalledOperation := by
  intro s c rest hs
  have hstep : step s = callStep c { s with sched := rest } := step_of_sched_cons hs
  rw [hstep]
  refine ⟨fun i hc hi => ?_, fun he => ?_, fun he => ?_, fun he => ?_⟩
  · exact callStep_of_decode (s := { s with sched := rest }) ((decodeCall_eq hc).trans hi)
  · rw [callStep_of_reject (s := { s with sched := rest })
      ((decodeCall_eq (not_packet_of_reject he nofun)).trans he), turnAway_eq]
    simp [turnGate, enteredOwned]
  · rw [callStep_of_reject (s := { s with sched := rest })
      ((decodeCall_eq (not_packet_of_reject he nofun)).trans he), turnAway_eq]
    rfl
  · have hrej : decodeCall s.params c = .reject .notAnOperation := by
      rcases he with ⟨bs, rfl⟩ | he
      · rfl
      · exact (decodeCall_eq (not_packet_of_reject he nofun)).trans he
    rw [callStep_of_reject (s := { s with sched := rest }) hrej, turnAway_eq]
    rfl

end Sys2Proof.Machine
end

section
/-! SUPPORT. The invariant of the whole state: what a received byte, a tick, a dispatch and the two timeouts
make of the registers of machine D, and that every input keeps the invariant and lets the machine go on.
Beside it, what every dispatch does to the packet buffer and the counter, whatever the state. -/

namespace Sys2Proof.Machine

/-! ### The buffer and the counter through a command -/

/-- What a command leaves of the registers a dispatch steps: the counter, the packet buffer's flags and the
phase; interrupts that are off stay off. -/
structure KeepsIntake (s t : State) : Prop where
  seq : t.d.seq = s.d.seq
  rxready : t.d.rxready = s.d.rxready
  rxhead : t.d.rxhead = s.d.rxhead
  mphase : t.d.mphase = s.d.mphase
  ie : s.d.ie = false → t.d.ie = false

theorem KeepsIntake.refl (s : State) : KeepsIntake s s := ⟨rfl, rfl, rfl, rfl, id⟩

theorem KeepsIntake.trans {s t u : State} (h : KeepsIntake s t) (h' : KeepsIntake t u) : KeepsIntake s u where
  seq := h'.seq.trans h.seq
  rxready := h'.rxready.trans h.rxready
  rxhead := h'.rxhead.trans h.rxhead
  mphase := h'.mphase.trans h.mphase
  ie := fun hs => h'.ie (h.ie hs)

theorem KeepsIntake.ite {s t u : State} {c : Prop} [Decidable c] (h : KeepsIntake s t)
    (h' : KeepsIntake s u) : KeepsIntake s (if c then t else u) := by
  split
  · exact h
  · exact h'

/-- An operation whose registers are known. -/
theorem KeepsIntake.of_d {s t : State} {d : DRegs} (h : t.d = d) (hd : KeepsIntake s { s with d := d }) :
    KeepsIntake s t := by
  subst h
  exact ⟨hd.seq, hd.rxready, hd.rxhead, hd.mphase, hd.ie⟩

theorem KeepsIntake.of_d_eq {s t : State} (h : t.d = s.d) : KeepsIntake s t := .of_d h (.refl s)

theorem setCurAddr_keepsIntake (f : DRegs → Word) (s : State) :
    KeepsIntake s (setD (fun d => { d with curAddr := f d }) s) := ⟨rfl, rfl, rfl, rfl, id⟩

theorem disarmConn_keepsIntake (s : State) : KeepsIntake s (setD DRegs.disarmConn s) :=
  ⟨rfl, rfl, rfl, rfl, id⟩

theorem stamp_keepsIntake (s : State) : KeepsIntake s (stamp s) :=
  .of_d (stamp_d s) ⟨rfl, rfl, rfl, rfl, id⟩

theorem transmit_keepsIntake (s : State) : KeepsIntake s (transmit s) :=
  .of_d (transmit_d s) ⟨rfl, rfl, rfl, rfl, id⟩

theorem putPayload_keepsIntake (bs : List Byte) (s : State) : KeepsIntake s (putPayload bs s) :=
  .of_d (putPayload_d s bs) ⟨rfl, rfl, rfl, rfl, id⟩

theorem replyOk_keepsIntake (s : State) : KeepsIntake s (replyOk s) :=
  (stamp_keepsIntake s).trans (transmit_keepsIntake _)

theorem replyWith_keepsIntake (bs : List Byte) (s : State) : KeepsIntake s (replyWith bs s) :=
  ((stamp_keepsIntake s).trans (putPayload_keepsIntake bs _)).trans (transmit_keepsIntake _)

theorem replyFail_keepsIntake (k : ErrKind) (i : Word) (s : State) : KeepsIntake s (replyFail k i s) :=
  have hraise : KeepsIntake s (raise k i s) := .of_d (raise_d s k i) ⟨rfl, rfl, rfl, rfl, id⟩
  have hstamp : KeepsIntake (raise k i s) (failStamp (raise k i s)) :=
    .of_d (failStamp_d _) ⟨rfl, rfl, rfl, rfl, id⟩
  (hraise.trans hstamp).trans (transmit_keepsIntake _)

theorem bootSequence_keepsIntake (b : BootTarget) (s : State) : KeepsIntake s (bootSequence b s) :=
  ⟨rfl, rfl, rfl, rfl, fun _ => rfl⟩

theorem flashErasePage_d (sp : FlashSpace) (off : Nat) (s : State) : (flashErasePage sp off s).d = s.d := by
  obtain ⟨m, hm, -⟩ := flashErasePage_cases sp off s
  rw [hm, setFlash_d]

theorem eraseFrom_d (a n : Nat) (s : State) : (eraseFrom a n s).d = s.d := by
  induction n generalizing a s with
  | zero => rfl
  | succ n ih => rw [eraseFrom, ih, flashErasePage_d]

theorem configUpdate_d (c : ConfigBytes) (s : State) : (configUpdate c s).d = s.d := by
  obtain ⟨m, hm, -⟩ := programConfig_cases (configList c) 0 (flashErasePage .config 0 s)
  rw [configUpdate, hm, setFlash_d, flashErasePage_d]

theorem programVerify_keepsIntake (a : Word) (v : Byte) (s : State) :
    KeepsIntake s (programVerify a v s) := by
  obtain ⟨m, hm | hm, -⟩ := programVerify_cases a v s
  · exact .of_d_eq (by rw [hm, setFlash_d])
  · rw [hm]
    exact .of_d (halt_d _ a) ⟨rfl, rfl, rfl, rfl, id⟩

theorem advanceCur_keepsIntake (s : State) : KeepsIntake s (advanceCur s) :=
  .of_d (advanceCur_d s) ⟨rfl, rfl, rfl, rfl, id⟩

theorem acceptRange_keepsIntake (start len : Word) (s : State) :
    KeepsIntake s (acceptRange start len s) := .of_d (acceptRange_d s start len) ⟨rfl, rfl, rfl, rfl, id⟩

theorem setCState_keepsIntake (c : CState) (s : State) : KeepsIntake s (setCState c s) :=
  .of_d (setCState_d s c) ⟨rfl, rfl, rfl, rfl, id⟩

theorem programBytes_keepsIntake (vs : List Byte) (s : State) : KeepsIntake s (programBytes vs s) := by
  induction vs generalizing s with
  | nil => exact .refl s
  | cons v vs ih =>
    have hv := programVerify_keepsIntake s.d.curAddr v s
    exact .ite (hv.trans ((advanceCur_keepsIntake _).trans (ih _))) hv

theorem finishRange_keepsIntake (s : State) : KeepsIntake s (finishRange s) :=
  .ite (setCState_keepsIntake .command s) (.refl s)

theorem programReply_keepsIntake {data : List Byte} {s t : State} (h : programReply data s = .next t) :
    KeepsIntake s t := by
  have hchunk : KeepsIntake s (programChunk data s) :=
    have hb := programBytes_keepsIntake (nextChunk data s) s
    .ite (hb.trans (finishRange_keepsIntake _)) hb
  unfold programReply at h
  split at h
  · cases h
    exact .ite (hchunk.trans (replyOk_keepsIntake _)) hchunk
  · cases h

theorem dumpReply_keepsIntake {s t : State} (h : dumpReply s = .next t) : KeepsIntake s t := by
  unfold dumpReply at h
  split at h
  · cases h
    have hpayload := (stamp_keepsIntake s).trans (putPayload_keepsIntake (dumpData (stamp s)) _)
    have hmoved := hpayload.trans (setCurAddr_keepsIntake
      (fun d => d.curAddr + BitVec.ofNat 16 (chunkLen 56 d.curAddr d.endAddr)) _)
    exact (hmoved.trans (finishRange_keepsIntake _)).trans (transmit_keepsIntake (dumpChunk (stamp s)))
  · cases h

theorem beginUpdate_keepsIntake (start len : Word) (s : State) :
    KeepsIntake s (beginUpdate start len s) := by
  rw [beginUpdate_eq]
  exact ((acceptRange_keepsIntake start len s).trans (.of_d_eq (eraseFrom_d _ _ _))).trans
    (setCState_keepsIntake .updating (erasePages start (start + len) (acceptRange start len s)))

/-- Every command but CONNECT (R277) leaves them, whatever the state. -/
theorem exec_keepsIntake {i : Instr} (hd : i.ofD = true) (hc : ∀ h rest, i ≠ .connect h rest) {s t : State}
    (h : exec i s = .next t) : KeepsIntake s t := by
  cases i with
  | continuation hdr data =>
    simp only [exec, execContinuation] at h
    cases hst : s.d.cstate with
    | updating => exact programReply_keepsIntake (by rwa [hst] at h)
    | dumping => exact dumpReply_keepsIntake (by rwa [hst] at h)
    | _ =>
      rw [hst] at h
      cases h
      exact replyFail_keepsIntake _ _ s
  | updateAprom hdr start g1 len g2 data =>
    simp only [exec, execUpdateAprom] at h
    split at h
    · exact (beginUpdate_keepsIntake start len s).trans (programReply_keepsIntake h)
    · cases h
      exact replyFail_keepsIntake _ _ s
  | readRom hdr start g1 len rest =>
    simp only [exec, execReadRom] at h
    split at h
    · exact ((acceptRange_keepsIntake start len s).trans (setCState_keepsIntake .dumping _)).trans
        (dumpReply_keepsIntake h)
    · cases h
      exact replyFail_keepsIntake _ _ s
  | pageErase hdr addr rest =>
    simp only [exec, execPageErase] at h
    split at h
    · cases h
      exact .trans (.of_d_eq (flashErasePage_d _ _ s)) (replyOk_keepsIntake _)
    · cases h
      exact replyFail_keepsIntake _ _ s
  | eraseAll hdr rest =>
    cases h
    exact .trans (.of_d_eq (eraseFrom_d _ _ s)) (replyOk_keepsIntake (eraseAllPages s))
  | updateConfig hdr c rest =>
    cases h
    exact .trans (.of_d_eq (configUpdate_d c s)) (replyWith_keepsIntake _ _)
  | connect hdr rest => exact absurd rfl (hc hdr rest)
  | syncSeq _ _ =>
    cases h
    exact (disarmConn_keepsIntake s).trans (replyOk_keepsIntake _)
  | readConfig _ _ | getFwVersion _ _ | getFlashMode _ _ | getDeviceId _ _ | getUid _ _ | getCid _ _
  | getUcid _ _ =>
    cases h
    exact replyWith_keepsIntake _ s
  | runAprom _ _ | runLdrom _ _ | resetCmd _ _ =>
    cases h
    exact bootSequence_keepsIntake _ s
  | unrecognized op hdr rest =>
    cases h
    exact replyFail_keepsIntake _ _ s
  | _ => cases hd

/-- CONNECT (R277) disarms the connection timer and leaves them but the counter, which
`CONNECT_RESETS_SEQ` sets to 1. -/
theorem exec_connect_d {h : PktHdr} {rest : List Byte} {s t : State}
    (ht : exec (.connect h rest) s = .next t) : ∃ buf tr, t.d = { s.d with
      connCnt := 0, connExpired := false, txbuf := buf, trace := tr
      seq := if s.params.connectResetsSeq then 1 else s.d.seq } := by
  cases ht
  obtain ⟨buf, tr, hd⟩ := (replyOk_spec (setD (fun d =>
    if s.params.connectResetsSeq then { d.disarmConn with seq := 1 } else d.disarmConn) s)).regs
  refine ⟨buf, tr, hd.trans ?_⟩
  rw [setD_d]
  split <;> rfl

/-! ### Opcode of the decoded packet -/

theorem decodePacket_connect {bs : List Byte} (hl : bs.length = 64) (h0 : bs.head? = some 0xAE) :
    ∃ h rest, decodePacket bs = .ok (.connect h rest) := by
  match bs, hl with
  | op :: c1 :: c2 :: c3 :: s0 :: s1 :: p0 :: p1 :: pl, hl =>
    cases h0
    exact ⟨_, pl, if_pos (by simpa using hl)⟩

theorem head?_of_decodePacket_connect {bs : List Byte} {h : PktHdr} {rest : List Byte}
    (hd : decodePacket bs = .ok (.connect h rest)) : bs.head? = some 0xAE := by
  have hl : bs.length = 64 := by
    by_contra hne
    rw [(everyPacketDecodesToItsOpcode .testValues bs).1 hne] at hd
    cases hd
  obtain ⟨i, hi, -, -, he, -⟩ := (everyPacketDecodesToItsOpcode .testValues bs).2 hl
  cases hi.symm.trans hd
  injection he with hbs
  rw [← hbs]
  rfl

theorem rxbuf_head? (v : Vector Byte 64) : v.toList.head? = some v[0] := by
  simp [List.head?_eq_getElem?]

theorem rxbuf_length (v : Vector Byte 64) : v.toList.length = 64 := by simp

/-- Settles O18: the prologue steps the counter, no command but CONNECT writes it again, and the epilogue
frees the buffer of a machine that goes on. -/
theorem dispatchCountsAndFreesTheBuffer : Obligations.DispatchCountsAndFreesTheBuffer := by
  intro s t hs hrun hm hr hq h
  obtain ⟨i, hi⟩ := decodePacket_total (rxbuf_length s.d.rxbuf)
  rw [step_of_packet hs hrun hm hr, dispatch_of_policy (s := inputTaken s) hq hi] at h
  obtain ⟨v, hv, rfl⟩ := mapNext_eq_next h
  obtain ⟨u, hu, rfl⟩ := mapNext_eq_next hv
  have hkeep : u.d.seq = (if s.d.rxbuf[0] = 0xAE ∧ s.params.connectResetsSeq = true then 1
      else s.d.seq + 1) ∧ u.d.rxready = true ∧ u.d.rxhead = s.d.rxhead ∧ u.d.mphase = .m1 ∧
      u.d.ie = false := by
    by_cases hc : s.d.rxbuf[0] = 0xAE
    · obtain ⟨hdr, rest, hconn⟩ := decodePacket_connect (rxbuf_length s.d.rxbuf)
        (by rw [rxbuf_head?, hc])
      cases hi.symm.trans hconn
      obtain ⟨buf, tr, hd⟩ := exec_connect_d hu
      rw [hd]
      exact ⟨by simp [hc, inputTaken], hr, rfl, hm, rfl⟩
    · have hne : ∀ hdr rest, i ≠ .connect hdr rest := by
        rintro hdr rest rfl
        have h0 := head?_of_decodePacket_connect hi
        rw [rxbuf_head?] at h0
        exact hc (Option.some.inj h0)
      have hk := exec_keepsIntake (decodePacket_ofD hi) hne hu
      exact ⟨by rw [hk.seq, if_neg fun h => hc h.1]; rfl, hk.rxready.trans hr, hk.rxhead, hk.mphase.trans hm,
        hk.ie rfl⟩
  obtain ⟨hseq, hready, hhead, hphase, hie⟩ := hkeep
  rw [nextPhase_epilogue]
  by_cases ht : u.d.terminal = .running
  · rw [if_pos ht]
    exact ⟨hseq, fun _ => ⟨rfl, rfl, rfl, by simp only [hphase, MPhase.succ]⟩, fun hne => absurd ht hne⟩
  · rw [if_neg ht]
    exact ⟨hseq, fun hyes => absurd hyes ht, fun _ => ⟨hready, hhead, hie, hphase⟩⟩

end Sys2Proof.Machine
end

section
/-! SUPPORT. The invariant of the whole state through every input: the registers of machine D agent by agent,
the reach of machine H and of the resets as the earlier laws give it. -/

namespace Sys2Proof.Machine

/-! ### A received byte -/

/-- What the handshake's checks ask of a byte they let pass (R231, R232). -/
theorem of_handshakeError_eq_none {p : BitVec 7} {c : CState} {b : Byte} (h : handshakeError p c b = none) :
    (p = 0 → c.connected = false → b = 0xAE) ∧
    (c = .connecting → 1 ≤ p.toNat → p.toNat ≤ 3 → b = 0) := by
  refine ⟨fun hp hc => ?_, fun hc h1 h3 => ?_⟩
  · by_contra hb
    have hnot : c = .disconnected ∨ c = .connecting := by
      cases c with
      | disconnected | connecting => simp
      | command | updating | dumping => cases hc
    rw [hp, handshakeError_first hnot hb] at h
    cases h
  · by_contra hb
    rw [hc, handshakeError_padding h1 h3 hb] at h
    cases h

theorem succ_toNat7 {p : BitVec 7} (h : p.toNat < 64) : (p + 1).toNat = p.toNat + 1 := by bv_omega

/-- A connect packet has its handshake bytes after a byte the checks let pass (R231, R232). -/
theorem keptByte_handshakeStored {d : DRegs} {b : Byte} {n : BitVec 8} (hlt : d.rxhead.toNat < 64)
    (hempty : d.cstate = .disconnected → d.rxhead.toNat = 0)
    (hstored : d.cstate = .connecting → handshakeStored d)
    (hnone : handshakeError d.rxhead d.cstate b = none) (hc : (keptByte b n d).cstate = .connecting) :
    handshakeStored (keptByte b n d) := by
  obtain ⟨hfirst, hpad⟩ := of_handshakeError_eq_none hnone
  have hhead : (keptByte b n d).rxhead.toNat = d.rxhead.toNat + 1 := succ_toNat7 hlt
  have hbyte (k : Nat) (hk : k < 64) :
      (keptByte b n d).rxbuf[k] = if d.rxhead.toNat = k then b else d.rxbuf[k] :=
    Vector.getElem_setIfInBounds hk
  have hzero : d.rxhead.toNat = 0 → d.rxhead = 0 := fun h => BitVec.eq_of_toNat_eq h
  rw [handshakeStored, hhead, hbyte 0 (by decide), hbyte 1 (by decide), hbyte 2 (by decide),
    hbyte 3 (by decide)]
  cases hst : d.cstate with
  | disconnected =>
    have h0 := hempty hst
    have hb : b = 0xAE := hfirst (hzero h0) (by rw [hst]; rfl)
    simp [h0, hb]
  | connecting =>
    obtain ⟨h0, h1, h2, h3⟩ := hstored hst
    have hb0 : d.rxhead.toNat = 0 → b = 0xAE := fun h => hfirst (hzero h) (by rw [hst]; rfl)
    have hb : 1 ≤ d.rxhead.toNat → d.rxhead.toNat ≤ 3 → b = 0 := hpad hst
    refine ⟨fun _ => ?_, fun _ => ?_, fun _ => ?_, fun _ => ?_⟩ <;> split
    · exact hb0 ‹_›
    · exact h0 (by omega)
    · exact hb (by omega) (by omega)
    · exact h1 (by omega)
    · exact hb (by omega) (by omega)
    · exact h2 (by omega)
    · exact hb (by omega) (by omega)
    · exact h3 (by omega)
  | command | updating | dumping =>
    simp only [keptByte, hst] at hc
    simp at hc

/-- A kept byte (R230 to R235) keeps the invariant. -/
theorem keptByte_inv {p : Params} (hp : p.Wf) {d : DRegs} (h : d.Inv p) {b : Byte}
    (hlt : d.rxhead.toNat < 64) (hnone : handshakeError d.rxhead d.cstate b = none) :
    (keptByte b p.idleTicks d).Inv p := by
  obtain ⟨-, hready, hie, hiap, hempty, hstored, hconn, hupd, hdump, hidle, hidlele, hcc, hccle, hpart⟩ := h
  have hhead : (keptByte b p.idleTicks d).rxhead.toNat = d.rxhead.toNat + 1 := succ_toNat7 hlt
  have h63 : d.rxhead = 63 ↔ d.rxhead.toNat = 63 := by constructor <;> intro h <;> bv_omega
  have h00 : d.rxhead = 0 ↔ d.rxhead.toNat = 0 := by constructor <;> intro h <;> bv_omega
  have hnready : d.rxready = false := by
    rw [Bool.eq_false_iff]
    exact fun hr => Nat.ne_of_lt hlt (hready.mp hr)
  have hticks : p.idleTicks ≠ 0 := by
    obtain ⟨-, -, -, -, -, hticks, -⟩ := hp
    exact hticks
  -- the connection state is as it was, or `CONNECTING` after the first byte
  have hstate : (keptByte b p.idleTicks d).cstate = d.cstate ∧ d.cstate ≠ .disconnected ∨
      (keptByte b p.idleTicks d).cstate = .connecting := by
    by_cases hd : d.cstate = .disconnected
    · exact .inr (if_pos ⟨h00.mpr (hempty hd), hd⟩)
    · exact .inl ⟨if_neg fun h => hd h.2, hd⟩
  refine ⟨?_, ?_, hie, hiap, ?_, keptByte_handshakeStored hlt hempty hstored hnone, ?_, ?_, ?_, ?_, ?_, hcc,
    hccle, ?_⟩
  · omega
  · rw [hhead]
    simp only [keptByte, hnready, h63]
    split <;> simp <;> omega
  · rcases hstate with ⟨he, hne⟩ | he <;> rw [he]
    · exact fun h => absurd h hne
    · exact nofun
  · rcases hstate with ⟨he, -⟩ | he <;> rw [he]
    · exact hconn
    · exact nofun
  · rcases hstate with ⟨he, -⟩ | he <;> rw [he]
    · exact hupd
    · exact nofun
  · rcases hstate with ⟨he, -⟩ | he <;> rw [he]
    · exact hdump
    · exact nofun
  · simp only [keptByte]
    split_ifs <;> simp_all
  · simp only [keptByte]
    split_ifs <;> simp [hidlele]
  · rw [hhead]
    intro _ hmore
    have hn63 : ¬ d.rxhead.toNat = 63 := by omega
    simp only [keptByte, h63, h00, hn63, false_or, if_false]
    split
    · exact .inl hticks
    · exact hpart (by omega) (by omega)

/-- A byte that breaks the handshake (R231, R232) keeps the invariant: the buffer is empty again. -/
theorem dropHandshake_inv {p : Params} {d : DRegs} (h : d.Inv p) (hlt : d.rxhead.toNat < 64)
    (buf : Vector Byte 64) (tr : List DEvent) :
    DRegs.Inv p { d with rxbuf := buf, rxhead := 0, cstate := .disconnected, trace := tr } := by
  obtain ⟨-, hready, hie, hiap, -, -, -, -, -, hidle, hidlele, hcc, hccle, -⟩ := h
  refine ⟨Nat.zero_le _, ⟨fun hr => ?_, nofun⟩, hie, hiap, fun _ => rfl, nofun, nofun, nofun, nofun, hidle,
    hidlele, hcc, hccle, fun h0 => absurd h0 (Nat.lt_irrefl 0)⟩
  exact absurd (hready.mp hr) (Nat.ne_of_lt hlt)

theorem rxByte_regs_only (b : Byte) (s : State) : rxByte b s = { s with d := (rxByte b s).d } := by
  unfold rxByte
  split
  · rfl
  · split <;> rfl

/-- The receive agent writes registers only. -/
theorem rxStep_regs_only (b : Byte) (s : State) : rxStep b s = { s with d := (rxStep b s).d } := by
  unfold rxStep
  split
  · exact rxByte_regs_only b s
  · rfl

/-- The tick agent writes registers only. -/
theorem tickStep_regs_only (s : State) : tickStep s = { s with d := (tickStep s).d } := by
  unfold tickStep
  split <;> rfl

theorem rxByte_inv {s : State} (hp : s.params.Wf) (h : s.d.Inv s.params) (b : Byte) :
    (rxByte b s).d.Inv s.params := by
  obtain ⟨hle, -⟩ := id h
  rcases Nat.lt_or_eq_of_le hle with hlt | h64
  · cases hnone : handshakeError s.d.rxhead s.d.cstate b with
    | none =>
      rw [rxByte_of_kept hlt hnone]
      exact keptByte_inv hp h hlt hnone
    | some e =>
      obtain ⟨kind, info⟩ := e
      rw [rxByte_of_error hlt hnone]
      exact dropHandshake_inv h hlt _ _
  · rw [rxByte_of_full (BitVec.eq_of_toNat_eq h64)]
    exact h

/-! ### A tick -/

/-- A tick of one timer (R236): it stays in its range, its flag is down while it counts, and it does not go
from running to disarmed without raising its flag. -/
theorem tick_counts {w : Nat} {cnt n : BitVec w} {expired : Bool} (hflag : cnt ≠ 0 → expired = false)
    (hle : cnt.toNat ≤ n.toNat) :
    ((if cnt = 0 then 0 else cnt - 1) ≠ 0 → (if cnt = 1 then true else expired) = false) ∧
    (if cnt = 0 then 0 else cnt - 1).toNat ≤ n.toNat ∧
    (cnt ≠ 0 ∨ expired = true →
      (if cnt = 0 then 0 else cnt - 1) ≠ 0 ∨ (if cnt = 1 then true else expired) = true) := by
  by_cases h0 : cnt = 0
  · refine ⟨fun h => absurd (if_pos h0) h, by simp [h0], fun h => .inr ?_⟩
    rcases h with h | h
    · exact absurd h0 h
    · rw [h, ite_self]
  · have hpred : (cnt - 1).toNat ≤ cnt.toNat := by
      have hpos : cnt.toNat ≠ 0 := fun h => h0 (BitVec.eq_of_toNat_eq (by simpa using h))
      have h1w : 1 % 2 ^ w ≤ 1 := Nat.mod_le _ _
      have h1 : (1 : BitVec w).toNat ≤ 1 := h1w
      rw [BitVec.toNat_sub_of_le (by rw [BitVec.le_def]; omega)]
      omega
    rw [if_neg h0]
    refine ⟨fun h => ?_, by omega, fun _ => ?_⟩
    · rw [if_neg fun h1 => h (by rw [h1, sub_self]), hflag h0]
    · by_cases h1 : cnt = 1
      · exact .inr (if_pos h1)
      · exact .inl fun h => h1 (sub_eq_zero.mp h)

theorem DRegs.tick_inv {p : Params} {d : DRegs} (h : d.Inv p) : d.tick.Inv p := by
  obtain ⟨hle, hready, hie, hiap, hempty, hstored, hconn, hupd, hdump, hidle, hidlele, hcc, hccle, hpart⟩ := h
  obtain ⟨hidle', hidlele', hrun⟩ := tick_counts hidle hidlele
  obtain ⟨hcc', hccle', -⟩ := tick_counts hcc hccle
  rw [DRegs.tick_eq]
  refine ⟨hle, hready, hie, hiap, hempty, hstored, fun hc => ?_, hupd, hdump, hidle', hidlele', hcc', hccle',
    fun h0 h64 => hrun (hpart h0 h64)⟩
  obtain ⟨hcnt, hexp⟩ := hconn hc
  simp [hcnt, hexp]

/-! ### A dispatch -/

/-- What the invariant says of a machine about to dispatch the packet in its buffer. -/
structure PacketWaiting (s : State) : Prop where
  inv : s.d.Inv s.params
  running : s.d.terminal = .running
  ready : s.d.rxready = true

theorem PacketWaiting.rxhead {s : State} (h : PacketWaiting s) : s.d.rxhead.toNat = 64 := by
  obtain ⟨-, hready, -⟩ := h.inv
  exact hready.mp h.ready

/-- A complete packet of a device that is not connected is a connect packet (R231, R297). -/
theorem PacketWaiting.connect_byte {s : State} (h : PacketWaiting s) (hc : s.d.cstate.connected = false) :
    s.d.rxbuf[0] = 0xAE := by
  obtain ⟨-, -, -, -, hempty, hstored, -⟩ := h.inv
  have h64 := h.rxhead
  cases hst : s.d.cstate with
  | disconnected => exact absurd (hempty hst) (by omega)
  | connecting => exact (hstored hst).1 (by omega)
  | command | updating | dumping =>
    rw [hst] at hc
    cases hc

/-- The prologue connects (R272, R297), and a range that is open after it was open before. -/
theorem PacketWaiting.prologue_connected {s : State} (h : PacketWaiting s) :
    (prologue s).d.cstate.connected = true := by
  rw [prologue_d]
  by_cases hc : s.d.cstate.connected = true
  · split
    · exact hc
    · rfl
  · have hop : rxOpcode s.d = 0xAE := h.connect_byte (by simpa using hc)
    rw [hop]
    rfl

theorem PacketWaiting.prologue_range {s : State} (h : PacketWaiting s) :
    rangeOpen s.params (prologue s).d := by
  obtain ⟨-, -, -, -, -, -, -, hupd, hdump, -⟩ := h.inv
  rw [prologue_d, rangeOpen]
  dsimp only
  split
  · exact ⟨hupd, hdump⟩
  · exact ⟨nofun, nofun⟩

/-- After the command the connection timer is disarmed (R277, R297): it was, or the command is CONNECT. -/
theorem PacketWaiting.conn_disarmed {s u : State} (h : PacketWaiting s) {i : Instr}
    (hi : decodePacket s.d.rxbuf.toList = .ok i) (hu : exec i (prologue s) = .next u)
    (heff : CommandEffect (prologue s) u) : u.d.connCnt = 0 ∧ u.d.connExpired = false := by
  obtain ⟨-, -, -, -, -, -, hconn, -⟩ := h.inv
  by_cases hc : s.d.cstate.connected = true
  · obtain ⟨hcnt, hexp⟩ := hconn hc
    rcases heff.conn with ⟨hcnt', hexp'⟩ | hoff
    · rw [hcnt', hexp']
      exact ⟨hcnt, hexp⟩
    · exact hoff
  · obtain ⟨hdr, rest, hok⟩ := decodePacket_connect (rxbuf_length s.d.rxbuf)
      (by rw [rxbuf_head?, h.connect_byte (by simpa using hc)])
    cases hi.symm.trans hok
    obtain ⟨buf, tr, hd⟩ := exec_connect_d hu
    rw [hd]
    exact ⟨rfl, rfl⟩

/-- The registers after a command, its epilogue and the next phase (R245, R276) satisfy the invariant. -/
theorem PacketWaiting.dispatched_inv {s u : State} (h : PacketWaiting s) {i : Instr}
    (hi : decodePacket s.d.rxbuf.toList = .ok i) (hu : exec i (prologue s) = .next u)
    (heff : CommandEffect (prologue s) u) : (nextPhase (epilogue u)).d.Inv s.params := by
  obtain ⟨-, -, -, hiap, -, -, -, -, -, hidle, hidlele, -⟩ := h.inv
  have h64 : u.d.rxhead.toNat = 64 := by rw [heff.rxhead]; exact h.rxhead
  have hready : u.d.rxready = true := heff.rxready.trans h.ready
  have hiapen : (prologue s).d.iapen = true := hiap.mpr (.inl h.running)
  have hcon : u.d.cstate.connected = true := by
    rcases heff.cstate with he | he
    · rw [he]
      exact h.prologue_connected
    · exact he
  have hnot : u.d.cstate ≠ .disconnected ∧ u.d.cstate ≠ .connecting := by
    constructor <;> intro he <;> rw [he] at hcon <;> cases hcon
  obtain ⟨hcnt, hexp⟩ := h.conn_disarmed hi hu heff
  obtain ⟨hupd, hdump⟩ := heff.range
  have hidle' : u.d.idleCnt ≠ 0 → u.d.idleExpired = false := by
    rw [heff.idleCnt, heff.idleExpired]
    exact hidle
  have hidlele' : u.d.idleCnt.toNat ≤ s.params.idleTicks.toNat := by
    rw [heff.idleCnt]
    exact hidlele
  have hcc : u.d.connCnt.toNat ≤ s.params.connTimeoutTicks.toNat := by
    rw [hcnt]
    exact Nat.zero_le _
  rw [nextPhase_epilogue]
  by_cases ht : u.d.terminal = .running
  · have hiapen' : u.d.iapen = true := by
      rcases heff.run with ⟨-, -, he⟩ | ⟨he, -⟩ | ⟨he | he, -⟩
      · exact he.trans hiapen
      all_goals rw [ht] at he; cases he
    rw [if_pos ht]
    exact ⟨Nat.zero_le _, ⟨nofun, nofun⟩, ⟨fun _ => ht, fun _ => rfl⟩, ⟨fun _ => .inl ht, fun _ => hiapen'⟩,
      fun _ => rfl, fun he => absurd he hnot.2, fun _ => ⟨hcnt, hexp⟩, hupd, hdump, hidle', hidlele',
      fun hne => absurd hcnt hne, hcc, fun h0 => absurd h0 (Nat.lt_irrefl 0)⟩
  · have hie : u.d.ie = false := by
      rcases heff.run with ⟨he, -⟩ | ⟨-, he, -⟩ | ⟨-, he, -⟩
      · exact absurd he ht
      · exact he
      · exact he
    have hiapen' : u.d.iapen = true ↔ u.d.terminal = .running ∨ u.d.terminal = .haltVerify := by
      rcases heff.run with ⟨he, -⟩ | ⟨he, -, hi⟩ | ⟨he, -, hi⟩
      · exact absurd he ht
      · simp [he, hi.trans hiapen]
      · rcases he with he | he <;> simp [he, hi]
    rw [if_neg ht]
    exact ⟨h64.le, ⟨fun _ => h64, fun _ => hready⟩, ⟨fun he => absurd (hie.symm.trans he) nofun,
      fun he => absurd he ht⟩, hiapen', fun he => absurd he hnot.1, fun he => absurd he hnot.2,
      fun _ => ⟨hcnt, hexp⟩, hupd, hdump, hidle', hidlele', fun hne => absurd hcnt hne, hcc,
      fun _ hlt => absurd h64 (Nat.ne_of_lt hlt)⟩

/-- Fewer cells than machine D can write: what it changes stays within the cells that exist. -/
theorem flashOk_of_changes {p : Params} {m m' : Memory} (h : flashOk p m)
    (hc : Changes (deviceCell p) m m') : flashOk p m' := by
  obtain ⟨hw, hcells⟩ := h
  refine ⟨hc.wf hw, fun c hmem => ?_⟩
  rcases hc.cells c hmem with hold | hnew | hnew
  · exact hcells c hold
  · exact .inl (by omega)
  · exact .inr hnew

/-- A change of machine D's registers and flash that keeps their part of the invariant keeps all of it. -/
theorem State.Inv.of_device {s : State} (h : s.Inv) {d : DRegs} {m : Memory} (hd : d.Inv s.params)
    (hm : flashOk s.params m) : State.Inv { s with d := d, flash := m } := by
  obtain ⟨hp, -, hh, ht, -, htf⟩ := h
  exact ⟨hp, hd, hh, ht, hm, htf⟩

theorem State.Inv.of_regs {s : State} (h : s.Inv) {d : DRegs} (hd : d.Inv s.params) :
    State.Inv { s with d := d } := by
  obtain ⟨-, -, -, -, hf, -⟩ := id h
  exact h.of_device hd hf

/-- Moving the main loop to its next phase (R245) plays no part in the invariant. -/
theorem nextPhase_inv {s : State} (h : s.Inv) : (nextPhase s).Inv := by
  unfold nextPhase
  split
  · exact h
  · exact h

theorem discardPacket_inv {s : State} (h : s.Inv) (hrun : s.d.terminal = .running) :
    (discardPacket s).Inv := by
  obtain ⟨-, ⟨-, -, -, hiap, -, -, hconn, hupd, hdump, hidle, hidlele, hcc, hccle, -⟩, -⟩ := id h
  exact h.of_regs (d := { s.d with rxready := false, rxhead := 0, ie := true, trace := _ })
    ⟨Nat.zero_le _, ⟨nofun, nofun⟩, ⟨fun _ => hrun, fun _ => rfl⟩, hiap, fun _ => rfl,
      fun _ => ⟨nofun, nofun, nofun, nofun⟩, hconn, hupd, hdump, hidle, hidlele, hcc, hccle,
      fun h0 => absurd h0 (Nat.lt_irrefl 0)⟩

/-- A dispatch goes on, and with the move to the next phase keeps the invariant. -/
theorem dispatch_inv {s : State} (h : s.Inv) (hrun : s.d.terminal = .running)
    (hr : s.d.rxready = true) : ∃ t, mapNext nextPhase (dispatch s) = .next t ∧ t.Inv := by
  obtain ⟨hp, hd, -, -, hf, -⟩ := id h
  cases hq : seqPolicyHolds s.params.seqPolicy s.d.seq (rxSeqField s.d) with
  | false =>
    rw [dispatch_of_not_policy hq]
    exact ⟨_, rfl, nextPhase_inv (discardPacket_inv h hrun)⟩
  | true =>
    have hw : PacketWaiting s := ⟨hd, hrun, hr⟩
    obtain ⟨i, hi⟩ := decodePacket_total (rxbuf_length s.d.rxbuf)
    obtain ⟨u, hu, heff⟩ := exec_command (decodePacket_ofD hi) (s := prologue s) hp hrun hw.prologue_range
    rw [dispatch_of_policy hq hi, hu]
    refine ⟨nextPhase (epilogue u), rfl, ?_⟩
    have hrest : nextPhase (epilogue u) =
        { s with d := (nextPhase (epilogue u)).d, flash := u.flash } := by
      rw [nextPhase_epilogue]
      conv_lhs => rw [heff.rest]
      split <;> rfl
    rw [hrest]
    exact h.of_device (hw.dispatched_inv hi hu heff) (flashOk_of_changes hf heff.flash)

/-! ### The main loop -/

theorem connTimeout_inv {s : State} (h : s.Inv) : (connTimeout s).Inv := by
  obtain ⟨-, ⟨hle, hready, -, -, hempty, hstored, hconn, hupd, hdump, hidle, hidlele, hcc, hccle, hpart⟩, -⟩ :=
    id h
  exact h.of_regs (d := { s.d with ie := false, iapen := false, terminal := .bootAprom, trace := _ })
    ⟨hle, hready, ⟨nofun, nofun⟩, ⟨nofun, fun he => he.elim nofun nofun⟩, hempty, hstored, hconn, hupd, hdump,
      hidle, hidlele, hcc, hccle, hpart⟩

theorem idleTimeout_inv {s : State} (h : s.Inv) (hlt : s.d.rxhead.toNat < 64) : (idleTimeout s).Inv := by
  obtain ⟨-, ⟨-, hready, hie, hiap, -, -, hconn, hupd, hdump, hidle, hidlele, hcc, hccle, -⟩, -⟩ := id h
  exact h.of_regs (d := { s.d with rxhead := 0, trace := _ })
    ⟨Nat.zero_le _, ⟨fun hr => absurd (hready.mp hr) (Nat.ne_of_lt hlt), nofun⟩, hie, hiap, fun _ => rfl,
      fun _ => ⟨nofun, nofun, nofun, nofun⟩, hconn, hupd, hdump, hidle, hidlele, hcc, hccle,
      fun h0 => absurd h0 (Nat.lt_irrefl 0)⟩

theorem mainStep_inv {s : State} (h : s.Inv) : ∃ t, mainStep s = .next t ∧ t.Inv := by
  by_cases hrun : s.d.terminal = .running
  · rw [mainStep_of_running hrun]
    cases hm : s.d.mphase with
    | m1 =>
      rw [phaseAction_m1 hm]
      split
      · exact dispatch_inv h hrun ‹_›
      · exact ⟨_, rfl, nextPhase_inv h⟩
    | m2 =>
      rw [phaseAction_m2 hm]
      refine ⟨_, rfl, nextPhase_inv ?_⟩
      split
      · exact connTimeout_inv h
      · exact h
    | m3 =>
      rw [phaseAction_m3 hm]
      refine ⟨_, rfl, nextPhase_inv ?_⟩
      split
      · rename_i hact
        rw [Bool.and_eq_true, DRegs.partlyFilled_iff] at hact
        exact idleTimeout_inv h hact.2.2
      · exact h
  · exact ⟨s, mainStep_of_ended hrun, h⟩

/-! ### Machine H, the resets and the environment -/

theorem OpEffect.state_inv {s t : State} (h : s.Inv) (heff : OpEffect s t) : t.Inv := by
  obtain ⟨hp, hd, hh, ht, hf, htf, hcells⟩ := h
  rw [heff.rest]
  refine ⟨hp, hd, heff.inv hh, heff.tgt ht, hf, heff.flashWf htf, fun c hmem => ?_⟩
  rcases heff.cells c hmem with hold | hnew
  · exact hcells c hold
  · exact hnew

theorem HRegs.reset_inv (p : Params) : (HRegs.reset p).Inv := ⟨nofun, nofun, rfl, rfl, rfl⟩

theorem Target.initial_inv : Target.initial.Inv := fun _ => rfl

/-- Every input is taken, and keeps the invariant. -/
theorem eventStep_inv (e : Event) {s : State} (h : s.Inv) : ∃ t, eventStep e s = .next t ∧ t.Inv := by
  obtain ⟨hp, hd, hh, ht, hf, htf⟩ := id h
  cases e with
  | rx b =>
    refine ⟨_, rfl, ?_⟩
    unfold rxStep
    split
    · rw [rxByte_regs_only]
      exact h.of_regs (rxByte_inv hp hd b)
    · exact h
  | tick =>
    refine ⟨_, rfl, ?_⟩
    unfold tickStep
    split
    · exact h.of_regs (DRegs.tick_inv hd)
    · exact h
  | main => exact mainStep_inv h
  | resetD => exact ⟨_, rfl, resetD_inv hp hh ht hf htf⟩
  | resetDDuring k =>
    obtain ⟨m, hm, hc⟩ := resetDDuring_cases k hp
    exact ⟨_, rfl, by rw [hm]; exact resetD_inv (s := setFlash m s) hp hh ht (flashOk_of_changes hf hc) htf⟩
  | resetH => exact ⟨_, rfl, hp, hd, HRegs.reset_inv _, ht, hf, htf⟩
  | chipToTarget => exact ⟨_, rfl, hp, hd, hh, Target.initial_inv, hf, hf⟩
  | chipToDevice => exact ⟨_, rfl, resetD_inv (s := { s with flash := s.tflash }) hp hh ht htf htf⟩
  | setTiming r v | pinGrant ok | flashWear cells => exact ⟨_, rfl, h⟩
  | call c =>
    obtain ⟨t, hst, heff⟩ := callStep_effect c s
    exact ⟨t, hst, heff.state_inv h⟩

theorem step_inv {s : State} (h : s.Inv) : ∃ t, step s = .next t ∧ t.Inv := by
  cases hs : s.sched with
  | nil =>
    rw [step, hs]
    exact mainStep_inv h
  | cons e rest =>
    rw [step_of_sched_cons hs]
    exact eventStep_inv e (s := { s with sched := rest }) h

/-- Settles O53: the step of the input taken keeps it. -/
theorem everyStepKeepsTheInvariant : Obligations.EveryStepKeepsTheInvariant := by
  intro s t h ht
  obtain ⟨u, hu, hinv⟩ := step_inv h
  cases hu.symm.trans ht
  exact hinv

/-- Settles O59: the invariant rules out the faults of a continuation (R71), the only stop there is. -/
theorem invariantStatesGoOn : Obligations.InvariantStatesGoOn := fun _ h =>
  (step_inv h).imp fun _ ht => ht.1

/-- Settles O52: each machine is at its reset values and both flash arrays list no cell. -/
theorem resetSatisfiesTheInvariant : Obligations.ResetSatisfiesTheInvariant :=
  ⟨by decide, DRegs.reset_inv _, HRegs.reset_inv _, Target.initial_inv, ⟨Memory.wf_nil, nofun⟩,
    Memory.wf_nil, nofun⟩

/-! ### LDROM -/

/-- A cell of LDROM is none machine D can write (R83). -/
theorem not_deviceCell_ldrom {p : Params} (hp : p.Wf) {off : Nat} (h : off < p.ldromSize) :
    ¬ deviceCell p (p.apromSize + off) := by
  obtain ⟨-, -, -, -, hsum, -⟩ := hp
  unfold deviceCell cfgAddr
  omega

/-- The flash work of a whole main-loop step changes only cells machine D can write, whatever the state. -/
theorem mainStep_changes {s t : State} (hp : s.params.Wf) (h : mainStep s = .next t) :
    Changes (deviceCell s.params) s.flash t.flash := by
  obtain ⟨n, hn⟩ := dispatchPart_whole h
  obtain ⟨d, m, he, hc, -⟩ := dispatchPart_cases (s := s) n hp
  rw [← hn n le_rfl, he]
  exact hc

/-- Settles O54: a dispatch, whole or cut short, changes only cells machine D can write; the other inputs of
machine D change none. -/
theorem machineDNeverWritesLdrom : Obligations.MachineDNeverWritesLdrom := by
  intro s t hp hw hs h off hoff
  have hchanges : Changes (deviceCell s.params) s.flash t.flash := by
    cases hsched : s.sched with
    | nil =>
      rw [step, hsched] at h
      exact mainStep_changes hp h
    | cons e rest =>
      rw [step_of_sched_cons hsched] at h
      cases e with
      | rx b => cases h; rw [rxStep_regs_only]; exact .refl _ _
      | tick => cases h; rw [tickStep_regs_only]; exact .refl _ _
      | main => exact mainStep_changes (s := { s with sched := rest }) hp h
      | resetD => cases h; exact .refl _ _
      | resetDDuring k =>
        cases h
        obtain ⟨m, hm, hc⟩ := resetDDuring_cases (s := { s with sched := rest }) k hp
        rw [hm]
        exact hc
      | resetH | setTiming _ _ | pinGrant _ | flashWear _ | chipToTarget | chipToDevice | call _ =>
        rw [hsched] at hs
        simp [Event.ofD] at hs
  exact hchanges.other hw _ (not_deviceCell_ldrom hp hoff)

end Sys2Proof.Machine
end

section
/-! SUPPORT. The commands of machine D one by one, each with the whole next state (43_dispatch_commands.md):
the packets they send, the pages they erase, the bytes they program and where a failing byte halts. -/

namespace Sys2Proof.Machine

/-! ### Packets -/

/-- Settles O6: the sum is at most 64 times 255, so that the 16-bit sum is the sum. -/
theorem checksumIsTheSumOfTheBytes : Obligations.ChecksumIsTheSumOfTheBytes := by
  intro buf
  have hle : packetSum buf ≤ 0x3FC0 := by
    have h := List.sum_le_card_nsmul (buf.toList.map BitVec.toNat) 255 (by
      intro x hx
      obtain ⟨b, -, rfl⟩ := List.mem_map.mp hx
      exact Nat.le_of_lt_succ b.isLt)
    simpa [packetSum] using h
  refine ⟨?_, hle⟩
  rw [checksum_eq, BitVec.toNat_ofNat]
  exact Nat.mod_eq_of_lt (by omega)

/-- Settles O7: the buffer the stamps write is the packet of the spec, byte by byte. -/
theorem stampsWriteWholePackets : Obligations.StampsWriteWholePackets := by
  intro s
  refine ⟨⟨_, ?_, rfl⟩, ⟨_, ?_, rfl⟩⟩
  · rw [replyBuf_toList, checksum_inbound, goodPacket]
  · rw [replyBuf_toList, checksum_inbound, failPacket]

/-! ### Commands that write no flash -/

/-- Settles O19: both disarm the connection timer before the reply is stamped. -/
theorem connectAndSyncSeqDisarmTheTimer : Obligations.ConnectAndSyncSeqDisarmTheTimer := by
  intro s h rest
  refine ⟨⟨_, rfl, ?_⟩, ⟨_, rfl, replyOk_spec (setD DRegs.disarmConn s)⟩⟩
  have hregs : (if s.params.connectResetsSeq then { s.d.disarmConn with seq := 1 } else s.d.disarmConn) =
      { s.d with connCnt := 0, connExpired := false
                 seq := if s.params.connectResetsSeq then 1 else s.d.seq } := by
    split <;> rfl
  simp only [setD, hregs]
  exact replyOk_spec _

theorem configList_configBytes (s : State) :
    configList (configBytes s) = (List.range 5).map fun k => s.flash.read (0x30000 + k) := rfl

/-- Settles O20: each is `replyWith` its data, which fits the payload. -/
theorem queriesReplyWithTheirData : Obligations.QueriesReplyWithTheirData := by
  intro s h rest hw
  obtain ⟨⟨-, hdid⟩, ⟨-, hcid⟩, ⟨-, huid⟩, ⟨-, hucid⟩⟩ := hw
  refine ⟨⟨_, rfl, replyWith_spec _ s (by simp)⟩, ⟨_, rfl, replyWith_spec _ s (by simp)⟩,
    ⟨_, rfl, replyWith_spec _ s hdid⟩, ⟨_, rfl, replyWith_spec _ s huid⟩, ⟨_, rfl, replyWith_spec _ s hcid⟩,
    ⟨_, rfl, replyWith_spec _ s hucid⟩, ⟨_, rfl, ?_⟩⟩
  rw [configList_configBytes]
  exact replyWith_spec _ s (by simp)

/-- Settles O21: each is the boot sequence of its target. -/
theorem bootCommandsEndTheRun : Obligations.BootCommandsEndTheRun :=
  fun _ _ _ => ⟨rfl, rfl, rfl⟩

theorem exec_continuation_of_idle {s : State} (hu : s.d.cstate ≠ .updating) (hd : s.d.cstate ≠ .dumping)
    (h : PktHdr) (data : List Byte) :
    exec (.continuation h data) s = .next (replyFail .nackOpcode 0 s) := by
  simp only [exec, execContinuation]
  cases hc : s.d.cstate with
  | updating => exact absurd hc hu
  | dumping => exact absurd hc hd
  | command | connecting | disconnected => rfl

/-- Settles O22: both are the fail reply with `NACK_OPCODE`. -/
theorem unknownOpcodesGetAFailPacket : Obligations.UnknownOpcodesGetAFailPacket := fun s _ h rest =>
  ⟨⟨_, rfl, replyFail_spec _ _ s⟩,
    fun hu hd => ⟨_, exec_continuation_of_idle hu hd h rest, replyFail_spec _ _ s⟩⟩

/-! ### Dump -/

/-- The end of an accepted range in 16 bits (R286, R292). -/
theorem rangeEnd_toNat {start len : Word} (h : start.toNat + len.toNat ≤ 65535) :
    (start + len).toNat = start.toNat + len.toNat := by
  rw [BitVec.toNat_add]
  omega

theorem flashTotal_le_of_wf {p : Params} (hp : p.Wf) : p.apromSize + p.ldromSize ≤ 65535 := by
  obtain ⟨-, -, -, -, hsum, -⟩ := hp
  exact hsum

/-- Settles O28: an accepted range is opened, and its first chunk is the one every dump packet carries. -/
theorem readRomDumpsTheFirstChunk : Obligations.ReadRomDumpsTheFirstChunk := by
  intro s h start g1 len rest hp
  refine ⟨fun hbad => ?_, fun h0 hend => ?_⟩
  · have hno : ¬ readRangeOk s.params start len = true := by
      rw [readRangeOk_iff]
      rintro ⟨h0, hle⟩
      rcases hbad with hbad | hbad
      · exact h0 hbad
      · omega
    exact ⟨_, if_neg hno, replyFail_spec _ _ s⟩
  · have hlast : (start + len).toNat = start.toNat + len.toNat :=
      rangeEnd_toNat (hend.trans (flashTotal_le_of_wf hp))
    have hopen : exec (.readRom h start g1 len rest) s =
        dumpReply { s with d := { s.d with
          startAddr := start, endAddr := start + len, curAddr := start, cstate := .dumping } } := by
      have hok := (readRangeOk_iff s.params start len).mpr ⟨h0, hend⟩
      simp only [exec, execReadRom, hok, if_true, acceptRange_eq, setCState, setD]
    have hlen : (start + len).toNat - start.toNat = len.toNat := by omega
    have hdump := dumpReply_spec (s := { s with d := { s.d with
      startAddr := start, endAddr := start + len, curAddr := start, cstate := .dumping } })
      (by dsimp only; omega) (by dsimp only; omega)
    simp only [hlen] at hdump
    rw [hopen]
    exact hdump

/-! ### Erases -/

/-- Settles O25: every page of APROM is erased, and nothing else. -/
theorem eraseAllErasesAprom : Obligations.EraseAllErasesAprom := by
  intro s h rest hi hpage
  obtain ⟨m, hm, hread, hwf, -⟩ := eraseAllPages_spec hi hpage
  refine ⟨m, _, rfl, ?_, hwf, hread⟩
  rw [hm]
  exact replyOk_spec (setFlash m s)

/-- Settles O24: the page of an address is the 128 cells that share its quotient. -/
theorem pageEraseErasesOnePage : Obligations.PageEraseErasesOnePage := by
  intro s h addr rest hi
  refine ⟨fun hlt => ?_, fun hge => ⟨_, if_neg (by omega), replyFail_spec _ _ s⟩⟩
  have hpage : pageSpan s.params .aprom (pageBase addr).toNat = (addr.toNat / 128 * 128, 128) := by
    rw [pageSpan, pageBase_toNat, Nat.mul_div_cancel _ (by decide)]
  have herase := flashErasePage_on hi .aprom (pageBase addr).toNat
  rw [hpage] at herase
  refine ⟨s.flash.erase (addr.toNat / 128 * 128) 128, _, if_pos hlt, ?_, fun hw => Memory.wf_erase hw _ _,
    fun a => ?_⟩
  · rw [herase]
    exact replyOk_spec _
  · rw [Memory.read_erase]
    exact if_congr (by constructor <;> intro h <;> omega) rfl rfl

/-! ### Config -/

/-- The whole of UPDATE_CONFIG (R335): a sector that is erased takes each byte, or keeps a worn cell's. -/
theorem configUpdate_spec {s : State} (hi : s.d.iapen = true) (hw : s.flash.wf) (c : ConfigBytes) :
    ∃ m : Memory, configUpdate c s = setFlash m s ∧ m.wf ∧
      (∀ k (hk : k < 5), m.read (0x30000 + k) = takenByte s (0x30000 + k) ((configList c)[k])) ∧
      ∀ a, ¬ (0x30000 ≤ a ∧ a < 0x30005) → m.read a = s.flash.read a := by
  have herase : flashErasePage .config 0 s = setFlash (s.flash.erase 0x30000 5) s := flashErasePage_on hi _ _
  obtain ⟨m, hm, htaken, hother, hmw, -⟩ := programConfig_spec (configList c)
    (s := setFlash (s.flash.erase 0x30000 5) s) hi (Memory.wf_erase hw _ _) 0
  refine ⟨m, by rw [configUpdate, herase, hm, setFlash_setFlash], hmw, fun k hk => ?_, fun a ha => ?_⟩
  · have herased : (setFlash (s.flash.erase 0x30000 5) s).flash.read (0x30000 + k) = 0xFF := by
      rw [setFlash_flash, Memory.read_erase, if_pos (by omega)]
      rfl
    exact (htaken k hk).trans (burnt_of_erased herased _)
  · rw [hother a ha, setFlash_flash, Memory.read_erase, if_neg ha]

/-- Settles O23: the reply carries the sector as it then is. -/
theorem updateConfigReplacesTheSector : Obligations.UpdateConfigReplacesTheSector := by
  intro s h c rest hi hw
  obtain ⟨m, hm, hmw, htaken, hother⟩ := configUpdate_spec hi hw c
  refine ⟨m, _, rfl, ?_, hmw, ?_, hother⟩
  · rw [hm, configList_configBytes]
    exact replyWith_spec _ (setFlash m s) (by simp)
  · have h0 := htaken 0 (by decide)
    have h1 := htaken 1 (by decide)
    have h2 := htaken 2 (by decide)
    have h3 := htaken 3 (by decide)
    have h4 := htaken 4 (by decide)
    simp only [List.range, List.range.loop, List.map, h0, h1, h2, h3, h4]
    rfl

/-! ### Programming a chunk -/

/-- An update stands at `CUR_ADDR` (R332): the machine runs with programming enabled, and the range that is
left lies in APROM. -/
structure UpdateStands (s : State) : Prop where
  size : s.params.apromSize ≤ 65535
  wf : s.flash.wf
  enabled : s.d.iapen = true
  running : s.d.terminal = .running
  updating : s.d.cstate = .updating
  left : s.d.curAddr.toNat ≤ s.d.endAddr.toNat
  fits : s.d.endAddr.toNat ≤ s.params.apromSize

/-- The byte `k` of the chunk is the packet's. -/
theorem nextChunk_getElem {s : State} {data : List Byte} {k : Nat} (hk : k < (nextChunk data s).length) :
    (nextChunk data s)[k] = data.getD k 0 := by
  have hk' : k < data.length := hk.trans_le (by rw [nextChunk, List.length_take]; exact Nat.min_le_right _ _)
  simp only [nextChunk, List.getElem_take, List.getD_eq_getElem _ _ hk']

theorem nextChunk_length (s : State) (data : List Byte) :
    (nextChunk data s).length = min data.length (s.d.endAddr.toNat - s.d.curAddr.toNat) := by
  rw [nextChunk, List.length_take, chunkLen]
  omega

theorem nextChunk_getD {s : State} {data : List Byte} {k : Nat} (hk : k < (nextChunk data s).length)
    (x : Byte) : (nextChunk data s).getD k x = data.getD k 0 := by
  rw [List.getD_eq_getElem _ _ hk, nextChunk_getElem]

theorem UpdateStands.programReply_eq {s : State} (h : UpdateStands s) (data : List Byte) :
    programReply data s = .next (if (programChunk data s).d.terminal = .running
      then replyOk (programChunk data s) else programChunk data s) := by
  have hin : chunkInAprom (chunkLen data.length s.d.curAddr s.d.endAddr) s = true :=
    decide_eq_true (by have := h.left; have := h.fits; rw [chunkLen]; omega)
  rw [programReply, if_pos hin]

/-- A chunk whose every byte takes (R331, R332): the cells hold the packet's bytes, `CUR_ADDR` has moved,
the range is closed at its end, and the reply is sent. -/
theorem UpdateStands.programReply_taken {s : State} (h : UpdateStands s) {data : List Byte}
    (htaken : ∀ k < min data.length (s.d.endAddr.toNat - s.d.curAddr.toNat),
      burnt s (s.d.curAddr.toNat + k) (data.getD k 0) = data.getD k 0) :
    ∃ (m : Memory) (t : State), programReply data s = .next t ∧
      SentFrom { s with
        flash := m
        d := { s.d with
          curAddr := s.d.curAddr +
            BitVec.ofNat 16 (min data.length (s.d.endAddr.toNat - s.d.curAddr.toNat))
          cstate := if s.d.endAddr.toNat - s.d.curAddr.toNat ≤ data.length then .command
            else .updating } } t (goodPacket s.d []) ∧
      m.wf ∧
      ∀ a, m.read a =
        if s.d.curAddr.toNat ≤ a ∧
            a < s.d.curAddr.toNat + min data.length (s.d.endAddr.toNat - s.d.curAddr.toNat) then
          data.getD (a - s.d.curAddr.toNat) 0
        else s.flash.read a := by
  have hlen := nextChunk_length s data
  obtain ⟨m, hm, hread, hmw, -⟩ := programBytes_ok (nextChunk data s) h.enabled h.running h.wf _ rfl
    (by have := h.size; have := h.left; have := h.fits; omega)
    (fun k hk => by rw [nextChunk_getElem]; exact htaken k (by omega))
  rw [hlen] at hm
  have hchunk : programChunk data s = { s with
      flash := m
      d := { s.d with
        curAddr := s.d.curAddr +
          BitVec.ofNat 16 (min data.length (s.d.endAddr.toNat - s.d.curAddr.toNat))
        cstate := if s.d.endAddr.toNat - s.d.curAddr.toNat ≤ data.length then .command
          else .updating } } := by
    simp only [programChunk, hm]
    rw [if_pos (by exact h.running), finishRange_eq (u := moveCur _ (setFlash m s)) rfl h.left rfl rfl]
    split <;> simp only [moveCur, setFlash, setD, h.updating]
  rw [h.programReply_eq, hchunk, if_pos (by exact h.running)]
  refine ⟨m, _, rfl, replyOk_spec _, hmw, fun a => ?_⟩
  rw [hread]
  by_cases hge : s.d.curAddr.toNat ≤ a
  · by_cases hlt : a < s.d.curAddr.toNat + min data.length (s.d.endAddr.toNat - s.d.curAddr.toNat)
    · rw [if_pos hge, if_pos ⟨hge, hlt⟩, nextChunk_getD (by omega)]
    · rw [if_pos hge, if_neg fun hin => hlt hin.2, List.getD_eq_default _ _ (by omega)]
  · rw [if_neg hge, if_neg fun hin => hge hin.1]

/-- A chunk whose byte `k` is the first that does not read back (R331, R336): the machine halts there, the
cells before it hold the packet's bytes, and nothing is sent. -/
theorem UpdateStands.programReply_halt {s : State} (h : UpdateStands s) {data : List Byte} {k : Nat}
    (hk : k < min data.length (s.d.endAddr.toNat - s.d.curAddr.toNat))
    (htaken : ∀ j < k, burnt s (s.d.curAddr.toNat + j) (data.getD j 0) = data.getD j 0)
    (hbad : burnt s (s.d.curAddr.toNat + k) (data.getD k 0) ≠ data.getD k 0) :
    ∃ m : Memory, programReply data s = .next { s with
        flash := m
        d := { s.d with
          curAddr := s.d.curAddr + BitVec.ofNat 16 k
          terminal := .haltVerify
          trace := s.d.trace ++ [.err .fatalVerify (s.d.curAddr + BitVec.ofNat 16 k)] } } ∧
      m.wf ∧
      ∀ a, m.read a =
        if s.d.curAddr.toNat ≤ a ∧ a < s.d.curAddr.toNat + k then data.getD (a - s.d.curAddr.toNat) 0
        else if a = s.d.curAddr.toNat + k then burnt s a (data.getD k 0)
        else s.flash.read a := by
  have hlen := nextChunk_length s data
  have hk' : k < (nextChunk data s).length := by rw [hlen]; exact hk
  obtain ⟨m, hm, hread, hmw, -⟩ := programBytes_halt (nextChunk data s) h.enabled h.running h.wf _ rfl
    (by have := h.size; have := h.left; have := h.fits; omega) k hk'
    (fun j hj => by rw [nextChunk_getElem]; exact htaken j hj)
    (by rw [nextChunk_getElem]; exact hbad)
  have hchunk : programChunk data s = halt (s.d.curAddr + BitVec.ofNat 16 k) (moveCur k (setFlash m s)) := by
    simp only [programChunk, hm]
    exact if_neg (by rw [halt_d]; exact nofun)
  rw [h.programReply_eq, hchunk, if_neg (by rw [halt_d]; exact nofun)]
  refine ⟨m, rfl, hmw, fun a => ?_⟩
  rw [hread, nextChunk_getElem]
  split
  · rw [nextChunk_getD (by omega)]
  · split
    · rename_i ha
      rw [ha]
    · rfl

theorem exec_continuation_of_updating {s : State} (hc : s.d.cstate = .updating) (h : PktHdr)
    (data : List Byte) : exec (.continuation h data) s = programReply data s := by
  simp only [exec, execContinuation, hc]

/-- Settles O27: the packet's chunk is programmed where the update stands. -/
theorem continuationProgramsTheNextChunk : Obligations.ContinuationProgramsTheNextChunk := by
  intro s h data hp hw hi hrun hc hdata hleft hfits
  have hs : UpdateStands s := ⟨apromSize_le_of_wf hp, hw, hi, hrun, hc, hleft, hfits⟩
  rw [exec_continuation_of_updating hc, ← hdata]
  exact ⟨hs.programReply_taken, fun k hk => hs.programReply_halt hk⟩

/-! ### UPDATE_APROM -/

/-- An accepted UPDATE_APROM up to its first chunk (R286, R330): the range is open at its first byte, and
every page it meets reads 0xFF. -/
theorem beginUpdate_stands {s : State} (hp : s.params.Wf) (hw : s.flash.wf) (hi : s.d.iapen = true)
    (hrun : s.d.terminal = .running) {start len : Word}
    (hend : start.toNat + len.toNat ≤ s.params.apromSize) :
    ∃ m : Memory, beginUpdate start len s = { s with flash := m, d := { s.d with
        startAddr := start, endAddr := start + len, curAddr := start, cstate := .updating } } ∧
      UpdateStands (beginUpdate start len s) ∧
      (∀ a, inErasedPages start.toNat (start.toNat + len.toNat) a → m.read a = 0xFF) ∧
      ∀ a, ¬ inErasedPages start.toNat (start.toNat + len.toNat) a → m.read a = s.flash.read a := by
  have hsize := apromSize_le_of_wf hp
  have hlast : (start + len).toNat = start.toNat + len.toNat := rangeEnd_toNat (hend.trans hsize)
  obtain ⟨m, hm, hread, hmw, -⟩ := erasePages_spec (s := acceptRange start len s) hi start (start + len)
  rw [hlast, acceptRange_flash] at hread
  have hbegin : beginUpdate start len s = { s with flash := m, d := { s.d with
      startAddr := start, endAddr := start + len, curAddr := start, cstate := .updating } } := by
    rw [beginUpdate_eq, hm, acceptRange_eq]
    rfl
  refine ⟨m, hbegin, ?_, fun a => (hread a).1, fun a => (hread a).2⟩
  rw [hbegin]
  exact ⟨hsize, hmw hw, hi, hrun, rfl, by dsimp only; omega, by dsimp only; omega⟩

/-- A byte of the range lies in one of the pages it meets. -/
theorem inErasedPages_of_range {start len a : Nat} (hge : start ≤ a) (hlt : a < start + len) :
    inErasedPages start (start + len) a := by
  unfold inErasedPages
  omega

theorem exec_updateAprom_of_range {s : State} {start len : Word} (h0 : len ≠ 0)
    (hend : start.toNat + len.toNat ≤ s.params.apromSize) (h : PktHdr) (g1 g2 : Word) (data : List Byte) :
    exec (.updateAprom h start g1 len g2 data) s = programReply data (beginUpdate start len s) :=
  if_pos ((updateRangeOk_iff s.params start len).mpr ⟨h0, hend⟩)

/-- Settles O26: the range check, then the pages, then the first chunk on cells that are erased. -/
theorem updateApromErasesAndPrograms : Obligations.UpdateApromErasesAndPrograms := by
  intro s h start g1 len g2 data hp hw hi hrun hdata
  refine ⟨fun hbad => ?_, fun h0 hend htaken => ?_, fun h0 hend k hk htaken hbad => ?_⟩
  · have hno : ¬ updateRangeOk s.params start len = true := by
      rw [updateRangeOk_iff]
      rintro ⟨h0, hle⟩
      rcases hbad with hbad | hbad
      · exact h0 hbad
      · omega
    exact ⟨_, if_neg hno, replyFail_spec _ _ s⟩
  all_goals
    obtain ⟨m0, hbegin, hstands, herased, hkept⟩ := beginUpdate_stands hp hw hi hrun hend
    have hlast : (start + len).toNat = start.toNat + len.toNat :=
      rangeEnd_toNat (hend.trans (apromSize_le_of_wf hp))
    have hburnt : ∀ j < len.toNat, ∀ v, burnt (beginUpdate start len s) (start.toNat + j) v =
        takenByte s (start.toNat + j) v := by
      intro j hj v
      have hff := herased _ (inErasedPages_of_range (Nat.le_add_right start.toNat j)
        (Nat.add_lt_add_left hj start.toNat))
      rw [burnt_of_erased (by rw [hbegin]; exact hff), hbegin]
      rfl
    rw [exec_updateAprom_of_range h0 hend]
    rw [hbegin] at hburnt hstands ⊢
    have hleft : (start + len).toNat - start.toNat = len.toNat := by omega
  · obtain ⟨m, t, ht, hsent, hmw, hread⟩ := hstands.programReply_taken (data := data) (by
      simp only [hleft, hdata]
      intro k hk
      rw [hburnt k (by omega)]
      exact htaken k hk)
    simp only [hleft, hdata] at hsent hread
    refine ⟨m, t, ht, hsent, hmw, fun a => ⟨fun hin => ?_, fun hout hpage => ?_, fun hout => ?_⟩⟩
    · rw [hread, if_pos hin]
    · rw [hread, if_neg hout]
      exact herased a hpage
    · rw [hread, if_neg fun hin => hout (inErasedPages_of_range hin.1 (by omega))]
      exact hkept a hout
  · obtain ⟨m, ht, hmw, hread⟩ := hstands.programReply_halt (data := data) (k := k)
      (by simp only [hleft, hdata]; exact hk)
      (fun j hj => by rw [hburnt j (by omega)]; exact htaken j hj)
      (by rw [hburnt k (by omega)]; exact hbad)
    refine ⟨m, ht, hmw, fun a => ⟨fun hin => ?_, fun ha => ?_, fun hout hpage => ?_, fun hout => ?_⟩⟩
    · exact (hread a).trans (if_pos hin)
    · rw [hread, if_neg (by dsimp only; omega), if_pos ha, ha]
      exact hburnt k (by omega) _
    · rw [hread, if_neg (by dsimp only; omega), if_neg (by dsimp only; omega)]
      exact herased a hpage
    · have hnot : ¬ (start.toNat ≤ a ∧ a ≤ start.toNat + k) := fun hin =>
        hout (inErasedPages_of_range hin.1 (by omega))
      rw [hread, if_neg (by dsimp only; omega), if_neg (by dsimp only; omega)]
      exact hkept a hout

end Sys2Proof.Machine
end

section
/-! SUPPORT. The mode operations and the single units of the ICP wire in full (40_icp_bit_engine.md): the
events, the latches, what the target makes of them; the states each operation is admitted in; and the answers
of the config codec. -/

namespace Sys2Proof.Machine

/-! ### Gates -/

/-- Every instruction a state can refuse runs its body behind the gate of R156. -/
theorem exec_gated {i : Instr} {s : State} (h : admits s i = false) :
    ∃ body, exec i s = gated (admits s i) body s := by
  cases i with
  | hostInit r => exact ⟨initBody r, rfl⟩
  | hostReentry _ _ _ => simp only [exec, execHostReentry]; exact ⟨_, rfl⟩
  | hostReentryGlitch _ _ _ _ => simp only [exec, execHostReentryGlitch]; exact ⟨_, rfl⟩
  | icpEntryPattern => simp only [exec, execIcpEntryPattern]; exact ⟨_, rfl⟩
  | icpResetSeq => simp only [exec, execIcpResetSeq]; exact ⟨_, rfl⟩
  | icpExitPattern => simp only [exec, execIcpExitPattern]; exact ⟨_, rfl⟩
  | hostExit => simp only [exec, execHostExit]; exact ⟨_, rfl⟩
  | hostReadDeviceId => simp only [exec, execHostReadDeviceId]; exact ⟨_, rfl⟩
  | hostCheckDeviceId => simp only [exec, execHostCheckDeviceId]; exact ⟨_, rfl⟩
  | hostReadCid => simp only [exec, execHostReadCid]; exact ⟨_, rfl⟩
  | hostReadUid => simp only [exec, execHostReadUid]; exact ⟨_, rfl⟩
  | hostReadUcid => simp only [exec, execHostReadUcid]; exact ⟨_, rfl⟩
  | hostReadFlash _ _ => simp only [exec, execHostReadFlash]; exact ⟨_, rfl⟩
  | hostWriteFlash _ _ _ => simp only [exec, execHostWriteFlash]; exact ⟨_, rfl⟩
  | hostMassErase => simp only [exec, execHostMassErase]; exact ⟨_, rfl⟩
  | hostPageErase _ => simp only [exec, execHostPageErase]; exact ⟨_, rfl⟩
  | hostVerifyFlash _ _ _ => simp only [exec, execHostVerifyFlash]; exact ⟨_, rfl⟩
  | hostReadConfig => simp only [exec, execHostReadConfig]; exact ⟨_, rfl⟩
  | hostWriteConfig _ _ => simp only [exec, execHostWriteConfig]; exact ⟨_, rfl⟩
  | hostProgramRegion _ _ _ => simp only [exec, execHostProgramRegion]; exact ⟨_, rfl⟩
  | icpReadFlash param => exact ⟨sendFrame _ param, rfl⟩
  | icpReadUid param => exact ⟨sendFrame _ param, rfl⟩
  | icpReadCid param => exact ⟨sendFrame _ param, rfl⟩
  | icpReadDeviceId param => exact ⟨sendFrame _ param, rfl⟩
  | icpWriteFlash param => exact ⟨sendFrame _ param, rfl⟩
  | icpPageErase param => exact ⟨sendFrame _ param, rfl⟩
  | icpMassErase param => exact ⟨sendFrame _ param, rfl⟩
  | icpByteRead _ => simp only [exec, execIcpByteRead]; exact ⟨_, rfl⟩
  | icpByteWrite _ _ _ _ => simp only [exec, execIcpByteWrite]; exact ⟨_, rfl⟩
  | _ => cases h

/-- Settles O34: every operation outside its state is behind the gate that answers `E_BAD_STATE`. -/
theorem operationsOutsideTheirStateAreRefused : Obligations.OperationsOutsideTheirStateAreRefused := by
  intro i s h
  obtain ⟨body, hbody⟩ := exec_gated h
  rw [hbody, gated_not h]

/-- Settles O35: behind an open gate a zero length is refused before any event. -/
theorem zeroLengthsAreRefused : Obligations.ZeroLengthsAreRefused := by
  intro s addr data hi ho
  have hopen := enteredOwned_of hi ho
  exact ⟨gated_of hopen _ s, gated_of hopen _ s, gated_of hopen _ s, gated_of hopen _ s⟩

/-! ### Patterns -/

/-- Performing events that the target only follows with its registers (R151, R382). -/
theorem perform_pattern {evs : List HEvent} {s : State} {tg : Target}
    (h : targetAll evs s = setTgt tg s) :
    perform evs s = { s with
      h := { s.h with pins := pinsAfter evs s.h.pins, trace := s.h.trace ++ evs }, tgt := tg } := by
  rw [perform_eq, h]
  rfl

theorem perform_quiet {evs : List HEvent} (h : ∀ ev ∈ evs, ev.quiet = true) (s : State) :
    perform evs s = { s with
      h := { s.h with pins := pinsAfter evs s.h.pins, trace := s.h.trace ++ evs } } :=
  perform_pattern (tg := s.tgt) (targetAll_quiet h s)

/-- Quiet events before a pattern. -/
theorem targetAll_quiet_append {a b : List HEvent} (h : ∀ ev ∈ a, ev.quiet = true) (s : State) :
    targetAll (a ++ b) s = targetAll b s := by
  rw [targetAll_append, targetAll_quiet h]

/-- Quiet events after a pattern. -/
theorem targetAll_append_quiet {a b : List HEvent} (h : ∀ ev ∈ b, ev.quiet = true) (s : State) :
    targetAll (a ++ b) s = targetAll a s := by
  rw [targetAll_append, targetAll_quiet h]

/-- `EnterMode` is the pattern or the simple pulse, then the entry pattern (R158). -/
theorem enterModeEvents_eq (r : Bool) (p : Params) (t : Timing) : enterModeEvents r p t =
    (if r then resetTrace p.resetSeq t.rstseqBit.toNat
      else [.pin .rst (!p.rstAssertLevel), .delay t.rstHigh.toNat, .pin .rst p.rstAssertLevel,
        .delay t.rstLow.toNat]) ++ entryTrace t t.entrySettle.toNat := by
  rw [enterModeEvents, resetSeqEvents_eq, entryEvents_eq]
  rfl

/-- Settles O31: the pins are taken, then the five writes of R157 and `EnterMode`; or the acquisition fails. -/
theorem initEntersOrLeavesTheEngine : Obligations.InitEntersOrLeavesTheEngine := by
  intro s r hfree
  have hgate : exec (.hostInit r) s = .next (initBody r s) :=
    gated_of (by rw [hfree]; rfl) _ s
  have hacquire (ok : Bool) : perform [.acquire ok] s =
      { s with h := { s.h with trace := s.h.trace ++ [.acquire ok] } } :=
    perform_quiet (by simp [HEvent.quiet]) s
  refine ⟨fun hg => ?_, fun hg => ?_⟩
  · have henter : targetAll (initPinEvents s.params ++ enterModeEvents r s.params s.h.timing)
        (setOwned true (perform [.acquire true] s)) =
        setTgt (targetEntered s) (setOwned true (perform [.acquire true] s)) := by
      rw [targetAll_quiet_append (by simp [initPinEvents, HEvent.quiet]), targetAll_enterModeEvents,
        hacquire]
      rfl
    have hbody : initBody r s = returns .ok (.bytes []) (setIState .entered
        (perform (initPinEvents s.params ++ enterModeEvents r s.params s.h.timing)
          (setOwned true (perform [.acquire true] s)))) := by
      rw [initBody, if_pos hg, hg]
    rw [hgate, hbody, perform_pattern henter, pinsAfter_append, pinsAfter_enterModeEvents,
      enterModeEvents_eq, hacquire]
    simp only [setOwned, setIState, returns, initPinEvents, rstReleased, List.append_assoc]
    rfl
  · have hbody : initBody r s = returns .ePinInit (.bytes []) (perform [.acquire false] s) := by
      rw [initBody, if_neg (by simp [hg]), hg]
    rw [hgate, hbody, hacquire]
    rfl

/-- Settles O32: `exit` and `deinit` share the exit sequence, and each then drives RESET once. -/
theorem exitAndDeinitLeave : Obligations.ExitAndDeinitLeave := by
  intro s leave
  refine ⟨fun hi ho => ?_, fun hi ho => ?_, fun hi ho => ?_, fun ho => ?_⟩
  · have hexit : targetAll (exitCoreEvents s.params s.h.timing ++ [.pin .rst (rstReleased s.params)]) s =
        setTgt (targetExited s) s := by
      rw [targetAll_append_quiet (by simp [HEvent.quiet]), targetAll_exitCoreEvents]
    have hgate := gated_of (enteredOwned_of hi ho) (fun s => returns .ok (.bytes [])
      (setIState .exited
        (perform (exitCoreEvents s.params s.h.timing ++ [.pin .rst (rstReleased s.params)]) s))) s
    refine hgate.trans ?_
    dsimp only
    rw [perform_pattern hexit, pinsAfter_append, pinsAfter_exitCoreEvents, exitCoreEvents_eq]
    simp only [setIState, returns, rstReleased, List.append_assoc]
    rfl
  · have hevents : deinitEvents leave s = exitCoreEvents s.params s.h.timing ++
        [.pin .rst (if leave then s.params.rstAssertLevel else rstReleased s.params), .release leave] := by
      rw [deinitEvents, if_pos hi]
    have hexit : targetAll (deinitEvents leave s) s = setTgt (targetExited s) s := by
      rw [hevents, targetAll_append_quiet (by simp [HEvent.quiet]), targetAll_exitCoreEvents]
    simp only [exec, execHostDeinit, ho, if_true]
    rw [perform_pattern hexit, hevents, pinsAfter_append, pinsAfter_exitCoreEvents, exitCoreEvents_eq]
    simp only [setIState, setOwned, returns, rstReleased, List.append_assoc]
    rfl
  · have hevents : deinitEvents leave s =
        [.pin .rst (if leave then s.params.rstAssertLevel else rstReleased s.params), .release leave] := by
      rw [deinitEvents, if_neg hi, List.nil_append]
    simp only [exec, execHostDeinit, ho, if_true]
    rw [hevents, perform_quiet (by simp [HEvent.quiet])]
    rfl
  · simp only [exec, execHostDeinit, ho, Bool.false_eq_true, if_false]
    rfl

/-- Settles O33: RESET is cycled by quiet events, and the entry pattern enters. -/
theorem reentryReissuesTheEntry : Obligations.ReentryReissuesTheEntry := by
  intro s d1 d2 d3 d4 ho
  refine ⟨?_, ?_⟩
  · have hquiet : ∀ ev ∈ (if 0 < d1 then [HEvent.pin .rst (rstReleased s.params), .delay d1] else []) ++
        [.pin .rst s.params.rstAssertLevel, .delay d2], ev.quiet = true := by
      split <;> simp [HEvent.quiet]
    have henter : targetAll (reentryEvents d1 d2 d3 s.params s.h.timing) s = setTgt (targetEntered s) s := by
      rw [reentryEvents, targetAll_quiet_append hquiet, targetAll_entryEvents]
    have hpins : pinsAfter (reentryEvents d1 d2 d3 s.params s.h.timing) s.h.pins = { s.h.pins with
        datOut := true, datDir := .output, clk := false, rst := s.params.rstAssertLevel } := by
      rw [reentryEvents, pinsAfter_append, pinsAfter_append, pinsAfter_entryEvents]
      split <;> rfl
    simp only [exec, execHostReentry]
    rw [gated_of ho, perform_pattern henter, hpins, reentryEvents, entryEvents_eq]
    simp only [setIState, returns, rstReleased, List.append_assoc]
  · have henter : targetAll (glitchEvents d1 d2 d3 d4 s.params s.h.timing) s =
        setTgt (targetEntered s) s := by
      rw [glitchEvents, targetAll_quiet_append (by simp [HEvent.quiet]), targetAll_entryEvents]
    simp only [exec, execHostReentryGlitch]
    rw [gated_of ho, perform_pattern henter, glitchEvents, pinsAfter_append, pinsAfter_entryEvents,
      entryEvents_eq]
    simp only [setIState, returns, rstReleased, List.append_assoc]
    rfl

/-- Settles O37: each pattern by its events, latches and target. -/
theorem patternUnitsSendTheirPattern : Obligations.PatternUnitsSendTheirPattern := by
  intro s ho
  refine ⟨?_, ?_, fun hi => ?_⟩
  · simp only [exec, execIcpEntryPattern]
    rw [gated_of ho, perform_pattern (targetAll_entryEvents s.h.timing _ s), pinsAfter_entryEvents,
      entryEvents_eq]
    rfl
  · simp only [exec, execIcpResetSeq]
    rw [gated_of ho, perform_quiet (quiet_resetSeqEvents s.params s.h.timing), pinsAfter_resetSeqEvents,
      resetSeqEvents_eq]
    rfl
  · simp only [exec, execIcpExitPattern]
    rw [gated_of (enteredOwned_of hi ho), perform_pattern (targetAll_exitEvents s.h.timing s),
      pinsAfter_exitEvents, exitEvents_eq]
    rfl

/-! ### Frames -/

/-- A frame by itself (R155), whatever the target makes of it (R382). -/
theorem sendFrame_eq {cmd : BitVec 6} {c : IcpCmd} (hc : IcpCmd.ofCode cmd = some c) (param : BitVec 18)
    (s : State) : sendFrame cmd param s = wireDone
      (frameTrace (wireFrame cmd param.toNat) s.h.timing.cmdBit.toNat) (s.h.pins.sentLast (cmd.getLsbD 0))
      (.ok, .bytes []) s.tflash (targetFramed s c param) s.freeCtr s := by
  have hwide : (param.setWidth 32).toNat = param.toNat := by
    rw [BitVec.toNat_setWidth]
    exact Nat.mod_eq_of_lt (by have := param.isLt; omega)
  rw [sendFrame, sendCommand_eq, hwide, targetConsume_frame_eq hc]
  rfl

/-- Settles O36: each unit is its frame behind the gate. -/
theorem frameUnitsSendTheirFrame : Obligations.FrameUnitsSendTheirFrame := by
  intro s param hi ho
  have hsend {i : Instr} {cmd : BitVec 6} {c : IcpCmd} (hc : IcpCmd.ofCode cmd = some c)
      (hexec : exec i s = gated (enteredOwned s) (sendFrame cmd param) s) : SendsFrame i cmd c param s := by
    rw [SendsFrame, hexec, gated_of (enteredOwned_of hi ho), sendFrame_eq hc]
  exact ⟨hsend rfl rfl, hsend rfl rfl, hsend rfl rfl, hsend rfl rfl, hsend rfl rfl, hsend rfl rfl,
    hsend rfl rfl⟩

/-! ### Byte transfers -/

theorem Target.open_eq_some {t : Target} {c : IcpCmd} :
    t.open = some c ↔ t.prog = true ∧ t.desync = false ∧ t.cmd = some c := by
  unfold Target.open
  cases t.prog <;> cases t.desync <;> simp

/-- No command is open for a byte transfer (R383): no reference target, or none of its three conditions. -/
theorem closed_iff {s : State} : closed s ↔
    s.targetKind = .oracle ∨ s.tgt.prog = false ∨ s.tgt.desync = true ∨ s.tgt.cmd = none := by
  unfold closed Target.open
  cases s.tgt.prog <;> cases s.tgt.desync <;> simp

theorem closed_or_open (s : State) :
    closed s ∨ s.targetKind = .reference ∧ ∃ c, s.tgt.open = some c := by
  cases hk : s.targetKind with
  | oracle => exact .inl (.inl hk)
  | reference =>
    cases ho : s.tgt.open with
    | none => exact .inl (.inr ho)
    | some c => exact .inr ⟨rfl, c, rfl⟩

theorem not_closed_of_open {s : State} (hk : s.targetKind = .reference) {c : IcpCmd}
    (ho : s.tgt.open = some c) : ¬ closed s := by
  rintro (h | h)
  · rw [hk] at h
    cases h
  · rw [ho] at h
    cases h

/-- A write to an open command, cell by cell (R384 to R386, R388): WRITE_FLASH into the cell at the pointer,
PAGE_ERASE the page of the pointer, an armed MASS_ERASE every cell. -/
theorem targetWrite_spec (c : IcpCmd) (a : Nat) (v : Byte) {s : State} (hw : s.tflash.wf) :
    ∃ m : Memory, targetWrite c a v s = setTgt { s.tgt with
        locked := if c = .massErase ∧ s.tgt.armed = true then false else s.tgt.locked } (setTFlash m s) ∧
      m.wf ∧ ∀ x, m.read x =
        if c = .writeFlash ∧ s.tgt.locked = false ∧ x = a ∧ cellExists s.params x then s.tflash.read x &&& v
        else if c = .pageErase ∧ s.tgt.locked = false ∧ inIcpPage s.params a x then 0xFF
        else if c = .massErase ∧ s.tgt.armed = true ∧ cellExists s.params x then 0xFF
        else s.tflash.read x := by
  cases c with
  | readFlash | readUid | readCid | readDeviceId => exact ⟨s.tflash, by simp [targetWrite]; rfl, hw, by simp⟩
  | writeFlash =>
    simp only [targetWrite, targetProgram]
    split
    · exact ⟨s.tflash, by simp; rfl, hw, by simp [*]⟩
    · rename_i hl
      split
      · rename_i ha
        refine ⟨_, by simp; rfl, Memory.wf_write hw _ _, fun x => ?_⟩
        rw [Memory.read_write hw]
        by_cases hx : x = a
        · subst hx
          have hex : cellExists s.params x := ha
          simp [hl, hex]
        · simp [hx]
      · rename_i ha
        refine ⟨s.tflash, by simp; rfl, hw, fun x => ?_⟩
        rw [if_neg]
        · simp
        · rintro ⟨-, -, rfl, hex⟩
          exact ha hex
  | pageErase =>
    simp only [targetWrite, targetPageErase]
    by_cases hl : s.tgt.locked = true
    · exact ⟨s.tflash, by rw [if_pos hl]; simp; rfl, hw, by simp [hl]⟩
    rw [if_neg hl]
    by_cases ha : a < flashSize s.params
    · refine ⟨s.tflash.erase (a / 128 * 128) (min 128 (flashSize s.params - a / 128 * 128)),
        by rw [if_pos ha]; simp; rfl, Memory.wf_erase hw _ _, fun x => ?_⟩
      rw [Memory.read_erase]
      have hpage : (a / 128 * 128 ≤ x ∧ x < a / 128 * 128 +
          min 128 (flashSize s.params - a / 128 * 128)) ↔ inIcpPage s.params a x := by
        unfold inIcpPage
        unfold flashSize at ha ⊢
        omega
      simp [hpage, hl, erasedByte]
    rw [if_neg ha]
    by_cases hcfg : cfgAddr ≤ a ∧ a ≤ cfgAddr + 127
    · refine ⟨s.tflash.erase cfgAddr 5, by rw [if_pos hcfg]; simp; rfl, Memory.wf_erase hw _ _, fun x => ?_⟩
      rw [Memory.read_erase]
      have hpage : (cfgAddr ≤ x ∧ x < cfgAddr + 5) ↔ inIcpPage s.params a x := by
        unfold cfgAddr at hcfg ⊢
        unfold inIcpPage
        unfold flashSize at ha
        omega
      simp [hpage, hl, erasedByte]
    · refine ⟨s.tflash, by rw [if_neg hcfg]; simp; rfl, hw, fun x => ?_⟩
      have hpage : ¬ inIcpPage s.params a x := by
        unfold cfgAddr at hcfg
        unfold inIcpPage
        unfold flashSize at ha
        omega
      simp [hpage]
  | massErase =>
    simp only [targetWrite, targetMassErase]
    by_cases ha : s.tgt.armed = true
    · refine ⟨(s.tflash.erase 0 (flashSize s.params)).erase cfgAddr 5, by simp [ha],
        Memory.wf_erase (Memory.wf_erase hw _ _) _ _, fun x => ?_⟩
      rw [Memory.read_erase, Memory.read_erase]
      have hcell : cellExists s.params x ↔ (cfgAddr ≤ x ∧ x < cfgAddr + 5) ∨
          (0 ≤ x ∧ x < 0 + flashSize s.params) := by
        unfold cellExists cfgAddr flashSize
        omega
      by_cases h1 : cfgAddr ≤ x ∧ x < cfgAddr + 5 <;>
        by_cases h2 : 0 ≤ x ∧ x < 0 + flashSize s.params <;> simp [ha, hcell, h1, h2, erasedByte]
    · exact ⟨s.tflash, by rw [if_neg ha, if_neg (fun h => ha h.2)]; rfl, hw, by simp [ha]⟩

section
variable {s : State} (hi : s.h.istate = .entered) (ho : s.h.pinsOwned = true)
include hi ho

theorem exec_icpByteRead (e : Bool) : exec (.icpByteRead e) s =
    .next (returns .ok (.bytes [(readByte e s).1]) (readByte e s).2) := by
  simp only [exec, execIcpByteRead]
  rw [gated_of (enteredOwned_of hi ho)]

theorem exec_icpByteWrite (v : Byte) (e : Bool) (d1 d2 : Nat) : exec (.icpByteWrite v e d1 d2) s =
    .next (returns .ok (.bytes []) (writeByte v e d1 d2 s)) := by
  simp only [exec, execIcpByteWrite]
  rw [gated_of (enteredOwned_of hi ho)]

end

/-- Settles O38: a transfer to an open command is the target's, one to none draws a free value or does
nothing. -/
theorem byteUnitsTransferOneByte : Obligations.ByteUnitsTransferOneByte := by
  intro s v e d1 d2 hi ho hw
  have hopen {c : IcpCmd} (hp : s.tgt.prog = true) (hd : s.tgt.desync = false)
      (hc : s.tgt.cmd = some c) : s.tgt.open = some c := Target.open_eq_some.mpr ⟨hp, hd, hc⟩
  rw [exec_icpByteRead hi ho, exec_icpByteWrite hi ho]
  rcases closed_or_open s with hcl | ⟨hk, c, hc⟩
  · rw [readByte_eq, supply_closed hcl, writeByte_eq, write_closed hcl]
    rw [read_closed (s := setEnv s.tflash s.tgt (s.freeCtr + 1) s) hcl]
    exact ⟨⟨_, s.tgt, _, rfl, fun c hk hp hd hcmd =>
        absurd hcl (not_closed_of_open hk (hopen hp hd hcmd)), fun _ => ⟨rfl, rfl, rfl⟩⟩,
      ⟨s.tflash, s.tgt, rfl, hw, fun c hk hp hd hcmd =>
        absurd hcl (not_closed_of_open hk (hopen hp hd hcmd)), fun _ => ⟨rfl, rfl⟩⟩⟩
  · have hncl := not_closed_of_open hk hc
    obtain ⟨m, hm, hmw, hread⟩ := targetWrite_spec c s.tgt.ptr.toNat v hw
    have hcmd : s.tgt.cmd = some c := (Target.open_eq_some.mp hc).2.2
    have hsame {c' : IcpCmd} (h : s.tgt.cmd = some c') : c = c' := Option.some.inj (hcmd.symm.trans h)
    rw [readByte_open hk hc, writeByte_open hk hc, hm]
    refine ⟨⟨_, s.tgt.advance e, s.freeCtr, rfl, fun c' _ _ _ hc' => ?_,
        fun h => absurd (closed_iff.mpr h) hncl⟩,
      ⟨m, _, rfl, hmw, fun c' _ _ _ hc' => ?_, fun h => absurd (closed_iff.mpr h) hncl⟩⟩
    · cases hsame hc'
      exact ⟨targetRead_eq _ _ _, rfl, by rw [Target.advance, hcmd]⟩
    · cases hsame hc'
      exact ⟨by simp only [Target.advance, setTgt_tgt, hcmd]; rfl, hread⟩

/-! ### The config codec -/

theorem configList_encode (f : ConfigFlags) : exec (.configEncode f) s =
    .next (answered (.ok, .bytes [(configEncode f).b0, (configEncode f).b1, (configEncode f).b2,
      (configEncode f).b3, (configEncode f).b4]) s) := rfl

/-- Settles O48: each bit of the five bytes is the field, or the reserved bit, of its place. -/
theorem theConfigCodecAnswers : Obligations.TheConfigCodecAnswers := by
  refine ⟨fun s b => rfl, fun s f => ⟨_, _, _, _, _, configList_encode f, ?_, ?_, ?_, rfl, ?_⟩⟩ <;>
    apply BitVec.eq_of_getLsbD_eq <;> intro i hi
  · rw [configEncode_b0_getLsbD f hi]
    change _ = BitVec.getLsbD (w := 1 + 1 + 1 + 1 + 1 + 1 + 1 + 1) _ _
    simp only [BitVec.getLsbD_append]
    interval_cases i <;> simp
  · rw [configEncode_b1_getLsbD f hi]
    change _ = BitVec.getLsbD (w := 5 + 3) _ _
    simp only [BitVec.getLsbD_append]
    interval_cases i <;> simp
  · rw [configEncode_b2_getLsbD f hi]
    change _ = BitVec.getLsbD (w := 1 + 1 + 2 + 1 + 1 + 2) _ _
    simp only [BitVec.getLsbD_append]
    interval_cases i <;> simp
  · rw [configEncode_b4_getLsbD f hi]
    change _ = BitVec.getLsbD (w := 4 + 4) _ _
    simp only [BitVec.getLsbD_append]
    interval_cases i <;> simp

/-- Settles O50: the sizes and codes by evaluation, the lock bit by its mask. -/
theorem configFieldsMeanWhatTheSpecSays : Obligations.ConfigFieldsMeanWhatTheSpecSays := by
  refine ⟨by decide, by decide, fun b => rfl, fun b0 => ⟨?_, ?_⟩, rfl, rfl, fun w h1 h2 => ?_⟩
  · rw [unlockedByte, BitVec.getLsbD_or]
    exact Bool.or_true _
  · rw [lockedByte, BitVec.getLsbD_and]
    exact Bool.and_false _
  · rw [wdtMode, if_neg h1, if_neg h2]

end Sys2Proof.Machine
end

section
/-! SUPPORT. The flash operations of machine H as the call port runs them: behind an open gate each is its
frames and bytes (41_icp_flash_commands.md). -/

namespace Sys2Proof.Machine

/-! ### Bodies behind the gate -/

section
variable {s : State} (hi : s.h.istate = .entered) (ho : s.h.pinsOwned = true)
include hi ho

theorem exec_hostReadFlash {len : Nat} (hl : 0 < len) (addr : BitVec 32) : exec (.hostReadFlash addr len) s =
    .next (returns .ok (.bytes (readFlash addr len s).1) (readFlash addr len s).2) := by
  simp only [exec, execHostReadFlash]
  rw [gated_of (enteredOwned_of hi ho), unlessEmpty, if_neg (Nat.ne_of_gt hl)]

theorem exec_hostReadConfig : exec .hostReadConfig s =
    .next (returns .ok (.bytes (readFlash cfgParam 5 s).1) (readFlash cfgParam 5 s).2) := by
  simp only [exec, execHostReadConfig]
  rw [gated_of (enteredOwned_of hi ho)]

theorem exec_hostWriteFlash {len : Nat} (hl : 0 < len) (addr : BitVec 32) (data : List Byte) :
    exec (.hostWriteFlash addr len data) s =
      .next (returns .ok (.bytes []) (writeFlash addr (argBytes len data) s)) := by
  simp only [exec, execHostWriteFlash]
  rw [gated_of (enteredOwned_of hi ho), unlessEmpty, if_neg (Nat.ne_of_gt hl)]

theorem exec_hostVerifyFlash {len : Nat} (hl : 0 < len) (addr : BitVec 32) (data : List Byte) :
    exec (.hostVerifyFlash addr len data) s = .next (returnPair (verifyFlash addr len data s)) := by
  simp only [exec, execHostVerifyFlash]
  rw [gated_of (enteredOwned_of hi ho), unlessEmpty, if_neg (Nat.ne_of_gt hl)]

theorem exec_hostProgramRegion {len : Nat} (hl : 0 < len) (addr : BitVec 32) (data : List Byte) :
    exec (.hostProgramRegion addr len data) s = .next (returnPair (verifyFlash addr len data
      (writeFlash addr (argBytes len data) (eraseRegion addr len s)))) := by
  simp only [exec, execHostProgramRegion]
  rw [gated_of (enteredOwned_of hi ho), unlessEmpty, if_neg (Nat.ne_of_gt hl)]

theorem exec_hostMassErase : exec .hostMassErase s = .next (returns .ok (.bytes []) (massErase s)) := by
  simp only [exec, execHostMassErase]
  rw [gated_of (enteredOwned_of hi ho)]

theorem exec_hostPageErase (addr : BitVec 32) :
    exec (.hostPageErase addr) s = .next (returns .ok (.bytes []) (pageEraseHost addr s)) := by
  simp only [exec, execHostPageErase]
  rw [gated_of (enteredOwned_of hi ho)]

theorem exec_hostWriteConfig (c : ConfigBytes) (lock : Bool) :
    exec (.hostWriteConfig c lock) s = .next (writeConfig c lock s) := by
  simp only [exec, execHostWriteConfig]
  rw [gated_of (enteredOwned_of hi ho)]

end

/-! ### Reading, verifying, writing, erasing -/

/-- Settles O40: `read_config` is the same read at 0x30000. -/
theorem readFlashIsOneFrameAndItsReads : Obligations.ReadFlashIsOneFrameAndItsReads := by
  intro s addr len hi ho
  refine ⟨fun hl => ?_, ?_⟩
  · obtain ⟨bs, tg, n, hlen, hread, hready⟩ := readFlash_spec addr len hl s
    refine ⟨bs, tg, n, hlen, ?_, hready⟩
    rw [exec_hostReadFlash hi ho hl, hread, returns_wired]
  · obtain ⟨bs, tg, n, hlen, hread, hready⟩ := readFlash_spec cfgParam 5 (by decide) s
    refine ⟨bs, tg, n, hlen, ?_, fun hr => ⟨(hready hr).1, (hready hr).2.1⟩⟩
    rw [exec_hostReadConfig hi ho, hread, returns_wired]
    rfl

/-- What `verify_flash` answers over any read of its range (R199). -/
theorem returnPair_verify {addr : BitVec 32} {len : Nat} {data bs : List Byte} {s t : State}
    (hlen : bs.length = len) (hread : readFlash addr len s = (bs, t)) :
    returnPair (verifyFlash addr len data s) =
      returns (verifyAnswer bs (argBytes len data)).1 (verifyAnswer bs (argBytes len data)).2 t := by
  rw [returnPair, verifyFlash, hread, verdict_eq _ _ (by rw [hlen, argBytes_length])]

/-- Settles O41: the read of O40 and the comparison of R199. -/
theorem verifyFlashComparesWhatItRead : Obligations.VerifyFlashComparesWhatItRead := by
  intro s addr len data hi ho hl
  obtain ⟨bs, tg, n, hlen, hread, hready⟩ := readFlash_spec addr len hl s
  refine ⟨argBytes len data, bs, tg, n, argBytes_takes len data, hlen, ?_, fun hr => (hready hr).1⟩
  rw [exec_hostVerifyFlash hi ho hl, returnPair_verify hlen hread, returns_wired]

/-- Settles O42: the frame and the writes of the first `len` elements. -/
theorem writeFlashIsOneFrameAndItsWrites : Obligations.WriteFlashIsOneFrameAndItsWrites := by
  intro s addr len arr hi ho hw hl
  obtain ⟨m, tg, hwrite, hwf, hready, hcells, hlocked, hdead⟩ :=
    writeFlash_spec addr (argBytes len arr) (argBytes_ne_nil hl arr) s
  refine ⟨argBytes len arr, m, tg, argBytes_takes len arr, ?_, hwf hw, hready, fun hr hu a => ⟨?_, ?_⟩,
    hlocked, hdead⟩
  · rw [exec_hostWriteFlash hi ho hl, hwrite, returns_wired]
  · exact fun hex => by rw [hcells hr hu hw a, if_pos hex]
  · exact fun hex => by rw [hcells hr hu hw a, if_neg hex]

/-- Settles O43: each erase is one frame and one closing write. -/
theorem theErasesOnTheWire : Obligations.TheErasesOnTheWire := by
  intro s addr hi ho
  refine ⟨?_, ?_⟩
  · obtain ⟨m, tg, herase, -, hready, hdead⟩ := massErase_spec s
    refine ⟨m, tg, by rw [exec_hostMassErase hi ho, herase, returns_wired], fun hr => ?_, hdead⟩
    obtain ⟨htg, hunlocked, hcells⟩ := hready hr
    exact ⟨htg, hunlocked, fun a => ⟨fun hex => by rw [hcells a, if_pos hex],
      fun hex => by rw [hcells a, if_neg hex]⟩⟩
  · obtain ⟨m, tg, herase, -, hrest⟩ := pageEraseHost_spec addr s
    exact ⟨m, tg, by rw [exec_hostPageErase hi ho, herase, returns_wired], hrest⟩

/-! ### Erase, write, read back -/

/-- `x` is a cell one of `n` page erases from `a` on erases, as the frames carry their addresses. -/
def inErased (p : Params) (a n x : Nat) : Prop := ∃ j < n, inIcpPage p ((a + 128 * j) % 2 ^ 18) x

theorem cellExists_of_inIcpPage {p : Params} {x a : Nat} (h : inIcpPage p x a) : cellExists p a := by
  rcases h with ⟨-, -, h⟩ | ⟨-, -, -, h⟩
  · exact .inl h
  · exact .inr h

/-- What `n` page erases from `a` on, the bytes `data` written from `addr` on and a read of their range
leave of the flash of `s`: the array `m`, the target's registers `tg`, the bytes `bs` read. -/
structure Replaced (a n addr : Nat) (data : List Byte) (s : State) (bs : List Byte) (m : Memory)
    (tg : Target) : Prop where
  length : bs.length = data.length
  wf : s.tflash.wf → m.wf
  ready : targetReady s → tg.ready ∧ tg.locked = s.tgt.locked
  kept : ¬ targetReady s ∨ s.tgt.locked = true → m = s.tflash
  erased : targetReady s → s.tgt.locked = false → s.tflash.wf → ∀ x, inErased s.params a n x →
    m.read x = icpBurnt data addr x 0xFF
  other : targetReady s → s.tgt.locked = false → s.tflash.wf → ∀ x, ¬ inErased s.params a n x →
    m.read x = if cellExists s.params x then icpBurnt data addr x (s.tflash.read x) else s.tflash.read x
  read : targetReady s → s.tgt.locked = false → bs = (List.range data.length).map fun k =>
    if cellExists s.params ((addr + k) % 2 ^ 18) then m.read ((addr + k) % 2 ^ 18) else 0xFF

/-- The chain erase, write, read of `write_config` and `program_region` (R201, R205), whatever answers. -/
theorem eraseWriteRead_spec (a : Nat) {n : Nat} (hn : 0 < n) (addr : BitVec 32) {data : List Byte}
    (hne : data ≠ []) (s : State) : ∃ (bs : List Byte) (m : Memory) (tg : Target) (k : Nat),
      readFlash addr data.length (writeFlash addr data (pageErases a n s)) = (bs, wired
        (((List.range n).flatMap fun j => pageEraseTrace s.h.timing (a + 128 * j)) ++
          writeFlashTrace s.h.timing addr.toNat data ++ readFlashTrace s.h.timing addr.toNat bs) m tg k s) ∧
      (¬ targetReady s →
        ¬ targetReady (readFlash addr data.length (writeFlash addr data (pageErases a n s))).2) ∧
      Replaced a n addr.toNat data s bs m tg := by
  obtain ⟨m1, tg1, herase, hwf1, hready1, hcells1, hlocked1, hdead1⟩ := pageErases_spec a n s hn
  obtain ⟨m2, tg2, hwrite, hwf2, hready2, hcells2, hlocked2, hdead2⟩ :=
    writeFlash_spec addr data hne (pageErases a n s)
  obtain ⟨bs, tg3, k, hlen, hread, hready3⟩ := readFlash_spec addr data.length
    (List.length_pos_of_ne_nil hne) (writeFlash addr data (pageErases a n s))
  have hready (hr : targetReady s) : targetReady (pageErases a n s) ∧
      (pageErases a n s).tgt.locked = s.tgt.locked := by
    rw [herase]
    exact ⟨⟨hr.1, (hready1 hr).1⟩, (hready1 hr).2⟩
  have hready' (hr : targetReady s) : targetReady (writeFlash addr data (pageErases a n s)) ∧
      (writeFlash addr data (pageErases a n s)).tgt.locked = s.tgt.locked := by
    obtain ⟨hr1, hl1⟩ := hready hr
    rw [hwrite]
    exact ⟨⟨hr1.1, (hready2 hr1).1⟩, (hready2 hr1).2.trans hl1⟩
  have herased : (pageErases a n s).tflash = m1 := by rw [herase]; rfl
  have hparams : (pageErases a n s).params = s.params := by rw [herase]; rfl
  have hwritten (hr : targetReady s) (hu : s.tgt.locked = false) (hw : s.tflash.wf) (x : Nat) :
      m2.read x = if cellExists s.params x then icpBurnt data addr.toNat x (m1.read x) else m1.read x := by
    have h := hcells2 (hready hr).1 ((hready hr).2.trans hu) (by rw [herased]; exact hwf1 hw) x
    rwa [herased, hparams] at h
  refine ⟨bs, m2, tg3, k, ?_, fun hr => readFlash_dead (writeFlash_dead (pageErases_dead a n hr) addr data)
    addr _, ?_⟩
  · rw [hread, hwrite, herase]
    simp only [wired_h, wired_tflash, wired_wired]
  · exact
      { length := hlen
        wf := fun hw => hwf2 (by rw [herased]; exact hwf1 hw)
        ready := fun hr => by
          obtain ⟨-, h1, h2, -⟩ := hready3 (hready' hr).1
          exact ⟨h1, h2.trans (hready' hr).2⟩
        kept := fun h => by
          by_cases hr : targetReady s
          · have hl := h.resolve_left (fun h => h hr)
            rw [hlocked2 (hready hr).1 ((hready hr).2.trans hl), herased, hlocked1 hr hl]
          · rw [hdead2 (pageErases_dead a n hr), herased, hdead1 hr]
        erased := fun hr hu hw x hx => by
          have hex : cellExists s.params x := cellExists_of_inIcpPage hx.choose_spec.2
          rw [hwritten hr hu hw, if_pos hex, (hcells1 hr hu x).1 hx]
        other := fun hr hu hw x hx => by
          have hkept : m1.read x = s.tflash.read x :=
            (hcells1 hr hu x).2 fun j hj hin => hx ⟨j, hj, hin⟩
          rw [hwritten hr hu hw, hkept]
        read := fun hr hu => by
          have hunlocked : (writeFlash addr data (pageErases a n s)).tgt.locked = false :=
            (hready' hr).2.trans hu
          have hm : (writeFlash addr data (pageErases a n s)).tflash = m2 := by rw [hwrite]; rfl
          have hp : (writeFlash addr data (pageErases a n s)).params = s.params := by
            rw [hwrite]; exact hparams
          rw [(hready3 (hready' hr).1).1, icpBytes]
          simp only [icpCell, hunlocked, Bool.false_eq_true, if_false, hm, hp] }

/-- A cell that neither an erase nor a write reaches keeps its byte, whatever the target. -/
theorem Replaced.untouched {a n addr : Nat} {data bs : List Byte} {s : State} {m : Memory} {tg : Target}
    (h : Replaced a n addr data s bs m tg) (hw : s.tflash.wf) {x : Nat}
    (hx : ¬ inErased s.params a n x) (hd : ∀ k < data.length, (addr + k) % 2 ^ 18 ≠ x) :
    m.read x = s.tflash.read x := by
  by_cases hr : targetReady s ∧ s.tgt.locked = false
  · obtain ⟨hr, hu⟩ := hr
    rw [h.other hr hu hw x hx, icpBurnt_other _ _ _ _ hd]
    split <;> rfl
  · rw [h.kept (by
      by_cases hr' : targetReady s
      · exact .inr (by simpa [hr'] using hr)
      · exact .inl hr')]

/-- On a ready unlocked target a range of erased cells holds the data, and reads back so. -/
theorem Replaced.holds {a n addr : Nat} {data bs : List Byte} {s : State} {m : Memory} {tg : Target}
    (h : Replaced a n addr data s bs m tg) (hw : s.tflash.wf) (hr : targetReady s)
    (hu : s.tgt.locked = false) (hle : addr + data.length ≤ 2 ^ 18)
    (hin : ∀ k < data.length, inErased s.params a n (addr + k)) :
    (∀ k (hk : k < data.length), m.read (addr + k) = data[k]) ∧ bs = data := by
  have hcell (k : Nat) (hk : k < data.length) : m.read (addr + k) = data[k] := by
    rw [h.erased hr hu hw _ (hin k hk), icpBurnt_at data addr 0xFF k hk hle]
    exact BitVec.allOnes_and
  refine ⟨hcell, List.ext_getElem h.length fun k h1 hk => ?_⟩
  have hmod : (addr + k) % 2 ^ 18 = addr + k := Nat.mod_eq_of_lt (by omega)
  have hex : cellExists s.params (addr + k) := cellExists_of_inIcpPage (hin k hk).choose_spec.2
  have hread := h.read hr hu
  subst hread
  rw [List.getElem_map, List.getElem_range, hmod, if_pos hex, hcell k hk]

end Sys2Proof.Machine
end

section
/-! SUPPORT. `write_config` and `program_region`, which are made of the chain erase, write, read back
(R201, R205), and what the reference target reads back (R389). -/

namespace Sys2Proof.Machine

/-! ### write_config -/

theorem verifyAnswer_self (bs : List Byte) : verifyAnswer bs bs = (.ok, .bytes []) := by
  rw [verifyAnswer, (firstDiff_none rfl).mpr rfl]

theorem verifyAnswer_ok_iff {got expected : List Byte} (h : got.length = expected.length) :
    (verifyAnswer got expected).1 = .ok ↔ got = expected := by
  rw [← firstDiff_none h, verifyAnswer]
  cases firstDiff got expected <;> simp

theorem lockedByte_unlockedByte (b : Byte) : lockedByte (unlockedByte b) = b &&& 0xFD := by
  unfold lockedByte unlockedByte
  revert b
  decide

theorem unlockedByte_and_locked (b : Byte) : unlockedByte b &&& (b &&& 0xFD) = b &&& 0xFD := by
  unfold unlockedByte
  revert b
  decide

/-- The end of `write_config` after a read that answered `bs` (R201): it programs the lock bit only when the
bytes read are the bytes written. -/
theorem lockStep_verified {u : ConfigBytes} {bs : List Byte} (hlen : bs.length = 5) (lock : Bool) (t : State) :
    lockStep u lock (verdict bs (argBytes 5 (configList u)), t) =
      returns (verifyAnswer bs (configList u)).1 (verifyAnswer bs (configList u)).2
        (if bs = configList u ∧ lock = true then writeFlash cfgParam [lockedByte u.b0] t else t) := by
  have hlist : argBytes 5 (configList u) = configList u := argBytes_self (configList u)
  have hlen' : bs.length = (configList u).length := hlen
  rw [hlist, verdict_eq _ _ hlen', lockStep, returnPair]
  by_cases h : bs = configList u
  · subst h
    rw [verifyAnswer_self]
    cases lock <;> simp
  · have hne := mt (verifyAnswer_ok_iff hlen').mp h
    rw [if_neg hne, if_neg fun hc => h hc.1]

theorem flash_le_of_wf {p : Params} (hp : p.Wf) : p.apromSize + p.ldromSize ≤ 65535 := by
  obtain ⟨-, -, -, -, hle, -⟩ := hp
  exact hle

/-- The page of the config sector is the sector, past the end of the flash. -/
theorem inErased_cfg {p : Params} (hp : p.Wf) (x : Nat) :
    inErased p 0x30000 1 x ↔ 0x30000 ≤ x ∧ x < 0x30005 := by
  have hsize := flash_le_of_wf hp
  constructor
  · rintro ⟨j, hj, hin⟩
    obtain rfl : j = 0 := by omega
    rcases hin with ⟨h, -⟩ | ⟨-, -, -, h⟩
    · omega
    · exact h
  · exact fun h => ⟨0, by omega, .inr ⟨by omega, by omega, by omega, h⟩⟩

theorem cfgParam_toNat : cfgParam.toNat = 0x30000 := rfl

/-- The chain of `write_config` up to its read (R201). -/
theorem configChain_spec (s : State) (u : ConfigBytes) :
    ∃ (bs : List Byte) (m : Memory) (tg : Target) (k : Nat) (t : State),
      t = wired (pageEraseTrace s.h.timing 0x30000 ++ writeFlashTrace s.h.timing 0x30000 (configList u) ++
        readFlashTrace s.h.timing 0x30000 bs) m tg k s ∧
      readFlash cfgParam 5 (writeFlash cfgParam (configList u) (pageEraseHost cfgParam s)) = (bs, t) ∧
      (¬ targetReady s → ¬ targetReady t) ∧ Replaced 0x30000 1 0x30000 (configList u) s bs m tg := by
  have hlen : (configList u).length = 5 := rfl
  have herase : pageErases 0x30000 1 s = pageEraseHost cfgParam s := by
    simp only [pageErases]
    rfl
  have htrace : ((List.range 1).flatMap fun j => pageEraseTrace s.h.timing (0x30000 + 128 * j)) =
      pageEraseTrace s.h.timing 0x30000 := List.append_nil _
  obtain ⟨bs, m, tg, k, hchain, hdead, hrep⟩ := eraseWriteRead_spec 0x30000 (n := 1) (by decide) cfgParam
    (data := configList u) (List.cons_ne_nil _ _) s
  rw [herase, htrace, cfgParam_toNat, hlen] at hchain
  rw [herase, hlen, hchain] at hdead
  rw [cfgParam_toNat] at hrep
  exact ⟨bs, m, tg, k, _, rfl, hchain, hdead, hrep⟩

/-- Programming the lock bit (R201, R364): one byte into the first cell of the config sector, from a target
that was ready for a frame, or no cell. -/
theorem writeLock_spec (v : Byte) (s : State) : ∃ (m : Memory) (tg : Target),
      writeFlash cfgParam [v] s = wired (writeFlashTrace s.h.timing 0x30000 [v]) m tg s.freeCtr s ∧
      (s.tflash.wf → m.wf) ∧ (¬ targetReady s ∨ s.tgt.locked = true → m = s.tflash) ∧
      (targetReady s → tg.ready) ∧
      (s.tflash.wf → ∀ x, x ≠ 0x30000 → m.read x = s.tflash.read x) ∧
      (targetReady s → s.tgt.locked = false → s.tflash.wf →
        m.read 0x30000 = s.tflash.read 0x30000 &&& v) := by
  obtain ⟨m, tg, hwrite, hwf, hready, hcells, hlocked, hdead⟩ :=
    writeFlash_spec cfgParam [v] (List.cons_ne_nil _ _) s
  have hkept : ¬ targetReady s ∨ s.tgt.locked = true → m = s.tflash := fun h => by
    by_cases hr : targetReady s
    · exact hlocked hr (h.resolve_left fun h => h hr)
    · exact hdead hr
  refine ⟨m, tg, hwrite, hwf, hkept, fun hr => (hready hr).1, fun hw x hx => ?_, fun hr hu hw => ?_⟩
  · by_cases hr : targetReady s ∧ s.tgt.locked = false
    · rw [hcells hr.1 hr.2 hw, icpBurnt_other [v] _ _ _ fun k hk => ?_]
      · split <;> rfl
      · obtain rfl : k = 0 := by simpa using hk
        exact fun h => hx h.symm
    · rw [hkept (by
        by_cases hr' : targetReady s
        · exact .inr (by simpa [hr'] using hr)
        · exact .inl hr')]
  · rw [hcells hr hu hw, if_pos (.inr ⟨Nat.le_refl _, by decide⟩)]
    exact icpBurnt_at [v] 0x30000 _ 0 Nat.one_pos (Nat.le_of_ble_eq_true rfl)

/-- Cells that hold a list, read in order. -/
theorem map_range_read {m : Memory} {a : Nat} {l : List Byte}
    (h : ∀ k (hk : k < l.length), m.read (a + k) = l[k]) :
    ((List.range l.length).map fun k => m.read (a + k)) = l :=
  List.ext_getElem (by simp) fun k h1 hk => by
    rw [List.getElem_map, List.getElem_range, h k hk]

/-- `write_config` in full (R201). -/
theorem writeConfig_spec (s : State) (c : ConfigBytes) (lock : Bool) (hw : s.tflash.wf) (hp : s.params.Wf) :
    ∃ (bs : List Byte) (m : Memory) (tg : Target) (n : Nat), bs.length = 5 ∧
      writeConfig c lock s = wireDone
        (pageEraseTrace s.h.timing 0x30000 ++
          writeFlashTrace s.h.timing 0x30000 [c.b0 ||| 0x02, c.b1, c.b2, c.b3, c.b4] ++
          readFlashTrace s.h.timing 0x30000 bs ++
          (if bs = [c.b0 ||| 0x02, c.b1, c.b2, c.b3, c.b4] ∧ lock = true then
            writeFlashTrace s.h.timing 0x30000 [c.b0 &&& 0xFD] else []))
        s.h.pins.rested (verifyAnswer bs [c.b0 ||| 0x02, c.b1, c.b2, c.b3, c.b4]) m tg n s ∧
      m.wf ∧ (∀ a, ¬ (0x30000 ≤ a ∧ a < 0x30005) → m.read a = s.tflash.read a) ∧
      (¬ targetReady s ∨ s.tgt.locked = true → m = s.tflash) ∧
      (targetReady s → s.tgt.locked = false →
        bs = [c.b0 ||| 0x02, c.b1, c.b2, c.b3, c.b4] ∧ tg.ready ∧
        ((List.range 5).map fun k => m.read (0x30000 + k)) =
          [if lock then c.b0 &&& 0xFD else c.b0 ||| 0x02, c.b1, c.b2, c.b3, c.b4]) := by
  obtain ⟨bs, m, tg, n, t, ht, hchain, hdead, hrep⟩ := configChain_spec s (forceUnlocked c)
  obtain ⟨m', tg', hlock, hwf', hkept', hready', hother', hcell'⟩ := writeLock_spec (c.b0 &&& 0xFD) t
  have hlist : configList (forceUnlocked c) = [c.b0 ||| 0x02, c.b1, c.b2, c.b3, c.b4] := rfl
  have hbody : writeConfig c lock s =
      returns (verifyAnswer bs [c.b0 ||| 0x02, c.b1, c.b2, c.b3, c.b4]).1
        (verifyAnswer bs [c.b0 ||| 0x02, c.b1, c.b2, c.b3, c.b4]).2
        (if bs = [c.b0 ||| 0x02, c.b1, c.b2, c.b3, c.b4] ∧ lock = true then
          writeFlash cfgParam [c.b0 &&& 0xFD] t else t) := by
    rw [writeConfig, verifyFlash, hchain, lockStep_verified hrep.length,
      show lockedByte (forceUnlocked c).b0 = c.b0 &&& 0xFD from lockedByte_unlockedByte c.b0, hlist]
  rw [hlist] at hrep ht
  have hother (x : Nat) (hx : ¬ (0x30000 ≤ x ∧ x < 0x30005)) : m.read x = s.tflash.read x :=
    hrep.untouched hw (fun h => hx ((inErased_cfg hp x).mp h)) fun k hk => by
      have : k < 5 := hk
      omega
  have hholds (hr : targetReady s) (hu : s.tgt.locked = false) :=
    hrep.holds hw hr hu (Nat.le_of_ble_eq_true rfl) fun k hk =>
      (inErased_cfg hp _).mpr ⟨by omega, by have : k < 5 := hk; omega⟩
  have hm : t.tflash = m := by rw [ht]; rfl
  have hready (hr : targetReady s) : targetReady t ∧ t.tgt.locked = s.tgt.locked := by
    rw [ht]
    exact ⟨⟨hr.1, (hrep.ready hr).1⟩, (hrep.ready hr).2⟩
  rw [hm] at hwf' hkept' hother' hcell'
  by_cases hdo : bs = [c.b0 ||| 0x02, c.b1, c.b2, c.b3, c.b4] ∧ lock = true
  · rw [if_pos hdo, hlock, ht, wired_wired, returns_wired] at hbody
    refine ⟨bs, m', tg', n, hrep.length, ?_, hwf' (hrep.wf hw), fun x hx => ?_, fun h => ?_,
      fun hr hu => ⟨hdo.1, hready' (hready hr).1, ?_⟩⟩
    · rw [hbody, if_pos hdo]
      rfl
    · exact (hother' (hrep.wf hw) x (by omega)).trans (hother x hx)
    · refine (hkept' ?_).trans (hrep.kept h)
      by_cases hr : targetReady s
      · exact .inr ((hready hr).2.trans (h.resolve_left fun h => h hr))
      · exact .inl (hdead hr)
    · have hm (k : Nat) (hk : 0 < k) : m'.read (0x30000 + k) = m.read (0x30000 + k) :=
        hother' (hrep.wf hw) _ (by omega)
      obtain ⟨hcells, -⟩ := hholds hr hu
      have h0 : m'.read 0x30000 = c.b0 &&& 0xFD := by
        rw [hcell' (hready hr).1 ((hready hr).2.trans hu) (hrep.wf hw)]
        exact (congrArg (· &&& _) (hcells 0 (by simp))).trans (unlockedByte_and_locked c.b0)
      rw [hdo.2, if_pos rfl]
      exact map_range_read (l := [c.b0 &&& 0xFD, c.b1, c.b2, c.b3, c.b4]) fun k hk => match k with
        | 0 => h0
        | k + 1 => (hm (k + 1) k.succ_pos).trans (hcells (k + 1) hk)
  · rw [if_neg hdo, ht, returns_wired] at hbody
    refine ⟨bs, m, tg, n, hrep.length, ?_, hrep.wf hw, hother, hrep.kept,
      fun hr hu => ⟨(hholds hr hu).2, (hrep.ready hr).1, ?_⟩⟩
    · rw [hbody, if_neg hdo, List.append_nil]
    · obtain ⟨hcells, hread⟩ := hholds hr hu
      have hlk : lock = false := by simpa using fun h => hdo ⟨hread, h⟩
      rw [hlk, if_neg Bool.false_ne_true]
      exact map_range_read hcells

/-- Settles O44: `write_config` behind its gate. -/
theorem writeConfigLocksOnlyAfterVerification : Obligations.WriteConfigLocksOnlyAfterVerification := by
  intro s c lock hi ho hw hp
  obtain ⟨bs, m, tg, n, hlen, hdone, hrest⟩ := writeConfig_spec s c lock hw hp
  exact ⟨bs, m, tg, n, hlen, by rw [exec_hostWriteConfig hi ho, hdone], hrest⟩

/-! ### program_region -/

/-- The pages that meet a range, counted from the one its start lies in (R205). -/
theorem pageCount_of_range (a len : Nat) :
    pageCount (a / 128 * 128) (a + len) = (a % 128 + len + 127) / 128 := by
  unfold pageCount
  omega

/-- What the page erases of a range reach is the image, modulo 2^18, of the pages that meet it. -/
theorem inErased_range {p : Params} {a len x : Nat}
    (h : inErased p (a / 128 * 128) ((a % 128 + len + 127) / 128) x) :
    ∃ y, inErasedPages a (a + len) y ∧ y % 2 ^ 18 = x := by
  obtain ⟨j, hj, hin⟩ := h
  refine ⟨a / 128 * 128 + 128 * j + (x - (a / 128 * 128 + 128 * j) % 2 ^ 18), ?_, ?_⟩
  · unfold inErasedPages
    rcases hin with ⟨-, h, -⟩ | ⟨-, h1, h2, h3, h4⟩ <;> omega
  · rcases hin with ⟨-, h, -⟩ | ⟨-, h1, h2, h3, h4⟩ <;> omega

/-- A range inside the flash lies in the pages erased for it, with the rest of those pages. -/
theorem inErased_of_inErasedPages {p : Params} (hp : p.Wf) {a len x : Nat}
    (hle : a + len ≤ p.apromSize + p.ldromSize) (h : inErasedPages a (a + len) x) :
    inErased p (a / 128 * 128) ((a % 128 + len + 127) / 128) x := by
  obtain ⟨hpage, hpage', -, -, hsize, -⟩ := hp
  obtain ⟨h1, h2⟩ := h
  refine ⟨(x - a / 128 * 128) / 128, by omega, .inl ⟨by omega, by omega, by omega⟩⟩

/-- Settles O45: the chain over every page that meets the range. -/
theorem programRegionErasesWritesVerifies : Obligations.ProgramRegionErasesWritesVerifies := by
  intro s addr len arr hi ho hw hp hl
  have hlen : (argBytes len arr).length = len := argBytes_length len arr
  obtain ⟨bs, m, tg, n, hchain, -, hrep⟩ := eraseWriteRead_spec (addr.toNat / 128 * 128)
    (n := (addr.toNat % 128 + len + 127) / 128) (by omega) addr (argBytes_ne_nil hl arr) s
  rw [hlen] at hchain
  refine ⟨argBytes len arr, bs, m, tg, n, argBytes_takes len arr, hrep.length.trans hlen, ?_, hrep.wf hw,
    fun x hx => hrep.untouched hw (fun h => ?_) fun k hk => hx _ ?_, hrep.kept, fun hr hu hle => ?_⟩
  · rw [exec_hostProgramRegion hi ho hl, eraseRegion, pageCount_of_range,
      returnPair_verify (hrep.length.trans hlen) hchain, returns_wired]
  · obtain ⟨y, hy, hmod⟩ := inErased_range h
    exact hx y hy hmod
  · unfold inErasedPages
    omega
  · have hsize := flash_le_of_wf hp
    have hin (x : Nat) (hx : inErasedPages addr.toNat (addr.toNat + len) x) :=
      inErased_of_inErasedPages hp hle hx
    obtain ⟨hcells, hread⟩ := hrep.holds hw hr hu (by omega) fun k hk =>
      hin _ (by unfold inErasedPages; omega)
    refine ⟨hread, (hrep.ready hr).1, fun x => ⟨fun hx => ?_, fun hx hpages => ?_⟩⟩
    · have h := hcells (x - addr.toNat) (by omega)
      rw [Nat.add_sub_cancel' hx.1] at h
      rw [h, List.getD_eq_getElem]
    · rw [hrep.erased hr hu hw x (hin x hpages), icpBurnt_other]
      intro k hk
      rw [Nat.mod_eq_of_lt (by omega)]
      omega

/-! ### Read back -/

section
variable {s : State} (hi : s.h.istate = .entered) (ho : s.h.pinsOwned = true) (hr : targetReady s)
include hi ho hr

/-- A read of a ready target answers its cells (R195). -/
theorem hostReadFlash_ready (addr : BitVec 32) {len : Nat} (hl : 0 < len) :
    ∃ t, exec (.hostReadFlash addr len) s = .next t ∧
      t.h.ret = some (.ok, .bytes (icpBytes s addr.toNat len)) := by
  obtain ⟨bs, tg, n, -, hread, hready⟩ := readFlash_spec addr len hl s
  exact ⟨_, exec_hostReadFlash hi ho hl addr, by rw [hread, (hready hr).1]; rfl⟩

/-- A read of the config sector of a ready target answers its cells (R200). -/
theorem hostReadConfig_ready : ∃ t, exec .hostReadConfig s = .next t ∧
    t.h.ret = some (.ok, .bytes (icpBytes s 0x30000 5)) := by
  obtain ⟨bs, tg, n, -, hread, hready⟩ := readFlash_spec cfgParam 5 (by decide) s
  exact ⟨_, exec_hostReadConfig hi ho, by rw [hread, (hready hr).1]; rfl⟩

end

/-- What an unlocked target answers over a range of its cells that hold a list. -/
theorem icpBytes_of_cells {s : State} (hu : s.tgt.locked = false) {a : Nat} {l : List Byte}
    (hle : a + l.length ≤ 2 ^ 18) (hex : ∀ k < l.length, cellExists s.params (a + k))
    (hcells : ∀ k (hk : k < l.length), s.tflash.read (a + k) = l[k]) : icpBytes s a l.length = l := by
  refine List.ext_getElem (by simp [icpBytes]) fun k h1 hk => ?_
  rw [← hcells k hk]
  simp only [icpBytes, List.getElem_map, List.getElem_range]
  rw [Nat.mod_eq_of_lt (by omega), icpCell, hu, if_neg Bool.false_ne_true, if_pos (hex k hk)]

/-- What a locked target answers (R384). -/
theorem icpBytes_locked {s : State} (h : s.tgt.locked = true) (a n : Nat) :
    icpBytes s a n = List.replicate n 0xFF := by
  simp [icpBytes, icpCell, h, List.map_const']

/-- Erased cells answer 0xFF throughout. -/
theorem icpBytes_erased {s : State} (hu : s.tgt.locked = false) {a n : Nat} (hle : a + n ≤ 2 ^ 18)
    (hex : ∀ k < n, cellExists s.params (a + k)) (hcells : ∀ k < n, s.tflash.read (a + k) = 0xFF) :
    icpBytes s a n = List.replicate n 0xFF := by
  have h := icpBytes_of_cells hu (a := a) (l := List.replicate n 0xFF) (by simpa using hle)
    (by simpa using hex) (by simpa using hcells)
  rwa [List.length_replicate] at h

/-- After a `reentry` the target is ready and its lock latched from the config sector (R161, R382). -/
theorem hostReentry_ready {s : State} (ho : s.h.pinsOwned = true) (hk : s.targetKind = .reference)
    (d1 d2 d3 : Nat) : ∃ t, exec (.hostReentry d1 d2 d3) s = .next t ∧ t.h.istate = .entered ∧
      t.h.pinsOwned = true ∧ targetReady t ∧ t.tgt.locked = !(s.tflash.read 0x30000).getLsbD 1 := by
  have hentered : targetEntered s = { s.tgt with
      prog := true, cmd := none, desync := false, armed := false,
      locked := !(s.tflash.read 0x30000).getLsbD 1 } := by rw [targetEntered, hk]
  refine ⟨_, (reentryReissuesTheEntry s d1 d2 d3 0 ho).1, rfl, ho, ⟨hk, ?_⟩, ?_⟩ <;> rw [hentered]
  exact ⟨rfl, rfl, rfl⟩

section
variable {s : State} (hi : s.h.istate = .entered) (ho : s.h.pinsOwned = true) (hr : targetReady s)
  (hp : s.params.Wf)
include hi ho hr hp

/-- R389 (c): after a mass erase the flash and the config read 0xFF. -/
theorem massErase_then_read : ∃ t u w, exec .hostMassErase s = .next t ∧
    exec (.hostReadFlash 0 (s.params.apromSize + s.params.ldromSize)) t = .next u ∧
    u.h.ret = some (.ok, .bytes (List.replicate (s.params.apromSize + s.params.ldromSize) 0xFF)) ∧
    exec .hostReadConfig t = .next w ∧ w.h.ret = some (.ok, .bytes (List.replicate 5 0xFF)) := by
  have hsize := flash_le_of_wf hp
  obtain ⟨-, -, -, hpos, -⟩ := hp
  obtain ⟨m, tg, herase, -, hready, -⟩ := massErase_spec s
  obtain ⟨htg, hlocked, hcells⟩ := hready hr
  have hrun := exec_hostMassErase hi ho
  rw [herase, returns_wired] at hrun
  have hflash : ∀ k < s.params.apromSize + s.params.ldromSize, cellExists s.params (0 + k) :=
    fun k hk => .inl (by omega)
  have hconfig : ∀ k < 5, cellExists s.params (0x30000 + k) := fun k hk => .inr (by omega)
  have herased {a n : Nat} (hex : ∀ k < n, cellExists s.params (a + k)) (k : Nat) (hk : k < n) :
      m.read (a + k) = 0xFF := by rw [hcells, if_pos (hex k hk)]
  obtain ⟨u, hread, hret⟩ := hostReadFlash_ready (s := wireDone _ _ _ m tg _ s) hi ho ⟨hr.1, htg⟩ 0
    (len := s.params.apromSize + s.params.ldromSize) (by omega)
  obtain ⟨w, hreadc, hretc⟩ := hostReadConfig_ready (s := wireDone _ _ _ m tg _ s) hi ho ⟨hr.1, htg⟩
  refine ⟨_, u, w, hrun, hread, ?_, hreadc, ?_⟩
  · rw [hret]
    exact congrArg (fun l => some (Status.ok, RetData.bytes l))
      (icpBytes_erased (a := 0) hlocked (by omega) hflash (herased hflash))
  · rw [hretc]
    exact congrArg (fun l => some (Status.ok, RetData.bytes l))
      (icpBytes_erased hlocked (by omega) hconfig (herased hconfig))

variable (hu : s.tgt.locked = false) (hw : s.tflash.wf)
include hu hw

/-- R389 (a): what was written on erased cells reads back. -/
theorem write_then_read (addr : BitVec 32) {len : Nat} {data : List Byte} (hl : 0 < len)
    (hdata : len ≤ data.length) (hle : addr.toNat + len ≤ s.params.apromSize + s.params.ldromSize)
    (herased : ∀ a, addr.toNat ≤ a → a < addr.toNat + len → s.tflash.read a = 0xFF) :
    ∃ t u, exec (.hostWriteFlash addr len data) s = .next t ∧ exec (.hostReadFlash addr len) t = .next u ∧
      u.h.ret = some (.ok, .bytes (data.take len)) := by
  have hsize := flash_le_of_wf hp
  have htake : (data.take len).length = len := by simpa using hdata
  obtain ⟨m, tg, hwrite, -, hready, hcells, -, -⟩ :=
    writeFlash_spec addr (argBytes len data) (argBytes_ne_nil hl data) s
  obtain ⟨htg, hlocked⟩ := hready hr
  have hrun := exec_hostWriteFlash hi ho hl addr data
  rw [hwrite, returns_wired] at hrun
  rw [argBytes_take hdata] at hcells
  have hcell (k : Nat) (hk : k < (data.take len).length) : m.read (addr.toNat + k) = (data.take len)[k] := by
    rw [hcells hr hu hw, if_pos (.inl (by omega)), icpBurnt_at _ _ _ k hk (by omega),
      herased _ (by omega) (by omega)]
    exact BitVec.allOnes_and
  obtain ⟨u, hread, hret⟩ := hostReadFlash_ready (s := wireDone _ _ _ m tg _ s) hi ho ⟨hr.1, htg⟩ addr hl
  have hbytes := icpBytes_of_cells (s := wireDone (writeFlashTrace s.h.timing addr.toNat (argBytes len data))
    s.h.pins.rested (.ok, .bytes []) m tg s.freeCtr s) (hlocked.trans hu) (by omega)
    (fun k hk => .inl (Nat.lt_of_lt_of_le (by omega) hle)) hcell
  rw [htake] at hbytes
  exact ⟨_, u, hrun, hread, by rw [hret, hbytes]⟩

/-- R389 (e): after a locking `write_config` and a `reentry` every cell reads 0xFF. -/
theorem lock_then_read (c : ConfigBytes) (d1 d2 d3 : Nat) (addr : BitVec 32) {len : Nat} (hl : 0 < len) :
    ∃ t u w, exec (.hostWriteConfig c true) s = .next t ∧ t.h.ret = some (.ok, .bytes []) ∧
      exec (.hostReentry d1 d2 d3) t = .next u ∧ exec (.hostReadFlash addr len) u = .next w ∧
      w.h.ret = some (.ok, .bytes (List.replicate len 0xFF)) := by
  obtain ⟨bs, m, tg, n, -, hdone, -, -, -, hready⟩ := writeConfig_spec s c true hw hp
  obtain ⟨hverified, -, hsector⟩ := hready hr hu
  have hrun := exec_hostWriteConfig hi ho c true
  rw [hdone] at hrun
  have hlock : m.read 0x30000 = c.b0 &&& 0xFD := (List.cons.inj hsector).1
  obtain ⟨u, hentry, hiu, hou, hru, hlu⟩ :=
    hostReentry_ready (s := wireDone _ _ _ m tg n s) ho hr.1 d1 d2 d3
  obtain ⟨w, hread, hret⟩ := hostReadFlash_ready hiu hou hru addr hl
  have hlocked : u.tgt.locked = true := by
    rw [hlu]
    show (!(m.read 0x30000).getLsbD 1) = true
    rw [hlock, BitVec.getLsbD_and]
    exact congrArg Bool.not (Bool.and_false _)
  exact ⟨_, u, w, hrun, by rw [hverified, verifyAnswer_self]; rfl, hentry, hread, by
    rw [hret, icpBytes_locked hlocked]⟩

end

/-- Settles O46: each read finds a ready target, whose cells the operation before it left. -/
theorem theReferenceTargetReadsBack : Obligations.TheReferenceTargetReadsBack :=
  fun _ hi ho hr hu hp hw =>
    ⟨fun addr _ _ hl hdata hle herased => write_then_read hi ho hr hp hu hw addr hl hdata hle herased,
      massErase_then_read hi ho hr hp,
      fun c d1 d2 d3 addr _ hl => lock_then_read hi ho hr hp hu hw c d1 d2 d3 addr hl⟩

end Sys2Proof.Machine
end

section
/-! SUPPORT. The waits of the wire operations (R481), and the identity reads (R190 to R194). -/

namespace Sys2Proof.Machine

/-! ### Waits -/

@[simp] theorem waited_nil : waited [] = 0 := rfl

@[simp] theorem waited_append (a b : List HEvent) : waited (a ++ b) = waited a + waited b := by
  simp [waited]

@[simp] theorem waited_delay (t : Nat) (es : List HEvent) : waited (.delay t :: es) = t + waited es := by
  simp [waited]

/-- An event that is no wait adds nothing (R481). -/
theorem waited_cons_of {ev : HEvent} (h : ∀ t, ev ≠ .delay t) (es : List HEvent) :
    waited (ev :: es) = waited es := by
  cases ev with
  | delay t => exact absurd rfl (h t)
  | _ => simp [waited]

/-- Pieces that all wait the same. -/
theorem waited_flatMap {α : Type} {f : α → List HEvent} {c : Nat} (h : ∀ x, waited (f x) = c) (l : List α) :
    waited (l.flatMap f) = l.length * c := by
  induction l with
  | nil => simp
  | cons x xs ih => rw [List.flatMap_cons, waited_append, h, ih, List.length_cons, Nat.succ_mul, Nat.add_comm]

/-- A bit on DATA waits two bit times (R152). -/
@[simp] theorem waited_sendTrace {w : Nat} (v : BitVec w) (d : Nat) : waited (sendTrace v d) = w * (d + d) := by
  rw [sendTrace, waited_cons_of (by simp), pulses, waited_flatMap (c := d + d), msbFirst, List.length_map,
    List.length_range]
  intro b
  simp [waited]

theorem waited_frameTrace (f : Icp24) (d : Nat) : waited (frameTrace f d) = 48 * d := by
  rw [frameTrace, waited_append, waited_sendTrace, waited_cons_of (by simp)]
  simp only [waited_nil]
  omega

/-- A byte read waits once, twice for each of its nine clocks and twice more (R153). -/
theorem waited_readTrace (d : Nat) (v : Byte) (e : Bool) : waited (readTrace d v e) = 21 * d := by
  rw [readTrace, waited_cons_of (by simp), waited_delay, waited_append, waited_flatMap (c := d + d), msbFirst,
    List.length_map, List.length_range]
  · simp [waited]
    omega
  · intro b
    simp [waited]

theorem waited_writeTrace (d1 d2 d : Nat) (v : Byte) (e : Bool) :
    waited (writeTrace d1 d2 d v e) = 16 * d + d1 + d2 := by
  rw [writeTrace, waited_append, waited_sendTrace]
  simp [waited]
  omega

theorem waited_readsTrace (d : Nat) (bs : List Byte) : waited (readsTrace d bs) = bs.length * (21 * d) := by
  rw [readsTrace, waited_flatMap fun _ => waited_readTrace _ _ _, List.length_zipIdx]

theorem waited_writesTrace (d1 d2 d : Nat) (bs : List Byte) :
    waited (writesTrace d1 d2 d bs) = bs.length * (16 * d + d1 + d2) := by
  rw [writesTrace, waited_flatMap fun _ => waited_writeTrace _ _ _ _ _, List.length_zipIdx]

/-- The reset pattern waits one bit time for each of its 24 levels (R158). -/
theorem waited_resetTrace (w : Icp24) (d : Nat) : waited (resetTrace w d) = 24 * d := by
  rw [resetTrace, waited_append, waited_flatMap (c := d), msbFirst, List.length_map, List.length_range]
  · rfl
  · intro b
    simp [waited]

theorem waited_entryTrace (t : Timing) (settle : Nat) :
    waited (entryTrace t settle) = 48 * t.entryBit.toNat + settle := by
  rw [entryTrace, waited_append, waited_sendTrace]
  simp [waited]
  omega

/-- Settles O47: each operation adds its trace, whose waits add up. -/
theorem wireTimesAddUp : Obligations.WireTimesAddUp := by
  intro s addr param v e d1 d2 len data hi ho hl
  refine ⟨?_, ?_, ?_, ?_, ?_, ?_, ?_⟩
  · exact ⟨_, _, (frameUnitsSendTheirFrame s param hi ho).1, rfl, waited_frameTrace _ _⟩
  · obtain ⟨b, tg, k, hread⟩ := readByte_env e s
    refine ⟨_, _, exec_icpByteRead hi ho e, ?_, waited_readTrace s.h.timing.readBit.toNat b e⟩
    rw [hread]
    rfl
  · refine ⟨_, _, exec_icpByteWrite hi ho v e d1 d2, ?_, waited_writeTrace d1 d2 s.h.timing.writeBit.toNat v e⟩
    rw [writeByte_eq]
    rfl
  · obtain ⟨bs, tg, n, hlen, hread, -⟩ := readFlash_spec addr len hl s
    refine ⟨_, readFlashTrace s.h.timing addr.toNat bs, exec_hostReadFlash hi ho hl addr,
      by rw [hread]; rfl, ?_⟩
    rw [readFlashTrace, waited_append, waited_frameTrace, waited_readsTrace, hlen, Nat.mul_left_comm,
      Nat.mul_assoc]
  · obtain ⟨m, tg, hwrite, -⟩ := writeFlash_spec addr (argBytes len data) (argBytes_ne_nil hl data) s
    refine ⟨_, writeFlashTrace s.h.timing addr.toNat (argBytes len data),
      exec_hostWriteFlash hi ho hl addr data, by rw [hwrite]; rfl, ?_⟩
    rw [writeFlashTrace, waited_append, waited_frameTrace, waited_writesTrace, argBytes_length]
  · obtain ⟨m, tg, herase, -⟩ := massErase_spec s
    refine ⟨_, massEraseTrace s.h.timing, exec_hostMassErase hi ho, by rw [herase]; rfl, ?_⟩
    rw [waited_append, waited_frameTrace, waited_writeTrace]
    omega
  · rw [waited_append, waited_resetTrace, waited_entryTrace]
    omega

/-! ### Identity reads -/

/-- A frame and `n` byte reads (R190, R192), whatever answers; a ready target answers by its table (R387). -/
theorem frameReads_spec {cmd : BitVec 6} {c : IcpCmd} (hc : IcpCmd.ofCode cmd = some c) (param : BitVec 32)
    {n : Nat} (hn : 0 < n) (s : State) : ∃ (bs : List Byte) (tg : Target) (k : Nat), bs.length = n ∧
      readBytes n (sendCommand cmd param s) = (bs, wired
        (frameTrace (wireFrame cmd param.toNat) s.h.timing.cmdBit.toNat ++
          readsTrace s.h.timing.readBit.toNat bs) s.tflash tg k s) ∧
      (targetReady s → bs = (List.range n).map fun k => icpAnswer s c ((param.toNat + k) % 2 ^ 18)) := by
  by_cases hr : targetReady s
  · obtain ⟨tg, ht, ho, hp, -, -, hk, -⟩ := sendCommand_ready hr hc param
    obtain ⟨tg', hread, -⟩ := readBytes_open n (s := sendCommand cmd param s)
      (by rw [ht]; exact hr.1) (by rw [ht]; exact ho) param.toNat (by rw [ht]; exact hp)
    have hcell (x : Nat) : targetRead (sendCommand cmd param s) c x = icpAnswer s c x := by
      rw [targetRead_eq, ht]
      cases c with
      | readFlash | readCid => simp only [icpAnswer, icpCell, setH_tgt, setTgt_tgt, hk]; rfl
      | _ => rfl
    simp only [hcell] at hread
    refine ⟨_, tg', s.freeCtr, by simp, ?_, fun _ => rfl⟩
    rw [hread, ht]
    simp only [wired, setH, setEnv, setTgt, List.append_assoc, if_neg (Nat.ne_of_gt hn), Pins.rested,
      Pins.sentLast]
  · obtain ⟨tg, ht⟩ := sendCommand_env cmd param s
    obtain ⟨bs, tg', k, hlen, hb⟩ := readBytes_env n (sendCommand cmd param s)
    refine ⟨bs, tg', k, hlen, ?_, fun h => absurd h hr⟩
    rw [hb, ht]
    simp only [wired, setH, setEnv, setTgt, List.append_assoc, if_neg (Nat.ne_of_gt hn), Pins.rested,
      Pins.sentLast]

/-- The device identity is a frame and two byte reads (R190). -/
theorem readDeviceId_spec (s : State) : ∃ (lo hi : Byte) (tg : Target) (k : Nat),
      readDeviceId s = (le16 lo hi, wired (frameTrace (wireFrame 0x0C 0) s.h.timing.cmdBit.toNat ++
        readsTrace s.h.timing.readBit.toNat [lo, hi]) s.tflash tg k s) ∧
      (targetReady s → lo = s.ident.did.getD 0 0xFF ∧ hi = s.ident.did.getD 1 0xFF) := by
  obtain ⟨bs, tg, k, -, hread, hready⟩ := frameReads_spec (cmd := cmdReadDeviceId) rfl 0 (n := 2) (by decide) s
  obtain ⟨lo, hi, hbytes, hid⟩ : ∃ lo hi, (readBytes 2 (sendCommand cmdReadDeviceId 0 s)).1 = [lo, hi] ∧
      readDeviceId s = (le16 lo hi, (readBytes 2 (sendCommand cmdReadDeviceId 0 s)).2) := by
    simp only [readBytes, readDeviceId]
    exact ⟨_, _, rfl, rfl⟩
  rw [hread] at hbytes hid
  obtain rfl : bs = [lo, hi] := hbytes
  refine ⟨lo, hi, tg, k, hid, fun hr => ?_⟩
  obtain ⟨hlo, hhi⟩ := List.cons.inj (hready hr)
  exact ⟨hlo.trans (List.getD_eq_getElem?_getD ..).symm,
    (List.cons.inj hhi).1.trans (List.getD_eq_getElem?_getD ..).symm⟩

/-- An array read index by index. -/
theorem map_range_idAt {l : List Byte} {f : Nat → Byte} (h : ∀ k (hk : k < l.length), f k = l[k]) :
    (List.range l.length).map f = l :=
  List.ext_getElem (by simp) fun k h1 hk => by rw [List.getElem_map, List.getElem_range, h k hk]

theorem idAt_of_lt {l : List Byte} {k : Nat} (hk : k < l.length) : idAt l k = l[k] := by
  simp [idAt, hk]

/-- Settles O39: two identities are one frame and its reads, two are a frame for each byte. -/
theorem identityReadsOnTheWire : Obligations.IdentityReadsOnTheWire := by
  rintro s hi ho ⟨-, ⟨hcid, hcid'⟩, ⟨huid, huid'⟩, hucid, hucid'⟩
  have hgate := enteredOwned_of hi ho
  refine ⟨?_, ?_, ?_, ?_⟩
  · obtain ⟨lo, hb, tg, n, hread, hready⟩ := readDeviceId_spec s
    refine ⟨lo, hb, tg, n, ?_, ?_, hready⟩
    · simp only [exec, execHostReadDeviceId]
      rw [gated_of hgate, hread, returns_wired]
    · simp only [exec, execHostCheckDeviceId]
      rw [gated_of hgate, hread, returns_wired]
  · obtain ⟨bs, tg, n, hlen, hread, hready⟩ := frameReads_spec (cmd := cmdReadCid) rfl 0 hcid s
    refine ⟨bs, tg, n, hlen, ?_, fun hr hu => ?_, fun hr hlock => ?_⟩
    · simp only [exec, execHostReadCid]
      rw [gated_of hgate, readCid, hread, returns_wired]
      rfl
    · rw [hready hr]
      refine map_range_idAt fun k hk => ?_
      simp only [icpAnswer, hu]
      rw [show (BitVec.toNat (0 : BitVec 32) + k) % 2 ^ 18 = k from
        (congrArg (· % _) (Nat.zero_add k)).trans (Nat.mod_eq_of_lt (by omega))]
      simp [hk]
    · rw [hready hr]
      simp [icpAnswer, hlock, List.map_const']
  · obtain ⟨bs, tg, n, hlen, hread, hready⟩ := readIndexed_spec s.ident.uid.length 0 (by omega) s huid
    refine ⟨bs, tg, n, hlen, ?_, fun hr => ?_⟩
    · simp only [exec, execHostReadUid]
      rw [gated_of hgate, readUid, hread, returns_wired]
    · rw [(hready hr).1]
      refine map_range_idAt fun k hk => ?_
      rw [show (0 + k) % 2 ^ 18 = k by omega, readUidCell, if_pos hk, idAt_of_lt hk]
  · have hbase := s.params.ucidParamBase.isLt
    obtain ⟨bs, tg, n, hlen, hread, hready⟩ :=
      readIndexed_spec s.ident.ucid.length s.params.ucidParamBase.toNat (by omega) s hucid
    refine ⟨bs, tg, n, hlen, ?_, fun hr hpast hroom => ?_⟩
    · simp only [exec, execHostReadUcid]
      rw [gated_of hgate, readUcid, hread, returns_wired]
    · rw [(hready hr).1]
      refine map_range_idAt fun k hk => ?_
      rw [Nat.mod_eq_of_lt (by omega), readUidCell, if_neg (by omega), if_pos (by omega),
        Nat.add_sub_cancel_left, idAt_of_lt hk]

end Sys2Proof.Machine
end

section
/-! SUPPORT. The two machines side by side (R2, R446): what replaces the registers, flash and environment
of one machine commutes with every step of the other. -/

namespace Sys2Proof.Machine

/-! ### Replacing what the other machine owns -/

/-- `f` neither changes nor depends on what `W` replaces. -/
def Commutes (W f : State → State) : Prop := ∀ s, f (W s) = W (f s)

/-- A step neither changes nor depends on what `W` replaces. -/
def StepCommutes (W : State → State) (f : State → Out) : Prop := ∀ s, f (W s) = mapNext W (f s)

section
variable {W f g : State → State}

theorem Commutes.comp (hf : Commutes W f) (hg : Commutes W g) : Commutes W (f ∘ g) := fun s =>
  (congrArg f (hg s)).trans (hf (g s))

/-- A branch on something `W` keeps. -/
theorem commute_ite {c c' : Prop} [Decidable c] [Decidable c'] {a b a' b' : State} (hc : c' ↔ c)
    (ha : a' = W a) (hb : b' = W b) : (if c' then a' else b') = W (if c then a else b) := by
  by_cases h : c
  · rw [if_pos h, if_pos (hc.mpr h), ha]
  · rw [if_neg h, if_neg (mt hc.mp h), hb]

/-- A branch between two steps on something `W` keeps. -/
theorem stepCommute_ite {c c' : Prop} [Decidable c] [Decidable c'] {a b a' b' : Out} (hc : c' ↔ c)
    (ha : a' = mapNext W a) (hb : b' = mapNext W b) :
    (if c' then a' else b') = mapNext W (if c then a else b) := by
  by_cases h : c
  · rw [if_pos h, if_pos (hc.mpr h), ha]
  · rw [if_neg h, if_neg (mt hc.mp h), hb]

theorem Commutes.next (hf : Commutes W f) : StepCommutes W fun s => .next (f s) := fun s =>
  congrArg Host.Outcome.next (hf s)

/-- A step, then something done to the next state. -/
theorem StepCommutes.mapNext {F : State → Out} (hF : StepCommutes W F) (hg : Commutes W g) :
    StepCommutes W fun s => mapNext g (F s) := fun s => by
  show Machine.mapNext g (F (W s)) = Machine.mapNext W (Machine.mapNext g (F s))
  rw [hF s]
  cases F s with
  | next t => exact congrArg Host.Outcome.next (hg t)
  | fault r => rfl
  | refused r => rfl

end

/-! ### Machine D does not see machine H -/

/-- What machine D does not own: the registers of machine H, the pin driver, the target with its flash and
the count of free values. -/
structure HostSide where
  h : HRegs
  targetKind : TargetKind
  tgt : Target
  tflash : Memory
  pinGrant : Bool
  freeCtr : Nat

def withHost (x : HostSide) (s : State) : State :=
  { s with h := x.h, targetKind := x.targetKind, tgt := x.tgt, tflash := x.tflash, pinGrant := x.pinGrant,
           freeCtr := x.freeCtr }

section
variable (x : HostSide) (s : State)

@[simp] theorem withHost_params : (withHost x s).params = s.params := rfl
@[simp] theorem withHost_ident : (withHost x s).ident = s.ident := rfl
@[simp] theorem withHost_d : (withHost x s).d = s.d := rfl
@[simp] theorem withHost_flash : (withHost x s).flash = s.flash := rfl
@[simp] theorem withHost_worn : (withHost x s).worn = s.worn := rfl
@[simp] theorem withHost_sched : (withHost x s).sched = s.sched := rfl
@[simp] theorem flashRead_withHost (sp : FlashSpace) (off : Nat) :
    flashRead sp off (withHost x s) = flashRead sp off s := rfl
@[simp] theorem configBytes_withHost : configBytes (withHost x s) = configBytes s := rfl

end

section
variable (x : HostSide)

theorem setD_withHost (f : DRegs → DRegs) : Commutes (withHost x) (setD f) := fun _ => rfl
theorem raise_withHost (kind : ErrKind) (info : Word) : Commutes (withHost x) (raise kind info) := fun _ => rfl
theorem halt_withHost (a : Word) : Commutes (withHost x) (halt a) := fun _ => rfl
theorem stamp_withHost : Commutes (withHost x) stamp := fun _ => rfl
theorem failStamp_withHost : Commutes (withHost x) failStamp := fun _ => rfl
theorem transmit_withHost : Commutes (withHost x) transmit := fun _ => rfl
theorem putPayload_withHost (bs : List Byte) : Commutes (withHost x) (putPayload bs) := fun _ => rfl
theorem bootSequence_withHost (t : BootTarget) : Commutes (withHost x) (bootSequence t) := fun _ => rfl
theorem resetD_withHost : Commutes (withHost x) resetD := fun _ => rfl
theorem prologue_withHost : Commutes (withHost x) prologue := fun _ => rfl
theorem acceptRange_withHost (a n : Word) : Commutes (withHost x) (acceptRange a n) := fun _ => rfl
theorem setCState_withHost (c : CState) : Commutes (withHost x) (setCState c) := fun _ => rfl

theorem replyOk_withHost : Commutes (withHost x) replyOk :=
  (transmit_withHost x).comp (stamp_withHost x)

theorem replyWith_withHost (bs : List Byte) : Commutes (withHost x) (replyWith bs) :=
  (transmit_withHost x).comp ((putPayload_withHost x bs).comp (stamp_withHost x))

theorem replyFail_withHost (kind : ErrKind) (info : Word) : Commutes (withHost x) (replyFail kind info) :=
  (transmit_withHost x).comp ((failStamp_withHost x).comp (raise_withHost x kind info))

/-! #### Flash work -/

theorem flashProgram_withHost (sp : FlashSpace) (off : Nat) (v : Byte) :
    Commutes (withHost x) (flashProgram sp off v) := fun _ => commute_ite Iff.rfl rfl rfl

theorem flashErasePage_withHost (sp : FlashSpace) (off : Nat) :
    Commutes (withHost x) (flashErasePage sp off) := fun _ => commute_ite Iff.rfl rfl rfl

theorem eraseFrom_withHost (a n : Nat) : Commutes (withHost x) (eraseFrom a n) := by
  induction n generalizing a with
  | zero => exact fun _ => rfl
  | succ n ih => exact (ih (a + 128)).comp (flashErasePage_withHost x .aprom a)

theorem eraseAllPages_withHost : Commutes (withHost x) eraseAllPages := fun s => eraseFrom_withHost x 0 _ s

theorem programVerify_withHost (a : Word) (v : Byte) : Commutes (withHost x) (programVerify a v) := fun s => by
  simp only [programVerify, flashProgram_withHost x _ _ _ s]
  exact commute_ite Iff.rfl rfl rfl

theorem programBytes_withHost (bs : List Byte) : Commutes (withHost x) (programBytes bs) := by
  induction bs with
  | nil => exact fun _ => rfl
  | cons v vs ih =>
    intro s
    simp only [programBytes, withHost_d, programVerify_withHost x _ _ s]
    exact commute_ite Iff.rfl (ih (advanceCur (programVerify s.d.curAddr v s))) rfl

theorem finishRange_withHost : Commutes (withHost x) finishRange := fun _ => commute_ite Iff.rfl rfl rfl

theorem programChunk_withHost (data : List Byte) : Commutes (withHost x) (programChunk data) := fun s => by
  have hbytes : programBytes (nextChunk data (withHost x s)) (withHost x s) =
      withHost x (programBytes (nextChunk data s) s) := programBytes_withHost x _ s
  simp only [programChunk, hbytes]
  exact commute_ite Iff.rfl (finishRange_withHost x _) rfl

theorem programReply_withHost (data : List Byte) : StepCommutes (withHost x) (programReply data) := fun s => by
  refine stepCommute_ite Iff.rfl ?_ rfl
  simp only [programChunk_withHost x data s]
  exact congrArg Host.Outcome.next (commute_ite Iff.rfl (replyOk_withHost x _) rfl)

theorem flatReadN_withHost (s : State) (a n : Nat) : flatReadN (withHost x s) a n = flatReadN s a n := by
  induction n generalizing a with
  | zero => rfl
  | succ n ih => exact congrArg (flatRead s a :: ·) (ih (a + 1))

theorem dumpChunk_withHost : Commutes (withHost x) dumpChunk := fun s => by
  have hdata : dumpData (withHost x s) = dumpData s := flatReadN_withHost x s _ _
  rw [dumpChunk, hdata, putPayload_withHost x, setD_withHost x, finishRange_withHost x]
  rfl

theorem dumpReply_withHost : StepCommutes (withHost x) dumpReply := fun s =>
  stepCommute_ite Iff.rfl (congrArg (fun u => Host.Outcome.next (transmit u))
    (dumpChunk_withHost x (stamp s))) rfl

theorem programConfig_withHost (off : Nat) (bs : List Byte) : Commutes (withHost x) (programConfig off bs) := by
  induction bs generalizing off with
  | nil => exact fun _ => rfl
  | cons v vs ih => exact (ih (off + 1)).comp (flashProgram_withHost x .config off v)

theorem configUpdate_withHost (c : ConfigBytes) : Commutes (withHost x) (configUpdate c) :=
  (programConfig_withHost x 0 _).comp (flashErasePage_withHost x .config 0)

theorem beginUpdate_withHost (a n : Word) : Commutes (withHost x) (beginUpdate a n) := fun s =>
  congrArg (setCState .updating) (eraseFrom_withHost x _ _ (acceptRange a n s))

/-! #### Commands -/

theorem exec_withHost {i : Instr} (hd : i.ofD = true) : StepCommutes (withHost x) (exec i) := by
  cases i with
  | continuation h data =>
    intro s
    simp only [exec, execContinuation, withHost_d]
    cases s.d.cstate with
    | updating => exact programReply_withHost x data s
    | dumping => exact dumpReply_withHost x s
    | command | connecting | disconnected => exact (replyFail_withHost x .nackOpcode 0).next s
  | updateAprom h start gap1 len gap2 data =>
    intro s
    refine stepCommute_ite Iff.rfl ?_ ((replyFail_withHost x .nackRange start).next s)
    rw [beginUpdate_withHost x start len s]
    exact programReply_withHost x data _
  | updateConfig h cfg rest =>
    intro s
    simp only [exec, execUpdateConfig, configUpdate_withHost x cfg s, configBytes_withHost]
    exact (replyWith_withHost x _).next _
  | readConfig h rest => exact fun s => (replyWith_withHost x (configList (configBytes s))).next s
  | eraseAll h rest => exact ((replyOk_withHost x).comp (eraseAllPages_withHost x)).next
  | syncSeq h rest => exact ((replyOk_withHost x).comp (setD_withHost x DRegs.disarmConn)).next
  | connect h rest =>
    intro s
    simp only [exec, execConnect, withHost_params, setD_withHost x _ s]
    exact (replyOk_withHost x).next _
  | readRom h start gap1 len rest =>
    intro s
    refine stepCommute_ite Iff.rfl ?_ ((replyFail_withHost x .nackRange start).next s)
    rw [acceptRange_withHost x start len s, setCState_withHost x .dumping]
    exact dumpReply_withHost x _
  | pageErase h addr rest =>
    exact fun s => stepCommute_ite Iff.rfl
      (((replyOk_withHost x).comp (flashErasePage_withHost x .aprom _)).next s)
      ((replyFail_withHost x .nackRange addr).next s)
  | getFwVersion h rest => exact fun s => (replyWith_withHost x [s.params.fwVersion]).next s
  | getDeviceId h rest => exact fun s => (replyWith_withHost x (idBytes s.ident .did)).next s
  | getUid h rest => exact fun s => (replyWith_withHost x (idBytes s.ident .uid)).next s
  | getCid h rest => exact fun s => (replyWith_withHost x (idBytes s.ident .cid)).next s
  | getUcid h rest => exact fun s => (replyWith_withHost x (idBytes s.ident .ucid)).next s
  | getFlashMode h rest => exact fun s => (replyWith_withHost x [s.params.flashMode]).next s
  | runAprom h rest | resetCmd h rest => exact (bootSequence_withHost x .aprom).next
  | runLdrom h rest => exact (bootSequence_withHost x .ldrom).next
  | unrecognized op h rest => exact (replyFail_withHost x .nackOpcode _).next
  | _ => cases hd

/-! #### Dispatch, transport, resets -/

theorem epilogue_withHost : Commutes (withHost x) epilogue := fun _ => commute_ite Iff.rfl rfl rfl

theorem nextPhase_withHost : Commutes (withHost x) nextPhase := fun _ => commute_ite Iff.rfl rfl rfl

theorem runPacket_withHost : StepCommutes (withHost x) runPacket := fun s => by
  simp only [runPacket, withHost_params, withHost_d]
  cases hi : decode s.params (rxCode s.d) with
  | ok i => exact exec_withHost x (decodePacket_ofD hi) s
  | reject e => rfl

theorem dispatch_withHost : StepCommutes (withHost x) dispatch := fun s => by
  refine stepCommute_ite Iff.rfl ?_ rfl
  rw [prologue_withHost x s]
  exact (runPacket_withHost x).mapNext (epilogue_withHost x) (prologue s)

theorem phaseAction_withHost : StepCommutes (withHost x) phaseAction := fun s => by
  simp only [phaseAction, withHost_d]
  cases s.d.mphase with
  | m1 => exact stepCommute_ite Iff.rfl (dispatch_withHost x s) rfl
  | m2 => exact congrArg Host.Outcome.next (commute_ite Iff.rfl rfl rfl)
  | m3 => exact congrArg Host.Outcome.next (commute_ite Iff.rfl rfl rfl)

theorem mainStep_withHost : StepCommutes (withHost x) mainStep := fun s =>
  stepCommute_ite Iff.rfl ((phaseAction_withHost x).mapNext (nextPhase_withHost x) s) rfl

theorem rxByte_withHost (b : Byte) : Commutes (withHost x) (rxByte b) := fun s => by
  refine commute_ite Iff.rfl rfl ?_
  simp only [withHost_d, withHost_params]
  cases handshakeError s.d.rxhead s.d.cstate b with
  | none => rfl
  | some e => rfl

theorem rxStep_withHost (b : Byte) : Commutes (withHost x) (rxStep b) := fun s =>
  commute_ite Iff.rfl (rxByte_withHost x b s) rfl

theorem tickStep_withHost : Commutes (withHost x) tickStep := fun _ => commute_ite Iff.rfl rfl rfl

/-! #### Resets inside a dispatch -/

theorem chunkPart_withHost (k : Nat) (data : List Byte) : Commutes (withHost x) (chunkPart k data) := fun s =>
  commute_ite Iff.rfl (programBytes_withHost x _ s) rfl

theorem updatePart_withHost (k : Nat) (start len : Word) (data : List Byte) :
    Commutes (withHost x) (updatePart k start len data) := fun s => by
  refine commute_ite Iff.rfl (eraseFrom_withHost x _ _ (acceptRange start len s)) ?_
  rw [beginUpdate_withHost x start len s]
  exact chunkPart_withHost x _ data _

theorem configPart_withHost (k : Nat) (c : ConfigBytes) : Commutes (withHost x) (configPart k c) := by
  cases k with
  | zero => exact fun _ => rfl
  | succ k => exact (programConfig_withHost x 0 _).comp (flashErasePage_withHost x .config 0)

theorem pagePart_withHost (k : Nat) (addr : Word) : Commutes (withHost x) (pagePart k addr) := fun s => by
  cases k with
  | zero => exact commute_ite Iff.rfl rfl rfl
  | succ k => exact commute_ite Iff.rfl (flashErasePage_withHost x .aprom _ s) rfl

theorem workPart_withHost (k : Nat) (i : Instr) : Commutes (withHost x) (workPart k i) := fun s => by
  cases i with
  | continuation h data => exact commute_ite Iff.rfl (chunkPart_withHost x k data s) rfl
  | updateAprom h start gap1 len gap2 data =>
    exact commute_ite Iff.rfl (updatePart_withHost x k start len data s) rfl
  | updateConfig h c rest => exact configPart_withHost x k c s
  | eraseAll h rest => exact eraseFrom_withHost x 0 _ s
  | pageErase h addr rest => exact pagePart_withHost x k addr s
  | _ => rfl

theorem dispatchPart_withHost (k : Nat) : Commutes (withHost x) (dispatchPart k) := fun s => by
  refine commute_ite Iff.rfl ?_ rfl
  simp only [withHost_params, withHost_d]
  cases decode s.params (rxCode s.d) with
  | ok i =>
    rw [prologue_withHost x s]
    exact workPart_withHost x k i (prologue s)
  | reject e => rfl

theorem resetDDuring_withHost (k : Nat) : Commutes (withHost x) (resetDDuring k) :=
  (resetD_withHost x).comp (dispatchPart_withHost x k)

/-- An input of machine D (R2). -/
theorem eventStep_withHost {e : Event} (he : e.ofD = true) : StepCommutes (withHost x) (eventStep e) := by
  cases e with
  | rx b => exact (rxStep_withHost x b).next
  | tick => exact (tickStep_withHost x).next
  | main => exact mainStep_withHost x
  | resetD => exact (resetD_withHost x).next
  | resetDDuring k => exact (resetDDuring_withHost x k).next
  | _ => cases he

end

/-- Every step of machine D (R2). -/
theorem step_withHost (x : HostSide) {s : State} (h : s.sched = [] ∨ s.sched.head?.any Event.ofD = true) :
    step (withHost x s) = mapNext (withHost x) (step s) := by
  simp only [step, withHost_sched]
  cases hs : s.sched with
  | nil => exact mainStep_withHost x s
  | cons e rest =>
    rw [hs] at h
    exact eventStep_withHost x (h.resolve_left (List.cons_ne_nil _ _)) { s with sched := rest }

end Sys2Proof.Machine
end

section
/-! SUPPORT. Machine H does not see machine D (R2, R446): what replaces the registers of machine D, its flash
and its worn cells commutes with every step of machine H. -/

namespace Sys2Proof.Machine

/-- What machine H does not own: the registers of machine D, its flash and the worn cells of that. -/
structure DeviceSide where
  d : DRegs
  flash : Memory
  worn : List Host.Cell

def withDevice (x : DeviceSide) (s : State) : State := { s with d := x.d, flash := x.flash, worn := x.worn }

/-- An operation that answers a value neither answers, changes nor depends on what `W` replaces. -/
def PairCommutes {α : Type} (W : State → State) (f : State → α × State) : Prop :=
  ∀ s, f (W s) = ((f s).1, W (f s).2)

section
variable (x : DeviceSide) (s : State)

@[simp] theorem withDevice_params : (withDevice x s).params = s.params := rfl
@[simp] theorem withDevice_ident : (withDevice x s).ident = s.ident := rfl
@[simp] theorem withDevice_h : (withDevice x s).h = s.h := rfl
@[simp] theorem withDevice_targetKind : (withDevice x s).targetKind = s.targetKind := rfl
@[simp] theorem withDevice_tgt : (withDevice x s).tgt = s.tgt := rfl
@[simp] theorem withDevice_tflash : (withDevice x s).tflash = s.tflash := rfl
@[simp] theorem withDevice_pinGrant : (withDevice x s).pinGrant = s.pinGrant := rfl
@[simp] theorem withDevice_freeCtr : (withDevice x s).freeCtr = s.freeCtr := rfl
@[simp] theorem withDevice_sched : (withDevice x s).sched = s.sched := rfl

end

section
variable (x : DeviceSide)

theorem returns_withDevice (st : Status) (r : RetData) : Commutes (withDevice x) (returns st r) := fun _ => rfl
theorem setIState_withDevice (i : IState) : Commutes (withDevice x) (setIState i) := fun _ => rfl
theorem setOwned_withDevice (b : Bool) : Commutes (withDevice x) (setOwned b) := fun _ => rfl

/-! #### The target -/

theorem targetWrite_withDevice (c : IcpCmd) (a : Nat) (v : Byte) :
    Commutes (withDevice x) (targetWrite c a v) := fun s => by
  cases c with
  | writeFlash => exact commute_ite Iff.rfl rfl (commute_ite Iff.rfl rfl rfl)
  | pageErase => exact commute_ite Iff.rfl rfl (commute_ite Iff.rfl rfl (commute_ite Iff.rfl rfl rfl))
  | massErase => exact commute_ite Iff.rfl rfl rfl
  | readFlash | readDeviceId | readCid | readUid => rfl

theorem targetOnWrite_withDevice (v : Byte) (e : Bool) :
    Commutes (withDevice x) (targetOnWrite v e) := fun s => by
  simp only [targetOnWrite, withDevice_tgt]
  cases s.tgt.open with
  | none => rfl
  | some c =>
    simp only [targetWrite_withDevice x c _ v s]
    rfl

theorem targetConsume_withDevice (ev : HEvent) : Commutes (withDevice x) (targetConsume ev) := fun s => by
  simp only [targetConsume, withDevice_targetKind]
  cases s.targetKind with
  | oracle => rfl
  | reference =>
    cases ev with
    | wrByte v e d1 d2 => exact targetOnWrite_withDevice x v e s
    | _ => rfl

theorem supplyByte_withDevice : PairCommutes (withDevice x) supplyByte := fun s => by
  simp only [supplyByte, withDevice_targetKind, withDevice_tgt]
  cases s.targetKind with
  | oracle => rfl
  | reference =>
    cases s.tgt.open with
    | none => rfl
    | some c => exact Prod.ext (by cases c <;> rfl) rfl

/-! #### The wire -/

theorem perform_withDevice (evs : List HEvent) : Commutes (withDevice x) (perform evs) := by
  induction evs with
  | nil => exact fun _ => rfl
  | cons ev evs ih =>
    intro s
    have hone : performOne (withDevice x s) ev = withDevice x (performOne s ev) :=
      targetConsume_withDevice x ev
        { s with h := { s.h with pins := s.h.pins.apply ev, trace := s.h.trace ++ [ev] } }
    rw [perform, List.foldl_cons, hone]
    exact ih (performOne s ev)

theorem sendCommand_withDevice (cmd : BitVec 6) (param : BitVec 32) :
    Commutes (withDevice x) (sendCommand cmd param) := fun s => perform_withDevice x _ s

theorem writeByte_withDevice (v : Byte) (e : Bool) (d1 d2 : Nat) :
    Commutes (withDevice x) (writeByte v e d1 d2) := fun s => perform_withDevice x _ s

theorem readByte_withDevice (e : Bool) : PairCommutes (withDevice x) (readByte e) := fun s => by
  simp only [readByte, supplyByte_withDevice x s, withDevice_h, perform_withDevice x _ (supplyByte s).2]

theorem readBytes_withDevice (n : Nat) : PairCommutes (withDevice x) (readBytes n) := by
  induction n with
  | zero => exact fun _ => rfl
  | succ n ih =>
    intro s
    simp only [readBytes, readByte_withDevice x _ s, ih (readByte (n == 0) s).2]

theorem writeBytes_withDevice (d1 d2 : Nat) (bs : List Byte) :
    Commutes (withDevice x) (writeBytes d1 d2 bs) := by
  induction bs with
  | nil => exact fun _ => rfl
  | cons v vs ih =>
    intro s
    simp only [writeBytes, writeByte_withDevice x v _ d1 d2 s, ih (writeByte v vs.isEmpty d1 d2 s)]

theorem readIndexed_withDevice (i n : Nat) : PairCommutes (withDevice x) (readIndexed i n) := by
  induction n generalizing i with
  | zero => exact fun _ => rfl
  | succ n ih =>
    intro s
    simp only [readIndexed, sendCommand_withDevice x _ _ s, readByte_withDevice x true _, ih (i + 1) _]

theorem readFlash_withDevice (addr : BitVec 32) (len : Nat) :
    PairCommutes (withDevice x) (readFlash addr len) := fun s => by
  rw [readFlash, sendCommand_withDevice x, readBytes_withDevice x]; rfl

theorem readCid_withDevice : PairCommutes (withDevice x) readCid := fun s => by
  rw [readCid, sendCommand_withDevice x, readBytes_withDevice x]; rfl

theorem readDeviceId_withDevice : PairCommutes (withDevice x) readDeviceId := fun s => by
  simp only [readDeviceId, sendCommand_withDevice x _ _ s, readByte_withDevice x _ _]

theorem writeFlash_withDevice (addr : BitVec 32) (data : List Byte) :
    Commutes (withDevice x) (writeFlash addr data) := fun s => by
  rw [writeFlash, sendCommand_withDevice x, writeBytes_withDevice x]; rfl

theorem massErase_withDevice : Commutes (withDevice x) massErase := fun s => by
  rw [massErase, sendCommand_withDevice x, writeByte_withDevice x]; rfl

theorem pageEraseHost_withDevice (addr : BitVec 32) :
    Commutes (withDevice x) (pageEraseHost addr) := fun s => by
  rw [pageEraseHost, sendCommand_withDevice x, writeByte_withDevice x]; rfl

theorem pageErases_withDevice (a n : Nat) : Commutes (withDevice x) (pageErases a n) := by
  induction n generalizing a with
  | zero => exact fun _ => rfl
  | succ n ih => exact (ih (a + 128)).comp (pageEraseHost_withDevice x _)

theorem verifyFlash_withDevice (addr : BitVec 32) (len : Nat) (data : List Byte) :
    PairCommutes (withDevice x) (verifyFlash addr len data) := fun s => by
  simp only [verifyFlash, readFlash_withDevice x addr len s]

theorem lockStep_withDevice (u : ConfigBytes) (lock : Bool) (r : Status × RetData) (s : State) :
    lockStep u lock (r, withDevice x s) = withDevice x (lockStep u lock (r, s)) := by
  refine commute_ite Iff.rfl ?_ rfl
  exact congrArg (returns .ok (.bytes []))
    (commute_ite Iff.rfl (writeFlash_withDevice x cfgParam [lockedByte u.b0] s) rfl)

theorem writeConfig_withDevice (c : ConfigBytes) (lock : Bool) :
    Commutes (withDevice x) (writeConfig c lock) := fun s => by
  simp only [writeConfig, pageEraseHost_withDevice x _ s, writeFlash_withDevice x _ _ _,
    verifyFlash_withDevice x _ _ _ _, lockStep_withDevice]

/-! #### Operations -/

/-- Behind a gate on what machine H owns (R156). -/
theorem gated_withDevice {ok : Bool} {body body' : State → State} {s : State}
    (h : body' (withDevice x s) = withDevice x (body s)) :
    gated ok body' (withDevice x s) = mapNext (withDevice x) (gated ok body s) := by
  cases ok with
  | true => exact congrArg Host.Outcome.next h
  | false => rfl

theorem unlessEmpty_withDevice {len : Nat} {body : State → State} (h : Commutes (withDevice x) body) :
    Commutes (withDevice x) (unlessEmpty len body) := fun s => commute_ite Iff.rfl rfl (h s)

theorem initBody_withDevice (r : Bool) : Commutes (withDevice x) (initBody r) := fun s => by
  simp only [initBody, withDevice_pinGrant, withDevice_params, withDevice_h, perform_withDevice x _ s]
  refine commute_ite Iff.rfl ?_ (returns_withDevice x _ _ _)
  rw [setOwned_withDevice x, perform_withDevice x, setIState_withDevice x, returns_withDevice x]

theorem sendFrame_withDevice (cmd : BitVec 6) (param : BitVec 18) :
    Commutes (withDevice x) (sendFrame cmd param) := fun s => by
  rw [sendFrame, sendCommand_withDevice x, returns_withDevice x, sendFrame]

theorem exec_withDevice {i : Instr} (hd : i.ofD = false) : StepCommutes (withDevice x) (exec i) := fun s => by
  have hframe (cmd : BitVec 6) (param : BitVec 18) :
      gated (enteredOwned s) (sendFrame cmd param) (withDevice x s) =
        mapNext (withDevice x) (gated (enteredOwned s) (sendFrame cmd param) s) :=
    gated_withDevice x (sendFrame_withDevice x cmd param s)
  have hperform (evs : List HEvent) : perform evs (withDevice x s) = withDevice x (perform evs s) :=
    perform_withDevice x evs s
  cases i with
  | icpReadFlash param => exact hframe _ param
  | icpReadUid param => exact hframe _ param
  | icpReadCid param => exact hframe _ param
  | icpReadDeviceId param => exact hframe _ param
  | icpWriteFlash param => exact hframe _ param
  | icpPageErase param => exact hframe _ param
  | icpMassErase param => exact hframe _ param
  | icpEntryPattern =>
    simp only [exec, execIcpEntryPattern]
    exact gated_withDevice x (by
      simp only [withDevice_h, hperform, returns_withDevice x _ _ _])
  | icpExitPattern =>
    simp only [exec, execIcpExitPattern]
    exact gated_withDevice x (by
      simp only [withDevice_h, hperform, returns_withDevice x _ _ _])
  | icpResetSeq =>
    simp only [exec, execIcpResetSeq]
    exact gated_withDevice x (by
      simp only [withDevice_h, withDevice_params, hperform, returns_withDevice x _ _ _])
  | icpByteRead e =>
    simp only [exec, execIcpByteRead]
    exact gated_withDevice x (by simp only [readByte_withDevice x e s, returns_withDevice x _ _ _])
  | icpByteWrite v e d1 d2 =>
    simp only [exec, execIcpByteWrite]
    exact gated_withDevice x (by simp only [writeByte_withDevice x v e d1 d2 s, returns_withDevice x _ _ _])
  | hostInit r => exact gated_withDevice x (initBody_withDevice x r s)
  | hostExit =>
    simp only [exec, execHostExit]
    exact gated_withDevice x (by
      simp only [withDevice_h, withDevice_params, hperform, setIState_withDevice x _ _,
        returns_withDevice x _ _ _])
  | hostDeinit leave =>
    refine congrArg Host.Outcome.next (commute_ite Iff.rfl ?_ rfl)
    exact congrArg (fun u => returns .ok (.bytes []) (setIState .exited (setOwned false u)))
      (hperform (deinitEvents leave s))
  | hostReentry d1 d2 d3 =>
    simp only [exec, execHostReentry]
    exact gated_withDevice x (by
      simp only [withDevice_h, withDevice_params, hperform, setIState_withDevice x _ _,
        returns_withDevice x _ _ _])
  | hostReentryGlitch d1 d2 d3 d4 =>
    simp only [exec, execHostReentryGlitch]
    exact gated_withDevice x (by
      simp only [withDevice_h, withDevice_params, hperform, setIState_withDevice x _ _,
        returns_withDevice x _ _ _])
  | hostReadDeviceId =>
    simp only [exec, execHostReadDeviceId]
    exact gated_withDevice x (by simp only [readDeviceId_withDevice x s, returns_withDevice x _ _ _])
  | hostCheckDeviceId =>
    simp only [exec, execHostCheckDeviceId]
    exact gated_withDevice x (by
      simp only [readDeviceId_withDevice x s, withDevice_params, returns_withDevice x _ _ _])
  | hostReadCid =>
    simp only [exec, execHostReadCid]
    exact gated_withDevice x (by simp only [readCid_withDevice x s, returns_withDevice x _ _ _])
  | hostReadUid =>
    simp only [exec, execHostReadUid]
    exact gated_withDevice x (by
      simp only [readUid, withDevice_ident, readIndexed_withDevice x _ _ _, returns_withDevice x _ _ _])
  | hostReadUcid =>
    simp only [exec, execHostReadUcid]
    exact gated_withDevice x (by
      simp only [readUcid, withDevice_ident, withDevice_params, readIndexed_withDevice x _ _ _,
        returns_withDevice x _ _ _])
  | hostReadFlash a n =>
    simp only [exec, execHostReadFlash]
    exact gated_withDevice x (unlessEmpty_withDevice x (fun s => by
      simp only [readFlash_withDevice x a n s, returns_withDevice x _ _ _]) s)
  | hostReadConfig =>
    simp only [exec, execHostReadConfig]
    exact gated_withDevice x (by simp only [readFlash_withDevice x cfgParam 5 s, returns_withDevice x _ _ _])
  | hostWriteFlash a n data =>
    simp only [exec, execHostWriteFlash]
    exact gated_withDevice x (unlessEmpty_withDevice x (fun s => by
      simp only [writeFlash_withDevice x a _ s, returns_withDevice x _ _ _]) s)
  | hostMassErase =>
    simp only [exec, execHostMassErase]
    exact gated_withDevice x (by simp only [massErase_withDevice x s, returns_withDevice x _ _ _])
  | hostPageErase a =>
    simp only [exec, execHostPageErase]
    exact gated_withDevice x (by simp only [pageEraseHost_withDevice x a s, returns_withDevice x _ _ _])
  | hostVerifyFlash a n data =>
    simp only [exec, execHostVerifyFlash]
    exact gated_withDevice x (unlessEmpty_withDevice x (fun s => by
      simp only [returnPair, verifyFlash_withDevice x a n data s, returns_withDevice x _ _ _]) s)
  | hostWriteConfig c lock => exact gated_withDevice x (writeConfig_withDevice x c lock s)
  | hostProgramRegion a n data =>
    simp only [exec, execHostProgramRegion]
    exact gated_withDevice x (unlessEmpty_withDevice x (fun s => by
      simp only [returnPair, eraseRegion, pageErases_withDevice x _ _ _, writeFlash_withDevice x _ _ _,
        verifyFlash_withDevice x _ _ _ _, returns_withDevice x _ _ _]) s)
  | configDecode b => rfl
  | configEncode f => rfl
  | _ => cases hd

/-! #### Inputs -/

theorem callStep_withDevice (c : Code) : StepCommutes (withDevice x) (callStep c) := fun s => by
  simp only [callStep, withDevice_params]
  cases hc : decodeCall s.params c with
  | ok i => exact exec_withDevice x (decodeCall_not_ofD hc) s
  | reject e => cases e <;> exact gated_withDevice x rfl

/-- An input of machine H (R2). -/
theorem eventStep_withDevice {e : Event} (he : e.ofH = true) : StepCommutes (withDevice x) (eventStep e) := by
  cases e with
  | call c => exact callStep_withDevice x c
  | resetH | setTiming r v | pinGrant ok => exact fun _ => rfl
  | _ => cases he

end

/-- Every step of machine H (R2). -/
theorem step_withDevice (x : DeviceSide) {s : State} (h : s.sched.head?.any Event.ofH = true) :
    step (withDevice x s) = mapNext (withDevice x) (step s) := by
  simp only [step, withDevice_sched]
  cases hs : s.sched with
  | nil =>
    rw [hs] at h
    cases h
  | cons e rest =>
    rw [hs] at h
    exact eventStep_withDevice x h { s with sched := rest }

/-- Settles O57: the replacement of the one machine's part commutes with the other machine's step. -/
theorem theMachinesDoNotInterfere : Obligations.TheMachinesDoNotInterfere := by
  refine ⟨fun s t h kind tg m ok n hd hstep => ?_, fun s t d m worn hh hstep => ?_⟩
  · have hcommute := step_withHost ⟨h, kind, tg, m, ok, n⟩ hd
    rwa [hstep] at hcommute
  · have hcommute := step_withDevice ⟨d, m, worn⟩ hh
    rwa [hstep] at hcommute

end Sys2Proof.Machine
end
